-- ==== Sys2Proof/Word.lean ====
section
/-! DEFINITION. The widths the spec fixes (00_scope.md R9 to R11): a register word, a byte, a bit string. -/

namespace Sys2Proof

/-- A 32-bit register value (R9, R10). -/
abbrev Word := BitVec 32

/-- A byte, which is also a symbol (R9). -/
abbrev Byte := BitVec 8

/-- A bit string (R11): a sequence of bits, the first one written or read first. -/
abbrev BitStr := List Bool

end Sys2Proof
end

