-- ==== Sys2Proof/Config.lean ====
section
/-! DEFINITION. The implementation parameters of 00_scope.md R7, which the spec leaves open (92_eei_decisions.md D5, D11).
BUS_MAP (20_memory.md R81) has no field: no behaviour depends on it. -/

namespace Sys2Proof

/-- `NUL_FIELD_POLICY` (43_huffman_container.md R241): what an encoder does with a header field that is not NUL-safe. -/
inductive NulPolicy where
  /-- raise UnencodableHeader (the spec's default) -/
  | refuse
  /-- write the field as it is -/
  | emit
  deriving DecidableEq, Repr

/-- The parameters of R7. They are the model's arguments, not state of the block (70_reset_and_hazards.md R340): the
field `State.params` carries them and no step changes them. Their constraints are `Params.wf` (WellFormed.lean). -/
structure Params where
  /-- capacity of IN in bytes -/
  inMax : Nat
  /-- capacity of OUT in bytes -/
  outMax : Nat
  /-- capacity of FNAME in bytes -/
  fnameMax : Nat
  /-- number of DICT entries, indices 1..dictMax -/
  dictMax : Nat
  /-- number of tokens TOK holds -/
  tokMax : Nat
  /-- `NUL_FIELD_POLICY` -/
  nulPolicy : NulPolicy
  deriving DecidableEq, Repr

/-- DESIGN CHOICE (log 1): the example values of 92_eei_decisions.md "Open parameters" and 95_test_vectors.md, which
`State.reset` starts with. They are examples, not the block's: no statement rests on them. -/
def Config.exampleParams : Params where
  inMax := 2 ^ 20
  outMax := 2 ^ 22
  fnameMax := 255
  dictMax := 2 ^ 22
  tokMax := 2 ^ 20
  nulPolicy := .refuse

end Sys2Proof
end

