-- ==== Sys2Proof/Syntax.lean ====
section
/-! DEFINITION. The 14 commands of the opcode map (30_encoding.md R111). A command has no operand fields in its word
(R112), so no constructor has an argument. -/

namespace Sys2Proof

/-- One command of the HLZ codec core; each constructor is one row of the opcode map (R111). -/
inductive Instr where
  /-- NOP, 0x00 (R165) -/
  | nop
  /-- BP_RESET, 0x01 (R211) -/
  | bpReset
  /-- BP_PUT, 0x02 (R212) -/
  | bpPut
  /-- BP_FLUSH, 0x03 (R213) -/
  | bpFlush
  /-- BR_GETBIT, 0x04 (R220) -/
  | brGetbit
  /-- BR_GETBITS, 0x05 (R221) -/
  | brGetbits
  /-- HUF_STATS, 0x10 (R181) -/
  | hufStats
  /-- HUF_BUILD, 0x11 (R183) -/
  | hufBuild
  /-- HUF_CODES, 0x12 (R190) -/
  | hufCodes
  /-- HUF_ENCODE, 0x13 (R240) -/
  | hufEncode
  /-- HUF_DECODE, 0x14 (R249) -/
  | hufDecode
  /-- LZ_SEGMENT, 0x20 (R271) -/
  | lzSegment
  /-- LZ_ENCODE, 0x21 (R276) -/
  | lzEncode
  /-- LZ_DECODE, 0x22 (R281) -/
  | lzDecode
  deriving DecidableEq, Repr

end Sys2Proof
end

