-- ==== Sys2Proof/WellFormed.lean ====
section
/-! DEFINITION. What makes a command word legal (30_encoding.md R110, R111, R113, R114) and what constrains the
parameters (00_scope.md R7). A command has no operand fields (R112), so a command itself is always well formed. -/

namespace Sys2Proof

/-- The OPC field, bits [7:0] (R110). -/
def CmdWord.opc (w : Word) : Byte := w.extractLsb' 0 8

/-- The reserved field, bits [31:8] (R110). -/
def CmdWord.rsvd (w : Word) : BitVec 24 := w.extractLsb' 8 24

/-- The reserved field is 0 (R114). -/
def CmdWord.rsvdOk (w : Word) : Bool := CmdWord.rsvd w == 0

/-- The OPC column of the opcode map (R111). -/
def CmdWord.opcodes : List Byte :=
  [0x00, 0x01, 0x02, 0x03, 0x04, 0x05, 0x10, 0x11, 0x12, 0x13, 0x14, 0x20, 0x21, 0x22]

/-- The opcode is one of the opcode map (R111, R113). -/
def CmdWord.opcOk (w : Word) : Bool := CmdWord.opcodes.contains (CmdWord.opc w)

/-- A legal command word: neither illegal by R113 nor by R114. -/
def CmdWord.wf (w : Word) : Bool := CmdWord.rsvdOk w && CmdWord.opcOk w

/-- A command carries no operand (R112): there is nothing in it that could be ill formed. -/
def Instr.wf (_ : Instr) : Bool := true

/-- 1 ≤ IN_MAX ≤ 2^32 − 1 (R7). -/
def Params.inMaxOk (P : Params) : Bool := 1 ≤ P.inMax && P.inMax ≤ 2 ^ 32 - 1

/-- 1 ≤ OUT_MAX ≤ 2^32 − 1 (R7). -/
def Params.outMaxOk (P : Params) : Bool := 1 ≤ P.outMax && P.outMax ≤ 2 ^ 32 - 1

/-- 0 ≤ FNAME_MAX ≤ 2^32 − 1 (R7). -/
def Params.fnameMaxOk (P : Params) : Bool := P.fnameMax ≤ 2 ^ 32 - 1

/-- DICT_MAX ≥ max(IN_MAX, OUT_MAX) (R7). -/
def Params.dictMaxOk (P : Params) : Bool := max P.inMax P.outMax ≤ P.dictMax

/-- TOK_MAX ≥ IN_MAX (R7). -/
def Params.tokMaxOk (P : Params) : Bool := P.inMax ≤ P.tokMax

/-- The constraints of R7 on the parameters, all of them. -/
def Params.wf (P : Params) : Bool :=
  P.inMaxOk && P.outMaxOk && P.fnameMaxOk && P.dictMaxOk && P.tokMaxOk

end Sys2Proof
end

