-- ==== Sys2Proof/Decode.lean ====
section
/-! DEFINITION. The command decoder and encoder (30_encoding.md R110 to R114). A command is one 32-bit word, written
whole to CMD: it has no bytes in memory and so no byte order (log 16). -/

namespace Sys2Proof

/-- Why a word is no command: both complete with UnknownOperation (R113, R114). -/
inductive DecodeError where
  /-- bits [31:8] are not 0 (R114) -/
  | reservedBits
  /-- the OPC value is not in the opcode map (R113) -/
  | illegalOpcode
  deriving DecidableEq, Repr

/-- The opcode map read from opcode to command (R111). -/
def opcodeInstr (opc : Nat) : Option Instr :=
  match opc with
  | 0x00 => some .nop
  | 0x01 => some .bpReset
  | 0x02 => some .bpPut
  | 0x03 => some .bpFlush
  | 0x04 => some .brGetbit
  | 0x05 => some .brGetbits
  | 0x10 => some .hufStats
  | 0x11 => some .hufBuild
  | 0x12 => some .hufCodes
  | 0x13 => some .hufEncode
  | 0x14 => some .hufDecode
  | 0x20 => some .lzSegment
  | 0x21 => some .lzEncode
  | 0x22 => some .lzDecode
  | _ => none

/-- The OPC field, bits [7:0] (R110). -/
def opcField (w : Word) : Byte := w.extractLsb' 0 8

/-- The RSVD field, bits [31:8] (R110). -/
def rsvdField (w : Word) : BitVec 24 := w.extractLsb' 8 24

/-- The command a word selects: `word[7:0] = OPC` and `word[31:8] = 0` (R111), or why it selects none (R113, R114). -/
def decode (w : Word) : Except DecodeError Instr :=
  if rsvdField w = 0 then
    match opcodeInstr (opcField w).toNat with
    | some i => .ok i
    | none => .error .illegalOpcode
  else .error .reservedBits

/-- The opcode of a command (R111). -/
def Instr.opcode : Instr → Byte
  | .nop => 0x00
  | .bpReset => 0x01
  | .bpPut => 0x02
  | .bpFlush => 0x03
  | .brGetbit => 0x04
  | .brGetbits => 0x05
  | .hufStats => 0x10
  | .hufBuild => 0x11
  | .hufCodes => 0x12
  | .hufEncode => 0x13
  | .hufDecode => 0x14
  | .lzSegment => 0x20
  | .lzEncode => 0x21
  | .lzDecode => 0x22

/-- The command word of a command: OPC in bits [7:0], zeros above (R110, R111). -/
def encode (i : Instr) : Word := (0 : BitVec 24) ++ i.opcode

/-- The word the opcode table's numbering gives: `nbits` bits of `w`, zeros above them. -/
def tableWord (nbits w : Nat) : Word := BitVec.ofNat 32 (w % 2 ^ nbits)

/-- The command the decoder reads from a word of the opcode table; nothing where it refuses. -/
def decodeTableWord (nbits w : Nat) : Option Instr :=
  match decode (tableWord nbits w) with
  | .ok i => some i
  | .error _ => none

end Sys2Proof
end

