-- ==== Sys2Proof/Machine/State.lean ====
section
/-! DEFINITION. The architectural state of the block (10_state.md R30 to R70), what ends a step without a next state,
and the state after reset (70_reset_and_hazards.md R340). -/

namespace Sys2Proof.Machine

/-- The errors the block reports in STATUS.ERR_CODE (60_exceptions.md R310). Their codes: `ErrCode.code` (Flags.lean). -/
inductive ErrCode where
  /-- 1, reserved for host software, never raised by the block (R311) -/
  | inputNotFound
  /-- 2, IN_LEN = 0 where the original data is read -/
  | emptyInput
  /-- 3, reserved for host software, never raised by the block (R311) -/
  | unsupportedContainerFormat
  /-- 4, malformed or exhausted input -/
  | corruptHeader
  /-- 5, an illegal command word -/
  | unknownOperation
  /-- 6, a header field that is not NUL-safe under REFUSE -/
  | unencodableHeader
  /-- 7, a result that does not fit in OUT or FNAME -/
  | capacityExceeded
  /-- 8, an operand register out of range -/
  | invalidArgument
  /-- 9, a command's input memory is not valid -/
  | invalidState
  deriving DecidableEq, Repr

/-- The registers of R31, by name. -/
inductive Reg where
  | cmd | status | arg0 | arg1 | result | inLen | fnameLen | outLen | fileSize
  | root | dictSize | indexWidth | tokenCount | bpAcc | bpNbits | brByte | brBit | payloadOff
  deriving DecidableEq, Repr

/-- The byte memories (20_memory.md R80): IN, OUT, FNAME. -/
inductive ByteSpace where
  | input | output | fname
  deriving DecidableEq, Repr

/-- The memories the host sees as 32-bit words (20_memory.md R80): FREQ, NODE, CODE, DICT, TOK. -/
inductive WordSpace where
  | freq | node | code | dict | tok
  deriving DecidableEq, Repr

/-- One host access (20_memory.md R80, R82): one whole register, one byte of a byte memory, or one 32-bit word of
another memory, named by its index. Any index may be named: `20_memory.md` R83 says what happens past the end. -/
inductive Access where
  | readReg (i : Nat)
  | writeReg (i : Nat) (v : Word)
  | readByte (sp : ByteSpace) (i : Nat)
  | writeByte (sp : ByteSpace) (i : Nat) (b : Byte)
  | readWord (sp : WordSpace) (i : Nat)
  | writeWord (sp : WordSpace) (i : Nat) (w : Word)
  deriving DecidableEq, Repr

/-- What happens next outside a running command (log 2). -/
inductive Event where
  /-- the host makes one access -/
  | host (a : Access)
  /-- the host's WAIT (30_encoding.md R115): poll STATUS until BUSY = 0 -/
  | wait
  /-- the engine's turn (40_command.md R161); nothing happens when no command is pending -/
  | engineTurn
  /-- the platform's reset (70_reset_and_hazards.md R340) -/
  | reset
  deriving DecidableEq, Repr

/-- STATUS (R35). It is read-only to the host and its reserved bits are stuck at 0, so it is kept as its fields;
`Status.word` (Flags.lean) is the register the host reads. -/
structure Status where
  busy : Bool
  done : Bool
  err : Bool
  errCode : BitVec 4
  freqValid : Bool
  treeValid : Bool
  codesValid : Bool
  tokensValid : Bool
  dictValid : Bool
  deriving DecidableEq, Repr

/-- A record of NODE (R59). -/
structure Node where
  weight : Word
  leaf : Bool
  sym : Byte
  left : BitVec 9
  right : BitVec 9
  deriving DecidableEq, Repr

/-- A record of DICT (R61) or TOK (R62): the prefix index and the literal byte. -/
structure Entry where
  pfx : Word
  byte : Byte
  deriving DecidableEq, Repr

/-- The machine. Registers that a stage error can leave UNSPECIFIED (60_exceptions.md R313) are `none` while they are so
(log 5); a memory lists exactly its elements that are not UNSPECIFIED, by strictly rising index (log 6). A record of
CODE (R60) is its bit string: `len` is the string's length. The last three fields are the model's own. -/
structure State where
  cmd : Word
  status : Status
  arg0 : Word
  arg1 : Word
  result : Word
  inLen : Word
  fnameLen : Option Word
  outLen : Option Word
  fileSize : Option Word
  root : BitVec 9
  dictSize : Option Word
  indexWidth : Option (BitVec 6)
  tokenCount : Word
  bpAcc : Option (BitVec 7)
  bpNbits : Option (BitVec 3)
  brByte : Option Word
  brBit : Option (BitVec 3)
  payloadOff : Option Word
  inMem : List Host.Cell
  outMem : List Host.Cell
  fnameMem : List Host.Cell
  freqMem : List (Nat × Word)
  nodeMem : List (Nat × Node)
  codeMem : List (Nat × BitStr)
  dictMem : List (Nat × Entry)
  tokMem : List (Nat × Entry)
  params : Params
  events : List Event
  observed : List Word
  deriving DecidableEq, Repr

/-- What marks the run faulted (60_exceptions.md R323): the spec gives these points no value. All are safe: the model
stops where a real block would go on with some value. -/
inductive Fault where
  /-- a host read or a command read a register a stage error left UNSPECIFIED (R313, R323) -/
  | unspecifiedReg (r : Reg)
  /-- a host read or a command read an UNSPECIFIED byte of IN, OUT or FNAME, or a host read one of IN at or beyond IN_LEN
  or of OUT at or beyond OUT_LEN (R70, R323, 93_implementation_defined.md U5) -/
  | unspecifiedByte (sp : ByteSpace) (i : Nat)
  /-- a host read or a command read an UNSPECIFIED record of FREQ, NODE, CODE, DICT or TOK (R40, R323) -/
  | unspecifiedRecord (sp : WordSpace) (i : Nat)
  /-- a host read other than of STATUS while BUSY = 1 (R350, R323) -/
  | hostReadWhileBusy
  /-- HUF_CODES met a path of more than 255 edges in NODE, which R194 says no tree of HUF_BUILD has; no run reaches it
  (log 13) -/
  | malformedTree
  deriving DecidableEq, Repr

/-- Why an instruction has no meaning. No meaning of this model refuses. -/
inductive Refusal where
  /-- raised by an arm of `exec` whose instruction has no meaning yet (safe); no arm does so now -/
  | notModelled (mnemonic : String)
  deriving DecidableEq, Repr

/-- STATUS after reset (R340): every field 0. -/
def Status.reset : Status where
  busy := false
  done := false
  err := false
  errCode := 0
  freqValid := false
  treeValid := false
  codesValid := false
  tokensValid := false
  dictValid := false

/-- The block after reset with the parameters `P` (R70, R340): every register 0, every memory element UNSPECIFIED, no
event to come and nothing observed. -/
def State.resetWith (P : Params) : State where
  cmd := 0
  status := Status.reset
  arg0 := 0
  arg1 := 0
  result := 0
  inLen := 0
  fnameLen := some 0
  outLen := some 0
  fileSize := some 0
  root := 0
  dictSize := some 0
  indexWidth := some 0
  tokenCount := 0
  bpAcc := some 0
  bpNbits := some 0
  brByte := some 0
  brBit := some 0
  payloadOff := some 0
  inMem := []
  outMem := []
  fnameMem := []
  freqMem := []
  nodeMem := []
  codeMem := []
  dictMem := []
  tokMem := []
  params := P
  events := []
  observed := []

/-- The machine right after reset (R340), with the example parameters (DESIGN CHOICE, log 1). -/
def State.reset : State := State.resetWith Config.exampleParams

end Sys2Proof.Machine
end

