-- ==== Sys2Proof/Machine/Ops.lean ====
section
/-! DEFINITION. Named operations over memories and registers, the way a command's rule ends, and what a stage error
leaves UNSPECIFIED (60_exceptions.md R313). -/

namespace Sys2Proof.Machine

/-! ## Memories -/

/-- A memory space: its elements that are not UNSPECIFIED, by strictly rising index (log 6). -/
abbrev Memory (α : Type) := List (Nat × α)

/-- The canonical form of a memory: indices strictly rising. Unlisted elements have no value, so no entry repeats one. -/
abbrev Memory.wf {α : Type} (m : Memory α) : Prop := m.Pairwise (fun x y => x.1 < y.1)

/-- `MemRead` (R13): the element at an index, or nothing where it is UNSPECIFIED. -/
def Memory.read {α : Type} : Memory α → Nat → Option α
  | [], _ => none
  | (b, w) :: m, a => if a = b then some w else Memory.read m a

/-- `MemWrite` (R13), keeping the canonical form. -/
def Memory.write {α : Type} : Memory α → Nat → α → Memory α
  | [], a, v => [(a, v)]
  | (b, w) :: m, a, v =>
    if a < b then (a, v) :: (b, w) :: m
    else if a = b then (a, v) :: m
    else (b, w) :: Memory.write m a v

/-- Writes to the consecutive elements from `a` on. -/
def Memory.writeList {α : Type} (m : Memory α) (a : Nat) : List α → Memory α
  | [] => m
  | v :: vs => Memory.write (Memory.writeList m (a + 1) vs) a v

/-! ## How a command's rule ends -/

/-- What ends a computation inside a command: `raise Error(e)` (R13), or a read of UNSPECIFIED state (R323). -/
inductive Stop where
  | raise (e : ErrCode)
  | fault (f : Fault)
  deriving DecidableEq, Repr

/-- What `perform` of a command's rule gives (40_command.md R161): the state on success, the first error raised with the
state the command leaves, or a model fault. -/
inductive Perf where
  | done (s : State)
  | raised (e : ErrCode) (s : State)
  | faulted (f : Fault)

/-- A command whose computation stopped, leaving the state `s` if it raised an error. -/
def stopAt (s : State) : Stop → Perf
  | .raise e => .raised e s
  | .fault f => .faulted f

/-- The value of a register, or the fault of reading it while UNSPECIFIED (R323). -/
def needReg {α : Type} (r : Reg) : Option α → Except Fault α
  | some v => .ok v
  | none => .error (.unspecifiedReg r)

/-- The elements `a`, `a+1`, … `a+n−1` of a memory, read in order; `f i` is the fault of reading element i. -/
def readRange {α : Type} (f : Nat → Fault) (m : Memory α) (a : Nat) : Nat → Except Stop (List α)
  | 0 => .ok []
  | n + 1 =>
    match Memory.read m a with
    | none => .error (.fault (f a))
    | some v =>
      match readRange f m (a + 1) n with
      | .error e => .error e
      | .ok vs => .ok (v :: vs)

/-! ## What a stage error leaves UNSPECIFIED (R313) -/

/-- The packer's part of a composite command's write set: OUT, OUT_LEN, BP_ACC, BP_NBITS. -/
def State.unspecifyPacker (s : State) : State :=
  { s with outMem := [], outLen := none, bpAcc := none, bpNbits := none }

/-- After a stage error of HUF_ENCODE or LZ_ENCODE: the packer's part and FILE_SIZE (30_encoding.md R112, R313). The
elements the flags cover keep the values of their completed stages (R247, R279). -/
def State.unspecifyEncode (s : State) : State :=
  { s.unspecifyPacker with fileSize := none }

/-- After a stage error of HUF_DECODE or LZ_DECODE: every element of the write set that no flag covers (R112, R313). -/
def State.unspecifyDecode (s : State) : State :=
  { s.unspecifyPacker with
    fnameMem := [], fnameLen := none, fileSize := none, payloadOff := none, brByte := none, brBit := none }

/-- After an error in the REPLAY stage of LZ_DECODE, the elements DICT_VALID covers: the flag is 0 and DICT is
UNSPECIFIED; INDEX_WIDTH, which the stage has written, is UNSPECIFIED; DICT_SIZE is UNSPECIFIED unless it still holds
its reset value, no stage having written it (10_state.md R40, 90_conflicts.md C9; log 10). -/
def State.unspecifyReplay (s : State) : State :=
  { s.unspecifyDecode with
    status := { s.status with dictValid := false }
    dictMem := []
    indexWidth := none
    dictSize := if s.status.dictValid then none else s.dictSize }

end Sys2Proof.Machine
end

