-- ==== Sys2Proof/Machine/Flags.lean ====
section
/-! DEFINITION. STATUS: the register the host reads (10_state.md R35), what the issue and the completion of a command
write to it (40_command.md R160, R162), and the error codes (60_exceptions.md R310). Completion with an error is this
block's whole exception mechanism (R312, R315). -/

namespace Sys2Proof.Machine

/-- The numeric error codes (R310). -/
def ErrCode.code : ErrCode → BitVec 4
  | .inputNotFound => 1
  | .emptyInput => 2
  | .unsupportedContainerFormat => 3
  | .corruptHeader => 4
  | .unknownOperation => 5
  | .unencodableHeader => 6
  | .capacityExceeded => 7
  | .invalidArgument => 8
  | .invalidState => 9

/-- The code a completion stores: 0 for success (R162). -/
def completionCode : Option ErrCode → BitVec 4
  | none => 0
  | some e => e.code

/-- STATUS as the host reads it: the fields at the positions of R35, zeros in bit 3 and bits [31:13]. -/
def Status.word (st : Status) : Word :=
  (0 : BitVec 19) ++ BitVec.ofBool st.dictValid ++ BitVec.ofBool st.tokensValid ++ BitVec.ofBool st.codesValid ++
    BitVec.ofBool st.treeValid ++ BitVec.ofBool st.freqValid ++ st.errCode ++ (0 : BitVec 1) ++
    BitVec.ofBool st.err ++ BitVec.ofBool st.done ++ BitVec.ofBool st.busy

/-- STATUS at the completion with code `e` (R162). -/
def Status.complete (st : Status) (e : Option ErrCode) : Status :=
  { st with busy := false, done := true, err := completionCode e != 0, errCode := completionCode e }

/-- STATUS at an issue (R160): the validity flags are not changed. -/
def Status.issue (st : Status) : Status :=
  { st with busy := true, done := false, err := false, errCode := 0 }

/-- Completion of a command (R162). -/
def State.complete (s : State) (e : Option ErrCode) : State :=
  { s with status := s.status.complete e }

/-- Issue of the command word `v` (R160). -/
def State.issue (s : State) (v : Word) : State :=
  { s with cmd := v, status := s.status.issue }

/-- The end of a command (R161, R162): completion with its code, or the run is faulted (R323). -/
def finish : Perf → Host.Outcome State Fault Refusal
  | .done s => .next (s.complete none)
  | .raised e s => .next (s.complete (some e))
  | .faulted f => .fault f

end Sys2Proof.Machine
end

