-- ==== Sys2Proof/Machine/Operands.lean ====
section
/-! DEFINITION. What commands compute with and read: bit strings and integers (00_scope.md R11, R12, 30_encoding.md
R120 to R125), the bytes of IN and FNAME, the bit cursor (42_bitio.md R216, R217), and the argument checks
(60_exceptions.md R320). -/

namespace Sys2Proof.Machine

/-! ## Bit strings and integers -/

/-- `bits_MSB(v, n)` (R11): the low n bits of v, most significant first. -/
def bitsMSB (v : Nat) : Nat → BitStr
  | 0 => []
  | n + 1 => v.testBit n :: bitsMSB v n

/-- `val(b)` (R11): the number a bit string stands for, `val([]) = 0`. -/
def bitsVal (b : BitStr) : Nat := b.foldl (fun v x => 2 * v + x.toNat) 0

/-- `zeros(n)` (43_huffman_container.md R239). -/
def zeros (n : Nat) : BitStr := List.replicate n false

/-- `bytes_bits` (42_bitio.md R210): the bits of the bytes, most significant first. -/
def bytesBits (bs : List Byte) : BitStr := bs.flatMap (fun b => bitsMSB b.toNat 8)

/-- `ceil(a/8)` (R12). -/
def ceilDiv8 (a : Nat) : Nat := (a + 7) / 8

/-- `ceil_log2(d)` (R12): the least w with 2^w ≥ d. -/
def ceilLog2 (d : Nat) : Nat := if d ≤ 1 then 0 else Nat.log2 (d - 1) + 1

/-- The big-endian bytes of `v` with no leading zero byte, at most `n` of them. -/
def beDigits : Nat → Nat → List Byte
  | 0, _ => []
  | n + 1, v => if v = 0 then [] else beDigits n (v / 256) ++ [BitVec.ofNat 8 v]

/-- `be_min(v)` (R123, R124): the minimal big-endian byte string of v, empty for 0. Every header integer is below 2^32
(R243, R277), so four bytes are enough. -/
def beMin (v : Nat) : List Byte := beDigits 4 v

/-- `be_val(bs)` (R12): the number a byte string stands for, most significant byte first, `be_val([]) = 0`. -/
def beVal (bs : List Byte) : Nat := bs.foldl (fun v b => 256 * v + b.toNat) 0

/-! ## Bytes of IN and FNAME -/

/-- `MemRead(IN, i)` by the engine. -/
def inByte (s : State) (i : Nat) : Except Stop Byte :=
  match Memory.read s.inMem i with
  | some b => .ok b
  | none => .error (.fault (.unspecifiedByte .input i))

/-- `IN[i..i+n)`. -/
def inBytes (s : State) (i n : Nat) : Except Stop (List Byte) :=
  readRange (.unspecifiedByte .input) s.inMem i n

/-- `FNAME[0..n)`. -/
def fnameBytes (s : State) (n : Nat) : Except Stop (List Byte) :=
  readRange (.unspecifiedByte .fname) s.fnameMem 0 n

/-- Whether `0 ∈ FNAME[a..a+n)`, looking at the elements in index order (log 12). -/
def fnameHasZero (s : State) (a : Nat) : Nat → Except Stop Bool
  | 0 => .ok false
  | n + 1 =>
    match Memory.read s.fnameMem a with
    | none => .error (.fault (.unspecifiedByte .fname a))
    | some b => if b = 0 then .ok true else fnameHasZero s (a + 1) n

/-! ## The bit cursor -/

/-- `pos = 8·BR_BYTE + BR_BIT`, without overflow (R216). -/
def cursorPos (s : State) : Except Fault Nat :=
  match needReg .brByte s.brByte with
  | .error f => .error f
  | .ok b =>
    match needReg .brBit s.brBit with
    | .error f => .error f
    | .ok k => .ok (8 * b.toNat + k.toNat)

/-- The cursor stored back at bit position `pos` (R216). -/
def State.setCursor (s : State) (pos : Nat) : State :=
  { s with brByte := some (BitVec.ofNat 32 (pos / 8)), brBit := some (BitVec.ofNat 3 (pos % 8)) }

/-- Bit `pos` of the stream over IN: bit 7 − (pos mod 8) of IN[floor(pos/8)] (20_memory.md R86). -/
def inBit (s : State) (pos : Nat) : Except Stop Bool :=
  match inByte s (pos / 8) with
  | .error e => .error e
  | .ok b => .ok (b.toNat.testBit (7 - pos % 8))

/-- The n bits of IN from position `pos` on. -/
def inBits (s : State) (pos : Nat) : Nat → Except Stop BitStr
  | 0 => .ok []
  | n + 1 =>
    match inBit s pos with
    | .error e => .error e
    | .ok b =>
      match inBits s (pos + 1) n with
      | .error e => .error e
      | .ok bs => .ok (b :: bs)

/-- `rem = max(0, 8·IN_LEN − pos)` (R216). -/
def bitsLeft (s : State) (pos : Nat) : Nat := 8 * s.inLen.toNat - pos

/-- `read_bits(n)` at position `pos` (R221, R239): the n bits as a number; CorruptHeader when fewer remain. -/
def readBits (s : State) (pos n : Nat) : Except Stop Nat :=
  if bitsLeft s pos < n then .error (.raise .corruptHeader)
  else
    match inBits s pos n with
    | .error e => .error e
    | .ok bs => .ok (bitsVal bs)

/-! ## Argument checks (R320 to R322) -/

/-- IN_LEN > IN_MAX: InvalidArgument. -/
def checkInMax (s : State) : Except Stop Unit :=
  if s.params.inMax < s.inLen.toNat then .error (.raise .invalidArgument) else .ok ()

/-- IN_LEN = 0: EmptyInput; then IN_LEN > IN_MAX: InvalidArgument (41_huffman_tree.md R180). -/
def checkData (s : State) : Except Stop Unit :=
  if s.inLen = 0 then .error (.raise .emptyInput) else checkInMax s

/-- Under REFUSE, the header fields that are not NUL-safe: the filename, then the size (43_huffman_container.md R241). -/
def checkNulSafe (s : State) (fnameLen : Nat) : Except Stop Unit :=
  match s.params.nulPolicy with
  | .emit => .ok ()
  | .refuse =>
    match fnameHasZero s 0 fnameLen with
    | .error e => .error e
    | .ok true => .error (.raise .unencodableHeader)
    | .ok false => if 0 ∈ beMin s.inLen.toNat then .error (.raise .unencodableHeader) else .ok ()

/-- The argument checks of the encoders in the order of R241; the value is FNAME_LEN. -/
def checkEncode (s : State) : Except Stop Nat :=
  match checkData s with
  | .error e => .error e
  | .ok () =>
    match needReg .fnameLen s.fnameLen with
    | .error f => .error (.fault f)
    | .ok n =>
      if s.params.fnameMax < n.toNat then .error (.raise .invalidArgument)
      else
        match checkNulSafe s n.toNat with
        | .error e => .error e
        | .ok () => .ok n.toNat

end Sys2Proof.Machine
end

