-- ==== Sys2Proof/Machine/Packer.lean ====
section
/-! DEFINITION. The BitPacker (42_bitio.md R210 to R213) and the emit helpers of the container commands
(43_huffman_container.md R239). -/

namespace Sys2Proof.Machine

/-- The packer while a command runs: (OUT_LEN, BP_ACC, BP_NBITS) and OUT (R210). -/
structure Packer where
  outLen : Nat
  acc : Nat
  nbits : Nat
  out : Memory Byte
  deriving DecidableEq, Repr

/-- The packer state the registers hold. -/
def State.packer (s : State) : Except Fault Packer :=
  match needReg .bpNbits s.bpNbits with
  | .error f => .error f
  | .ok nb =>
    match needReg .bpAcc s.bpAcc with
    | .error f => .error f
    | .ok acc =>
      match needReg .outLen s.outLen with
      | .error f => .error f
      | .ok len => .ok (Packer.mk len.toNat acc.toNat nb.toNat s.outMem)

/-- The packer state stored back in the registers and OUT. -/
def State.setPacker (s : State) (p : Packer) : State :=
  { s with
    outLen := some (BitVec.ofNat 32 p.outLen)
    bpAcc := some (BitVec.ofNat 7 p.acc)
    bpNbits := some (BitVec.ofNat 3 p.nbits)
    outMem := p.out }

/-- BP_RESET's packer: no bytes, no bits; OUT keeps its contents (R211). -/
def Packer.empty (out : Memory Byte) : Packer := Packer.mk 0 0 0 out

/-- Whether the bytes that n more bits complete fit in OUT (R212). -/
def Packer.fits (outMax : Nat) (p : Packer) (n : Nat) : Bool := p.outLen + (p.nbits + n) / 8 ≤ outMax

/-- One bit appended (the loop body of R212): the eighth completes a byte. -/
def Packer.push (p : Packer) (b : Bool) : Packer :=
  if p.nbits = 7 then
    Packer.mk (p.outLen + 1) 0 0 (Memory.write p.out p.outLen (BitVec.ofNat 8 (2 * p.acc + b.toNat)))
  else Packer.mk p.outLen (2 * p.acc + b.toNat) (p.nbits + 1) p.out

/-- Bits appended with no capacity check: BP_PUT checks once before its loop (R212). -/
def Packer.pushAll : Packer → BitStr → Packer
  | p, [] => p
  | p, b :: bs => Packer.pushAll (p.push b) bs

/-- `emit_bits` (R239): 1-bit fields one after another, each with its own capacity check. -/
def Packer.emit (outMax : Nat) : Packer → BitStr → Except ErrCode Packer
  | p, [] => .ok p
  | p, b :: bs =>
    if p.fits outMax 1 then Packer.emit outMax (p.push b) bs else .error .capacityExceeded

/-- The body of BP_FLUSH (R213): the partial byte, zero-padded on the right. -/
def Packer.flush (outMax : Nat) (p : Packer) : Except ErrCode Packer :=
  if p.nbits = 0 then .ok p
  else if outMax < p.outLen + 1 then .error .capacityExceeded
  else .ok (Packer.mk (p.outLen + 1) 0 0
    (Memory.write p.out p.outLen (BitVec.ofNat 8 (p.acc * 2 ^ (8 - p.nbits)))))

/-- The WRITE stage of an encoder whose bit stream is `bits`: BP_RESET, the bits, BP_FLUSH (R240, R276). -/
def writeContainer (s : State) (bits : BitStr) : Perf :=
  match (Packer.empty s.outMem).emit s.params.outMax bits with
  | .error e => .raised e s.unspecifyEncode
  | .ok p =>
    match p.flush s.params.outMax with
    | .error e => .raised e s.unspecifyEncode
    | .ok q => .done (s.setPacker q)

end Sys2Proof.Machine
end

