-- ==== Sys2Proof/Machine/BitIO.lean ====
section
/-! DEFINITION. BP_RESET, BP_PUT, BP_FLUSH, BR_GETBIT, BR_GETBITS (42_bitio.md R211 to R221). -/

namespace Sys2Proof.Machine

/-- BP_RESET (R211). -/
def bpReset (s : State) : Perf := .done (s.setPacker (Packer.empty s.outMem))

/-- BP_PUT (R212): the low ARG0 bits of ARG1, most significant first. -/
def bpPut (s : State) : Perf :=
  if 32 < s.arg0.toNat then .raised .invalidArgument s
  else
    match s.packer with
    | .error f => .faulted f
    | .ok p =>
      if p.fits s.params.outMax s.arg0.toNat then
        .done (s.setPacker (p.pushAll (bitsMSB (s.arg1.toNat % 2 ^ s.arg0.toNat) s.arg0.toNat)))
      else .raised .capacityExceeded s

/-- BP_FLUSH (R213). -/
def bpFlush (s : State) : Perf :=
  match s.packer with
  | .error f => .faulted f
  | .ok p =>
    match p.flush s.params.outMax with
    | .error e => .raised e s
    | .ok q => .done (s.setPacker q)

/-- The read of n bits at the cursor (R216, R217): RESULT and the cursor move only on success. -/
def brRead (s : State) (n : Nat) : Perf :=
  match cursorPos s with
  | .error f => .faulted f
  | .ok pos =>
    match readBits s pos n with
    | .error e => stopAt s e
    | .ok v => .done ({ s with result := BitVec.ofNat 32 v }.setCursor (pos + n))

/-- BR_GETBIT (R220). -/
def brGetbit (s : State) : Perf :=
  match checkInMax s with
  | .error e => stopAt s e
  | .ok () => brRead s 1

/-- BR_GETBITS (R221): IN_LEN is checked before ARG0. -/
def brGetbits (s : State) : Perf :=
  match checkInMax s with
  | .error e => stopAt s e
  | .ok () => if 32 < s.arg0.toNat then .raised .invalidArgument s else brRead s s.arg0.toNat

/-- The command BP_RESET. -/
def execBpReset (s : State) : Host.Outcome State Fault Refusal := finish (bpReset s)

/-- The command BP_PUT. -/
def execBpPut (s : State) : Host.Outcome State Fault Refusal := finish (bpPut s)

/-- The command BP_FLUSH. -/
def execBpFlush (s : State) : Host.Outcome State Fault Refusal := finish (bpFlush s)

/-- The command BR_GETBIT. -/
def execBrGetbit (s : State) : Host.Outcome State Fault Refusal := finish (brGetbit s)

/-- The command BR_GETBITS. -/
def execBrGetbits (s : State) : Host.Outcome State Fault Refusal := finish (brGetbits s)

end Sys2Proof.Machine
end

