-- ==== Sys2Proof/Machine/Control.lean ====
section
/-! DEFINITION. NOP (40_command.md R165) and the completion of an illegal command word (30_encoding.md R113, R114). -/

namespace Sys2Proof.Machine

/-- NOP (R165): `perform` returns 0 at once. -/
def execNop (s : State) : Host.Outcome State Fault Refusal := finish (.done s)

/-- A word that names no command completes with UnknownOperation and changes nothing but STATUS (R113, R114). -/
def execIllegal (s : State) : Host.Outcome State Fault Refusal := finish (.raised .unknownOperation s)

end Sys2Proof.Machine
end

