-- ==== Sys2Proof/Machine/Header.lean ====
section
/-! DEFINITION. The header fields both containers share: null-terminated fields (30_encoding.md R121), the filename
(43_huffman_container.md R250) and the size (R251). -/

namespace Sys2Proof.Machine

/-- A null-terminated field as an encoder writes it: its bytes, then 0x00 (R121). -/
def nulField (bs : List Byte) : BitStr := bytesBits (bs ++ [0])

/-- The scan of a null-terminated field of at most `limit` bytes whose next byte is IN[k], `cnt` of its bytes being read
already and `n` bytes of IN being left: CorruptHeader when no terminator comes before IN_LEN, `tooLong` when a byte comes
after `limit` others (the loops of R250, R251, 44_lz78.md R282). The value is the rest of the field. -/
def scanField (s : State) (limit : Nat) (tooLong : ErrCode) : Nat → Nat → Nat → Except Stop (List Byte)
  | 0, _, _ => .error (.raise .corruptHeader)
  | n + 1, k, cnt =>
    match inByte s k with
    | .error e => .error e
    | .ok b =>
      if b = 0 then .ok []
      else if cnt = limit then .error (.raise tooLong)
      else
        match scanField s limit tooLong n (k + 1) (cnt + 1) with
        | .error e => .error e
        | .ok bs => .ok (b :: bs)

/-- The null-terminated field of at most `limit` bytes at offset `pos` of IN. -/
def parseField (s : State) (limit : Nat) (tooLong : ErrCode) (pos : Nat) : Except Stop (List Byte) :=
  scanField s limit tooLong (s.inLen.toNat - pos) pos 0

/-- `parse_filename()` (R250): the filename; the next field begins one past its terminator. -/
def parseFilename (s : State) : Except Stop (List Byte) := parseField s s.params.fnameMax .capacityExceeded 0

/-- `parse_size(pos)` (R251): the offset after the field, and the size. -/
def parseSize (s : State) (pos : Nat) : Except Stop (Nat × Nat) :=
  match parseField s 4 .corruptHeader pos with
  | .error e => .error e
  | .ok bs =>
    if beVal bs = 0 then .error (.raise .corruptHeader)
    else if s.params.outMax < beVal bs then .error (.raise .capacityExceeded)
    else .ok (pos + bs.length + 1, beVal bs)

/-- What a successful decode leaves of the header and the data, common to both decoders (R257, 44_lz78.md R281): FNAME
holds the filename and nothing else (93_implementation_defined.md U5, log 8), OUT the data from element 0 on, the packer
registers an empty packer but for OUT_LEN, and the cursor stands after the last bit read. -/
def State.setDecoded (s : State) (name : List Byte) (size off pos : Nat) (data : List Byte) : State :=
  { s with
    fnameMem := Memory.writeList [] 0 name
    fnameLen := some (BitVec.ofNat 32 name.length)
    fileSize := some (BitVec.ofNat 32 size)
    payloadOff := some (BitVec.ofNat 32 off)
    outMem := Memory.writeList s.outMem 0 data
    outLen := some (BitVec.ofNat 32 size)
    bpAcc := some 0
    bpNbits := some 0 }.setCursor pos

end Sys2Proof.Machine
end

