-- ==== Sys2Proof/Machine/HufTree.lean ====
section
/-! DEFINITION. HUF_STATS, HUF_BUILD, HUF_CODES (41_huffman_tree.md R180 to R191): their stages, which HUF_ENCODE runs
too (40_command.md R163), and the commands. -/

namespace Sys2Proof.Machine

/-! ## Symbol statistics -/

/-- The frequency table of a byte string (R181): entry s is the count of byte value s. -/
def freqTable (bs : List Byte) : Memory Word :=
  (List.range 256).map (fun k => (k, BitVec.ofNat 32 (bs.count (BitVec.ofNat 8 k))))

/-- Stage HUF_STATS (R181). -/
def stageStats (s : State) : Except Stop State :=
  match inBytes s 0 s.inLen.toNat with
  | .error e => .error e
  | .ok bs =>
    .ok { s with
      freqMem := freqTable bs
      fileSize := some s.inLen
      status := { s.status with freqValid := true } }

/-! ## Tree builder -/

/-- The priority key of a node (R184): its weight and its index. -/
abbrev Key := Nat × Nat

/-- The lexicographic order of keys (R184). -/
def Key.lt (a b : Key) : Bool := a.1 < b.1 || (a.1 == b.1 && a.2 < b.2)

/-- Insertion into the queue, which is kept in rising key order: its head is `min_key` (R184, 10_state.md R65). -/
def insertKey (k : Key) : List Key → List Key
  | [] => [k]
  | h :: q => if Key.lt k h then k :: h :: q else h :: insertKey k q

/-- The leaf of symbol `k` with count `w` (R183). -/
def leafNode (k : Nat) (w : Word) : Node := Node.mk w true (BitVec.ofNat 8 k) 0 0

/-- The internal node of a merge: the lesser key is the left child (R186). -/
def mergeNode (a b : Key) : Node :=
  Node.mk (BitVec.ofNat 32 (a.1 + b.1)) false 0 (BitVec.ofNat 9 a.2) (BitVec.ofNat 9 b.2)

/-- The merges that remain, `n` of them, the next one making node `i` (R183). -/
def mergeLoop : Nat → Nat → List Key → Memory Node
  | n + 1, i, a :: b :: q => (i, mergeNode a b) :: mergeLoop n (i + 1) (insertKey (a.1 + b.1, i) q)
  | _, _, _ => []

/-- The leaves from symbol `k` on, for the counts `ws` (R183). -/
def leaves : Nat → List Word → Memory Node
  | _, [] => []
  | k, w :: ws => (k, leafNode k w) :: leaves (k + 1) ws

/-- The queue of the leaves from symbol `k` on (R183: `Q <- {0, 1, ..., 255}`). -/
def leafQueue : Nat → List Word → List Key
  | _, [] => []
  | k, w :: ws => insertKey (w.toNat, k) (leafQueue (k + 1) ws)

/-- The node arena built from the counts of the 256 symbols (R183). -/
def buildTree (ws : List Word) : Memory Node := leaves 0 ws ++ mergeLoop 255 256 (leafQueue 0 ws)

/-- Stage HUF_BUILD (R183). -/
def stageBuild (s : State) : Except Stop State :=
  match readRange (.unspecifiedRecord .freq) s.freqMem 0 256 with
  | .error e => .error e
  | .ok ws =>
    .ok { s with
      nodeMem := buildTree ws
      root := 510
      status := { s.status with treeValid := true } }

/-! ## Code-table generator -/

/-- `assign(n, path)` (R190) on the code table `codes`. The first argument bounds the depth: 256 calls reach every leaf
of a tree whose paths have at most 255 edges (R194); NODE memories with longer paths fault (log 13). -/
def assignCodes (nodes : Memory Node) : Nat → Nat → BitStr → Memory BitStr → Except Stop (Memory BitStr)
  | 0, _, _, _ => .error (.fault .malformedTree)
  | d + 1, n, path, codes =>
    match Memory.read nodes n with
    | none => .error (.fault (.unspecifiedRecord .node n))
    | some nd =>
      if nd.leaf then .ok (Memory.write codes nd.sym.toNat path)
      else
        match assignCodes nodes d nd.left.toNat (path ++ [false]) codes with
        | .error e => .error e
        | .ok c => assignCodes nodes d nd.right.toNat (path ++ [true]) c

/-- Stage HUF_CODES (R190). -/
def stageCodes (s : State) : Except Stop State :=
  match assignCodes s.nodeMem 256 s.root.toNat [] [] with
  | .error e => .error e
  | .ok c => .ok { s with codeMem := c, status := { s.status with codesValid := true } }

/-! ## The commands -/

/-- A stage as a whole command: these stages raise no error of their own. -/
def performStage (s : State) : Except Stop State → Perf
  | .ok t => .done t
  | .error e => stopAt s e

/-- HUF_STATS (R181). -/
def hufStats (s : State) : Perf :=
  match checkData s with
  | .error e => stopAt s e
  | .ok () => performStage s (stageStats s)

/-- HUF_BUILD (R183): InvalidState when FREQ is not valid. -/
def hufBuild (s : State) : Perf :=
  if s.status.freqValid then performStage s (stageBuild s) else .raised .invalidState s

/-- HUF_CODES (R190): InvalidState when the tree is not valid. -/
def hufCodes (s : State) : Perf :=
  if s.status.treeValid then performStage s (stageCodes s) else .raised .invalidState s

/-- The command HUF_STATS. -/
def execHufStats (s : State) : Host.Outcome State Fault Refusal := finish (hufStats s)

/-- The command HUF_BUILD. -/
def execHufBuild (s : State) : Host.Outcome State Fault Refusal := finish (hufBuild s)

/-- The command HUF_CODES. -/
def execHufCodes (s : State) : Host.Outcome State Fault Refusal := finish (hufCodes s)

end Sys2Proof.Machine
end

