-- ==== Sys2Proof/Machine/HufContainer.lean ====
section
/-! DEFINITION. HUF_ENCODE and HUF_DECODE (43_huffman_container.md R240 to R261, layout 30_encoding.md R130, R131). -/

namespace Sys2Proof.Machine

/-! ## Encoder -/

/-- A code entry (R130): the length byte, then the code left-justified and zero-padded to a byte boundary. -/
def codeEntry (c : BitStr) : BitStr :=
  bitsMSB c.length 8 ++ c ++ zeros (8 * ceilDiv8 c.length - c.length)

/-- `CODE[k]` read by the engine. -/
def codeOf (codes : Memory BitStr) (k : Nat) : Except Stop BitStr :=
  match Memory.read codes k with
  | some c => .ok c
  | none => .error (.fault (.unspecifiedRecord .code k))

/-- The codes of the symbols `ks`, in order. -/
def codesOf (codes : Memory BitStr) : List Nat → Except Stop (List BitStr)
  | [] => .ok []
  | k :: ks =>
    match codeOf codes k with
    | .error e => .error e
    | .ok c =>
      match codesOf codes ks with
      | .error e => .error e
      | .ok cs => .ok (c :: cs)

/-- The bit stream of a Huffman container (R131): filename, size, the 256 code entries, payload. -/
def hufContainer (name : List Byte) (size : Nat) (table payload : List BitStr) : BitStr :=
  nulField name ++ nulField (beMin size) ++ table.flatMap codeEntry ++ payload.flatten

/-- What stage WRITE of HUF_ENCODE emits from the state the three stages left, for a filename of `n` bytes (R240). -/
def hufStream (s : State) (n : Nat) : Except Stop BitStr :=
  match fnameBytes s n with
  | .error e => .error e
  | .ok name =>
    match codesOf s.codeMem (List.range 256) with
    | .error e => .error e
    | .ok table =>
      match inBytes s 0 s.inLen.toNat with
      | .error e => .error e
      | .ok bs =>
        match codesOf s.codeMem (bs.map BitVec.toNat) with
        | .error e => .error e
        | .ok payload => .ok (hufContainer name s.inLen.toNat table payload)

/-- The three stages before WRITE (R240, R242). -/
def hufStages (s : State) : Except Stop State :=
  match stageStats s with
  | .error e => .error e
  | .ok s1 =>
    match stageBuild s1 with
    | .error e => .error e
    | .ok s2 => stageCodes s2

/-- HUF_ENCODE (R240). -/
def hufEncode (s : State) : Perf :=
  match checkEncode s with
  | .error e => stopAt s e
  | .ok n =>
    match hufStages s with
    | .error e => stopAt s e
    | .ok t =>
      match hufStream t n with
      | .error e => stopAt t e
      | .ok bits => writeContainer t bits

/-! ## Decoder -/

/-- `parse_table(pos)` (R252): the entries of the `n` symbols from `sym` on, and the offset after them. Padding bits after
the first L are ignored. -/
def parseTable (s : State) : Nat → Nat → Nat → Except Stop (Memory BitStr × Nat)
  | 0, _, pos => .ok ([], pos)
  | n + 1, sym, pos =>
    if s.inLen.toNat ≤ pos then .error (.raise .corruptHeader)
    else
      match inByte s pos with
      | .error e => .error e
      | .ok len =>
        if s.inLen.toNat < pos + 1 + ceilDiv8 len.toNat then .error (.raise .corruptHeader)
        else
          match inBytes s (pos + 1) (ceilDiv8 len.toNat) with
          | .error e => .error e
          | .ok body =>
            match parseTable s n (sym + 1) (pos + 1 + ceilDiv8 len.toNat) with
            | .error e => .error e
            | .ok (codes, fin) => .ok ((sym, (bytesBits body).take len.toNat) :: codes, fin)

/-- `INV(c)` (R254): the highest symbol whose code is the non-empty bit string c. -/
def invCode : Memory BitStr → BitStr → Option Nat
  | [], _ => none
  | (k, c) :: m, acc =>
    match invCode m acc with
    | some t => some t
    | none => if c ≠ [] ∧ c = acc then some k else none

/-- `decode_symbol()` (R255) with `n` bits left at position `pos` and the bits `acc` read so far: the symbol and the
position after its code. The shortest match wins. -/
def decodeSymbol (s : State) (codes : Memory BitStr) : Nat → Nat → BitStr → Except Stop (Nat × Nat)
  | 0, _, _ => .error (.raise .corruptHeader)
  | n + 1, pos, acc =>
    match inBit s pos with
    | .error e => .error e
    | .ok b =>
      match invCode codes (acc ++ [b]) with
      | some k => .ok (k, pos + 1)
      | none => decodeSymbol s codes n (pos + 1) (acc ++ [b])

/-- The decoding of `n` symbols from position `pos` (R249, R256): the bytes and the position after them. -/
def decodeSymbols (s : State) (codes : Memory BitStr) : Nat → Nat → Except Stop (List Byte × Nat)
  | 0, pos => .ok ([], pos)
  | n + 1, pos =>
    match decodeSymbol s codes (bitsLeft s pos) pos [] with
    | .error e => .error e
    | .ok (k, pos') =>
      match decodeSymbols s codes n pos' with
      | .error e => .error e
      | .ok (bs, fin) => .ok (BitVec.ofNat 8 k :: bs, fin)

/-- CODE after the table stage failed: the flag is 0 and the table UNSPECIFIED (R252, 60_exceptions.md R313). -/
def State.dropCodes (s : State) : State :=
  { s with codeMem := [], status := { s.status with codesValid := false } }

/-- CODE after the table stage succeeded (R252). -/
def State.setCodes (s : State) (codes : Memory BitStr) : State :=
  { s with codeMem := codes, status := { s.status with codesValid := true } }

/-- HUF_DECODE (R249). -/
def hufDecode (s : State) : Perf :=
  match checkInMax s with
  | .error e => stopAt s e
  | .ok () =>
    match parseFilename s with
    | .error e => stopAt s.unspecifyDecode e
    | .ok name =>
      match parseSize s (name.length + 1) with
      | .error e => stopAt s.unspecifyDecode e
      | .ok (pos, size) =>
        match parseTable s 256 0 pos with
        | .error e => stopAt s.unspecifyDecode.dropCodes e
        | .ok (codes, off) =>
          match decodeSymbols s codes size (8 * off) with
          | .error e => stopAt (s.unspecifyDecode.setCodes codes) e
          | .ok (data, fin) => .done ((s.setCodes codes).setDecoded name size off fin data)

/-! ## The commands -/

/-- The command HUF_ENCODE. -/
def execHufEncode (s : State) : Host.Outcome State Fault Refusal := finish (hufEncode s)

/-- The command HUF_DECODE. -/
def execHufDecode (s : State) : Host.Outcome State Fault Refusal := finish (hufDecode s)

end Sys2Proof.Machine
end

