-- ==== Sys2Proof/Machine/Lz78.lean ====
section
/-! DEFINITION. LZ_SEGMENT, LZ_ENCODE, LZ_DECODE (44_lz78.md R270 to R289, layout 30_encoding.md R135, R136). -/

namespace Sys2Proof.Machine

/-! ## Dictionary -/

/-- A dictionary while a command runs: the numbered entries, the newest first (R270: numbered from 1). -/
abbrev Dict := List (Nat × Entry)

/-- D, the number of entries. -/
def Dict.count : Dict → Nat
  | [] => 0
  | (k, _) :: _ => k

/-- The number k with DICT[k] = (cur, b), if there is one (R271, R272). -/
def Dict.find : Dict → Nat → Byte → Option Nat
  | [], _, _ => none
  | (k, e) :: d, cur, b => if e.pfx.toNat = cur ∧ e.byte = b then some k else Dict.find d cur b

/-- `seq(k)` (10_state.md R61): the byte sequence entry k stands for; `seq(0) = []`. A prefix is always an earlier
entry, so it is looked for among the older ones. -/
def Dict.seq : Dict → Nat → List Byte
  | [], _ => []
  | (j, e) :: d, k => if k = j then Dict.seq d e.pfx.toNat ++ [e.byte] else Dict.seq d k

/-! ## Segmenter -/

/-- LZ_SEGMENT's variables (R271, 10_state.md R66): the dictionary, the tokens (newest first), the candidate as its
entry number and length. -/
structure Seg where
  dict : Dict
  toks : List Entry
  cur : Nat
  clen : Nat
  deriving DecidableEq, Repr

/-- The empty dictionary, no token, the empty candidate (R270). -/
def Seg.start : Seg := Seg.mk [] [] 0 0

/-- One input byte (the loop body of R271). -/
def Seg.step (g : Seg) (b : Byte) : Seg :=
  match g.dict.find g.cur b with
  | some k => Seg.mk g.dict g.toks k (g.clen + 1)
  | none =>
    Seg.mk ((g.dict.count + 1, Entry.mk (BitVec.ofNat 32 g.cur) b) :: g.dict)
      (Entry.mk (BitVec.ofNat 32 g.cur) b :: g.toks) 0 0

/-- The whole input, byte by byte (R271). -/
def Seg.run : Seg → List Byte → Seg
  | g, [] => g
  | g, b :: bs => Seg.run (g.step b) bs

/-- The tokens in order, the final one for a leftover candidate being its entry's own pair (R274, 90_conflicts.md C2). -/
def Seg.tokens (g : Seg) : List Entry :=
  if g.clen = 0 then g.toks.reverse
  else
    match Memory.read g.dict g.cur with
    | some e => (e :: g.toks).reverse
    | none => g.toks.reverse

/-- DICT and TOK as memories, with their registers and flags, after the segmentation of the whole input (R271). -/
def State.setSegments (s : State) (g : Seg) : State :=
  { s with
    dictMem := g.dict.reverse
    tokMem := Memory.writeList [] 0 g.tokens
    fileSize := some s.inLen
    dictSize := some (BitVec.ofNat 32 g.dict.count)
    indexWidth := some (BitVec.ofNat 6 (ceilLog2 g.dict.count))
    tokenCount := BitVec.ofNat 32 g.tokens.length
    status := { s.status with tokensValid := true, dictValid := true } }

/-- Stage LZ_SEGMENT (R271): the state it leaves and the segmentation itself. -/
def stageSegment (s : State) : Except Stop (State × Seg) :=
  match inBytes s 0 s.inLen.toNat with
  | .error e => .error e
  | .ok bs => .ok (s.setSegments (Seg.start.run bs), Seg.start.run bs)

/-- LZ_SEGMENT (R271). -/
def lzSegment (s : State) : Perf :=
  match checkData s with
  | .error e => stopAt s e
  | .ok () =>
    match stageSegment s with
    | .error e => stopAt s e
    | .ok (t, _) => .done t

/-! ## Container encoder -/

/-- A token in W + 8 bits (R135): the prefix index, then the byte. -/
def tokenBits (w : Nat) (t : Entry) : BitStr := bitsMSB t.pfx.toNat w ++ bitsMSB t.byte.toNat 8

/-- The bit stream of an LZ78 container (R136): filename, size, W, tokens. -/
def lzContainer (name : List Byte) (size w : Nat) (toks : List Entry) : BitStr :=
  nulField name ++ nulField (beMin size) ++ nulField (beMin w) ++ toks.flatMap (tokenBits w)

/-- LZ_ENCODE (R276). -/
def lzEncode (s : State) : Perf :=
  match checkEncode s with
  | .error e => stopAt s e
  | .ok n =>
    match stageSegment s with
    | .error e => stopAt s e
    | .ok (t, g) =>
      match fnameBytes t n with
      | .error e => stopAt t e
      | .ok name =>
        writeContainer t (lzContainer name s.inLen.toNat (ceilLog2 g.dict.count) g.tokens)

/-! ## Container decoder -/

/-- `parse_width(pos)` (R282): the offset after the field, and W. -/
def parseWidth (s : State) (pos : Nat) : Except Stop (Nat × Nat) :=
  match parseField s 1 .corruptHeader pos with
  | .error e => .error e
  | .ok bs =>
    if 32 < beVal bs then .error (.raise .corruptHeader)
    else .ok (pos + bs.length + 1, beVal bs)

/-- What a replay gives: the data, the dictionary, and the bit position after the last token. -/
structure Replayed where
  data : List Byte
  dict : Dict
  pos : Nat
  deriving DecidableEq, Repr

/-- The segment of a token (R281): a literal for prefix 0, else the entry's sequence and the byte; CorruptHeader for a
prefix not registered yet (R285). -/
def segmentOf (d : Dict) (p : Nat) (c : Byte) : Except Stop (List Byte) :=
  if p = 0 then .ok [c]
  else if p ≤ d.count then .ok (d.seq p ++ [c])
  else .error (.raise .corruptHeader)

/-- The replay stage (R281, R283) at bit position `pos` with `out` bytes written; every turn writes a byte or more, so
`size` turns are enough. The token that brings `out` to `size` is not registered (R284). -/
def replay (s : State) (w size : Nat) : Nat → Nat → Nat → Dict → Except Stop Replayed
  | 0, pos, _, d => .ok (Replayed.mk [] d pos)
  | n + 1, pos, out, d =>
    if size ≤ out then .ok (Replayed.mk [] d pos)
    else
      match readBits s pos w with
      | .error e => .error e
      | .ok p =>
        match readBits s (pos + w) 8 with
        | .error e => .error e
        | .ok c =>
          match segmentOf d p (BitVec.ofNat 8 c) with
          | .error e => .error e
          | .ok seg =>
            if size < out + seg.length then .error (.raise .corruptHeader)
            else
              match replay s w size n (pos + w + 8) (out + seg.length)
                (if out + seg.length < size then
                  (d.count + 1, Entry.mk (BitVec.ofNat 32 p) (BitVec.ofNat 8 c)) :: d
                else d) with
              | .error e => .error e
              | .ok r => .ok (Replayed.mk (seg ++ r.data) r.dict r.pos)

/-- DICT and its registers after the replay stage succeeded (R281). -/
def State.setReplayed (s : State) (w : Nat) (d : Dict) : State :=
  { s with
    dictMem := d.reverse
    dictSize := some (BitVec.ofNat 32 d.count)
    indexWidth := some (BitVec.ofNat 6 w)
    status := { s.status with dictValid := true } }

/-- LZ_DECODE (R281). -/
def lzDecode (s : State) : Perf :=
  match checkInMax s with
  | .error e => stopAt s e
  | .ok () =>
    match parseFilename s with
    | .error e => stopAt s.unspecifyDecode e
    | .ok name =>
      match parseSize s (name.length + 1) with
      | .error e => stopAt s.unspecifyDecode e
      | .ok (pos, size) =>
        match parseWidth s pos with
        | .error e => stopAt s.unspecifyDecode e
        | .ok (off, w) =>
          match replay s w size size (8 * off) 0 [] with
          | .error e => stopAt s.unspecifyReplay e
          | .ok r => .done ((s.setReplayed w r.dict).setDecoded name size off r.pos r.data)

/-! ## The commands -/

/-- The command LZ_SEGMENT. -/
def execLzSegment (s : State) : Host.Outcome State Fault Refusal := finish (lzSegment s)

/-- The command LZ_ENCODE. -/
def execLzEncode (s : State) : Host.Outcome State Fault Refusal := finish (lzEncode s)

/-- The command LZ_DECODE. -/
def execLzDecode (s : State) : Host.Outcome State Fault Refusal := finish (lzDecode s)

end Sys2Proof.Machine
end

