-- ==== Sys2Proof/Machine/Dispatch.lean ====
section
/-! DEFINITION. One arm per command: `perform` and the completion of the command (40_command.md R161, R162). -/

namespace Sys2Proof.Machine

def exec (i : Instr) (s : State) : Host.Outcome State Fault Refusal :=
  match i with
  | .nop => Sys2Proof.Machine.execNop s
  | .bpReset => Sys2Proof.Machine.execBpReset s
  | .bpPut => Sys2Proof.Machine.execBpPut s
  | .bpFlush => Sys2Proof.Machine.execBpFlush s
  | .brGetbit => Sys2Proof.Machine.execBrGetbit s
  | .brGetbits => Sys2Proof.Machine.execBrGetbits s
  | .hufStats => Sys2Proof.Machine.execHufStats s
  | .hufBuild => Sys2Proof.Machine.execHufBuild s
  | .hufCodes => Sys2Proof.Machine.execHufCodes s
  | .hufEncode => Sys2Proof.Machine.execHufEncode s
  | .hufDecode => Sys2Proof.Machine.execHufDecode s
  | .lzSegment => Sys2Proof.Machine.execLzSegment s
  | .lzEncode => Sys2Proof.Machine.execLzEncode s
  | .lzDecode => Sys2Proof.Machine.execLzDecode s

end Sys2Proof.Machine
end

