-- ==== Sys2Proof/Machine/HostPort.lean ====
section
/-! DEFINITION. The host's side: register accesses (10_state.md R31, R32), element accesses (20_memory.md R80 to R91),
accesses while a command runs (70_reset_and_hazards.md R350), and reset (R340). -/

namespace Sys2Proof.Machine

/-! ## Registers -/

/-- The register at an index (R31); indices from 0x12 on name none (R32, 20_memory.md R83). -/
def regAt (i : Nat) : Option Reg :=
  match i with
  | 0x00 => some .cmd
  | 0x01 => some .status
  | 0x02 => some .arg0
  | 0x03 => some .arg1
  | 0x04 => some .result
  | 0x05 => some .inLen
  | 0x06 => some .fnameLen
  | 0x07 => some .outLen
  | 0x08 => some .fileSize
  | 0x09 => some .root
  | 0x0A => some .dictSize
  | 0x0B => some .indexWidth
  | 0x0C => some .tokenCount
  | 0x0D => some .bpAcc
  | 0x0E => some .bpNbits
  | 0x0F => some .brByte
  | 0x10 => some .brBit
  | 0x11 => some .payloadOff
  | _ => none

/-- The index of a register (R31). -/
def Reg.index : Reg → Nat
  | .cmd => 0x00
  | .status => 0x01
  | .arg0 => 0x02
  | .arg1 => 0x03
  | .result => 0x04
  | .inLen => 0x05
  | .fnameLen => 0x06
  | .outLen => 0x07
  | .fileSize => 0x08
  | .root => 0x09
  | .dictSize => 0x0A
  | .indexWidth => 0x0B
  | .tokenCount => 0x0C
  | .bpAcc => 0x0D
  | .bpNbits => 0x0E
  | .brByte => 0x0F
  | .brBit => 0x10
  | .payloadOff => 0x11

/-- A register a validity flag covers (R40): its value while the flag is 1 or while it holds its reset value 0,
UNSPECIFIED otherwise. -/
def covered (r : Reg) (flag : Bool) (v : Word) : Except Fault Word :=
  if flag || v == 0 then .ok v else .error (.unspecifiedReg r)

/-- A register that may be UNSPECIFIED, widened with zeros to the 32 bits the host reads (R31). -/
def wide {n : Nat} (r : Reg) (v : Option (BitVec n)) : Except Fault Word :=
  match v with
  | some x => .ok (x.setWidth 32)
  | none => .error (.unspecifiedReg r)

/-- What the host reads from a register (R31, R40, R323). -/
def readRegister (s : State) : Reg → Except Fault Word
  | .cmd => .ok s.cmd
  | .status => .ok s.status.word
  | .arg0 => .ok s.arg0
  | .arg1 => .ok s.arg1
  | .result => .ok s.result
  | .inLen => .ok s.inLen
  | .fnameLen => wide .fnameLen s.fnameLen
  | .outLen => wide .outLen s.outLen
  | .fileSize => wide .fileSize s.fileSize
  | .root => covered .root s.status.treeValid (s.root.setWidth 32)
  | .dictSize =>
    match wide .dictSize s.dictSize with
    | .error f => .error f
    | .ok v => covered .dictSize s.status.dictValid v
  | .indexWidth =>
    match wide .indexWidth s.indexWidth with
    | .error f => .error f
    | .ok v => covered .indexWidth s.status.dictValid v
  | .tokenCount => covered .tokenCount s.status.tokensValid s.tokenCount
  | .bpAcc => wide .bpAcc s.bpAcc
  | .bpNbits => wide .bpNbits s.bpNbits
  | .brByte => wide .brByte s.brByte
  | .brBit => wide .brBit s.brBit
  | .payloadOff => wide .payloadOff s.payloadOff

/-- A host read of a register index: reserved indices and those past the end read 0 (R32, R83). -/
def hostReadReg (s : State) (i : Nat) : Except Fault Word :=
  match regAt i with
  | none => .ok 0
  | some r => readRegister s r

/-- A host write to a register (R31): CMD issues (R160), BR_BIT keeps bits [2:0] (R52), read-only registers and reserved
indices ignore it (R32). -/
def hostWriteReg (s : State) (i : Nat) (v : Word) : State :=
  match regAt i with
  | some .cmd => s.issue v
  | some .arg0 => { s with arg0 := v }
  | some .arg1 => { s with arg1 := v }
  | some .inLen => { s with inLen := v }
  | some .fnameLen => { s with fnameLen := some v }
  | some .brByte => { s with brByte := some v }
  | some .brBit => { s with brBit := some (v.extractLsb' 0 3) }
  | _ => s

/-! ## Byte memories -/

/-- The element of a byte memory the host reads, UNSPECIFIED where unlisted (R323). -/
def definedByte (sp : ByteSpace) (m : Memory Byte) (i : Nat) : Except Fault Word :=
  match Memory.read m i with
  | some b => .ok (b.setWidth 32)
  | none => .error (.unspecifiedByte sp i)

/-- The element of a byte memory of which only the first `n` are defined (R43, R56, 93_implementation_defined.md U5). -/
def byteBelow (sp : ByteSpace) (n : Nat) (m : Memory Byte) (i : Nat) : Except Fault Word :=
  if n ≤ i then .error (.unspecifiedByte sp i) else definedByte sp m i

/-- A host read of a byte memory: 0 past its end (R83); IN is defined only below IN_LEN (R43) and OUT only below OUT_LEN
(R56). A byte the host wrote to IN beyond IN_LEN is kept, and reads once IN_LEN covers it (log 9). FNAME is
read wherever FNAME_LEN stands: DESIGN CHOICE, when the host lowers FNAME_LEN after a decode, the decoded bytes at or beyond
it still read back, U5 being taken to mean the length the decode left (R44, log 21). -/
def hostReadByte (s : State) (sp : ByteSpace) (i : Nat) : Except Fault Word :=
  match sp with
  | .input => if s.params.inMax ≤ i then .ok 0 else byteBelow .input s.inLen.toNat s.inMem i
  | .fname => if s.params.fnameMax ≤ i then .ok 0 else definedByte .fname s.fnameMem i
  | .output =>
    if s.params.outMax ≤ i then .ok 0
    else
      match s.outLen with
      | none => .error (.unspecifiedByte .output i)
      | some n => byteBelow .output n.toNat s.outMem i

/-- A host write to a byte memory: none past its end, none to OUT (R80, R83). -/
def hostWriteByte (s : State) (sp : ByteSpace) (i : Nat) (b : Byte) : State :=
  match sp with
  | .input => if s.params.inMax ≤ i then s else { s with inMem := Memory.write s.inMem i b }
  | .fname => if s.params.fnameMax ≤ i then s else { s with fnameMem := Memory.write s.fnameMem i b }
  | .output => s

/-! ## Word views of the record memories -/

/-- NODE's link word (R88): leaf in bit 31, sym in [25:18], left in [17:9], right in [8:0]. -/
def Node.link (nd : Node) : Word :=
  BitVec.ofBool nd.leaf ++ (0 : BitVec 5) ++ nd.sym ++ nd.left ++ nd.right

/-- Word `j` of a node (R88). -/
def nodeWord (nd : Node) (j : Nat) : Word := if j = 0 then nd.weight else nd.link

/-- Word `j` of a DICT or TOK record (R89, R90). -/
def entryWord (e : Entry) (j : Nat) : Word := if j = 0 then e.pfx else e.byte.setWidth 32

/-- Word `j` of a CODE record (R91): word 0 is len, words 1 to 8 the code left-justified in 256 bits. -/
def codeWord (c : BitStr) (j : Nat) : Word :=
  if j = 0 then BitVec.ofNat 32 c.length
  else BitVec.ofNat 32 (bitsVal (((c ++ zeros 256).drop (32 * (j - 1))).take 32))

/-- A word of record `k`, which is UNSPECIFIED while its flag is 0 or it is unlisted (R40, R323). -/
def recordWord {α : Type} (sp : WordSpace) (flag : Bool) (m : Memory α) (k : Nat) (view : α → Word) : Except Fault Word :=
  match Memory.read m k with
  | some r => if flag then .ok (view r) else .error (.unspecifiedRecord sp k)
  | none => .error (.unspecifiedRecord sp k)

/-- The number of words of a space (R80). -/
def wordCount (P : Params) : WordSpace → Nat
  | .freq => 256
  | .node => 1022
  | .code => 2304
  | .dict => 2 * (P.dictMax + 1)
  | .tok => 2 * P.tokMax

/-- A host read of a word space (R83, R88 to R91): 0 past its end, and 0 for the reserved index 0 of DICT. -/
def hostReadWord (s : State) (sp : WordSpace) (i : Nat) : Except Fault Word :=
  if wordCount s.params sp ≤ i then .ok 0
  else
    match sp with
    | .freq => recordWord .freq s.status.freqValid s.freqMem i id
    | .node => recordWord .node s.status.treeValid s.nodeMem (i / 2) (fun r => nodeWord r (i % 2))
    | .code => recordWord .code s.status.codesValid s.codeMem (i / 9) (fun r => codeWord r (i % 9))
    | .dict =>
      if i / 2 = 0 then .ok 0
      else recordWord .dict s.status.dictValid s.dictMem (i / 2) (fun r => entryWord r (i % 2))
    | .tok => recordWord .tok s.status.tokensValid s.tokMem (i / 2) (fun r => entryWord r (i % 2))

/-! ## One host access -/

/-- A value the host has read, recorded as the program's observation (30_encoding.md R115, log 3). -/
def State.observe (s : State) (v : Word) : State := { s with observed := s.observed ++ [v] }

/-- A host read's outcome: the value is observed and nothing else changes (R84), or the run is faulted (R323). -/
def answer (s : State) : Except Fault Word → Host.Outcome State Fault Refusal
  | .ok v => .next (s.observe v)
  | .error f => .fault f

/-- A host access while BUSY = 0. -/
def accessIdle (s : State) : Access → Host.Outcome State Fault Refusal
  | .readReg i => answer s (hostReadReg s i)
  | .writeReg i v => .next (hostWriteReg s i v)
  | .readByte sp i => answer s (hostReadByte s sp i)
  | .writeByte sp i b => .next (hostWriteByte s sp i b)
  | .readWord sp i => answer s (hostReadWord s sp i)
  | .writeWord _ _ _ => .next s

/-- A host access while BUSY = 1 (R350): STATUS reads as it is, writes are dropped, any other read faults. -/
def accessBusy (s : State) : Access → Host.Outcome State Fault Refusal
  | .readReg i => if regAt i = some .status then .next (s.observe s.status.word) else .fault .hostReadWhileBusy
  | .writeReg _ _ => .next s
  | .readByte _ _ => .fault .hostReadWhileBusy
  | .writeByte _ _ _ => .next s
  | .readWord _ _ => .fault .hostReadWhileBusy
  | .writeWord _ _ _ => .next s

/-- One host access (R32, R350). -/
def hostAccess (s : State) (a : Access) : Host.Outcome State Fault Refusal :=
  if s.status.busy then accessBusy s a else accessIdle s a

/-! ## Reset -/

/-- The platform's reset (R340, R342): the block's whole state, whatever it was; the parameters, and the host's own
events and observations, stay. -/
def State.platformReset (s : State) : State :=
  { State.resetWith s.params with events := s.events, observed := s.observed }

end Sys2Proof.Machine
end

