-- ==== Sys2Proof/Machine/Engine.lean ====
section
/-! DEFINITION. The engine's step (40_command.md R161) and which agent moves next (00_scope.md R14, log 2). -/

namespace Sys2Proof.Machine

/-- The engine performs the command CMD names, or completes an illegal word with UnknownOperation (R161). -/
def engineStep (s : State) : Host.Outcome State Fault Refusal :=
  match decode s.cmd with
  | .ok i => exec i s
  | .error _ => execIllegal s

/-- The engine's one enabled step while BUSY = 1; none while it is idle (R161, 60_exceptions.md R329). -/
def engineTurn (s : State) : Host.Outcome State Fault Refusal :=
  if s.status.busy then engineStep s else .next s

/-- The step of the machine: the oldest event to come happens. A WAIT is over once BUSY = 0 and until then gives the
engine its turn; with no event to come the engine moves if a command is pending (weak fairness, R318, R360), and else
nothing happens. -/
def turn (s : State) : Host.Outcome State Fault Refusal :=
  match s.events with
  | [] => engineTurn s
  | .engineTurn :: es => engineTurn { s with events := es }
  | .wait :: es => if s.status.busy then engineStep s else .next { s with events := es }
  | .reset :: es => .next { s with events := es }.platformReset
  | .host a :: es => hostAccess { s with events := es } a

/-- `s` with the command word issued (R160) and the engine's turn next. -/
def issueNow (s : State) (w : Word) : State :=
  { s.issue w with events := .engineTurn :: s.events }

end Sys2Proof.Machine
end

