-- ==== Sys2Proof/Machine/Step.lean ====
section
/-! DEFINITION. The machine's step, and a state whose next step runs a given command word. -/

namespace Sys2Proof.Machine

/-- One step of the machine: a host access, a WAIT, a reset or a whole command (00_scope.md R4, R14). -/
def step (s : State) : Host.Outcome State Fault Refusal := turn s

/-- `s` with the opcode-table word of `nbits` bits issued by a write to CMD, so that the next step performs it (log 4). -/
def State.withFetchWord (s : State) (nbits w : Nat) : State := issueNow s (tableWord nbits w)

end Sys2Proof.Machine
end

