-- ==== Sys2Proof/Machine/HostProgram.lean ====
section
/-! DEFINITION. Host programs (30_encoding.md R115, R116): each line and pseudo-operation as the events it stands for,
and the end of a run (70_reset_and_hazards.md R355). -/

namespace Sys2Proof.Machine

/-- `W REG, v`. -/
def lineW (r : Reg) (v : Word) : List Event := [.host (.writeReg r.index v)]

/-- `R REG`. -/
def lineR (r : Reg) : List Event := [.host (.readReg r.index)]

/-- `ISSUE MNEMONIC`: `W CMD, OPC`. -/
def lineIssue (i : Instr) : List Event := lineW .cmd (encode i)

/-- `WAIT`. -/
def lineWait : List Event := [.wait]

/-- `CMD MNEMONIC`: issue, then wait. -/
def lineCmd (i : Instr) : List Event := lineIssue i ++ lineWait

/-- `WM SPACE[a], b0`, `WM SPACE[a+1], b1`, … -/
def lineBytes (sp : ByteSpace) : Nat → List Byte → List Event
  | _, [] => []
  | a, b :: bs => .host (.writeByte sp a b) :: lineBytes sp (a + 1) bs

/-- `LOAD IN, "…"`. -/
def lineLoadIn (bs : List Byte) : List Event := lineBytes .input 0 bs ++ lineW .inLen (BitVec.ofNat 32 bs.length)

/-- `LOAD FNAME, "…"`. -/
def lineLoadFname (bs : List Byte) : List Event :=
  lineBytes .fname 0 bs ++ lineW .fnameLen (BitVec.ofNat 32 bs.length)

/-- `PUT n, v`. -/
def linePut (n v : Word) : List Event := lineW .arg0 n ++ lineW .arg1 v ++ lineCmd .bpPut

/-- `GET n`. -/
def lineGet (n : Word) : List Event := lineW .arg0 n ++ lineCmd .brGetbits ++ lineR .result

/-- `SEEK b, k`. -/
def lineSeek (b k : Word) : List Event := lineW .brByte b ++ lineW .brBit k

/-- `CHECK`. -/
def lineCheck : List Event := lineR .status

/-- `s` about to run the host program `p`. -/
def State.withProgram (s : State) (p : List Event) : State := { s with events := p }

/-- The run is over (R355): the program's last line is done and no command is pending. -/
def State.ended (s : State) : Bool := s.events.isEmpty && !s.status.busy

end Sys2Proof.Machine
end

