-- ==== Sys2Proof/Safety.lean ====
section
/-! DEFINITION. The terms claims use: what a memory holds, what the packer has been given, which state of the block is
legal, what each command may write (30_encoding.md R112), what it must be able to read (70_reset_and_hazards.md R344), and
sequences of commands. -/

namespace Sys2Proof.Machine

/-! ## What memories and registers hold -/

/-- Elements `a`, `a+1`, … of `m` are `vs`. -/
abbrev Memory.holds {α : Type} (m : Memory α) (a : Nat) (vs : List α) : Prop :=
  ∀ i < vs.length, Memory.read m (a + i) = vs[i]?

/-- No element from `a` to `a+n−1` is UNSPECIFIED. -/
abbrev Memory.listed {α : Type} (m : Memory α) (a n : Nat) : Prop :=
  ∀ i < n, (Memory.read m (a + i)).isSome

/-- Exactly the elements from `a` to `a+n−1` are listed. -/
abbrev Memory.exactly {α : Type} (m : Memory α) (a n : Nat) : Prop :=
  Memory.listed m a n ∧ ∀ x ∈ m, a ≤ x.1 ∧ x.1 < a + n

/-- The elements from `a` to `a+n−1`, in order. -/
def Memory.slice {α : Type} (m : Memory α) (a n : Nat) : List α :=
  (List.range n).filterMap (fun i => Memory.read m (a + i))

/-- IN[0..IN_LEN) is `bs`. -/
abbrev State.inputIs (s : State) (bs : List Byte) : Prop :=
  s.inLen.toNat = bs.length ∧ Memory.holds s.inMem 0 bs

/-- FNAME[0..FNAME_LEN) is `f`. -/
abbrev State.nameIs (s : State) (f : List Byte) : Prop :=
  s.fnameLen = some (BitVec.ofNat 32 f.length) ∧ f.length < 2 ^ 32 ∧ Memory.holds s.fnameMem 0 f

/-- OUT[0..OUT_LEN). -/
def State.outBytes (s : State) : List Byte :=
  match s.outLen with
  | some n => Memory.slice s.outMem 0 n.toNat
  | none => []

/-- The bit string the packer has been given since the last BP_RESET, `pending` of 42_bitio.md R210. -/
def State.pendingBits (s : State) : BitStr :=
  match s.bpAcc, s.bpNbits with
  | some acc, some nb => bytesBits s.outBytes ++ bitsMSB acc.toNat nb.toNat
  | _, _ => []

/-- The packer registers hold (len, acc, nb), a legal packer state (R210) over an OUT that lists its bytes. -/
abbrev State.packerIs (s : State) (len acc nb : Nat) : Prop :=
  s.outLen = some (BitVec.ofNat 32 len) ∧ s.bpAcc = some (BitVec.ofNat 7 acc) ∧ s.bpNbits = some (BitVec.ofNat 3 nb) ∧
    nb < 8 ∧ acc < 2 ^ nb ∧ len ≤ s.params.outMax ∧ s.params.outMax < 2 ^ 32 ∧
    Memory.listed s.outMem 0 len ∧ Memory.wf s.outMem

/-- What a packer holds that a command works on: fewer than eight pending bits over bytes that OUT lists (R210). -/
abbrev Packer.ok (p : Packer) : Prop :=
  p.nbits < 8 ∧ p.acc < 2 ^ p.nbits ∧ Memory.listed p.out 0 p.outLen ∧ Memory.wf p.out

/-- The bit string a packer has been given (R210). -/
def Packer.held (p : Packer) : BitStr := bytesBits (Memory.slice p.out 0 p.outLen) ++ bitsMSB p.acc p.nbits

/-! ## Legal states -/

/-- Every memory is in its canonical form. -/
abbrev State.memoriesOk (s : State) : Prop :=
  Memory.wf s.inMem ∧ Memory.wf s.outMem ∧ Memory.wf s.fnameMem ∧ Memory.wf s.freqMem ∧ Memory.wf s.nodeMem ∧
    Memory.wf s.codeMem ∧ Memory.wf s.dictMem ∧ Memory.wf s.tokMem

/-- Every memory lists only elements it has (10_state.md R55 to R62). -/
abbrev State.inRange (s : State) : Prop :=
  (∀ x ∈ s.inMem, x.1 < s.params.inMax) ∧ (∀ x ∈ s.outMem, x.1 < s.params.outMax) ∧
    (∀ x ∈ s.fnameMem, x.1 < s.params.fnameMax) ∧ (∀ x ∈ s.freqMem, x.1 < 256) ∧ (∀ x ∈ s.nodeMem, x.1 < 511) ∧
    (∀ x ∈ s.codeMem, x.1 < 256 ∧ x.2.length ≤ 255) ∧
    (∀ x ∈ s.dictMem, 1 ≤ x.1 ∧ x.1 ≤ s.params.dictMax) ∧ (∀ x ∈ s.tokMem, x.1 < s.params.tokMax)

/-- STATUS as R36 to R39 allow it: nothing is done while busy, ERR goes with a code, the code is one the block writes. -/
abbrev Status.legal (st : Status) : Prop :=
  (st.busy = true → st.done = false) ∧ (st.err = true → st.done = true) ∧ (st.err = true ↔ st.errCode ≠ 0) ∧
    st.errCode ∈ ([0, 2, 4, 5, 6, 7, 8, 9] : List (BitVec 4))

/-- The packer registers are all UNSPECIFIED, or OUT_LEN ≤ OUT_MAX, BP_ACC < 2^BP_NBITS and OUT[0..OUT_LEN) is written
(R45, R51, R210). -/
abbrev State.packerOk (s : State) : Prop :=
  (s.outLen = none ∧ s.bpAcc = none ∧ s.bpNbits = none) ∨
    ∃ len ∈ s.outLen, ∃ acc ∈ s.bpAcc, ∃ nb ∈ s.bpNbits,
      len.toNat ≤ s.params.outMax ∧ acc.toNat < 2 ^ nb.toNat ∧ Memory.listed s.outMem 0 len.toNat

/-- The children of the internal nodes, in creation order. -/
def treeChildren (nodes : Memory Node) : List Nat :=
  (List.range 255).flatMap fun k =>
    match Memory.read nodes (256 + k) with
    | some nd => [nd.left.toNat, nd.right.toNat]
    | none => []

/-- NODE holds a tree as R59 and R185 say: 256 leaves, then internal nodes whose children are earlier nodes, every node
but 510 being the child of exactly one internal node. -/
abbrev treeOk (nodes : Memory Node) : Prop :=
  (∀ k < 256, ∃ nd ∈ Memory.read nodes k,
    nd.leaf = true ∧ nd.sym = BitVec.ofNat 8 k ∧ nd.left = 0 ∧ nd.right = 0) ∧
  (∀ k < 255, ∃ nd ∈ Memory.read nodes (256 + k),
    nd.leaf = false ∧ nd.sym = 0 ∧ nd.left.toNat < 256 + k ∧ nd.right.toNat < 256 + k) ∧
  (treeChildren nodes).Perm (List.range 510)

/-- Dictionary entries name earlier ones: DICT[k].prefix < k (10_state.md R61). -/
abbrev dictOk (m : Memory Entry) : Prop := ∀ x ∈ m, x.2.pfx.toNat < x.1

/-- What the validity flags say (R40): a flag at 1 covers written elements, a flag at 0 leaves none specified, and ROOT
and TOKEN_COUNT then hold their reset value. -/
abbrev State.flagsOk (s : State) : Prop :=
  (if s.status.freqValid then Memory.exactly s.freqMem 0 256 else s.freqMem = []) ∧
  (if s.status.treeValid then treeOk s.nodeMem ∧ s.root = 510 else s.nodeMem = [] ∧ s.root = 0) ∧
  (if s.status.codesValid then Memory.exactly s.codeMem 0 256 else s.codeMem = []) ∧
  (if s.status.tokensValid then Memory.exactly s.tokMem 0 s.tokenCount.toNat else s.tokMem = [] ∧ s.tokenCount = 0) ∧
  (if s.status.dictValid then
    s.indexWidth.isSome ∧ ∃ d ∈ s.dictSize, Memory.exactly s.dictMem 1 d.toNat ∧ dictOk s.dictMem
  else s.dictMem = [])

/-! ## What a command may write, and what it must be able to read -/

/-- STATUS after a completion: the flags as before but for those `u` takes from the state after. -/
def Status.completed (st u : Status) : Status :=
  { st with busy := false, done := true, err := u.err, errCode := u.errCode }

/-- `t` differs from `s` only in what the row of command `i` in R112 lets it write, and in STATUS only in BUSY, DONE, ERR,
ERR_CODE and the flags of the command's stages (10_state.md R35). -/
def writesOnly (i : Instr) (s t : State) : Prop :=
  match i with
  | .nop => t = { s with status := s.status.completed t.status }
  | .bpReset =>
    t = { s with status := s.status.completed t.status, outLen := t.outLen, bpAcc := t.bpAcc, bpNbits := t.bpNbits }
  | .bpPut | .bpFlush =>
    t = { s with
      status := s.status.completed t.status
      outLen := t.outLen
      bpAcc := t.bpAcc
      bpNbits := t.bpNbits
      outMem := t.outMem }
  | .brGetbit | .brGetbits =>
    t = { s with
      status := s.status.completed t.status
      result := t.result
      brByte := t.brByte
      brBit := t.brBit }
  | .hufStats =>
    t = { s with
      status := { s.status.completed t.status with freqValid := t.status.freqValid }
      fileSize := t.fileSize
      freqMem := t.freqMem }
  | .hufBuild =>
    t = { s with
      status := { s.status.completed t.status with treeValid := t.status.treeValid }
      root := t.root
      nodeMem := t.nodeMem }
  | .hufCodes =>
    t = { s with
      status := { s.status.completed t.status with codesValid := t.status.codesValid }
      codeMem := t.codeMem }
  | .hufEncode =>
    t = { s with
      status := { s.status.completed t.status with
        freqValid := t.status.freqValid
        treeValid := t.status.treeValid
        codesValid := t.status.codesValid }
      fileSize := t.fileSize
      root := t.root
      outLen := t.outLen
      bpAcc := t.bpAcc
      bpNbits := t.bpNbits
      freqMem := t.freqMem
      nodeMem := t.nodeMem
      codeMem := t.codeMem
      outMem := t.outMem }
  | .hufDecode =>
    t = { s with
      status := { s.status.completed t.status with codesValid := t.status.codesValid }
      fnameLen := t.fnameLen
      fileSize := t.fileSize
      payloadOff := t.payloadOff
      brByte := t.brByte
      brBit := t.brBit
      outLen := t.outLen
      bpAcc := t.bpAcc
      bpNbits := t.bpNbits
      fnameMem := t.fnameMem
      codeMem := t.codeMem
      outMem := t.outMem }
  | .lzSegment =>
    t = { s with
      status := { s.status.completed t.status with
        tokensValid := t.status.tokensValid
        dictValid := t.status.dictValid }
      fileSize := t.fileSize
      dictSize := t.dictSize
      indexWidth := t.indexWidth
      tokenCount := t.tokenCount
      dictMem := t.dictMem
      tokMem := t.tokMem }
  | .lzEncode =>
    t = { s with
      status := { s.status.completed t.status with
        tokensValid := t.status.tokensValid
        dictValid := t.status.dictValid }
      fileSize := t.fileSize
      dictSize := t.dictSize
      indexWidth := t.indexWidth
      tokenCount := t.tokenCount
      outLen := t.outLen
      bpAcc := t.bpAcc
      bpNbits := t.bpNbits
      dictMem := t.dictMem
      tokMem := t.tokMem
      outMem := t.outMem }
  | .lzDecode =>
    t = { s with
      status := { s.status.completed t.status with dictValid := t.status.dictValid }
      fnameLen := t.fnameLen
      fileSize := t.fileSize
      indexWidth := t.indexWidth
      dictSize := t.dictSize
      payloadOff := t.payloadOff
      brByte := t.brByte
      brBit := t.brBit
      outLen := t.outLen
      bpAcc := t.bpAcc
      bpNbits := t.bpNbits
      fnameMem := t.fnameMem
      dictMem := t.dictMem
      outMem := t.outMem }

/-- The errors each command can raise (60_exceptions.md R322), by code; 0 is success. -/
def possibleCodes : Instr → List (BitVec 4)
  | .nop | .bpReset => [0]
  | .bpPut => [0, 8, 7]
  | .bpFlush => [0, 7]
  | .brGetbit | .brGetbits => [0, 8, 4]
  | .hufStats | .lzSegment => [0, 2, 8]
  | .hufBuild | .hufCodes => [0, 9]
  | .hufEncode | .lzEncode => [0, 2, 8, 6, 7]
  | .hufDecode | .lzDecode => [0, 8, 4, 7]

/-- The primitives, NOP to BR_GETBITS (R313). -/
def primitives : List Instr := [.nop, .bpReset, .bpPut, .bpFlush, .brGetbit, .brGetbits]

/-- Everything the command can read is specified: what the host must have written (70_reset_and_hazards.md R344) and what
an earlier stage error may have left UNSPECIFIED. -/
abbrev readyFor (i : Instr) (s : State) : Prop :=
  match i with
  | .nop | .bpReset => True
  | .bpPut | .bpFlush => s.outLen.isSome ∧ s.bpAcc.isSome ∧ s.bpNbits.isSome
  | .brGetbit | .brGetbits => s.brByte.isSome ∧ s.brBit.isSome ∧ Memory.listed s.inMem 0 s.inLen.toNat
  | .hufStats | .lzSegment | .hufDecode | .lzDecode => Memory.listed s.inMem 0 s.inLen.toNat
  | .hufBuild => s.status.freqValid = true → Memory.listed s.freqMem 0 256
  | .hufCodes => s.status.treeValid = true → treeOk s.nodeMem ∧ s.root = 510
  | .hufEncode | .lzEncode =>
    Memory.listed s.inMem 0 s.inLen.toNat ∧
      ∃ n ∈ s.fnameLen, Memory.listed s.fnameMem 0 n.toNat

/-! ## Trees and codes -/

/-- The symbol of the leaf that the edge labels `path` lead to from node `n` (41_huffman_tree.md R191). -/
def treeWalk (nodes : Memory Node) : Nat → BitStr → Option Nat
  | n, [] =>
    match Memory.read nodes n with
    | some nd => if nd.leaf then some nd.sym.toNat else none
    | none => none
  | n, b :: bs =>
    match Memory.read nodes n with
    | some nd => if nd.leaf then none else treeWalk nodes (if b then nd.right.toNat else nd.left.toNat) bs
    | none => none

/-- The weight of a node, 0 where NODE lists none. -/
def weightAt (nodes : Memory Node) (n : Nat) : Nat :=
  match Memory.read nodes n with
  | some nd => nd.weight.toNat
  | none => 0

/-- The priority key of a node in NODE (R184). -/
def keyAt (nodes : Memory Node) (n : Nat) : Key := (weightAt nodes n, n)

/-- No code of the table is a prefix of another one's (R192). -/
abbrev prefixFree (table : List BitStr) : Prop :=
  table.Pairwise fun c d => ¬ c <+: d ∧ ¬ d <+: c

/-! ## Containers a decoder is given -/

/-- `cs` begins with a filename and a size field that both decoders accept, and `rest` follows them (43_huffman_container.md
R250, R251). -/
abbrev legalHeader (P : Params) (cs name size rest : List Byte) : Prop :=
  cs = name ++ 0 :: (size ++ 0 :: rest) ∧ 0 ∉ name ∧ name.length ≤ P.fnameMax ∧ 0 ∉ size ∧ size.length ≤ 4 ∧
    beVal size ≠ 0 ∧ beVal size ≤ P.outMax

/-- `rest` begins with a width field that LZ_DECODE accepts, and `payload` follows it (44_lz78.md R282). -/
abbrev legalWidth (rest width payload : List Byte) : Prop :=
  rest = width ++ 0 :: payload ∧ 0 ∉ width ∧ width.length ≤ 1 ∧ beVal width ≤ 32

/-- A code entry as a decoder reads it (43_huffman_container.md R252): the length byte and the body's bytes. -/
abbrev RawEntry := Byte × List Byte

/-- The body has the whole bytes that the length asks for; a length of 0 and any padding bits are accepted (R252). -/
abbrev RawEntry.complete (e : RawEntry) : Prop := e.2.length = ceilDiv8 e.1.toNat

/-- The bytes of the entries, one after another. -/
def entryBytes (es : List RawEntry) : List Byte := es.flatMap fun e => e.1 :: e.2

/-- The codes of the entries: the first L bits of each body (R252). -/
def entryTable (es : List RawEntry) : List BitStr := es.map fun e => (bytesBits e.2).take e.1.toNat

/-- `rest` begins with the 256 complete entries `es`, and `payload` follows them (R252). -/
abbrev fullTable (es : List RawEntry) (rest payload : List Byte) : Prop :=
  es.length = 256 ∧ (∀ e ∈ es, e.complete) ∧ rest = entryBytes es ++ payload

/-- `rest` ends inside its code table: fewer than 256 complete entries, then nothing or an entry cut short (R252, R259). -/
abbrev shortTable (rest : List Byte) : Prop :=
  ∃ (es : List RawEntry) (cut : List Byte), es.length < 256 ∧ (∀ e ∈ es, e.complete) ∧ rest = entryBytes es ++ cut ∧
    ∀ l body, cut = l :: body → body.length < ceilDiv8 l.toNat

/-- `INV(c) = k` (43_huffman_container.md R254): k is the highest symbol whose code is the non-empty bit string c. -/
abbrev invIs (table : List BitStr) (c : BitStr) (k : Nat) : Prop :=
  c ≠ [] ∧ table[k]? = some c ∧ ∀ j, k < j → table[j]? ≠ some c

/-- No non-empty beginning of `bits` is a code of the table (R255). -/
abbrev noMatch (table : List BitStr) (bits : BitStr) : Prop := ∀ c, c <+: bits → c ≠ [] → c ∉ table

/-- The symbols that reading `bits` gives, `fin` being the bits left (R255, R256): each byte comes from the shortest
beginning of the remaining bits that is a code, no shorter one matching, and is the highest symbol with that code. -/
def decodesAs (table : List BitStr) : BitStr → List Byte → BitStr → Prop
  | bits, [], fin => bits = fin
  | bits, b :: data, fin =>
    ∃ c rest, bits = c ++ rest ∧ invIs table c b.toNat ∧ noMatch table c.dropLast ∧ decodesAs table rest data fin

/-- The segments of a token stream (44_lz78.md R281), `reg` being the segments registered before it, entry 1 first: a
token with prefix 0 is its literal, one with prefix p stands for entry p and its literal; nothing if a prefix names an
entry not registered yet (R285). -/
def replaySegments (reg : List (List Byte)) : List Entry → Option (List (List Byte))
  | [] => some []
  | t :: ts =>
    match ([] :: reg)[t.pfx.toNat]? with
    | none => none
    | some seg =>
      match replaySegments (reg ++ [seg ++ [t.byte]]) ts with
      | none => none
      | some segs => some ((seg ++ [t.byte]) :: segs)

/-- The payload begins with the tokens `toks`, each with a prefix that W bits hold, and the bits `fin` follow (R281). -/
abbrev tokenStream (w : Nat) (payload : List Byte) (toks : List Entry) (fin : BitStr) : Prop :=
  (∀ t ∈ toks, t.pfx.toNat < 2 ^ w) ∧ bytesBits payload = toks.flatMap (tokenBits w) ++ fin

/-- Every output of a decoder that no validity flag covers is UNSPECIFIED (60_exceptions.md R313). -/
abbrev State.decodeOutputsUnspecified (t : State) : Prop :=
  t.fnameMem = [] ∧ t.fnameLen = none ∧ t.fileSize = none ∧ t.payloadOff = none ∧ t.brByte = none ∧ t.brBit = none ∧
    t.outMem = [] ∧ t.outLen = none ∧ t.bpAcc = none ∧ t.bpNbits = none

/-- From `s` to `t`, CODES_VALID and what it covers are unchanged. -/
abbrev codesKept (s t : State) : Prop := t.status.codesValid = s.status.codesValid ∧ t.codeMem = s.codeMem

/-- CODES_VALID is 0 and CODE UNSPECIFIED. -/
abbrev State.codesLost (t : State) : Prop := t.status.codesValid = false ∧ t.codeMem = []

/-- From `s` to `t`, DICT_VALID and what it covers are unchanged. -/
abbrev dictKept (s t : State) : Prop :=
  t.status.dictValid = s.status.dictValid ∧ t.dictMem = s.dictMem ∧ t.dictSize = s.dictSize ∧ t.indexWidth = s.indexWidth

/-- DICT_VALID is 0, DICT and INDEX_WIDTH are UNSPECIFIED, and so is DICT_SIZE if the flag was 1 in `s` (log 10). -/
abbrev dictLost (s t : State) : Prop :=
  t.status.dictValid = false ∧ t.dictMem = [] ∧ t.indexWidth = none ∧
    t.dictSize = if s.status.dictValid then none else s.dictSize

/-! ## What a host read finds UNSPECIFIED -/

/-- The register is UNSPECIFIED (10_state.md R40, 60_exceptions.md R313): a stage error left it so, or it is a register that
a flag at 0 covers and holds another value than its reset value (log 11). -/
def State.unspecified (s : State) : Reg → Prop
  | .cmd | .status | .arg0 | .arg1 | .result | .inLen => False
  | .fnameLen => s.fnameLen = none
  | .outLen => s.outLen = none
  | .fileSize => s.fileSize = none
  | .root => s.status.treeValid = false ∧ s.root ≠ 0
  | .dictSize => s.dictSize = none ∨ (s.status.dictValid = false ∧ s.dictSize ≠ some 0)
  | .indexWidth => s.indexWidth = none ∨ (s.status.dictValid = false ∧ s.indexWidth ≠ some 0)
  | .tokenCount => s.status.tokensValid = false ∧ s.tokenCount ≠ 0
  | .bpAcc => s.bpAcc = none
  | .bpNbits => s.bpNbits = none
  | .brByte => s.brByte = none
  | .brBit => s.brBit = none
  | .payloadOff => s.payloadOff = none

/-- The byte is UNSPECIFIED: not written, or IN at or beyond IN_LEN, or OUT at or beyond OUT_LEN (R323,
93_implementation_defined.md U5). -/
def State.unspecifiedAt (s : State) (i : Nat) : ByteSpace → Prop
  | .input => s.inLen.toNat ≤ i ∨ Memory.read s.inMem i = none
  | .output => (∀ n ∈ s.outLen, n.toNat ≤ i) ∨ Memory.read s.outMem i = none
  | .fname => Memory.read s.fnameMem i = none

/-- The record is UNSPECIFIED: its flag is 0 or it is not written (R40, R323). -/
def State.unspecifiedRecord (s : State) (k : Nat) : WordSpace → Prop
  | .freq => s.status.freqValid = false ∨ Memory.read s.freqMem k = none
  | .node => s.status.treeValid = false ∨ Memory.read s.nodeMem k = none
  | .code => s.status.codesValid = false ∨ Memory.read s.codeMem k = none
  | .dict => s.status.dictValid = false ∨ Memory.read s.dictMem k = none
  | .tok => s.status.tokensValid = false ∨ Memory.read s.tokMem k = none

/-- The number of elements of a byte memory (20_memory.md R80). -/
def byteCount (P : Params) : ByteSpace → Nat
  | .input => P.inMax
  | .output => P.outMax
  | .fname => P.fnameMax

/-- The number of words the host sees of one record (20_memory.md R88 to R91). -/
def WordSpace.perRecord : WordSpace → Nat
  | .freq => 1
  | .node | .dict | .tok => 2
  | .code => 9

/-! ## Sequences of commands -/

/-- The host's PUT of each (count, value) in turn; nothing if a command fails or faults (30_encoding.md R116). -/
def putAll : State → List (Nat × Word) → Option State
  | s, [] => some s
  | s, (n, v) :: fs =>
    match exec .bpPut { s with arg0 := BitVec.ofNat 32 n, arg1 := v } with
    | .next t => if t.status.err then none else putAll t fs
    | _ => none

/-- The bit string of fields put one after another (42_bitio.md R214). -/
def fieldBits (fs : List (Nat × Word)) : BitStr := fs.flatMap fun f => bitsMSB f.2.toNat f.1

/-- The host's GET of each width in turn, with the RESULTs; nothing if a command fails or faults (R116). -/
def getAll : State → List Nat → Option (State × List Word)
  | s, [] => some (s, [])
  | s, n :: ns =>
    match exec .brGetbits { s with arg0 := BitVec.ofNat 32 n } with
    | .next t =>
      if t.status.err then none
      else
        match getAll t ns with
        | some (u, vs) => some (u, t.result :: vs)
        | none => none
    | _ => none

/-! ## Runs -/

/-- The state after `k` steps, if no step of them marks the run faulted (60_exceptions.md R323). -/
def runFor : Nat → State → Option State
  | 0, s => some s
  | k + 1, s =>
    match step s with
    | .next t => runFor k t
    | _ => none

end Sys2Proof.Machine
end

