-- ==== Sys2Proof/Certificates/Slice0/Obligations.lean ====
section
/-! DEFINITION. The statements for the provers. Each docstring names the rules of spec/ the statement formalises. -/

open Sys2Proof Sys2Proof.Machine

/-! ## Command words and the machine's step -/

/-- The opcode map, word for word (30_encoding.md R111). -/
def Obligations.OpcodeMapWords : Prop :=
  decode 0x00000000 = .ok .nop ∧ decode 0x00000001 = .ok .bpReset ∧ decode 0x00000002 = .ok .bpPut ∧
  decode 0x00000003 = .ok .bpFlush ∧ decode 0x00000004 = .ok .brGetbit ∧ decode 0x00000005 = .ok .brGetbits ∧
  decode 0x00000010 = .ok .hufStats ∧ decode 0x00000011 = .ok .hufBuild ∧ decode 0x00000012 = .ok .hufCodes ∧
  decode 0x00000013 = .ok .hufEncode ∧ decode 0x00000014 = .ok .hufDecode ∧ decode 0x00000020 = .ok .lzSegment ∧
  decode 0x00000021 = .ok .lzEncode ∧ decode 0x00000022 = .ok .lzDecode

/-- Decoding and encoding agree both ways: a word decodes to a command exactly when it is that command's word, so no
other word, whatever its bits [31:8], names it (R110, R111). -/
def Obligations.DecodeEncodeAgree : Prop :=
  ∀ (w : Word) (i : Instr), decode w = .ok i ↔ w = encode i

/-- A word with a reserved bit set or an opcode outside the map decodes to nothing; 242 opcodes are outside it; and the
engine's step on such a word completes with UnknownOperation, code 5, and changes nothing but STATUS (R113, R114). When the
engine has its turn (no event left, a WAIT next, which then stays next, or a turn in the events, which is taken off) is the
model's choice, log 2. -/
def Obligations.IllegalWordCompletesUnknownOperation : Prop :=
  (∀ w : Word, ((∀ i, decode w ≠ .ok i) ↔ w.extractLsb' 8 24 ≠ 0 ∨ w.extractLsb' 0 8 ∉ CmdWord.opcodes)) ∧
  ((List.range 256).filter fun n => BitVec.ofNat 8 n ∉ CmdWord.opcodes).length = 242 ∧
  ∀ s : State, s.status.busy = true → (∀ i, decode s.cmd ≠ .ok i) →
    (s.events = [] ∨ (∃ es, s.events = .wait :: es) →
      step s = .next { s with status := { s.status with busy := false, done := true, err := true, errCode := 5 } }) ∧
    (∀ es, s.events = .engineTurn :: es →
      step s = .next { s with
        events := es
        status := { s.status with busy := false, done := true, err := true, errCode := 5 } })

/-- A pending command's step is `exec` of the command its word decodes to (40_command.md R161), whichever event gives the
engine its turn; and a word placed by `withFetchWord` is the one the next step runs. -/
def Obligations.StepRunsTheDecodedCommand : Prop :=
  (∀ (s : State) (i : Instr), s.status.busy = true → decode s.cmd = .ok i →
    (s.events = [] → step s = exec i s) ∧
    (∀ es, s.events = .engineTurn :: es → step s = exec i { s with events := es }) ∧
    (∀ es, s.events = .wait :: es → step s = exec i s)) ∧
  (∀ (s : State) (nbits w : Nat) (i : Instr), decodeTableWord nbits w = some i →
    step (s.withFetchWord nbits w) = exec i (s.issue (tableWord nbits w)))

/-- A host write to CMD issues a command while BUSY = 0 and is dropped while BUSY = 1 (R160). -/
def Obligations.CmdWriteIssues : Prop :=
  ∀ (s : State) (v : Word) (es : List Event), s.events = .host (.writeReg 0x00 v) :: es →
    step s = .next
      (if s.status.busy then { s with events := es }
      else { s with
        cmd := v
        status := { s.status with busy := true, done := false, err := false, errCode := 0 }
        events := es })

/-- A WAIT ends after the command: if the pending command completes, the WAIT is over one step later (60_exceptions.md
R318; the scheduling is the model's own, log 2). -/
def Obligations.WaitEndsWithTheCommand : Prop :=
  ∀ (s t : State) (es : List Event), s.events = .wait :: es → s.status.busy = true → step s = .next t →
    t.status.busy = false ∧ t.status.done = true ∧ t.events = .wait :: es ∧ step t = .next { t with events := es }

/-- Host accesses while a command runs (70_reset_and_hazards.md R350): STATUS reads as it is, every write is dropped, any
other read faults the run. The event form is the model's, log 2; that a read of a reserved or out-of-range index faults as
well is log 17. -/
def Obligations.HostAccessWhileBusy : Prop :=
  ∀ (s : State) (es : List Event), s.status.busy = true →
    (s.events = .host (.readReg 0x01) :: es →
      step s = .next { s with events := es, observed := s.observed ++ [s.status.word] } ∧
        s.status.word.getLsbD 0 = true) ∧
    (∀ i, i ≠ 0x01 → s.events = .host (.readReg i) :: es → step s = .fault .hostReadWhileBusy) ∧
    (∀ sp i, s.events = .host (.readByte sp i) :: es → step s = .fault .hostReadWhileBusy) ∧
    (∀ sp i, s.events = .host (.readWord sp i) :: es → step s = .fault .hostReadWhileBusy) ∧
    (∀ i v, s.events = .host (.writeReg i v) :: es → step s = .next { s with events := es }) ∧
    (∀ sp i b, s.events = .host (.writeByte sp i b) :: es → step s = .next { s with events := es }) ∧
    (∀ sp i w, s.events = .host (.writeWord sp i w) :: es → step s = .next { s with events := es })

/-! ## Reset -/

/-- What reset leaves (10_state.md R70), for every choice of the parameters: every register reads 0 and every memory
element is UNSPECIFIED, so that reading it faults. -/
def Obligations.ResetLeavesZerosAndUnspecified : Prop :=
  ∀ P : Params,
    (∀ i, hostReadReg (State.resetWith P) i = .ok 0) ∧
    (∀ i < P.inMax, hostReadByte (State.resetWith P) .input i = .error (.unspecifiedByte .input i)) ∧
    (∀ i < P.outMax, hostReadByte (State.resetWith P) .output i = .error (.unspecifiedByte .output i)) ∧
    (∀ i < P.fnameMax, hostReadByte (State.resetWith P) .fname i = .error (.unspecifiedByte .fname i)) ∧
    (∀ i < 256, hostReadWord (State.resetWith P) .freq i = .error (.unspecifiedRecord .freq i)) ∧
    (∀ i < 1022, hostReadWord (State.resetWith P) .node i = .error (.unspecifiedRecord .node (i / 2))) ∧
    (∀ i < 2304, hostReadWord (State.resetWith P) .code i = .error (.unspecifiedRecord .code (i / 9))) ∧
    (∀ i < 2 * (P.dictMax + 1), 2 ≤ i →
      hostReadWord (State.resetWith P) .dict i = .error (.unspecifiedRecord .dict (i / 2))) ∧
    (∀ i < 2 * P.tokMax, hostReadWord (State.resetWith P) .tok i = .error (.unspecifiedRecord .tok (i / 2)))

/-- A reset event in any state, a command running or not, leaves the reset state: the command does not complete, no error
is reported, the parameters stay (70_reset_and_hazards.md R340, R342). -/
def Obligations.ResetEventAbandonsEverything : Prop :=
  ∀ (s : State) (es : List Event), s.events = .reset :: es →
    step s = .next { State.resetWith s.params with events := es, observed := s.observed }

/-! ## Every command -/

/-- Completion (40_command.md R162, 10_state.md R37 to R39): BUSY 0, DONE 1, ERR exactly with a non-zero code, and the code
one of those the engine writes. -/
def Obligations.CompletionWritesStatus : Prop :=
  ∀ (i : Instr) (s t : State), exec i s = .next t →
    t.status.busy = false ∧ t.status.done = true ∧ (t.status.err = true ↔ t.status.errCode ≠ 0) ∧
      t.status.errCode ∈ ([0, 2, 4, 6, 7, 8, 9] : List (BitVec 4))

/-- Every command raises only the errors its row of R322 lists. -/
def Obligations.CommandsRaiseOnlyTheirErrors : Prop :=
  ∀ (i : Instr) (s t : State), exec i s = .next t → t.status.errCode ∈ possibleCodes i

/-- The frame of every command: with or without an error it writes only its row of 30_encoding.md R112 and STATUS, and in
STATUS only the flags of its stages; RESULT, IN, ARG0, ARG1, IN_LEN, CMD and all else stay. -/
def Obligations.CommandsWriteOnlyTheirRow : Prop :=
  ∀ (i : Instr) (s t : State), exec i s = .next t → writesOnly i s t

/-- Argument-check errors, and every error of the primitives, change nothing but STATUS, and there no validity flag
(60_exceptions.md R313 item 1, R314). -/
def Obligations.ArgumentErrorsChangeOnlyStatus : Prop :=
  ∀ (i : Instr) (s t : State), exec i s = .next t →
    t.status.errCode ∈ ([2, 6, 8, 9] : List (BitVec 4)) ∨ (t.status.err = true ∧ i ∈ primitives) →
    t = { s with
      status := { s.status with busy := false, done := true, err := true, errCode := t.status.errCode } }

/-- A stage error of an encoder leaves OUT, OUT_LEN, BP_ACC, BP_NBITS and FILE_SIZE UNSPECIFIED and the flags of the
completed stages at 1 (43_huffman_container.md R247, 44_lz78.md R279, 60_exceptions.md R313 item 2). -/
def Obligations.EncoderStageErrorState : Prop :=
  (∀ s t : State, exec .hufEncode s = .next t → t.status.errCode = 7 →
    t.outMem = [] ∧ t.outLen = none ∧ t.bpAcc = none ∧ t.bpNbits = none ∧ t.fileSize = none ∧
      t.status.freqValid = true ∧ t.status.treeValid = true ∧ t.status.codesValid = true) ∧
  (∀ s t : State, exec .lzEncode s = .next t → t.status.errCode = 7 →
    t.outMem = [] ∧ t.outLen = none ∧ t.bpAcc = none ∧ t.bpNbits = none ∧ t.fileSize = none ∧
      t.status.tokensValid = true ∧ t.status.dictValid = true)

/-- A stage error of a decoder leaves every element of its write set that no flag covers UNSPECIFIED; what a flag covers
follows the stage that failed (60_exceptions.md R313 item 2, 40_command.md R164): an error in a header field leaves the flag
and what it covers unchanged; an error in the table stage, or in the replay stage, leaves the flag 0 and what it covers
UNSPECIFIED; an error of HUF_DECODE after the table leaves the flag 1 and CODE the parsed table. That DICT_SIZE keeps its
value after a failed replay where the flag was 0 before is the model's choice, log 10. -/
def Obligations.DecoderStageErrorState : Prop :=
  (∀ s t : State, exec .hufDecode s = .next t → t.status.errCode = 4 ∨ t.status.errCode = 7 →
    t.decodeOutputsUnspecified ∧
    (codesKept s t ∨ t.codesLost ∨ (t.status.codesValid = true ∧ Memory.exactly t.codeMem 0 256)) ∧
    ∀ cs, s.inputIs cs →
      ((∀ f z rest, ¬ legalHeader s.params cs f z rest) → codesKept s t) ∧
      ∀ f z rest, legalHeader s.params cs f z rest →
        (shortTable rest → t.codesLost) ∧
        ∀ es payload, fullTable es rest payload →
          t.status.codesValid = true ∧ Memory.exactly t.codeMem 0 256 ∧ Memory.holds t.codeMem 0 (entryTable es)) ∧
  (∀ s t : State, exec .lzDecode s = .next t → t.status.errCode = 4 ∨ t.status.errCode = 7 →
    t.decodeOutputsUnspecified ∧ (dictKept s t ∨ dictLost s t) ∧
    ∀ cs, s.inputIs cs →
      ((∀ f z rest w payload, ¬ (legalHeader s.params cs f z rest ∧ legalWidth rest w payload)) → dictKept s t) ∧
      ∀ f z rest w payload, legalHeader s.params cs f z rest → legalWidth rest w payload → dictLost s t)

/-- No command faults when everything it can read is specified: it completes, with or without an error
(70_reset_and_hazards.md R344, 60_exceptions.md R323). -/
def Obligations.ReadyCommandsComplete : Prop :=
  ∀ (i : Instr) (s : State), readyFor i s → ∃ t, exec i s = .next t

/-! ## NOP and the bit packer -/

/-- NOP, the word 0, writes DONE, ERR and ERR_CODE and nothing else; a word with OPC 0x00 and other bits set is not NOP
(40_command.md R165). -/
def Obligations.NopCompletes : Prop :=
  (∀ w : Word, decode w = .ok .nop ↔ w = 0) ∧
  ∀ s : State,
    exec .nop s = .next { s with status := { s.status with busy := false, done := true, err := false, errCode := 0 } }

/-- BP_RESET, the word 1, empties the packer and leaves OUT's contents and all else (42_bitio.md R211). -/
def Obligations.BpResetEmptiesThePacker : Prop :=
  (∀ w : Word, decode w = .ok .bpReset ↔ w = 1) ∧
  ∀ s : State,
    exec .bpReset s = .next { s with
      outLen := some 0
      bpAcc := some 0
      bpNbits := some 0
      status := { s.status with busy := false, done := true, err := false, errCode := 0 } }

/-- BP_PUT of n ≤ 32 bits whose completed bytes fit appends exactly the low n bits of ARG1 to the packed stream; it stores
the bytes from OUT_LEN on and no other byte, and changes only its own registers (R210, R212). -/
def Obligations.BpPutAppendsTheField : Prop :=
  ∀ (s : State) (len acc nb : Nat), s.packerIs len acc nb → s.arg0.toNat ≤ 32 →
    len + (nb + s.arg0.toNat) / 8 ≤ s.params.outMax →
    ∃ (t : State) (acc' : Nat), exec .bpPut s = .next t ∧
      t.packerIs (len + (nb + s.arg0.toNat) / 8) acc' ((nb + s.arg0.toNat) % 8) ∧
      t.pendingBits = s.pendingBits ++ bitsMSB s.arg1.toNat s.arg0.toNat ∧
      (∀ a, a < len ∨ len + (nb + s.arg0.toNat) / 8 ≤ a → Memory.read t.outMem a = Memory.read s.outMem a) ∧
      t = { s with
        outMem := t.outMem
        outLen := t.outLen
        bpAcc := t.bpAcc
        bpNbits := t.bpNbits
        status := { s.status with busy := false, done := true, err := false, errCode := 0 } }

/-- BP_PUT turned away (R212): InvalidArgument for more than 32 bits, then CapacityExceeded when the completed bytes would
not fit; nothing but STATUS changes. -/
def Obligations.BpPutErrors : Prop :=
  (∀ s : State, 32 < s.arg0.toNat →
    exec .bpPut s = .next { s with status := { s.status with busy := false, done := true, err := true, errCode := 8 } }) ∧
  (∀ (s : State) (len acc nb : Nat), s.packerIs len acc nb → s.arg0.toNat ≤ 32 →
    s.params.outMax < len + (nb + s.arg0.toNat) / 8 →
    exec .bpPut s = .next { s with status := { s.status with busy := false, done := true, err := true, errCode := 7 } })

/-- BP_FLUSH (R213): nothing pending is success without a change; a pending partial byte is padded with zeros on the
right and stored at OUT_LEN, and no other byte changes; CapacityExceeded when it does not fit, nothing but STATUS changing. -/
def Obligations.BpFlushPadsTheByte : Prop :=
  ∀ (s : State) (len acc nb : Nat), s.packerIs len acc nb →
    (nb = 0 →
      exec .bpFlush s = .next { s with status := { s.status with busy := false, done := true, err := false, errCode := 0 } }) ∧
    (nb ≠ 0 → len < s.params.outMax →
      ∃ t : State, exec .bpFlush s = .next t ∧ t.packerIs (len + 1) 0 0 ∧
        t.pendingBits = s.pendingBits ++ zeros (8 - nb) ∧
        (∀ a, a ≠ len → Memory.read t.outMem a = Memory.read s.outMem a) ∧
        t = { s with
          outMem := t.outMem
          outLen := t.outLen
          bpAcc := t.bpAcc
          bpNbits := t.bpNbits
          status := { s.status with busy := false, done := true, err := false, errCode := 0 } }) ∧
    (nb ≠ 0 → len = s.params.outMax →
      exec .bpFlush s = .next { s with status := { s.status with busy := false, done := true, err := true, errCode := 7 } })

/-- The packing law (R214): from BP_RESET, any BP_PUTs and a BP_FLUSH, none failing, leave OUT[0..OUT_LEN) holding the
concatenated fields, zero-padded on the right to whole bytes; the result depends only on the concatenation. -/
def Obligations.PackingLaw : Prop :=
  ∀ (s s1 s2 s3 : State) (fs : List (Nat × Word)), s.params.outMax < 2 ^ 32 → Memory.wf s.outMem →
    (∀ f ∈ fs, f.1 ≤ 32) → exec .bpReset s = .next s1 → putAll s1 fs = some s2 → exec .bpFlush s2 = .next s3 →
    s3.status.err = false →
    s3.outLen = some (BitVec.ofNat 32 (ceilDiv8 (fieldBits fs).length)) ∧ s3.bpAcc = some 0 ∧ s3.bpNbits = some 0 ∧
      s3.outBytes.length = ceilDiv8 (fieldBits fs).length ∧
      bytesBits s3.outBytes =
        fieldBits fs ++ zeros (8 * ceilDiv8 (fieldBits fs).length - (fieldBits fs).length)

/-! ## The bit reader -/

/-- BR_GETBITS of n ≤ 32 bits that remain (n = 0 always do) gives the n bits of the stream at the cursor, right-aligned,
moves the cursor past them, and changes nothing else (42_bitio.md R216, R221). -/
def Obligations.BrGetbitsReadsTheField : Prop :=
  ∀ (s : State) (bs : List Byte) (pos : Nat), s.inputIs bs → bs.length ≤ s.params.inMax → cursorPos s = .ok pos →
    s.arg0.toNat ≤ 32 → s.arg0.toNat ≤ 8 * bs.length - pos →
    exec .brGetbits s = .next { s with
      result := BitVec.ofNat 32 (bitsVal (((bytesBits bs).drop pos).take s.arg0.toNat))
      brByte := some (BitVec.ofNat 32 ((pos + s.arg0.toNat) / 8))
      brBit := some (BitVec.ofNat 3 ((pos + s.arg0.toNat) % 8))
      status := { s.status with busy := false, done := true, err := false, errCode := 0 } }

/-- BR_GETBIT reads the one bit at the cursor, bit 7 − (pos mod 8) of IN[floor(pos/8)], moves the cursor by one, and changes
nothing else (R220). -/
def Obligations.BrGetbitReadsTheBit : Prop :=
  ∀ (s : State) (pos : Nat) (b : Byte), s.inLen.toNat ≤ s.params.inMax → cursorPos s = .ok pos →
    pos + 1 ≤ 8 * s.inLen.toNat → Memory.read s.inMem (pos / 8) = some b →
    exec .brGetbit s = .next { s with
      result := if b.getLsbD (7 - pos % 8) then 1 else 0
      brByte := some (BitVec.ofNat 32 ((pos + 1) / 8))
      brBit := some (BitVec.ofNat 3 ((pos + 1) % 8))
      status := { s.status with busy := false, done := true, err := false, errCode := 0 } }

/-- The reader's errors, in their order: IN_LEN > IN_MAX, then ARG0 > 32 (BR_GETBITS), then too few bits; nothing but
STATUS changes (R217, R220, R221). -/
def Obligations.BitReaderErrors : Prop :=
  (∀ s : State, s.params.inMax < s.inLen.toNat →
    exec .brGetbit s = .next { s with status := { s.status with busy := false, done := true, err := true, errCode := 8 } } ∧
    exec .brGetbits s = .next { s with status := { s.status with busy := false, done := true, err := true, errCode := 8 } }) ∧
  (∀ s : State, 32 < s.arg0.toNat →
    exec .brGetbits s = .next { s with status := { s.status with busy := false, done := true, err := true, errCode := 8 } }) ∧
  (∀ (s : State) (pos : Nat), s.inLen.toNat ≤ s.params.inMax → cursorPos s = .ok pos →
    (8 * s.inLen.toNat < pos + 1 →
      exec .brGetbit s =
        .next { s with status := { s.status with busy := false, done := true, err := true, errCode := 4 } }) ∧
    (s.arg0.toNat ≤ 32 → 8 * s.inLen.toNat - pos < s.arg0.toNat →
      exec .brGetbits s =
        .next { s with status := { s.status with busy := false, done := true, err := true, errCode := 4 } }))

/-- The read-back law (R223): bytes that hold packed fields of widths n1, …, nk give the fields back, and the cursor ends
after them. -/
def Obligations.ReadBackLaw : Prop :=
  ∀ (s : State) (fs : List (Nat × Word)) (bs : List Byte), (∀ f ∈ fs, f.1 ≤ 32) → s.inputIs bs →
    bs.length ≤ s.params.inMax → s.brByte = some 0 → s.brBit = some 0 →
    bytesBits bs = fieldBits fs ++ zeros (8 * ceilDiv8 (fieldBits fs).length - (fieldBits fs).length) →
    ∃ t : State, getAll s (fs.map fun f => f.1) = some (t, fs.map fun f => BitVec.ofNat 32 (f.2.toNat % 2 ^ f.1)) ∧
      cursorPos t = .ok (fieldBits fs).length

/-! ## Symbol statistics, tree, codes -/

/-- HUF_STATS counts every byte value of a non-empty input, the counts sum to FILE_SIZE = IN_LEN, and only FREQ, FILE_SIZE
and FREQ_VALID change (41_huffman_tree.md R181, R182). -/
def Obligations.HufStatsCountsBytes : Prop :=
  ∀ (s : State) (bs : List Byte), s.inputIs bs → bs ≠ [] → bs.length ≤ s.params.inMax →
    ∃ t : State, exec .hufStats s = .next t ∧
      (∀ b : Byte, Memory.read t.freqMem b.toNat = some (BitVec.ofNat 32 (bs.count b)) ∧ bs.count b < 2 ^ 32) ∧
      ((List.range 256).map fun k => ((Memory.read t.freqMem k).getD 0).toNat).sum = bs.length ∧
      t = { s with
        freqMem := t.freqMem
        fileSize := some s.inLen
        status := { s.status with busy := false, done := true, err := false, errCode := 0, freqValid := true } }

/-- EmptyInput for IN_LEN = 0 before anything else, then InvalidArgument for IN_LEN > IN_MAX, in the four commands that
read original data; nothing but STATUS changes (41_huffman_tree.md R180, 43_huffman_container.md R241). -/
def Obligations.OriginalDataChecks : Prop :=
  ∀ i ∈ ([.hufStats, .hufEncode, .lzSegment, .lzEncode] : List Instr), ∀ s : State,
    (s.inLen = 0 →
      exec i s = .next { s with status := { s.status with busy := false, done := true, err := true, errCode := 2 } }) ∧
    (s.inLen ≠ 0 → s.params.inMax < s.inLen.toNat →
      exec i s = .next { s with status := { s.status with busy := false, done := true, err := true, errCode := 8 } })

/-- HUF_BUILD on 256 counts completes and builds the tree: leaves with the counts, 255 merges whose weights are the sums of
their children's, ROOT = 510 with the sum of all counts, every other node the child of exactly one internal node; only NODE,
ROOT and TREE_VALID change (41_huffman_tree.md R183, R185). -/
def Obligations.HufBuildMakesATree : Prop :=
  ∀ (s : State) (ws : List Word), s.status.freqValid = true → ws.length = 256 → Memory.holds s.freqMem 0 ws →
    (ws.map BitVec.toNat).sum < 2 ^ 32 →
    ∃ t : State, exec .hufBuild s = .next t ∧ treeOk t.nodeMem ∧ Memory.wf t.nodeMem ∧
      (∀ k < 256, weightAt t.nodeMem k = (ws.getD k 0).toNat) ∧
      (∀ k < 255, ∃ nd ∈ Memory.read t.nodeMem (256 + k),
        nd.weight.toNat = weightAt t.nodeMem nd.left.toNat + weightAt t.nodeMem nd.right.toNat) ∧
      weightAt t.nodeMem 510 = (ws.map BitVec.toNat).sum ∧
      t = { s with
        nodeMem := t.nodeMem
        root := 510
        status := { s.status with busy := false, done := true, err := false, errCode := 0, treeValid := true } }

/-- Each merge takes the two least keys (41_huffman_tree.md R184, R186): the left child's key is less than the right
child's, and the right child's is less than that of every other node that is still a root at that merge; so the weights of
the internal nodes do not decrease (R187). -/
def Obligations.MergesTakeTheLeastKeys : Prop :=
  ∀ (s t : State) (ws : List Word), s.status.freqValid = true → ws.length = 256 → Memory.holds s.freqMem 0 ws →
    (ws.map BitVec.toNat).sum < 2 ^ 32 → exec .hufBuild s = .next t →
    (∀ k < 255, ∀ nd, Memory.read t.nodeMem (256 + k) = some nd →
      Key.lt (keyAt t.nodeMem nd.left.toNat) (keyAt t.nodeMem nd.right.toNat) = true ∧
      ∀ j < 256 + k, j ∉ (treeChildren t.nodeMem).take (2 * k + 2) →
        Key.lt (keyAt t.nodeMem nd.right.toNat) (keyAt t.nodeMem j) = true) ∧
    (∀ k < 254, weightAt t.nodeMem (256 + k) ≤ weightAt t.nodeMem (256 + k + 1))

/-- The tree is a function of FREQ alone (41_huffman_tree.md R188): two blocks with the same FREQ, whatever else they
hold, build identical NODE contents. -/
def Obligations.TreeDependsOnFreqAlone : Prop :=
  ∀ s1 s2 t1 t2 : State, s1.freqMem = s2.freqMem → s1.status.freqValid = true → s2.status.freqValid = true →
    exec .hufBuild s1 = .next t1 → exec .hufBuild s2 = .next t2 → t1.nodeMem = t2.nodeMem ∧ t1.root = t2.root

/-- HUF_BUILD and HUF_CODES raise InvalidState on an input memory that is not valid, changing nothing but STATUS
(41_huffman_tree.md R180). -/
def Obligations.InvalidStateChecks : Prop :=
  (∀ s : State, s.status.freqValid = false →
    exec .hufBuild s = .next { s with status := { s.status with busy := false, done := true, err := true, errCode := 9 } }) ∧
  (∀ s : State, s.status.treeValid = false →
    exec .hufCodes s = .next { s with status := { s.status with busy := false, done := true, err := true, errCode := 9 } })

/-- HUF_CODES on a tree completes and writes all 256 codes: each is the path of edge labels from ROOT to its symbol's leaf,
1 to 255 bits long; only CODE and CODES_VALID change (41_huffman_tree.md R190, R191, R194). -/
def Obligations.HufCodesRecordsThePaths : Prop :=
  ∀ s : State, s.status.treeValid = true → s.root = 510 → treeOk s.nodeMem →
    ∃ t : State, exec .hufCodes s = .next t ∧ Memory.exactly t.codeMem 0 256 ∧ Memory.wf t.codeMem ∧
      (∀ k < 256, ∀ c, Memory.read t.codeMem k = some c →
        treeWalk s.nodeMem 510 c = some k ∧ 1 ≤ c.length ∧ c.length ≤ 255) ∧
      t = { s with
        codeMem := t.codeMem
        status := { s.status with busy := false, done := true, err := false, errCode := 0, codesValid := true } }

/-- The code table is prefix-free (41_huffman_tree.md R192). -/
def Obligations.HufCodesArePrefixFree : Prop :=
  ∀ s t : State, s.status.treeValid = true → s.root = 510 → treeOk s.nodeMem → exec .hufCodes s = .next t →
    ∀ j k c d, j ≠ k → Memory.read t.codeMem j = some c → Memory.read t.codeMem k = some d → ¬ c <+: d

/-- The code is complete: the Kraft sum is 1 (41_huffman_tree.md R193), multiplied by 2^255. -/
def Obligations.HufCodesAreComplete : Prop :=
  ∀ s t : State, s.status.treeValid = true → s.root = 510 → treeOk s.nodeMem → exec .hufCodes s = .next t →
    ((Memory.slice t.codeMem 0 256).map fun c => 2 ^ (255 - c.length)).sum = 2 ^ 255

/-! ## Containers -/

/-- `be_min` (30_encoding.md R123, R124): the big-endian bytes of v with no leading zero, as many as its bits need, empty
for 0; the bytes read back to v. -/
def Obligations.BeMinIsMinimal : Prop :=
  beMin 0 = [] ∧
  ∀ v, 0 < v → v < 2 ^ 32 →
    beVal (beMin v) = v ∧ (beMin v).head? ≠ (some 0 : Option Byte) ∧ 256 ^ ((beMin v).length - 1) ≤ v ∧ v < 256 ^ (beMin v).length

/-- `ceil_log2(d)` is the least w with 2^w ≥ d (00_scope.md R12, 44_lz78.md R273). -/
def Obligations.CeilLog2IsLeast : Prop :=
  ∀ d, 1 ≤ d → d ≤ 2 ^ ceilLog2 d ∧ ∀ w, d ≤ 2 ^ w → ceilLog2 d ≤ w

/-- The encoders' header checks, IN_LEN being in range (43_huffman_container.md R241): a filename longer than FNAME_MAX is
InvalidArgument; then, under REFUSE, a filename with a 0x00 byte and a size whose minimal form has one are
UnencodableHeader; nothing but STATUS changes. -/
def Obligations.EncodersCheckTheHeader : Prop :=
  ∀ i ∈ ([.hufEncode, .lzEncode] : List Instr), ∀ s : State, s.inLen ≠ 0 → s.inLen.toNat ≤ s.params.inMax →
    (∀ n : Word, s.fnameLen = some n → s.params.fnameMax < n.toNat →
      exec i s = .next { s with status := { s.status with busy := false, done := true, err := true, errCode := 8 } }) ∧
    (∀ f : List Byte, s.params.nulPolicy = .refuse → s.nameIs f → f.length ≤ s.params.fnameMax →
      (0 ∈ f ∨ 0 ∈ beMin s.inLen.toNat) →
      exec i s = .next { s with status := { s.status with busy := false, done := true, err := true, errCode := 6 } })

/-- HUF_ENCODE gives FREQ, NODE, ROOT, CODE and FILE_SIZE the values HUF_STATS, HUF_BUILD and HUF_CODES in turn give them,
and OUT the container of 30_encoding.md R131, padded to whole bytes; it raises CapacityExceeded exactly when the container
is longer than OUT_MAX (43_huffman_container.md R240, R242 to R247). Bytes of OUT from OUT_LEN on, and everything outside its
write set, stay. -/
def Obligations.HufEncodeWritesTheContainer : Prop :=
  ∀ (s : State) (bs f : List Byte), s.inputIs bs → bs ≠ [] → bs.length ≤ s.params.inMax → s.nameIs f →
    f.length ≤ s.params.fnameMax → s.params.outMax < 2 ^ 32 → Memory.wf s.outMem →
    (s.params.nulPolicy = .refuse → 0 ∉ f ∧ 0 ∉ beMin bs.length) →
    ∃ (s1 s2 s3 : State) (table : List BitStr), exec .hufStats s = .next s1 ∧ exec .hufBuild s1 = .next s2 ∧
      exec .hufCodes s2 = .next s3 ∧ table = Memory.slice s3.codeMem 0 256 ∧ table.length = 256 ∧
      (∀ bits, bits = hufContainer f bs.length table (bs.map fun b => table.getD b.toNat []) →
        (ceilDiv8 bits.length ≤ s.params.outMax →
          ∃ t : State, exec .hufEncode s = .next t ∧ t.outBytes.length = ceilDiv8 bits.length ∧
            bytesBits t.outBytes = bits ++ zeros (8 * ceilDiv8 bits.length - bits.length) ∧
            (∀ a, ceilDiv8 bits.length ≤ a → Memory.read t.outMem a = Memory.read s.outMem a) ∧
            t = { s3 with
              outMem := t.outMem
              outLen := some (BitVec.ofNat 32 (ceilDiv8 bits.length))
              bpAcc := some 0
              bpNbits := some 0 }) ∧
        (s.params.outMax < ceilDiv8 bits.length →
          exec .hufEncode s = .next { s3 with
            fileSize := none
            outMem := []
            outLen := none
            bpAcc := none
            bpNbits := none
            status := { s3.status with err := true, errCode := 7 } }))

/-- HUF_DECODE gives the data, the filename, the size, the table, the payload's offset and the cursor after the last code;
OUT from the size on, and everything outside the write set, stay (43_huffman_container.md R249 to R257). First for a
container of R131 with a prefix-free table and NUL-safe fields, whatever follows its payload; then for any container with a
legal header, any 256 complete entries (lengths of 0, equal codes, codes that begin with another one, any padding bits) and
any payload whose bits decode to as many symbols as the size says, the shortest match and the highest symbol winning (R252,
R254, R255). That FNAME lists nothing beyond the filename is the model's choice, log 8. -/
def Obligations.HufDecodeRecoversTheData : Prop :=
  (∀ (s : State) (cs bs f : List Byte) (table : List BitStr) (tail : BitStr), s.inputIs cs → cs.length ≤ s.params.inMax →
    table.length = 256 → (∀ c ∈ table, 1 ≤ c.length ∧ c.length ≤ 255) → prefixFree table → bs ≠ [] →
    bs.length ≤ s.params.outMax → bs.length < 2 ^ 32 → f.length ≤ s.params.fnameMax → Memory.wf s.outMem → 0 ∉ f →
    0 ∉ beMin bs.length →
    bytesBits cs = hufContainer f bs.length table (bs.map fun b => table.getD b.toNat []) ++ tail →
    ∃ (t : State) (off : Nat), exec .hufDecode s = .next t ∧ t.outBytes = bs ∧ Memory.slice t.fnameMem 0 f.length = f ∧
      Memory.exactly t.fnameMem 0 f.length ∧ Memory.holds t.codeMem 0 table ∧ Memory.exactly t.codeMem 0 256 ∧
      8 * off = (nulField f ++ nulField (beMin bs.length) ++ table.flatMap codeEntry).length ∧
      cursorPos t = .ok (8 * off + ((bs.map fun b => table.getD b.toNat []).flatten).length) ∧
      (∀ a, bs.length ≤ a → Memory.read t.outMem a = Memory.read s.outMem a) ∧
      t = { s with
        fnameMem := t.fnameMem
        fnameLen := some (BitVec.ofNat 32 f.length)
        fileSize := some (BitVec.ofNat 32 bs.length)
        payloadOff := some (BitVec.ofNat 32 off)
        brByte := t.brByte
        brBit := t.brBit
        codeMem := t.codeMem
        outMem := t.outMem
        outLen := some (BitVec.ofNat 32 bs.length)
        bpAcc := some 0
        bpNbits := some 0
        status := { s.status with busy := false, done := true, err := false, errCode := 0, codesValid := true } }) ∧
  (∀ (s : State) (cs f z rest payload data : List Byte) (es : List RawEntry) (fin : BitStr), s.inputIs cs →
    cs.length ≤ s.params.inMax → Memory.wf s.outMem → legalHeader s.params cs f z rest → fullTable es rest payload →
    decodesAs (entryTable es) (bytesBits payload) data fin → data.length = beVal z →
    ∃ t : State, exec .hufDecode s = .next t ∧ t.outBytes = data ∧ Memory.slice t.fnameMem 0 f.length = f ∧
      Memory.exactly t.fnameMem 0 f.length ∧ Memory.holds t.codeMem 0 (entryTable es) ∧ Memory.exactly t.codeMem 0 256 ∧
      cursorPos t = .ok (8 * cs.length - fin.length) ∧
      (∀ a, data.length ≤ a → Memory.read t.outMem a = Memory.read s.outMem a) ∧
      t = { s with
        fnameMem := t.fnameMem
        fnameLen := some (BitVec.ofNat 32 f.length)
        fileSize := some (BitVec.ofNat 32 data.length)
        payloadOff := some (BitVec.ofNat 32 (cs.length - payload.length))
        brByte := t.brByte
        brBit := t.brBit
        codeMem := t.codeMem
        outMem := t.outMem
        outLen := some (BitVec.ofNat 32 data.length)
        bpAcc := some 0
        bpNbits := some 0
        status := { s.status with busy := false, done := true, err := false, errCode := 0, codesValid := true } })

/-- The Huffman round trip (43_huffman_container.md R258): what HUF_ENCODE writes for NUL-safe fields, HUF_DECODE turns
back into the data and the filename, on any block whose memories are large enough. -/
def Obligations.HuffmanRoundTrip : Prop :=
  ∀ (s t s' : State) (bs f : List Byte), s.inputIs bs → s.nameIs f → s.params.outMax < 2 ^ 32 → Memory.wf s.outMem →
    0 ∉ f → 0 ∉ beMin bs.length → exec .hufEncode s = .next t → t.status.err = false →
    s'.inputIs t.outBytes → t.outBytes.length ≤ s'.params.inMax → bs.length ≤ s'.params.outMax →
    f.length ≤ s'.params.fnameMax → Memory.wf s'.outMem →
    ∃ t' : State, exec .hufDecode s' = .next t' ∧ t'.status.err = false ∧ t'.outBytes = bs ∧ t'.nameIs f

/-- The decoders on an empty container give CorruptHeader, not EmptyInput (43_huffman_container.md R260); with IN_LEN >
IN_MAX they give InvalidArgument and change nothing but STATUS (60_exceptions.md R320). -/
def Obligations.DecodersOnBadLengths : Prop :=
  ∀ i ∈ ([.hufDecode, .lzDecode] : List Instr), ∀ s : State,
    (s.inLen = 0 → ∃ t : State, exec i s = .next t ∧ t.status.err = true ∧ t.status.errCode = 4) ∧
    (s.params.inMax < s.inLen.toNat →
      exec i s = .next { s with status := { s.status with busy := false, done := true, err := true, errCode := 8 } })

/-- The decoders' errors. In the header (43_huffman_container.md R250, R251, 44_lz78.md R282): a filename that no 0x00 ends is
CorruptHeader when IN ends first, CapacityExceeded when it goes past FNAME_MAX; a size field with no terminator, of more than
four bytes or of value 0 is CorruptHeader, a size above OUT_MAX is CapacityExceeded; in LZ_DECODE a width field with no
terminator, of more than one byte or of value above 32 is CorruptHeader. After a legal header, all CorruptHeader: fewer than
256 complete code entries (R252, R259); a payload that runs out before the size's last symbol, or whose bits match no entry
(R255, R256); tokens that run out before the size, a prefix above D', a segment past the size (44_lz78.md R285). -/
def Obligations.DecoderHeaderErrors : Prop :=
  (∀ i ∈ ([.hufDecode, .lzDecode] : List Instr), ∀ (s : State) (cs : List Byte), s.inputIs cs →
    cs.length ≤ s.params.inMax →
    (0 ∉ cs → cs.length ≤ s.params.fnameMax → ∃ t : State, exec i s = .next t ∧ t.status.errCode = 4) ∧
    (0 ∉ cs.take (s.params.fnameMax + 1) → s.params.fnameMax < cs.length →
      ∃ t : State, exec i s = .next t ∧ t.status.errCode = 7) ∧
    (∀ f z : List Byte, cs = f ++ 0 :: z → 0 ∉ f → f.length ≤ s.params.fnameMax → 0 ∉ z →
      ∃ t : State, exec i s = .next t ∧ t.status.errCode = 4) ∧
    (∀ f z rest : List Byte, cs = f ++ 0 :: (z ++ rest) → 0 ∉ f → f.length ≤ s.params.fnameMax → 0 ∉ z →
      4 < z.length → ∃ t : State, exec i s = .next t ∧ t.status.errCode = 4) ∧
    (∀ f z rest : List Byte, cs = f ++ 0 :: (z ++ 0 :: rest) → 0 ∉ f → f.length ≤ s.params.fnameMax → 0 ∉ z →
      z.length ≤ 4 →
      (beVal z = 0 → ∃ t : State, exec i s = .next t ∧ t.status.errCode = 4) ∧
      (s.params.outMax < beVal z → ∃ t : State, exec i s = .next t ∧ t.status.errCode = 7))) ∧
  (∀ (s : State) (cs f z rest : List Byte), s.inputIs cs → cs.length ≤ s.params.inMax →
    legalHeader s.params cs f z rest →
    (shortTable rest → ∃ t : State, exec .hufDecode s = .next t ∧ t.status.errCode = 4) ∧
    (∀ (es : List RawEntry) (payload data : List Byte) (fin : BitStr), fullTable es rest payload →
      decodesAs (entryTable es) (bytesBits payload) data fin → data.length < beVal z → noMatch (entryTable es) fin →
      ∃ t : State, exec .hufDecode s = .next t ∧ t.status.errCode = 4) ∧
    (∀ w more : List Byte, rest = w ++ more → 0 ∉ w →
      more = [] ∨ 1 < w.length ∨ (more.head? = some 0 ∧ 32 < beVal w) →
      ∃ t : State, exec .lzDecode s = .next t ∧ t.status.errCode = 4) ∧
    (∀ (w payload : List Byte) (toks : List Entry) (segs : List (List Byte)) (fin : BitStr), legalWidth rest w payload →
      replaySegments [] toks = some segs → segs.flatten.length < beVal z →
      (tokenStream (beVal w) payload toks fin → fin.length < beVal w + 8 →
        ∃ t : State, exec .lzDecode s = .next t ∧ t.status.errCode = 4) ∧
      (∀ tok : Entry, tokenStream (beVal w) payload (toks ++ [tok]) fin →
        (toks.length < tok.pfx.toNat → ∃ t : State, exec .lzDecode s = .next t ∧ t.status.errCode = 4) ∧
        (∀ seg, replaySegments [] (toks ++ [tok]) = some (segs ++ [seg]) →
          beVal z < segs.flatten.length + seg.length →
          ∃ t : State, exec .lzDecode s = .next t ∧ t.status.errCode = 4))))

/-- The encoders complete without an error whenever OUT is large enough for any table, code lengths and index width
(43_huffman_container.md R240, R247, 44_lz78.md R276, R279): the filename and its terminator, at most 5 bytes of size, and
256 entries of at most 33 bytes with 255 bits a symbol, or 2 bytes of width with 40 bits a token. -/
def Obligations.EncodersCompleteWithRoom : Prop :=
  ∀ (s : State) (bs f : List Byte), s.inputIs bs → bs ≠ [] → bs.length ≤ s.params.inMax → s.nameIs f →
    f.length ≤ s.params.fnameMax → s.params.outMax < 2 ^ 32 → Memory.wf s.outMem →
    (s.params.nulPolicy = .refuse → 0 ∉ f ∧ 0 ∉ beMin bs.length) →
    (f.length + 8454 + 32 * bs.length ≤ s.params.outMax →
      ∃ t : State, exec .hufEncode s = .next t ∧ t.status.err = false) ∧
    (f.length + 8 + 5 * bs.length ≤ s.params.outMax →
      ∃ t : State, exec .lzEncode s = .next t ∧ t.status.err = false)

/-! ## LZ78 -/

/-- LZ_SEGMENT (44_lz78.md R271, R273 to R275): D entries numbered from 1, each one byte longer than an earlier one and all
distinct; T = D tokens equal to the entries in order, or T = D + 1 with one more, equal to an existing entry, for the
leftover; the tokens' segments concatenate to the input; W = ceil_log2(D). Only the write set changes. -/
def Obligations.LzSegmentBuildsTheDictionary : Prop :=
  ∀ (s : State) (bs : List Byte), s.inputIs bs → bs ≠ [] → bs.length ≤ s.params.inMax →
    ∃ (t : State) (d n : Nat), exec .lzSegment s = .next t ∧ 1 ≤ d ∧ (n = d ∨ n = d + 1) ∧ n ≤ bs.length ∧
      Memory.exactly t.dictMem 1 d ∧ Memory.exactly t.tokMem 0 n ∧ Memory.wf t.dictMem ∧ Memory.wf t.tokMem ∧
      dictOk t.dictMem ∧
      (∀ x ∈ t.dictMem,
        Dict.seq t.dictMem.reverse x.1 = Dict.seq t.dictMem.reverse x.2.pfx.toNat ++ [x.2.byte]) ∧
      (∀ j k, 1 ≤ j → j < k → k ≤ d → Dict.seq t.dictMem.reverse j ≠ Dict.seq t.dictMem.reverse k) ∧
      (∀ k < d, Memory.read t.tokMem k = Memory.read t.dictMem (k + 1)) ∧
      (n = d + 1 → ∃ k, 1 ≤ k ∧ k ≤ d ∧ Memory.read t.tokMem d = Memory.read t.dictMem k) ∧
      ((Memory.slice t.tokMem 0 n).flatMap fun e => Dict.seq t.dictMem.reverse e.pfx.toNat ++ [e.byte]) = bs ∧
      t = { s with
        dictMem := t.dictMem
        tokMem := t.tokMem
        fileSize := some s.inLen
        dictSize := some (BitVec.ofNat 32 d)
        indexWidth := some (BitVec.ofNat 6 (ceilLog2 d))
        tokenCount := BitVec.ofNat 32 n
        status := { s.status with
          busy := false
          done := true
          err := false
          errCode := 0
          tokensValid := true
          dictValid := true } }

/-- LZ_ENCODE gives DICT, TOK and their registers the values LZ_SEGMENT gives them, and OUT the container of 30_encoding.md
R136, padded to whole bytes; it raises CapacityExceeded exactly when the container is longer than OUT_MAX (44_lz78.md R276 to
R279). Bytes of OUT from OUT_LEN on, and everything outside its write set, stay. -/
def Obligations.LzEncodeWritesTheContainer : Prop :=
  ∀ (s : State) (bs f : List Byte), s.inputIs bs → bs ≠ [] → bs.length ≤ s.params.inMax → s.nameIs f →
    f.length ≤ s.params.fnameMax → s.params.outMax < 2 ^ 32 → Memory.wf s.outMem →
    (s.params.nulPolicy = .refuse → 0 ∉ f ∧ 0 ∉ beMin bs.length) →
    ∃ (s1 : State) (w : BitVec 6), exec .lzSegment s = .next s1 ∧ s1.indexWidth = some w ∧
      (∀ bits, bits = lzContainer f bs.length w.toNat (Memory.slice s1.tokMem 0 s1.tokenCount.toNat) →
        (ceilDiv8 bits.length ≤ s.params.outMax →
          ∃ t : State, exec .lzEncode s = .next t ∧ t.outBytes.length = ceilDiv8 bits.length ∧
            bytesBits t.outBytes = bits ++ zeros (8 * ceilDiv8 bits.length - bits.length) ∧
            (∀ a, ceilDiv8 bits.length ≤ a → Memory.read t.outMem a = Memory.read s.outMem a) ∧
            t = { s1 with
              outMem := t.outMem
              outLen := some (BitVec.ofNat 32 (ceilDiv8 bits.length))
              bpAcc := some 0
              bpNbits := some 0 }) ∧
        (s.params.outMax < ceilDiv8 bits.length →
          exec .lzEncode s = .next { s1 with
            fileSize := none
            outMem := []
            outLen := none
            bpAcc := none
            bpNbits := none
            status := { s1.status with err := true, errCode := 7 } }))

/-- LZ_DECODE of the container of an input's segmentation, whatever follows its payload, gives back the input and the
filename, and replays the dictionary in lock step: D' = T − 1 entries, the segmenter's first ones (44_lz78.md R281 to R286).
Then for any container with a legal header, any width from 0 to 32 (R282) and any tokens whose segments are as long as the
size says: OUT is their segments, DICT all the tokens but the last (R284). OUT from the size on, and everything outside the
write set, stay. That FNAME lists nothing beyond the filename is the model's choice, log 8. -/
def Obligations.LzDecodeRecoversTheData : Prop :=
  (∀ (s : State) (cs bs f : List Byte) (tail : BitStr), s.inputIs cs → cs.length ≤ s.params.inMax → bs ≠ [] →
    bs.length ≤ s.params.outMax → bs.length < 2 ^ 32 → f.length ≤ s.params.fnameMax → Memory.wf s.outMem → 0 ∉ f →
    0 ∉ beMin bs.length →
    ∀ g : Seg, g = Seg.start.run bs →
    bytesBits cs = lzContainer f bs.length (ceilLog2 g.dict.count) g.tokens ++ tail →
    ∃ (t : State) (off : Nat), exec .lzDecode s = .next t ∧ t.outBytes = bs ∧ Memory.slice t.fnameMem 0 f.length = f ∧
      Memory.exactly t.fnameMem 0 f.length ∧ t.dictMem = g.dict.reverse.take (g.tokens.length - 1) ∧
      8 * off = (nulField f ++ nulField (beMin bs.length) ++ nulField (beMin (ceilLog2 g.dict.count))).length ∧
      cursorPos t = .ok (8 * off + g.tokens.length * (ceilLog2 g.dict.count + 8)) ∧
      (∀ a, bs.length ≤ a → Memory.read t.outMem a = Memory.read s.outMem a) ∧
      t = { s with
        fnameMem := t.fnameMem
        fnameLen := some (BitVec.ofNat 32 f.length)
        fileSize := some (BitVec.ofNat 32 bs.length)
        payloadOff := some (BitVec.ofNat 32 off)
        brByte := t.brByte
        brBit := t.brBit
        dictMem := t.dictMem
        dictSize := some (BitVec.ofNat 32 (g.tokens.length - 1))
        indexWidth := some (BitVec.ofNat 6 (ceilLog2 g.dict.count))
        outMem := t.outMem
        outLen := some (BitVec.ofNat 32 bs.length)
        bpAcc := some 0
        bpNbits := some 0
        status := { s.status with busy := false, done := true, err := false, errCode := 0, dictValid := true } }) ∧
  (∀ (s : State) (cs f z rest w payload : List Byte) (toks : List Entry) (segs : List (List Byte)) (fin : BitStr),
    s.inputIs cs → cs.length ≤ s.params.inMax → Memory.wf s.outMem → legalHeader s.params cs f z rest →
    legalWidth rest w payload → tokenStream (beVal w) payload toks fin → replaySegments [] toks = some segs →
    segs.flatten.length = beVal z →
    ∃ t : State, exec .lzDecode s = .next t ∧ t.outBytes = segs.flatten ∧ Memory.slice t.fnameMem 0 f.length = f ∧
      Memory.exactly t.fnameMem 0 f.length ∧ Memory.holds t.dictMem 1 toks.dropLast ∧
      Memory.exactly t.dictMem 1 (toks.length - 1) ∧ cursorPos t = .ok (8 * cs.length - fin.length) ∧
      (∀ a, beVal z ≤ a → Memory.read t.outMem a = Memory.read s.outMem a) ∧
      t = { s with
        fnameMem := t.fnameMem
        fnameLen := some (BitVec.ofNat 32 f.length)
        fileSize := some (BitVec.ofNat 32 (beVal z))
        payloadOff := some (BitVec.ofNat 32 (cs.length - payload.length))
        brByte := t.brByte
        brBit := t.brBit
        dictMem := t.dictMem
        dictSize := some (BitVec.ofNat 32 (toks.length - 1))
        indexWidth := some (BitVec.ofNat 6 (beVal w))
        outMem := t.outMem
        outLen := some (BitVec.ofNat 32 (beVal z))
        bpAcc := some 0
        bpNbits := some 0
        status := { s.status with busy := false, done := true, err := false, errCode := 0, dictValid := true } })

/-- The LZ78 round trip (44_lz78.md R287): what LZ_ENCODE writes for NUL-safe fields, LZ_DECODE turns back into the data
and the filename, on any block whose memories are large enough. -/
def Obligations.LzRoundTrip : Prop :=
  ∀ (s t s' : State) (bs f : List Byte), s.inputIs bs → s.nameIs f → s.params.outMax < 2 ^ 32 → Memory.wf s.outMem →
    0 ∉ f → 0 ∉ beMin bs.length → exec .lzEncode s = .next t → t.status.err = false →
    s'.inputIs t.outBytes → t.outBytes.length ≤ s'.params.inMax → bs.length ≤ s'.params.outMax →
    f.length ≤ s'.params.fnameMax → Memory.wf s'.outMem →
    ∃ t' : State, exec .lzDecode s' = .next t' ∧ t'.status.err = false ∧ t'.outBytes = bs ∧ t'.nameIs f

/-! ## The host's side -/

/-- While no command runs, a host access of a read is the next step (20_memory.md R82): it observes the value of the register,
byte or word, or faults if that is UNSPECIFIED (60_exceptions.md R323). Host reads have no side effects (R84): a read that
does not fault changes nothing but what the host has observed (log 3; the event form is log 2), and reading again gives the
same value. -/
def Obligations.HostReadsHaveNoSideEffects : Prop :=
  (∀ (s : State) (es : List Event) (a : Access) (x : Except Fault Word), s.status.busy = false →
    s.events = .host a :: es →
    (∃ i, a = .readReg i ∧ x = hostReadReg s i) ∨ (∃ sp i, a = .readByte sp i ∧ x = hostReadByte s sp i) ∨
      (∃ sp i, a = .readWord sp i ∧ x = hostReadWord s sp i) →
    (∀ v, x = .ok v → step s = .next { s with events := es, observed := s.observed ++ [v] }) ∧
      (∀ f, x = .error f → step s = .fault f)) ∧
  (∀ (s t : State) (a : Access) (es : List Event),
    (∃ i, a = .readReg i) ∨ (∃ sp i, a = .readByte sp i) ∨ (∃ sp i, a = .readWord sp i) →
    s.events = .host a :: .host a :: es → step s = .next t →
    ∃ v, t = { s with events := .host a :: es, observed := s.observed ++ [v] } ∧
      step t = .next { s with events := es, observed := s.observed ++ [v, v] })

/-- What the host cannot reach (10_state.md R32, 20_memory.md R83), while no command runs: reserved and out-of-range
indices read 0, and writes to them, to read-only registers and to read-only memories have no effect. -/
def Obligations.UnreachableHostAccesses : Prop :=
  ∀ s : State, s.status.busy = false →
    (∀ i, 0x12 ≤ i → hostReadReg s i = .ok 0 ∧ ∀ v, hostWriteReg s i v = s) ∧
    (∀ i ∈ ([0x01, 0x04, 0x07, 0x08, 0x09, 0x0A, 0x0B, 0x0C, 0x0D, 0x0E, 0x11] : List Nat), ∀ v,
      hostWriteReg s i v = s) ∧
    (∀ i, s.params.inMax ≤ i → hostReadByte s .input i = .ok 0 ∧ ∀ b, hostWriteByte s .input i b = s) ∧
    (∀ i, s.params.fnameMax ≤ i → hostReadByte s .fname i = .ok 0 ∧ ∀ b, hostWriteByte s .fname i b = s) ∧
    (∀ i, (s.params.outMax ≤ i → hostReadByte s .output i = .ok 0) ∧ ∀ b, hostWriteByte s .output i b = s) ∧
    (∀ sp i, wordCount s.params sp ≤ i → hostReadWord s sp i = .ok 0) ∧
    (∀ sp i w, hostAccess s (.writeWord sp i w) = .next s)

/-- While no command runs, a host access of a write to a register or a byte is the next step and stores its value
(20_memory.md R82, the event form is log 2), and a write to a word space changes nothing (R83). A value the host writes to a
register is read back by the next read, and no other register and no memory changes (70_reset_and_hazards.md R352); BR_BIT keeps bits [2:0] (10_state.md R52). A byte written to IN or FNAME is the element's
value and nothing else changes: below IN_LEN it reads back; at or beyond IN_LEN a read of IN faults (10_state.md R43,
60_exceptions.md R323), and the byte reads once IN_LEN covers it. That a byte beyond IN_LEN is kept so, and that a byte of
FNAME reads back wherever FNAME_LEN stands, is the model's choice between R352 and U5, log 9. -/
def Obligations.HostWritesReadBack : Prop :=
  ∀ s : State,
    (∀ es, s.status.busy = false →
      (∀ i v, s.events = .host (.writeReg i v) :: es → step s = .next (hostWriteReg { s with events := es } i v)) ∧
      (∀ sp i b, s.events = .host (.writeByte sp i b) :: es →
        step s = .next (hostWriteByte { s with events := es } sp i b)) ∧
      (∀ sp i w, s.events = .host (.writeWord sp i w) :: es → step s = .next { s with events := es })) ∧
    (∀ r ∈ ([.arg0, .arg1, .inLen, .fnameLen, .brByte] : List Reg), ∀ v t, t = hostWriteReg s r.index v →
      hostReadReg t r.index = .ok v ∧ (∀ q, q ≠ r → readRegister t q = readRegister s q) ∧
        t = { s with arg0 := t.arg0, arg1 := t.arg1, inLen := t.inLen, fnameLen := t.fnameLen, brByte := t.brByte }) ∧
    (∀ v t, t = hostWriteReg s 0x10 v →
      hostReadReg t 0x10 = .ok (v &&& 7) ∧ (∀ q, q ≠ .brBit → readRegister t q = readRegister s q) ∧
        t = { s with brBit := t.brBit }) ∧
    (∀ i b t, i < s.params.inMax → Memory.wf s.inMem → t = hostWriteByte s .input i b →
      (i < s.inLen.toNat → hostReadByte t .input i = .ok (b.setWidth 32)) ∧
        (s.inLen.toNat ≤ i → hostReadByte t .input i = .error (.unspecifiedByte .input i)) ∧
        (∀ n : Word, i < n.toNat → hostReadByte (hostWriteReg t 0x05 n) .input i = .ok (b.setWidth 32)) ∧
        (∀ j, j ≠ i → Memory.read t.inMem j = Memory.read s.inMem j ∧
          hostReadByte t .input j = hostReadByte s .input j) ∧
        t = { s with inMem := t.inMem }) ∧
    (∀ i b t, i < s.params.fnameMax → Memory.wf s.fnameMem → t = hostWriteByte s .fname i b →
      hostReadByte t .fname i = .ok (b.setWidth 32) ∧
        (∀ j, j ≠ i → hostReadByte t .fname j = hostReadByte s .fname j) ∧ t = { s with fnameMem := t.fnameMem })

/-- What the host reads. The registers, each at its index with zeros above its width (10_state.md R31, R34): one that can be
UNSPECIFIED while it is specified, one that a flag covers while the flag is 1, or while it still holds its reset value 0
(R40; that the value tells so is log 11). STATUS, with its fields at their places and zeros elsewhere (R35). The word views of
FREQ (R58, 20_memory.md R80: word s is FREQ[s]), NODE, DICT and TOK (R88 to R90). -/
def Obligations.NodeDictTokViews : Prop :=
  ∀ s : State,
    (hostReadReg s 0x00 = .ok s.cmd ∧ hostReadReg s 0x02 = .ok s.arg0 ∧ hostReadReg s 0x03 = .ok s.arg1 ∧
      hostReadReg s 0x04 = .ok s.result ∧ hostReadReg s 0x05 = .ok s.inLen) ∧
    ((∀ v, s.fnameLen = some v → hostReadReg s 0x06 = .ok v) ∧ (∀ v, s.outLen = some v → hostReadReg s 0x07 = .ok v) ∧
      (∀ v, s.fileSize = some v → hostReadReg s 0x08 = .ok v) ∧
      (∀ v, s.bpAcc = some v → hostReadReg s 0x0D = .ok (v.setWidth 32)) ∧
      (∀ v, s.bpNbits = some v → hostReadReg s 0x0E = .ok (v.setWidth 32)) ∧
      (∀ v, s.brByte = some v → hostReadReg s 0x0F = .ok v) ∧
      (∀ v, s.brBit = some v → hostReadReg s 0x10 = .ok (v.setWidth 32)) ∧
      (∀ v, s.payloadOff = some v → hostReadReg s 0x11 = .ok v)) ∧
    ((s.status.treeValid = true ∨ s.root = 0 → hostReadReg s 0x09 = .ok (s.root.setWidth 32)) ∧
      (∀ v, s.dictSize = some v → s.status.dictValid = true ∨ v = 0 → hostReadReg s 0x0A = .ok v) ∧
      (∀ v, s.indexWidth = some v → s.status.dictValid = true ∨ v = 0 → hostReadReg s 0x0B = .ok (v.setWidth 32)) ∧
      (s.status.tokensValid = true ∨ s.tokenCount = 0 → hostReadReg s 0x0C = .ok s.tokenCount)) ∧
    (∃ w, hostReadReg s 0x01 = .ok w ∧ w.getLsbD 0 = s.status.busy ∧ w.getLsbD 1 = s.status.done ∧
      w.getLsbD 2 = s.status.err ∧ w.getLsbD 3 = false ∧ w.extractLsb' 4 4 = s.status.errCode ∧
      w.getLsbD 8 = s.status.freqValid ∧ w.getLsbD 9 = s.status.treeValid ∧ w.getLsbD 10 = s.status.codesValid ∧
      w.getLsbD 11 = s.status.tokensValid ∧ w.getLsbD 12 = s.status.dictValid ∧ w.extractLsb' 13 19 = 0) ∧
    (∀ k c, k < 256 → s.status.freqValid = true → Memory.read s.freqMem k = some c → hostReadWord s .freq k = .ok c) ∧
    (∀ i nd, i ≤ 510 → s.status.treeValid = true → Memory.read s.nodeMem i = some nd →
      hostReadWord s .node (2 * i) = .ok nd.weight ∧
      ∃ w, hostReadWord s .node (2 * i + 1) = .ok w ∧ w.extractLsb' 0 9 = nd.right ∧ w.extractLsb' 9 9 = nd.left ∧
        w.extractLsb' 18 8 = nd.sym ∧ w.extractLsb' 26 5 = 0 ∧ w.getLsbD 31 = nd.leaf) ∧
    (hostReadWord s .dict 0 = .ok 0 ∧ hostReadWord s .dict 1 = .ok 0) ∧
    (∀ k e, 1 ≤ k → k ≤ s.params.dictMax → s.status.dictValid = true → Memory.read s.dictMem k = some e →
      hostReadWord s .dict (2 * k) = .ok e.pfx ∧ hostReadWord s .dict (2 * k + 1) = .ok (e.byte.setWidth 32)) ∧
    (∀ k e, k < s.params.tokMax → s.status.tokensValid = true → Memory.read s.tokMem k = some e →
      hostReadWord s .tok (2 * k) = .ok e.pfx ∧ hostReadWord s .tok (2 * k + 1) = .ok (e.byte.setWidth 32))

/-- The host's word view of CODE (20_memory.md R91): the length, then the code left-justified in 256 bits, zeros after it. -/
def Obligations.CodeView : Prop :=
  ∀ (s : State) (k : Nat) (c : BitStr), k ≤ 255 → s.status.codesValid = true → Memory.read s.codeMem k = some c →
    c.length ≤ 255 →
    hostReadWord s .code (9 * k) = .ok (BitVec.ofNat 32 c.length) ∧
    ∀ n < 256, ∃ w, hostReadWord s .code (9 * k + 1 + n / 32) = .ok w ∧
      w.getLsbD (31 - n % 32) = c.getD n false

/-- A host read of UNSPECIFIED state faults the run and names what was read (60_exceptions.md R323): every register that can
be UNSPECIFIED (10_state.md R40, R313; for a register under a flag of 0 the value tells whether it still holds its reset
value, which is the model's choice, log 11); a byte that is not written, or IN at or beyond IN_LEN, or OUT at or beyond
OUT_LEN (R43, R56); and every record of the five word spaces that is not written or whose flag is 0 (R40). The event form is
log 2. -/
def Obligations.UnspecifiedReadsFault : Prop :=
  ∀ (s : State) (es : List Event), s.status.busy = false →
    (∀ r, s.unspecified r → s.events = .host (.readReg r.index) :: es → step s = .fault (.unspecifiedReg r)) ∧
    (∀ sp i, i < byteCount s.params sp → s.unspecifiedAt i sp → s.events = .host (.readByte sp i) :: es →
      step s = .fault (.unspecifiedByte sp i)) ∧
    (∀ sp i k, i < wordCount s.params sp → k = i / sp.perRecord → (sp = .dict → k ≠ 0) → s.unspecifiedRecord k sp →
      s.events = .host (.readWord sp i) :: es → step s = .fault (.unspecifiedRecord sp k))

/-! ## Invariants of every step -/

/-- The reset state meets every invariant below, for all legal parameters. -/
def Obligations.ResetMeetsTheInvariants : Prop :=
  ∀ P : Params, (State.resetWith P).memoriesOk ∧ (State.resetWith P).inRange ∧ (State.resetWith P).status.legal ∧
    (State.resetWith P).packerOk ∧ (State.resetWith P).flagsOk ∧ (State.resetWith P).params = P

/-- Every step keeps the memories' canonical form and the parameters, whichever agent moves. -/
def Obligations.StepKeepsMemoriesCanonical : Prop :=
  ∀ s t : State, s.memoriesOk → step s = .next t → t.memoriesOk ∧ t.params = s.params

/-- Every step keeps every memory within its capacity: nothing is ever stored past IN_MAX, OUT_MAX, FNAME_MAX, DICT_MAX or
TOK_MAX (00_scope.md R8, 42_bitio.md R222). -/
def Obligations.StepKeepsMemoriesInRange : Prop :=
  ∀ s t : State, s.params.wf = true → s.inRange → step s = .next t → t.inRange

/-- Every step keeps STATUS legal (10_state.md R36 to R39). -/
def Obligations.StepKeepsStatusLegal : Prop :=
  ∀ s t : State, s.status.legal → step s = .next t → t.status.legal

/-- Every step keeps the packer state legal: OUT_LEN ≤ OUT_MAX, BP_ACC < 2^BP_NBITS, OUT[0..OUT_LEN) written (10_state.md
R45, R51, 42_bitio.md R210). -/
def Obligations.StepKeepsPackerLegal : Prop :=
  ∀ s t : State, s.params.wf = true → Memory.wf s.outMem → s.packerOk → step s = .next t → t.packerOk

/-- Every step keeps what the validity flags say about the memories and registers they cover (10_state.md R40, R61). -/
def Obligations.StepKeepsFlagsTrue : Prop :=
  ∀ s t : State, s.flagsOk → step s = .next t → t.flagsOk
end

