-- ==== Sys2Proof/Laws/Bits.lean ====
section
/-! SUPPORT. Bit strings, the numbers they stand for, and the bits of bytes (00_scope.md R11, 42_bitio.md R210). -/

namespace Sys2Proof.Machine

@[simp] theorem bitsMSB_zero (v : Nat) : bitsMSB v 0 = [] := rfl

@[simp] theorem bitsMSB_length (v n : Nat) : (bitsMSB v n).length = n := by
  induction n with
  | zero => rfl
  | succ n ih => simp [bitsMSB, ih]

/-- Bit i of the string is bit n − 1 − i of the number. -/
theorem bitsMSB_getElem? (v n i : Nat) (h : i < n) : (bitsMSB v n)[i]? = some (v.testBit (n - 1 - i)) := by
  induction n generalizing i with
  | zero => omega
  | succ n ih =>
    cases i with
    | zero => simp [bitsMSB]
    | succ i =>
      have := ih i (by omega)
      simp only [bitsMSB, List.getElem?_cons_succ, this]
      rw [show n + 1 - 1 - (i + 1) = n - 1 - i by omega]

/-- Only the low n bits count. -/
@[simp] theorem bitsMSB_mod (v n : Nat) : bitsMSB (v % 2 ^ n) n = bitsMSB v n := by
  apply List.ext_getElem?
  intro i
  by_cases h : i < n
  · rw [bitsMSB_getElem? _ _ _ h, bitsMSB_getElem? _ _ _ h, Nat.testBit_mod_two_pow]
    simp [show n - 1 - i < n by omega]
  · rw [List.getElem?_eq_none (by simp; omega), List.getElem?_eq_none (by simp; omega)]

/-- The bits of a number split at any point. -/
theorem bitsMSB_add (v m n : Nat) : bitsMSB v (m + n) = bitsMSB (v / 2 ^ n) m ++ bitsMSB v n := by
  induction m with
  | zero => simp
  | succ m ih => rw [show m + 1 + n = (m + n) + 1 by omega]; simp [bitsMSB, ih, Nat.testBit_div_two_pow]

/-- One more bit on the right. -/
theorem bitsMSB_snoc (v n : Nat) (b : Bool) : bitsMSB (2 * v + b.toNat) (n + 1) = bitsMSB v n ++ [b] := by
  rw [bitsMSB_add _ n 1, show (2 * v + b.toNat) / 2 ^ 1 = v by cases b <;> simp; omega]
  cases b <;> simp [bitsMSB]

@[simp] theorem bitsVal_nil : bitsVal [] = 0 := rfl

theorem bitsVal_snoc (bs : BitStr) (b : Bool) : bitsVal (bs ++ [b]) = 2 * bitsVal bs + b.toNat := by
  simp [bitsVal]

theorem bitsVal_append (as bs : BitStr) : bitsVal (as ++ bs) = bitsVal as * 2 ^ bs.length + bitsVal bs := by
  induction bs using List.reverseRecOn with
  | nil => simp
  | append_singleton bs b ih =>
    rw [← List.append_assoc, bitsVal_snoc, ih, bitsVal_snoc, List.length_append, Nat.pow_add]
    simp; ring

theorem bitsVal_lt (bs : BitStr) : bitsVal bs < 2 ^ bs.length := by
  induction bs using List.reverseRecOn with
  | nil => simp
  | append_singleton bs b ih =>
    rw [bitsVal_snoc]; cases b <;> simp [Nat.pow_succ] <;> omega

/-- A bit string is the bits of its number. -/
@[simp] theorem bitsMSB_bitsVal (bs : BitStr) : bitsMSB (bitsVal bs) bs.length = bs := by
  induction bs using List.reverseRecOn with
  | nil => rfl
  | append_singleton bs b ih => simp [bitsVal_snoc, bitsMSB_snoc, ih]

/-- The number of the low n bits. -/
@[simp] theorem bitsVal_bitsMSB (v n : Nat) : bitsVal (bitsMSB v n) = v % 2 ^ n := by
  induction n generalizing v with
  | zero => simp [Nat.mod_one]
  | succ n ih =>
    rw [bitsMSB_add v n 1, bitsVal_append, ih, show n + 1 = 1 + n by omega, Nat.pow_add, Nat.mod_mul]
    simp [bitsMSB, bitsVal]
    rw [Nat.mul_comm, Nat.add_comm]
    rcases Nat.mod_two_eq_zero_or_one v with h | h <;> simp [h]

/-- Equal widths and equal bits are equal low parts. -/
theorem bitsMSB_inj {v w n : Nat} (h : bitsMSB v n = bitsMSB w n) : v % 2 ^ n = w % 2 ^ n := by
  rw [← bitsVal_bitsMSB, h, bitsVal_bitsMSB]

@[simp] theorem bytesBits_nil : bytesBits [] = [] := rfl

@[simp] theorem bytesBits_cons (b : Byte) (bs : List Byte) : bytesBits (b :: bs) = bitsMSB b.toNat 8 ++ bytesBits bs := by
  simp [bytesBits]

@[simp] theorem bytesBits_append (as bs : List Byte) : bytesBits (as ++ bs) = bytesBits as ++ bytesBits bs := by
  simp [bytesBits]

@[simp] theorem bytesBits_length (bs : List Byte) : (bytesBits bs).length = 8 * bs.length := by
  induction bs with
  | nil => rfl
  | cons b bs ih => simp [ih]; omega

/-- Bit `pos` of the bits of bytes is bit 7 − (pos mod 8) of byte floor(pos/8) (20_memory.md R86). -/
theorem bytesBits_getElem? (bs : List Byte) (pos : Nat) :
    (bytesBits bs)[pos]? = (bs[pos / 8]?).map fun b => b.toNat.testBit (7 - pos % 8) := by
  induction bs generalizing pos with
  | nil => simp
  | cons b bs ih =>
    rw [bytesBits_cons]
    by_cases h : pos < 8
    · rw [List.getElem?_append_left (by simpa using h), bitsMSB_getElem? _ _ _ h, show pos / 8 = 0 by omega,
        show pos % 8 = pos by omega]
      simp
    · rw [List.getElem?_append_right (by simp; omega), ih, bitsMSB_length,
        show pos / 8 = (pos - 8) / 8 + 1 by omega, show (pos - 8) % 8 = pos % 8 by omega]
      simp

/-- The bits of bytes determine the bytes. -/
theorem bytesBits_inj {as bs : List Byte} (h : bytesBits as = bytesBits bs) : as = bs := by
  induction as generalizing bs with
  | nil =>
    have := congrArg List.length h
    simp at this
    simp [this]
  | cons a as ih =>
    cases bs with
    | nil => have := congrArg List.length h; simp at this
    | cons b bs =>
      simp only [bytesBits_cons] at h
      obtain ⟨h1, h2⟩ := List.append_inj h (by simp)
      have := bitsMSB_inj h1
      have ha := a.isLt
      have hb := b.isLt
      rw [Nat.mod_eq_of_lt ha, Nat.mod_eq_of_lt hb] at this
      rw [BitVec.eq_of_toNat_eq this, ih h2]

@[simp] theorem zeros_length (n : Nat) : (zeros n).length = n := by simp [zeros]

@[simp] theorem zeros_zero : zeros 0 = [] := rfl

/-- The bits of a multiple of a power of two end in zeros. -/
theorem bitsMSB_mul_pow (v m n : Nat) : bitsMSB (v * 2 ^ n) (m + n) = bitsMSB v m ++ zeros n := by
  have hz : ∀ k, bitsMSB 0 k = zeros k := fun k => by
    induction k with
    | zero => rfl
    | succ k ih => simp [bitsMSB, ih, zeros, List.replicate_succ]
  rw [bitsMSB_add, Nat.mul_div_cancel _ (by positivity), ← bitsMSB_mod (v * 2 ^ n) n, Nat.mul_mod_left, hz]

end Sys2Proof.Machine
end

