-- ==== Sys2Proof/Laws/Finish.lean ====
section
/-! SUPPORT. How a command ends, and everything an argument check can answer (40_command.md R162, 60_exceptions.md R320 to
R322). -/

namespace Sys2Proof.Machine

@[simp] theorem finish_done (s : State) : finish (.done s) = .next (s.complete none) := rfl
@[simp] theorem finish_raised (e : ErrCode) (s : State) : finish (.raised e s) = .next (s.complete (some e)) := rfl
@[simp] theorem finish_faulted (f : Fault) : finish (.faulted f) = .fault f := rfl
@[simp] theorem stopAt_raise (s : State) (e : ErrCode) : stopAt s (.raise e) = .raised e s := rfl
@[simp] theorem stopAt_fault (s : State) (f : Fault) : stopAt s (.fault f) = .faulted f := rfl

/-- A command that completes has completed with success or with one error (R161, R162). -/
theorem finish_next_iff {p : Perf} {t : State} :
    finish p = .next t ↔
      (∃ s, p = .done s ∧ t = s.complete none) ∨ (∃ e s, p = .raised e s ∧ t = s.complete (some e)) := by
  cases p <;> simp [finish, eq_comm]

/-- No command's meaning refuses. -/
theorem finish_ne_refused {p : Perf} {r : Refusal} : finish p ≠ .refused r := by
  cases p <;> simp [finish]

/-- The code of a completion is 0 exactly for success. -/
@[simp] theorem completionCode_eq_zero {e : Option ErrCode} : completionCode e = 0 ↔ e = none := by
  cases e with
  | none => simp [completionCode]
  | some e => cases e <;> simp [completionCode, ErrCode.code]

/-- Everything the check of IN_LEN against IN_MAX can answer. -/
theorem checkInMax_cases (s : State) :
    (s.inLen.toNat ≤ s.params.inMax ∧ checkInMax s = .ok ()) ∨
      (s.params.inMax < s.inLen.toNat ∧ checkInMax s = .error (.raise .invalidArgument)) := by
  by_cases h : s.params.inMax < s.inLen.toNat
  · exact .inr ⟨h, by simp [checkInMax, h]⟩
  · exact .inl ⟨by omega, by simp [checkInMax, h]⟩

/-- Everything the check of the original data can answer (41_huffman_tree.md R180). -/
theorem checkData_cases (s : State) :
    (s.inLen ≠ 0 ∧ s.inLen.toNat ≤ s.params.inMax ∧ checkData s = .ok ()) ∨
      (s.inLen = 0 ∧ checkData s = .error (.raise .emptyInput)) ∨
      (s.inLen ≠ 0 ∧ s.params.inMax < s.inLen.toNat ∧ checkData s = .error (.raise .invalidArgument)) := by
  by_cases h : s.inLen = 0
  · exact .inr (.inl ⟨h, by simp [checkData, h]⟩)
  · rcases checkInMax_cases s with ⟨h1, h2⟩ | ⟨h1, h2⟩
    · exact .inl ⟨h, h1, by rw [checkData, if_neg h, h2]⟩
    · exact .inr (.inr ⟨h, h1, by rw [checkData, if_neg h, h2]⟩)

/-- The scan of FNAME for a zero byte answers yes, no, or the fault of an UNSPECIFIED element. -/
theorem fnameHasZero_cases (s : State) (a n : Nat) :
    (∃ b, fnameHasZero s a n = .ok b) ∨ (∃ f, fnameHasZero s a n = .error (.fault f)) := by
  induction n generalizing a with
  | zero => exact .inl ⟨false, rfl⟩
  | succ n ih =>
    unfold fnameHasZero
    split
    · exact .inr ⟨_, rfl⟩
    · split
      · exact .inl ⟨true, rfl⟩
      · exact ih (a + 1)

/-- The NUL-safety check answers pass, UnencodableHeader or a fault (43_huffman_container.md R241). -/
theorem checkNulSafe_cases (s : State) (n : Nat) :
    checkNulSafe s n = .ok () ∨ checkNulSafe s n = .error (.raise .unencodableHeader) ∨
      ∃ f, checkNulSafe s n = .error (.fault f) := by
  unfold checkNulSafe
  split
  · exact .inl rfl
  · split
    · rename_i e h
      rcases fnameHasZero_cases s 0 n with ⟨b, hb⟩ | ⟨f, hf⟩
      · rw [hb] at h; cases h
      · rw [hf] at h; cases h; exact .inr (.inr ⟨f, rfl⟩)
    · exact .inr (.inl rfl)
    · split
      · exact .inr (.inl rfl)
      · exact .inl rfl

/-- Everything the encoders' argument checks can answer (43_huffman_container.md R241): FNAME_LEN within its bound, one of
the three errors, or a fault. -/
theorem checkEncode_cases (s : State) :
    (∃ n, s.fnameLen = some n ∧ s.inLen ≠ 0 ∧ s.inLen.toNat ≤ s.params.inMax ∧ n.toNat ≤ s.params.fnameMax ∧
        checkEncode s = .ok n.toNat) ∨
      (∃ e, e ∈ ([.emptyInput, .invalidArgument, .unencodableHeader] : List ErrCode) ∧
        checkEncode s = .error (.raise e)) ∨
      (∃ f, checkEncode s = .error (.fault f)) := by
  rcases checkData_cases s with ⟨h0, h1, h⟩ | ⟨-, h⟩ | ⟨-, -, h⟩
  · cases hn : s.fnameLen with
    | none => exact .inr (.inr ⟨.unspecifiedReg .fnameLen, by simp [checkEncode, h, hn, needReg]⟩)
    | some n =>
      by_cases hm : s.params.fnameMax < n.toNat
      · exact .inr (.inl ⟨.invalidArgument, by simp, by simp [checkEncode, h, hn, needReg, hm]⟩)
      · rcases checkNulSafe_cases s n.toNat with hc | hc | ⟨f, hc⟩
        · exact .inl ⟨n, rfl, h0, h1, by omega, by simp [checkEncode, h, hn, needReg, hm, hc]⟩
        · exact .inr (.inl ⟨.unencodableHeader, by simp, by simp [checkEncode, h, hn, needReg, hm, hc]⟩)
        · exact .inr (.inr ⟨f, by simp [checkEncode, h, hn, needReg, hm, hc]⟩)
  · exact .inr (.inl ⟨.emptyInput, by simp, by simp [checkEncode, h]⟩)
  · exact .inr (.inl ⟨.invalidArgument, by simp, by simp [checkEncode, h]⟩)

end Sys2Proof.Machine
end

