-- ==== Sys2Proof/Laws/Memory.lean ====
section
/-! SUPPORT. What reading and writing a memory do, and that writing keeps the canonical form. -/

namespace Sys2Proof.Machine

variable {α : Type}

@[simp] theorem Memory.read_nil (a : Nat) : Memory.read ([] : Memory α) a = none := rfl

@[simp] theorem Memory.read_cons (b : Nat) (w : α) (m : Memory α) (a : Nat) :
    Memory.read ((b, w) :: m) a = if a = b then some w else Memory.read m a := rfl

/-- An element below every listed index is unlisted. -/
theorem Memory.read_none_of_lt {m : Memory α} {a : Nat} (h : ∀ x ∈ m, a < x.1) : Memory.read m a = none := by
  induction m with
  | nil => rfl
  | cons x m ih =>
    have hx := h x (by simp)
    rw [show x = (x.1, x.2) from rfl, Memory.read_cons, if_neg (by omega)]
    exact ih fun y hy => h y (by simp [hy])

/-- What is read is listed. -/
theorem Memory.mem_of_read {m : Memory α} {a : Nat} {v : α} (h : Memory.read m a = some v) : (a, v) ∈ m := by
  induction m with
  | nil => simp at h
  | cons x m ih =>
    obtain ⟨b, w⟩ := x
    rw [Memory.read_cons] at h
    split at h
    · simp_all
    · exact List.mem_cons_of_mem _ (ih h)

/-- In a canonical memory what is listed is read. -/
theorem Memory.read_of_mem {m : Memory α} (hm : m.wf) {a : Nat} {v : α} (h : (a, v) ∈ m) :
    Memory.read m a = some v := by
  induction m with
  | nil => simp at h
  | cons x m ih =>
    obtain ⟨b, w⟩ := x
    rw [Memory.read_cons]
    rcases List.mem_cons.1 h with e | e
    · simp [(Prod.mk.inj e).1, (Prod.mk.inj e).2]
    · have := (List.pairwise_cons.1 hm).1 _ e
      rw [if_neg (by simp only at this; omega)]
      exact ih (List.pairwise_cons.1 hm).2 e

/-- A written element reads back. -/
@[simp] theorem Memory.read_write_same (m : Memory α) (a : Nat) (v : α) :
    Memory.read (Memory.write m a v) a = some v := by
  induction m with
  | nil => simp [Memory.write]
  | cons x m ih =>
    obtain ⟨b, w⟩ := x
    unfold Memory.write
    split
    · simp
    · split
      · simp
      · simp [*]

/-- A write leaves every other element alone, in a canonical memory. -/
theorem Memory.read_write_other {m : Memory α} (hm : m.wf) {a b : Nat} (v : α) (h : b ≠ a) :
    Memory.read (Memory.write m a v) b = Memory.read m b := by
  induction m with
  | nil => simp [Memory.write, h]
  | cons x m ih =>
    obtain ⟨c, w⟩ := x
    unfold Memory.write
    split
    · simp [h]
    · split
      · rename_i e
        simp [h, ← e]
      · simp [ih (List.pairwise_cons.1 hm).2]

/-- The indices listed after a write. -/
theorem Memory.index_of_mem_write {m : Memory α} {a : Nat} {v : α} {x : Nat × α}
    (h : x ∈ Memory.write m a v) : x.1 = a ∨ x ∈ m := by
  induction m with
  | nil => simp_all [Memory.write]
  | cons y m ih =>
    obtain ⟨b, w⟩ := y
    unfold Memory.write at h
    split at h
    · rcases List.mem_cons.1 h with e | e
      · simp [e]
      · exact .inr e
    · split at h
      · rcases List.mem_cons.1 h with e | e
        · simp [e]
        · exact .inr (List.mem_cons_of_mem _ e)
      · rcases List.mem_cons.1 h with e | e
        · simp [e]
        · exact (ih e).imp_right (List.mem_cons_of_mem _)

/-- A write keeps the canonical form. -/
theorem Memory.wf_write {m : Memory α} (hm : m.wf) (a : Nat) (v : α) : (Memory.write m a v).wf := by
  induction m with
  | nil => simp [Memory.write, Memory.wf]
  | cons x m ih =>
    obtain ⟨b, w⟩ := x
    obtain ⟨hb, hr⟩ := List.pairwise_cons.1 hm
    unfold Memory.write
    split
    · rename_i h
      refine List.pairwise_cons.2 ⟨fun y hy => ?_, hm⟩
      rcases List.mem_cons.1 hy with e | e
      · simpa [e] using h
      · exact Nat.lt_trans h (hb y e)
    · split
      · rename_i e
        exact List.pairwise_cons.2 ⟨fun y hy => by simpa [e] using hb y hy, hr⟩
      · refine List.pairwise_cons.2 ⟨fun y hy => ?_, ih hr⟩
        rcases Memory.index_of_mem_write hy with e | e
        · simp only [e]; omega
        · exact hb y e

/-- Writes to consecutive elements keep the canonical form. -/
theorem Memory.wf_writeList {m : Memory α} (hm : m.wf) (a : Nat) (vs : List α) : (m.writeList a vs).wf := by
  induction vs generalizing a with
  | nil => exact hm
  | cons v vs ih => exact Memory.wf_write (ih (a + 1)) a v

/-- What consecutive writes leave at any element. -/
theorem Memory.read_writeList {m : Memory α} (hm : m.wf) (a : Nat) (vs : List α) (b : Nat) :
    Memory.read (m.writeList a vs) b =
      if a ≤ b ∧ b < a + vs.length then vs[b - a]? else Memory.read m b := by
  induction vs generalizing a with
  | nil => simp [Memory.writeList]
  | cons v vs ih =>
    unfold Memory.writeList
    by_cases e : b = a
    · subst e; simp
    · rw [Memory.read_write_other (Memory.wf_writeList hm _ _) v e, ih]
      by_cases h : a + 1 ≤ b ∧ b < a + 1 + vs.length
      · rw [if_pos h, if_pos (by simp; omega), show b - a = (b - (a + 1)) + 1 by omega]; simp
      · rw [if_neg h, if_neg (by simp; omega)]

/-- The indices listed after consecutive writes. -/
theorem Memory.index_of_mem_writeList {m : Memory α} {a : Nat} {vs : List α} {x : Nat × α}
    (h : x ∈ m.writeList a vs) : (a ≤ x.1 ∧ x.1 < a + vs.length) ∨ x ∈ m := by
  induction vs generalizing a with
  | nil => exact .inr h
  | cons v vs ih =>
    rcases Memory.index_of_mem_write h with e | e
    · left; simp only [List.length_cons]; omega
    · rcases ih e with h' | h'
      · left; simp only [List.length_cons]; omega
      · exact .inr h'

/-- A range of elements that are all listed is read whole. -/
theorem readRange_ok {f : Nat → Fault} {m : Memory α} {a : Nat} {vs : List α}
    (h : ∀ i < vs.length, Memory.read m (a + i) = vs[i]?) : readRange f m a vs.length = .ok vs := by
  induction vs generalizing a with
  | nil => rfl
  | cons v vs ih =>
    have h0 := h 0 (by simp)
    simp only [Nat.add_zero, List.getElem?_cons_zero] at h0
    have ih' := ih (a := a + 1) fun i hi => by
      have := h (i + 1) (by simpa using hi)
      simpa [Nat.add_assoc, Nat.add_comm 1 i] using this
    simp [readRange, h0, ih']

/-- Everything a range read can answer: the elements, all listed, or the fault of the first one that is not. -/
theorem readRange_cases {f : Nat → Fault} {m : Memory α} {a n : Nat} :
    (∃ vs : List α, vs.length = n ∧ (∀ i < n, Memory.read m (a + i) = vs[i]?) ∧ readRange f m a n = .ok vs) ∨
    (∃ i, a ≤ i ∧ i < a + n ∧ Memory.read m i = none ∧ readRange f m a n = .error (.fault (f i))) := by
  induction n generalizing a with
  | zero => exact .inl ⟨[], rfl, by simp, rfl⟩
  | succ n ih =>
    cases h0 : Memory.read m a with
    | none => exact .inr ⟨a, Nat.le_refl _, by omega, h0, by simp [readRange, h0]⟩
    | some v =>
      rcases ih (a := a + 1) with ⟨vs, hl, hr, he⟩ | ⟨i, h1, h2, h3, he⟩
      · refine .inl ⟨v :: vs, by simp [hl], fun i hi => ?_, by simp [readRange, h0, he]⟩
        cases i with
        | zero => simpa using h0
        | succ i =>
          have := hr i (by omega)
          simpa [Nat.add_assoc, Nat.add_comm 1 i] using this
      · exact .inr ⟨i, by omega, by omega, h3, by simp [readRange, h0, he]⟩

/-- A range read raises no error of the block. -/
theorem readRange_ne_raise {f : Nat → Fault} {m : Memory α} {a n : Nat} {e : ErrCode} :
    readRange f m a n ≠ .error (.raise e) := by
  rcases readRange_cases (f := f) (m := m) (a := a) (n := n) with ⟨vs, _, _, h⟩ | ⟨i, _, _, _, h⟩ <;> simp [h]

end Sys2Proof.Machine
end

