-- ==== Sys2Proof/Laws/Reader.lean ====
section
/-! SUPPORT. Reading IN, FNAME and the bit cursor: everything each read can answer (42_bitio.md R216, R217). -/

namespace Sys2Proof.Machine

/-- Elements held from `a` on are a slice. -/
theorem Memory.slice_of_holds {α : Type} {m : Memory α} {a : Nat} {vs : List α} (h : Memory.holds m a vs) :
    Memory.slice m a vs.length = vs := by
  induction vs generalizing a with
  | nil => rfl
  | cons v vs ih =>
    have h0 := h 0 (by simp)
    have := ih (a := a + 1) fun i hi => by
      have := h (i + 1) (by simpa using hi)
      simpa [Nat.add_assoc, Nat.add_comm 1 i] using this
    simp only [Nat.add_zero, List.getElem?_cons_zero] at h0
    rw [List.length_cons, Memory.slice, List.range_succ_eq_map]
    simp only [List.filterMap_cons, Nat.add_zero, h0, List.filterMap_map]
    rw [List.cons_inj_right]
    calc _ = Memory.slice m (a + 1) vs.length := by
            unfold Memory.slice; congr 1; funext i; simp [Nat.add_assoc, Nat.add_comm 1 i]
      _ = vs := this

/-- A range with no UNSPECIFIED element is its slice, which it holds. -/
theorem Memory.holds_slice {α : Type} {m : Memory α} {a n : Nat} (h : Memory.listed m a n) :
    (Memory.slice m a n).length = n ∧ Memory.holds m a (Memory.slice m a n) := by
  have hx : ∃ vs : List α, vs.length = n ∧ Memory.holds m a vs := by
    induction n with
    | zero => exact ⟨[], rfl, by simp [Memory.holds]⟩
    | succ n ih =>
      obtain ⟨vs, hl, hv⟩ := ih fun i hi => h i (by omega)
      obtain ⟨v, hs⟩ := Option.isSome_iff_exists.1 (h n (by omega))
      refine ⟨vs ++ [v], by simp [hl], fun i hi => ?_⟩
      rcases Nat.lt_or_ge i vs.length with hi' | hi'
      · rw [hv i hi', List.getElem?_append_left hi']
      · have : i = n := by simp at hi; omega
        subst this; rw [hs, ← hl]; simp
  obtain ⟨vs, hl, hv⟩ := hx
  have := Memory.slice_of_holds hv
  rw [hl] at this
  rw [this]
  exact ⟨hl, hv⟩

/-- The input bytes read whole. -/
theorem inBytes_of_inputIs {s : State} {bs : List Byte} (h : s.inputIs bs) :
    inBytes s 0 s.inLen.toNat = .ok bs := by
  rw [inBytes, h.1]; exact readRange_ok h.2

/-- Any part of the input bytes. -/
theorem inBytes_part {s : State} {bs : List Byte} (h : s.inputIs bs) {i n : Nat} (hn : i + n ≤ bs.length) :
    inBytes s i n = .ok ((bs.drop i).take n) := by
  have hl : ((bs.drop i).take n).length = n := by simp; omega
  have := readRange_ok (f := Fault.unspecifiedByte .input) (m := s.inMem) (a := i) (vs := (bs.drop i).take n) fun j hj => by
    have e := h.2 (i + j) (by omega)
    rw [Nat.zero_add] at e
    rw [e, List.getElem?_take_of_lt (by omega), List.getElem?_drop]
  rwa [hl] at this

/-- The filename bytes read whole. -/
theorem fnameBytes_of_nameIs {s : State} {f : List Byte} (h : Memory.holds s.fnameMem 0 f) :
    fnameBytes s f.length = .ok f := readRange_ok h

/-- A byte of the input. -/
theorem inByte_of_inputIs {s : State} {bs : List Byte} (h : s.inputIs bs) {i : Nat} {b : Byte} (hb : bs[i]? = some b) :
    inByte s i = .ok b := by
  obtain ⟨hi, _⟩ := List.getElem?_eq_some_iff.1 hb
  have := h.2 i hi
  rw [Nat.zero_add, hb] at this
  simp [inByte, this]

/-- Reading a byte gives it or faults; it raises no error of the block. -/
theorem inByte_cases (s : State) (i : Nat) :
    (∃ b, Memory.read s.inMem i = some b ∧ inByte s i = .ok b) ∨
      (Memory.read s.inMem i = none ∧ inByte s i = .error (.fault (.unspecifiedByte .input i))) := by
  cases h : Memory.read s.inMem i with
  | none => exact .inr ⟨rfl, by simp [inByte, h]⟩
  | some b => exact .inl ⟨b, rfl, by simp [inByte, h]⟩

/-- The stream's bit at a position below the input's end. -/
theorem inBit_of_inputIs {s : State} {bs : List Byte} (h : s.inputIs bs) {pos : Nat} {b : Bool}
    (hb : (bytesBits bs)[pos]? = some b) : inBit s pos = .ok b := by
  rw [bytesBits_getElem?] at hb
  obtain ⟨x, hx, rfl⟩ := Option.map_eq_some_iff.1 hb
  simp [inBit, inByte_of_inputIs h hx]

/-- The stream's bits from a position on. -/
theorem inBits_of_inputIs {s : State} {bs : List Byte} (h : s.inputIs bs) {pos n : Nat}
    (hn : pos + n ≤ 8 * bs.length) : inBits s pos n = .ok (((bytesBits bs).drop pos).take n) := by
  induction n generalizing pos with
  | zero => simp [inBits]
  | succ n ih =>
    have hp : pos < (bytesBits bs).length := by simp; omega
    rw [List.drop_eq_getElem_cons hp, List.take_succ_cons]
    simp [inBits, inBit_of_inputIs h (List.getElem?_eq_getElem hp), ih (pos := pos + 1) (by omega)]

/-- `read_bits(n)` where n bits remain. -/
theorem readBits_of_inputIs {s : State} {bs : List Byte} (h : s.inputIs bs) {pos n : Nat}
    (hn : n ≤ 8 * bs.length - pos) (hp : pos ≤ 8 * bs.length ∨ n = 0) :
    readBits s pos n = .ok (bitsVal (((bytesBits bs).drop pos).take n)) := by
  have hl : ¬ bitsLeft s pos < n := by rw [bitsLeft, h.1]; omega
  rw [readBits, if_neg hl]
  rcases hp with hp | rfl
  · rw [inBits_of_inputIs h (by omega)]
  · simp [inBits]

/-- `read_bits(n)` where fewer than n bits remain (R217). -/
theorem readBits_short {s : State} {pos n : Nat} (h : 8 * s.inLen.toNat - pos < n) :
    readBits s pos n = .error (.raise .corruptHeader) := by
  rw [readBits, if_pos (by simpa [bitsLeft] using h)]

/-- Bits read are as many as asked for; a read that fails is a fault. -/
theorem inBits_cases (s : State) (pos n : Nat) :
    (∃ bs, bs.length = n ∧ inBits s pos n = .ok bs) ∨ (∃ f, inBits s pos n = .error (.fault f)) := by
  induction n generalizing pos with
  | zero => exact .inl ⟨[], rfl, rfl⟩
  | succ n ih =>
    rcases inByte_cases s (pos / 8) with ⟨b, -, hb⟩ | ⟨-, hb⟩
    · rcases ih (pos + 1) with ⟨bs, hl, he⟩ | ⟨f, he⟩
      · exact .inl ⟨b.toNat.testBit (7 - pos % 8) :: bs, by simp [hl], by simp [inBits, inBit, hb, he]⟩
      · exact .inr ⟨f, by simp [inBits, inBit, hb, he]⟩
    · exact .inr ⟨.unspecifiedByte .input (pos / 8), by simp [inBits, inBit, hb]⟩

/-- Everything `read_bits(n)` can answer: a number below 2^n, CorruptHeader, or a fault. -/
theorem readBits_cases (s : State) (pos n : Nat) :
    (∃ v, v < 2 ^ n ∧ readBits s pos n = .ok v) ∨
      (8 * s.inLen.toNat - pos < n ∧ readBits s pos n = .error (.raise .corruptHeader)) ∨
      (∃ f, readBits s pos n = .error (.fault f)) := by
  by_cases h : 8 * s.inLen.toNat - pos < n
  · exact .inr (.inl ⟨h, readBits_short h⟩)
  · have h' : ¬ bitsLeft s pos < n := h
    rcases inBits_cases s pos n with ⟨bs, hl, he⟩ | ⟨f, he⟩
    · exact .inl ⟨bitsVal bs, hl ▸ bitsVal_lt bs, by simp [readBits, h', he]⟩
    · exact .inr (.inr ⟨f, by simp [readBits, h', he]⟩)

/-- The cursor read back after it is stored, where it fits BR_BYTE (R216). -/
theorem cursorPos_setCursor (s : State) {pos : Nat} (h : pos < 2 ^ 35) : cursorPos (s.setCursor pos) = .ok pos := by
  simp [cursorPos, State.setCursor, needReg]
  omega

/-- What the cursor answers: its position, or the fault of an UNSPECIFIED register. -/
theorem cursorPos_cases (s : State) :
    (∃ b k, s.brByte = some b ∧ s.brBit = some k ∧ cursorPos s = .ok (8 * b.toNat + k.toNat)) ∨
      (∃ f, cursorPos s = .error f) := by
  cases hb : s.brByte with
  | none => exact .inr ⟨.unspecifiedReg .brByte, by simp [cursorPos, needReg, hb]⟩
  | some b =>
    cases hk : s.brBit with
    | none => exact .inr ⟨.unspecifiedReg .brBit, by simp [cursorPos, needReg, hb, hk]⟩
    | some k => exact .inl ⟨b, k, rfl, rfl, by simp [cursorPos, needReg, hb, hk]⟩

end Sys2Proof.Machine
end

