-- ==== Sys2Proof/Laws/Header.lean ====
section
/-! SUPPORT. Null-terminated header fields: what the scan finds and what else it can answer (30_encoding.md R121,
43_huffman_container.md R250, R251); the codes an encoder looks up. -/

namespace Sys2Proof.Machine

/-- A field with no 0x00 in it, its terminator after it, is found whole (R121, R250). -/
theorem scanField_found {s : State} {limit cnt n k : Nat} {e : ErrCode} {f : List Byte}
    (hf : Memory.holds s.inMem k (f ++ [0])) (h0 : (0 : Byte) ∉ f) (hn : f.length < n) (hl : cnt + f.length ≤ limit) :
    scanField s limit e n k cnt = .ok f := by
  induction f generalizing n k cnt with
  | nil =>
    obtain ⟨m, rfl⟩ : ∃ m, n = m + 1 := ⟨n - 1, by simp at hn; omega⟩
    have := hf 0 (by simp)
    simp at this
    simp [scanField, inByte, this]
  | cons b f ih =>
    obtain ⟨m, rfl⟩ : ∃ m, n = m + 1 := ⟨n - 1, by simp at hn; omega⟩
    have hb := hf 0 (by simp)
    simp at hb
    have hne : b ≠ 0 := fun h => h0 (h ▸ List.mem_cons_self)
    simp only [List.length_cons] at hn hl
    have ih' := ih (n := m) (k := k + 1) (cnt := cnt + 1) (fun i hi => by
      have := hf (i + 1) (by simpa using hi)
      simpa [Nat.add_assoc, Nat.add_comm 1 i] using this) (fun h => h0 (List.mem_cons_of_mem _ h)) (by omega) (by omega)
    have hc : cnt ≠ limit := by omega
    unfold scanField
    rw [inByte, hb]
    simp only [if_neg hne, if_neg hc, ih']

/-- What a scan that answers a field has read: the field, its terminator, all inside the n bytes it may read; no zero in
it, and no more bytes than the limit. -/
theorem scanField_ok {s : State} {limit cnt n k : Nat} {e : ErrCode} {f : List Byte}
    (h : scanField s limit e n k cnt = .ok f) (hc : cnt ≤ limit) :
    (0 : Byte) ∉ f ∧ f.length < n ∧ cnt + f.length ≤ limit ∧ Memory.holds s.inMem k (f ++ [0]) := by
  induction n generalizing f k cnt with
  | zero => simp [scanField] at h
  | succ n ih =>
    rcases inByte_cases s k with ⟨b, hr, hb⟩ | ⟨-, hb⟩
    · simp only [scanField, hb] at h
      by_cases h0 : b = 0
      · rw [if_pos h0] at h
        cases h
        refine ⟨by simp, by simp, by simpa using hc, fun i hi => ?_⟩
        have : i = 0 := by simpa using hi
        subst this; simp [hr, h0]
      · rw [if_neg h0] at h
        by_cases hl : cnt = limit
        · rw [if_pos hl] at h; cases h
        · rw [if_neg hl] at h
          split at h
          · cases h
          · rename_i g hg
            cases h
            obtain ⟨i1, i2, i3, i4⟩ := ih hg (by omega)
            refine ⟨fun h => (List.mem_cons.1 h).elim (fun h => h0 h.symm) i1, by simp; omega, by simp; omega, fun i hi => ?_⟩
            cases i with
            | zero => simpa using hr
            | succ i =>
              have := i4 i (by simpa using hi)
              simpa [Nat.add_assoc, Nat.add_comm 1 i] using this
    · simp [scanField, hb] at h

/-- The errors of a scan: CorruptHeader, the error of a field too long, or a fault. -/
theorem scanField_error {s : State} {limit cnt n k : Nat} {e : ErrCode} {x : Stop}
    (h : scanField s limit e n k cnt = .error x) :
    x = .raise .corruptHeader ∨ x = .raise e ∨ ∃ f, x = .fault f := by
  induction n generalizing k cnt with
  | zero => simp [scanField] at h; exact .inl h.symm
  | succ n ih =>
    rcases inByte_cases s k with ⟨b, -, hb⟩ | ⟨-, hb⟩
    · simp only [scanField, hb] at h
      split at h
      · cases h
      · split at h
        · cases h; exact .inr (.inl rfl)
        · split at h
          · rename_i hg; cases h; exact ih hg
          · cases h
    · simp [scanField, hb] at h
      exact .inr (.inr ⟨_, h.symm⟩)

/-- Everything the filename's parse can answer (R250): a name within FNAME_MAX, CorruptHeader, CapacityExceeded, or a
fault. -/
theorem parseFilename_cases (s : State) :
    (∃ f, parseFilename s = .ok f ∧ (0 : Byte) ∉ f ∧ f.length < s.inLen.toNat ∧ f.length ≤ s.params.fnameMax ∧
        Memory.holds s.inMem 0 (f ++ [0])) ∨
      parseFilename s = .error (.raise .corruptHeader) ∨ parseFilename s = .error (.raise .capacityExceeded) ∨
      ∃ x, parseFilename s = .error (.fault x) := by
  cases h : parseFilename s with
  | ok f =>
    obtain ⟨h1, h2, h3, h4⟩ := scanField_ok h (Nat.zero_le _)
    exact .inl ⟨f, rfl, h1, by omega, by omega, h4⟩
  | error x =>
    rcases scanField_error h with rfl | rfl | ⟨f, rfl⟩
    · exact .inr (.inl rfl)
    · exact .inr (.inr (.inl rfl))
    · exact .inr (.inr (.inr ⟨f, rfl⟩))

/-- Everything the size's parse can answer (R251): a size from 1 to OUT_MAX and the offset after its field,
CorruptHeader, CapacityExceeded, or a fault. -/
theorem parseSize_cases (s : State) (pos : Nat) :
    (∃ p n, parseSize s pos = .ok (p, n) ∧ 1 ≤ n ∧ n ≤ s.params.outMax ∧ pos < p ∧ p ≤ s.inLen.toNat) ∨
      parseSize s pos = .error (.raise .corruptHeader) ∨ parseSize s pos = .error (.raise .capacityExceeded) ∨
      ∃ x, parseSize s pos = .error (.fault x) := by
  unfold parseSize
  cases h : parseField s 4 .corruptHeader pos with
  | ok f =>
    obtain ⟨-, h2, -, -⟩ := scanField_ok h (Nat.zero_le _)
    by_cases h0 : beVal f = 0
    · exact .inr (.inl (by simp [h0]))
    · by_cases hm : s.params.outMax < beVal f
      · exact .inr (.inr (.inl (by simp [h0, hm])))
      · exact .inl ⟨pos + f.length + 1, beVal f, by simp [h0, hm], by omega, by omega, by omega, by omega⟩
  | error x =>
    rcases scanField_error h with rfl | rfl | ⟨f, rfl⟩
    · exact .inr (.inl rfl)
    · exact .inr (.inl rfl)
    · exact .inr (.inr (.inr ⟨f, rfl⟩))

/-- The codes of symbols that all have one are found; otherwise the look-up faults. -/
theorem codesOf_cases (codes : Memory BitStr) (ks : List Nat) :
    (∃ cs : List BitStr, codesOf codes ks = .ok cs ∧ cs.length = ks.length ∧
        ∀ i < ks.length, Memory.read codes (ks.getD i 0) = cs[i]?) ∨
      ∃ k ∈ ks, Memory.read codes k = none ∧ codesOf codes ks = .error (.fault (.unspecifiedRecord .code k)) := by
  induction ks with
  | nil => exact .inl ⟨[], rfl, rfl, by simp⟩
  | cons k ks ih =>
    cases hk : Memory.read codes k with
    | none => exact .inr ⟨k, by simp, hk, by simp [codesOf, codeOf, hk]⟩
    | some c =>
      rcases ih with ⟨cs, h1, h2, h3⟩ | ⟨j, h1, h2, h3⟩
      · refine .inl ⟨c :: cs, by simp [codesOf, codeOf, hk, h1], by simp [h2], fun i hi => ?_⟩
        cases i with
        | zero => simpa using hk
        | succ i => simpa using h3 i (by simpa using hi)
      · exact .inr ⟨j, by simp [h1], h2, by simp [codesOf, codeOf, hk, h3]⟩

end Sys2Proof.Machine
end

