-- ==== Sys2Proof/Laws/Codec.lean ====
section
/-! SUPPORT. What else the stages of the codec commands can answer: which of them raise no error of the block, and which
errors the others raise (60_exceptions.md R322). -/

namespace Sys2Proof.Machine

/-- The statistics stage writes FREQ, FILE_SIZE and its flag, or faults (41_huffman_tree.md R181). -/
theorem stageStats_cases (s : State) :
    (∃ bs, s.inputIs bs ∧ stageStats s = .ok { s with
        freqMem := freqTable bs
        fileSize := some s.inLen
        status := { s.status with freqValid := true } }) ∨
      ∃ f, stageStats s = .error (.fault f) := by
  rcases readRange_cases (f := Fault.unspecifiedByte .input) (m := s.inMem) (a := 0) (n := s.inLen.toNat) with
    ⟨bs, hl, hr, he⟩ | ⟨i, -, -, -, he⟩
  · exact .inl ⟨bs, ⟨hl.symm, fun i hi => hr i (by omega)⟩, by simp [stageStats, inBytes, he]⟩
  · exact .inr ⟨.unspecifiedByte .input i, by simp only [stageStats, inBytes, he]⟩

/-- The tree stage writes NODE, ROOT and its flag, or faults (R183). -/
theorem stageBuild_cases (s : State) :
    (∃ ws, ws.length = 256 ∧ Memory.holds s.freqMem 0 ws ∧ stageBuild s = .ok { s with
        nodeMem := buildTree ws
        root := 510
        status := { s.status with treeValid := true } }) ∨
      ∃ f, stageBuild s = .error (.fault f) := by
  rcases readRange_cases (f := Fault.unspecifiedRecord .freq) (m := s.freqMem) (a := 0) (n := 256) with
    ⟨ws, hl, hr, he⟩ | ⟨i, -, -, -, he⟩
  · exact .inl ⟨ws, hl, fun i hi => hr i (by omega), by simp only [stageBuild, he]⟩
  · exact .inr ⟨.unspecifiedRecord .freq i, by simp only [stageBuild, he]⟩

/-- A traversal of the tree gives a table or faults (R190). -/
theorem assignCodes_cases (nodes : Memory Node) (d n : Nat) (path : BitStr) (codes : Memory BitStr) :
    (∃ c, assignCodes nodes d n path codes = .ok c) ∨ ∃ f, assignCodes nodes d n path codes = .error (.fault f) := by
  induction d generalizing n path codes with
  | zero => exact .inr ⟨_, rfl⟩
  | succ d ih =>
    unfold assignCodes
    split
    · exact .inr ⟨_, rfl⟩
    · split
      · exact .inl ⟨_, rfl⟩
      · rename_i nd _ _
        rcases ih nd.left.toNat (path ++ [false]) codes with ⟨c, h⟩ | ⟨f, h⟩
        · simp only [h]; exact ih _ _ _
        · exact .inr ⟨f, by simp only [h]⟩

/-- The code stage writes CODE and its flag, or faults (R190). -/
theorem stageCodes_cases (s : State) :
    (∃ c, assignCodes s.nodeMem 256 s.root.toNat [] [] = .ok c ∧
        stageCodes s = .ok { s with codeMem := c, status := { s.status with codesValid := true } }) ∨
      ∃ f, stageCodes s = .error (.fault f) := by
  rcases assignCodes_cases s.nodeMem 256 s.root.toNat [] [] with ⟨c, h⟩ | ⟨f, h⟩
  · exact .inl ⟨c, h, by simp only [stageCodes, h]⟩
  · exact .inr ⟨f, by simp only [stageCodes, h]⟩

/-- The encoder's stream is the container, or a fault: forming it raises no error (43_huffman_container.md R240). -/
theorem hufStream_cases (s : State) (n : Nat) :
    (∃ name table bs payload, fnameBytes s n = .ok name ∧ codesOf s.codeMem (List.range 256) = .ok table ∧
        inBytes s 0 s.inLen.toNat = .ok bs ∧ codesOf s.codeMem (bs.map BitVec.toNat) = .ok payload ∧
        hufStream s n = .ok (hufContainer name s.inLen.toNat table payload)) ∨
      ∃ f, hufStream s n = .error (.fault f) := by
  rcases readRange_cases (f := Fault.unspecifiedByte .fname) (m := s.fnameMem) (a := 0) (n := n) with
    ⟨name, -, -, h1⟩ | ⟨i, -, -, -, h1⟩
  · rcases codesOf_cases s.codeMem (List.range 256) with ⟨table, h2, -⟩ | ⟨k, -, -, h2⟩
    · rcases readRange_cases (f := Fault.unspecifiedByte .input) (m := s.inMem) (a := 0) (n := s.inLen.toNat) with
        ⟨bs, -, -, h3⟩ | ⟨i, -, -, -, h3⟩
      · rcases codesOf_cases s.codeMem (bs.map BitVec.toNat) with ⟨pl, h4, -⟩ | ⟨k, -, -, h4⟩
        · exact .inl ⟨name, table, bs, pl, h1, h2, h3, h4, by simp only [hufStream, fnameBytes, inBytes, h1, h2, h3, h4]⟩
        · exact .inr ⟨.unspecifiedRecord .code k, by simp only [hufStream, fnameBytes, inBytes, h1, h2, h3, h4]⟩
      · exact .inr ⟨.unspecifiedByte .input i, by simp only [hufStream, fnameBytes, inBytes, h1, h2, h3]⟩
    · exact .inr ⟨.unspecifiedRecord .code k, by simp only [hufStream, fnameBytes, h1, h2]⟩
  · exact .inr ⟨.unspecifiedByte .fname i, by simp only [hufStream, fnameBytes, h1]⟩

/-- The table's parse: a code for each of its symbols, CorruptHeader, or a fault (R252). -/
theorem parseTable_cases (s : State) (n sym pos : Nat) :
    (∃ codes fin, parseTable s n sym pos = .ok (codes, fin) ∧ codes.map (fun x => x.1) = List.range' sym n ∧
        ∀ x ∈ codes, x.2.length ≤ 255) ∨
      parseTable s n sym pos = .error (.raise .corruptHeader) ∨ ∃ f, parseTable s n sym pos = .error (.fault f) := by
  induction n generalizing sym pos with
  | zero => exact .inl ⟨[], pos, rfl, rfl, by simp⟩
  | succ n ih =>
    unfold parseTable
    split
    · exact .inr (.inl rfl)
    · rcases inByte_cases s pos with ⟨len, -, hb⟩ | ⟨-, hb⟩
      · simp only [hb]
        split
        · exact .inr (.inl rfl)
        · rcases readRange_cases (f := Fault.unspecifiedByte .input) (m := s.inMem) (a := pos + 1)
            (n := ceilDiv8 len.toNat) with ⟨body, -, -, h1⟩ | ⟨i, -, -, -, h1⟩
          · simp only [inBytes, h1]
            rcases ih (sym + 1) (pos + 1 + ceilDiv8 len.toNat) with ⟨codes, fin, h2, h3, h4⟩ | h2 | ⟨f, h2⟩
            · refine .inl ⟨(sym, (bytesBits body).take len.toNat) :: codes, fin, by simp only [h2],
                by simp [h3, List.range'_succ], fun x hx => ?_⟩
              rcases List.mem_cons.1 hx with rfl | hx
              · have := len.isLt
                simp only [List.length_take]; omega
              · exact h4 x hx
            · exact .inr (.inl (by simp only [h2]))
            · exact .inr (.inr ⟨f, by simp only [h2]⟩)
          · exact .inr (.inr ⟨.unspecifiedByte .input i, by simp only [inBytes, h1]⟩)
      · exact .inr (.inr ⟨.unspecifiedByte .input pos, by simp only [hb]⟩)

/-- Decoding one symbol: a symbol of the table, CorruptHeader, or a fault (R255). -/
theorem decodeSymbol_cases (s : State) (codes : Memory BitStr) (n pos : Nat) (acc : BitStr) :
    (∃ k p, decodeSymbol s codes n pos acc = .ok (k, p) ∧ pos < p ∧ p ≤ pos + n) ∨
      decodeSymbol s codes n pos acc = .error (.raise .corruptHeader) ∨
      ∃ f, decodeSymbol s codes n pos acc = .error (.fault f) := by
  induction n generalizing pos acc with
  | zero => exact .inr (.inl rfl)
  | succ n ih =>
    unfold decodeSymbol
    rcases inByte_cases s (pos / 8) with ⟨b, -, hb⟩ | ⟨-, hb⟩
    · simp only [inBit, hb]
      split
      · exact .inl ⟨_, _, rfl, by omega, by omega⟩
      · rcases ih (pos + 1) (acc ++ [b.toNat.testBit (7 - pos % 8)]) with ⟨k, p, h1, h2, h3⟩ | h | h
        · exact .inl ⟨k, p, h1, by omega, by omega⟩
        · exact .inr (.inl h)
        · exact .inr (.inr h)
    · exact .inr (.inr ⟨.unspecifiedByte .input (pos / 8), by simp only [inBit, hb]⟩)

/-- Decoding n symbols: n bytes, CorruptHeader, or a fault (R256). -/
theorem decodeSymbols_cases (s : State) (codes : Memory BitStr) (n pos : Nat) :
    (∃ bs fin, decodeSymbols s codes n pos = .ok (bs, fin) ∧ bs.length = n ∧ pos ≤ fin) ∨
      decodeSymbols s codes n pos = .error (.raise .corruptHeader) ∨
      ∃ f, decodeSymbols s codes n pos = .error (.fault f) := by
  induction n generalizing pos with
  | zero => exact .inl ⟨[], pos, rfl, rfl, Nat.le_refl _⟩
  | succ n ih =>
    unfold decodeSymbols
    rcases decodeSymbol_cases s codes (bitsLeft s pos) pos [] with ⟨k, p, h1, h2, -⟩ | h | ⟨f, h⟩
    · rcases ih p with ⟨bs, fin, g1, g2, g3⟩ | g | ⟨f, g⟩
      · exact .inl ⟨BitVec.ofNat 8 k :: bs, fin, by simp only [h1, g1], by simp [g2], by omega⟩
      · exact .inr (.inl (by simp only [h1, g]))
      · exact .inr (.inr ⟨f, by simp only [h1, g]⟩)
    · exact .inr (.inl (by simp only [h]))
    · exact .inr (.inr ⟨f, by simp only [h]⟩)

/-- The segmentation stage gives its state, or faults (44_lz78.md R271). -/
theorem stageSegment_cases (s : State) :
    (∃ bs, s.inputIs bs ∧ stageSegment s = .ok (s.setSegments (Seg.start.run bs), Seg.start.run bs)) ∨
      ∃ f, stageSegment s = .error (.fault f) := by
  rcases readRange_cases (f := Fault.unspecifiedByte .input) (m := s.inMem) (a := 0) (n := s.inLen.toNat) with
    ⟨bs, hl, hr, he⟩ | ⟨i, -, -, -, he⟩
  · exact .inl ⟨bs, ⟨hl.symm, fun i hi => hr i (by omega)⟩, by simp only [stageSegment, inBytes, he]⟩
  · exact .inr ⟨.unspecifiedByte .input i, by simp only [stageSegment, inBytes, he]⟩

/-- The width's parse: a width from 0 to 32 and the offset after its field, CorruptHeader, or a fault (R282). -/
theorem parseWidth_cases (s : State) (pos : Nat) :
    (∃ p w, parseWidth s pos = .ok (p, w) ∧ w ≤ 32 ∧ pos < p ∧ p ≤ s.inLen.toNat) ∨
      parseWidth s pos = .error (.raise .corruptHeader) ∨ ∃ f, parseWidth s pos = .error (.fault f) := by
  unfold parseWidth
  cases h : parseField s 1 .corruptHeader pos with
  | ok f =>
    obtain ⟨-, h2, -, -⟩ := scanField_ok h (Nat.zero_le _)
    by_cases hw : 32 < beVal f
    · exact .inr (.inl (by simp only [if_pos hw]))
    · exact .inl ⟨pos + f.length + 1, beVal f, by simp only [if_neg hw], by omega, by omega, by omega⟩
  | error x =>
    rcases scanField_error h with rfl | rfl | ⟨f, rfl⟩
    · exact .inr (.inl rfl)
    · exact .inr (.inl rfl)
    · exact .inr (.inr ⟨f, rfl⟩)

/-- A token's segment: its bytes, one or more, or CorruptHeader for an entry not registered yet (R281, R285). -/
theorem segmentOf_cases (d : Dict) (p : Nat) (c : Byte) :
    (∃ seg, segmentOf d p c = .ok seg ∧ 1 ≤ seg.length ∧ p ≤ d.count) ∨
      (d.count < p ∧ segmentOf d p c = .error (.raise .corruptHeader)) := by
  unfold segmentOf
  by_cases h0 : p = 0
  · exact .inl ⟨[c], by rw [if_pos h0], by simp, by omega⟩
  · by_cases h : p ≤ d.count
    · exact .inl ⟨d.seq p ++ [c], by rw [if_neg h0, if_pos h], by simp, h⟩
    · exact .inr ⟨by omega, by rw [if_neg h0, if_neg h]⟩

/-- A replay that may still write `size − out` bytes writes exactly these, raises CorruptHeader, or faults (R281). -/
theorem replay_cases (s : State) (w size n pos out : Nat) (d : Dict) (hn : size ≤ out + n) (ho : out ≤ size) :
    (∃ r, replay s w size n pos out d = .ok r ∧ r.data.length = size - out) ∨
      replay s w size n pos out d = .error (.raise .corruptHeader) ∨
      ∃ f, replay s w size n pos out d = .error (.fault f) := by
  induction n generalizing pos out d with
  | zero => exact .inl ⟨_, rfl, by simp; omega⟩
  | succ n ih =>
    unfold replay
    by_cases hs : size ≤ out
    · exact .inl ⟨_, by rw [if_pos hs], by simp; omega⟩
    · rw [if_neg hs]
      rcases readBits_cases s pos w with ⟨p, -, h1⟩ | ⟨-, h1⟩ | ⟨f, h1⟩
      · simp only [h1]
        rcases readBits_cases s (pos + w) 8 with ⟨c, -, h2⟩ | ⟨-, h2⟩ | ⟨f, h2⟩
        · simp only [h2]
          rcases segmentOf_cases d p (BitVec.ofNat 8 c) with ⟨seg, h3, h4, -⟩ | ⟨-, h3⟩
          · simp only [h3]
            by_cases hf : size < out + seg.length
            · exact .inr (.inl (by rw [if_pos hf]))
            · rw [if_neg hf]
              rcases ih (pos + w + 8) (out + seg.length)
                (if out + seg.length < size then
                  (d.count + 1, Entry.mk (BitVec.ofNat 32 p) (BitVec.ofNat 8 c)) :: d
                else d) (by omega) (by omega) with ⟨r, g1, g2⟩ | g | ⟨f, g⟩
              · exact .inl ⟨Replayed.mk (seg ++ r.data) r.dict r.pos, by simp only [g1], by simp [g2]; omega⟩
              · exact .inr (.inl (by simp only [g]))
              · exact .inr (.inr ⟨f, by simp only [g]⟩)
          · exact .inr (.inl (by simp only [h3]))
        · exact .inr (.inl (by simp only [h2]))
        · exact .inr (.inr ⟨f, by simp only [h2]⟩)
      · exact .inr (.inl (by simp only [h1]))
      · exact .inr (.inr ⟨f, by simp only [h1]⟩)

end Sys2Proof.Machine
end

