-- ==== Sys2Proof/Laws/Packer.lean ====
section
/-! SUPPORT. The bit packer: what one bit, many bits, a checked emission and a flush do to what it holds (42_bitio.md R210
to R214). -/

namespace Sys2Proof.Machine

/-- A slice one element longer. -/
theorem Memory.slice_succ {α : Type} {m : Memory α} {a n : Nat} {v : α} (h : Memory.read m (a + n) = some v) :
    Memory.slice m a (n + 1) = Memory.slice m a n ++ [v] := by
  simp [Memory.slice, List.range_succ, List.filterMap_append, h]

/-- Memories that read the same in a range have the same slice. -/
theorem Memory.slice_congr {α : Type} {m m' : Memory α} {a n : Nat}
    (h : ∀ i < n, Memory.read m (a + i) = Memory.read m' (a + i)) : Memory.slice m a n = Memory.slice m' a n := by
  unfold Memory.slice
  exact List.filterMap_congr fun i hi => h i (List.mem_range.1 hi)

/-- The empty packer holds nothing. -/
@[simp] theorem Packer.held_empty (out : Memory Byte) : (Packer.empty out).held = [] := rfl

theorem Packer.ok_empty {out : Memory Byte} (h : Memory.wf out) : (Packer.empty out).ok :=
  ⟨by simp [Packer.empty], by simp [Packer.empty], fun i hi => by simp [Packer.empty] at hi, h⟩

/-- A byte stored at the end of a packer's bytes. -/
theorem Packer.store_end {p : Packer} (hp : p.ok) (b : Byte) :
    Memory.listed (Memory.write p.out p.outLen b) 0 (p.outLen + 1) ∧
      Memory.slice (Memory.write p.out p.outLen b) 0 (p.outLen + 1) = Memory.slice p.out 0 p.outLen ++ [b] ∧
      ∀ a, a ≠ p.outLen → Memory.read (Memory.write p.out p.outLen b) a = Memory.read p.out a := by
  have hr : ∀ a, a ≠ p.outLen → Memory.read (Memory.write p.out p.outLen b) a = Memory.read p.out a :=
    fun a ha => Memory.read_write_other hp.2.2.2 b ha
  refine ⟨fun i hi => ?_, ?_, hr⟩
  · rw [Nat.zero_add]
    by_cases h : i = p.outLen
    · subst h; simp
    · rw [hr i h]; simpa using hp.2.2.1 i (by omega)
  · rw [Memory.slice_succ (v := b) (by simp)]
    congr 1
    exact Memory.slice_congr fun i hi => hr _ (by omega)

/-- One bit (the loop body of R212): it is appended, the count of bytes and bits moves by one bit, and at most the byte
at the end of the packer's bytes is stored. -/
theorem Packer.push_spec {p : Packer} (hp : p.ok) (b : Bool) :
    (p.push b).ok ∧ (p.push b).held = p.held ++ [b] ∧ (p.push b).outLen = p.outLen + (p.nbits + 1) / 8 ∧
      (p.push b).nbits = (p.nbits + 1) % 8 ∧
      ∀ a, a < p.outLen ∨ (p.push b).outLen ≤ a → Memory.read (p.push b).out a = Memory.read p.out a := by
  have hlt : 2 * p.acc + b.toNat < 2 ^ (p.nbits + 1) := by
    have h1 := hp.2.1
    rw [Nat.pow_succ]; cases b <;> simp <;> omega
  by_cases h : p.nbits = 7
  · obtain ⟨h1, h2, h3⟩ := Packer.store_end hp (BitVec.ofNat 8 (2 * p.acc + b.toNat))
    have hb : bitsMSB (BitVec.ofNat 8 (2 * p.acc + b.toNat)).toNat 8 = bitsMSB p.acc 7 ++ [b] := by
      rw [BitVec.toNat_ofNat, bitsMSB_mod, bitsMSB_snoc]
    simp only [Packer.push, if_pos h, Packer.held, h2, Packer.ok]
    refine ⟨⟨by omega, by simp, h1, Memory.wf_write hp.2.2.2 _ _⟩, ?_, by omega, by omega, fun a ha => h3 a (by omega)⟩
    rw [bytesBits_append, bytesBits_cons, hb, h]
    simp
  · simp only [Packer.push, if_neg h, Packer.held, Packer.ok]
    have := hp.1
    refine ⟨⟨by omega, hlt, hp.2.2.1, hp.2.2.2⟩, ?_, by omega, by omega, fun _ _ => trivial⟩
    simp [bitsMSB_snoc]

/-- Many bits. -/
theorem Packer.pushAll_spec {p : Packer} (hp : p.ok) (bs : BitStr) :
    (p.pushAll bs).ok ∧ (p.pushAll bs).held = p.held ++ bs ∧
      (p.pushAll bs).outLen = p.outLen + (p.nbits + bs.length) / 8 ∧
      (p.pushAll bs).nbits = (p.nbits + bs.length) % 8 ∧
      ∀ a, a < p.outLen ∨ (p.pushAll bs).outLen ≤ a → Memory.read (p.pushAll bs).out a = Memory.read p.out a := by
  induction bs generalizing p with
  | nil => have := hp.1; exact ⟨hp, by simp [Packer.pushAll], by simp [Packer.pushAll]; omega,
      by simp [Packer.pushAll]; omega, fun _ _ => rfl⟩
  | cons b bs ih =>
    obtain ⟨h1, h2, h3, h4, h5⟩ := Packer.push_spec hp b
    obtain ⟨g1, g2, g3, g4, g5⟩ := ih h1
    have hl : (b :: bs).length = bs.length + 1 := rfl
    refine ⟨g1, by simp [Packer.pushAll, g2, h2], ?_, ?_, fun a ha => ?_⟩
    · simp only [Packer.pushAll, g3, h3, h4, hl]; omega
    · simp only [Packer.pushAll, g4, h4, hl]; omega
    · simp only [Packer.pushAll] at ha ⊢
      rw [g5 a (by omega), h5 a (by omega)]

/-- `emit_bits` (R239) answers the packer with the bits appended exactly when the bytes they complete fit. -/
theorem Packer.emit_spec {p : Packer} (hp : p.ok) (outMax : Nat) (bs : BitStr) (hm : p.outLen ≤ outMax) :
    p.emit outMax bs =
      if p.outLen + (p.nbits + bs.length) / 8 ≤ outMax then .ok (p.pushAll bs) else .error .capacityExceeded := by
  induction bs generalizing p with
  | nil => have := hp.1; simp [Packer.emit, Packer.pushAll]; omega
  | cons b bs ih =>
    obtain ⟨h1, -, h3, h4, -⟩ := Packer.push_spec hp b
    have hl : (b :: bs).length = bs.length + 1 := rfl
    by_cases hf : p.outLen + (p.nbits + 1) / 8 ≤ outMax
    · simp only [Packer.emit, Packer.fits, hf, decide_true, if_true, Packer.pushAll, hl]
      rw [ih h1 (by omega), h3, h4]
      congr 1
      simp only [eq_iff_iff]; constructor <;> intro h <;> omega
    · rw [if_neg (by rw [hl]; omega)]
      simp [Packer.emit, Packer.fits, hf]

/-- BP_FLUSH's body (R213): a packer with no pending bit stays; a partial byte is padded with zeros and stored at the end,
if it fits. -/
theorem Packer.flush_spec {p : Packer} (hp : p.ok) (outMax : Nat) (hm : p.outLen ≤ outMax) :
    (p.nbits = 0 ∧ p.flush outMax = .ok p) ∨
      (p.nbits ≠ 0 ∧ p.outLen = outMax ∧ p.flush outMax = .error .capacityExceeded) ∨
      (p.nbits ≠ 0 ∧ p.outLen < outMax ∧ ∃ q, p.flush outMax = .ok q ∧ q.ok ∧ q.outLen = p.outLen + 1 ∧
        q.acc = 0 ∧ q.nbits = 0 ∧ q.held = p.held ++ zeros (8 - p.nbits) ∧
        ∀ a, a ≠ p.outLen → Memory.read q.out a = Memory.read p.out a) := by
  by_cases h : p.nbits = 0
  · exact .inl ⟨h, by simp [Packer.flush, h]⟩
  · by_cases h' : outMax < p.outLen + 1
    · exact .inr (.inl ⟨h, by omega, by simp [Packer.flush, h, h']⟩)
    · obtain ⟨h1, h2, h3⟩ := Packer.store_end hp (BitVec.ofNat 8 (p.acc * 2 ^ (8 - p.nbits)))
      refine .inr (.inr ⟨h, by omega, Packer.mk (p.outLen + 1) 0 0
        (Memory.write p.out p.outLen (BitVec.ofNat 8 (p.acc * 2 ^ (8 - p.nbits)))),
        by simp only [Packer.flush, if_neg h, if_neg h'], ⟨by simp, by simp, h1, Memory.wf_write hp.2.2.2 _ _⟩, rfl, rfl, rfl, ?_, h3⟩)
      have hb : bitsMSB (BitVec.ofNat 8 (p.acc * 2 ^ (8 - p.nbits))).toNat 8 =
          bitsMSB p.acc p.nbits ++ zeros (8 - p.nbits) := by
        have := hp.1
        rw [BitVec.toNat_ofNat, bitsMSB_mod]
        conv_lhs => rw [show 8 = p.nbits + (8 - p.nbits) by omega]
        rw [show p.nbits + (8 - p.nbits) - p.nbits = 8 - p.nbits by omega, bitsMSB_mul_pow]
      simp only [Packer.held, h2]
      rw [bytesBits_append, bytesBits_cons, hb]
      simp

/-- A partial byte rounds a number of bits up to whole bytes. -/
theorem ceilDiv8_eq (n : Nat) : ceilDiv8 n = if n % 8 = 0 then n / 8 else n / 8 + 1 := by
  unfold ceilDiv8; split <;> omega

/-- The WRITE stage of an encoder (R240, R276): the stream zero-padded to whole bytes, or CapacityExceeded exactly when it
is longer than OUT. -/
theorem writeContainer_spec {s : State} (h : Memory.wf s.outMem) (bits : BitStr) :
    (s.params.outMax < ceilDiv8 bits.length ∧ writeContainer s bits = .raised .capacityExceeded s.unspecifyEncode) ∨
      (ceilDiv8 bits.length ≤ s.params.outMax ∧ ∃ q : Packer, writeContainer s bits = .done (s.setPacker q) ∧ q.ok ∧
        q.outLen = ceilDiv8 bits.length ∧ q.acc = 0 ∧ q.nbits = 0 ∧
        q.held = bits ++ zeros (8 * ceilDiv8 bits.length - bits.length) ∧
        ∀ a, ceilDiv8 bits.length ≤ a → Memory.read q.out a = Memory.read s.outMem a) := by
  have hp := Packer.ok_empty h
  have he := Packer.emit_spec hp s.params.outMax bits (by simp [Packer.empty])
  obtain ⟨h1, h2, h3, h4, h5⟩ := Packer.pushAll_spec hp bits
  simp only [Packer.empty, Nat.zero_add] at h3 h4 he
  have hc := ceilDiv8_eq bits.length
  by_cases hf : bits.length / 8 ≤ s.params.outMax
  · rw [if_pos hf] at he
    rcases Packer.flush_spec h1 s.params.outMax (by simp only [Packer.empty, h3]; exact hf) with
      ⟨g1, g2⟩ | ⟨g1, g2, g3⟩ | ⟨g1, g2, q, g3, g4, g5, g6, g7, g8, g9⟩
    · simp only [Packer.empty, h4] at g1
      rw [if_pos g1] at hc
      refine .inr ⟨by omega, _, by simp only [writeContainer, Packer.empty] at g2 ⊢; rw [he]; simp only [g2], h1,
        by simp only [Packer.empty, h3]; omega, ?_, by simp only [Packer.empty, h4]; exact g1, ?_, fun a ha => h5 a ?_⟩
      · have := h1.2.1
        simp only [Packer.empty, h4, g1] at this ⊢
        omega
      · rw [h2, show 8 * ceilDiv8 bits.length - bits.length = 0 by omega]
        simp
      · simp only [Packer.empty, h3]; omega
    · simp only [Packer.empty, h3, h4] at g1 g2
      rw [if_neg g1] at hc
      refine .inl ⟨by omega, ?_⟩
      simp only [writeContainer, Packer.empty] at g3 ⊢
      rw [he]; simp only [g3]
    · simp only [Packer.empty, h3, h4] at g1 g2 g5 g8 g9
      rw [if_neg g1] at hc
      refine .inr ⟨by omega, q, ?_, g4, by omega, g6, g7, ?_, fun a ha => ?_⟩
      · simp only [writeContainer, Packer.empty] at g3 ⊢
        rw [he]; simp only [g3]
      · rw [g8]
        simp only [Packer.empty] at h2
        rw [h2, show 8 * ceilDiv8 bits.length - bits.length = 8 - bits.length % 8 by omega]
        simp [Packer.held, Memory.slice]
      · rw [g9 a (by omega)]
        exact h5 a (by simp only [Packer.empty, h3]; omega)
  · rw [if_neg hf] at he
    exact .inl ⟨by split at hc <;> omega, by simp only [writeContainer, Packer.empty, he]⟩

/-- The packer that a legal packer state holds. -/
theorem State.packer_of_packerIs {s : State} {len acc nb : Nat} (h : s.packerIs len acc nb) :
    s.packer = .ok (Packer.mk len acc nb s.outMem) ∧ (Packer.mk len acc nb s.outMem).ok ∧
      s.pendingBits = (Packer.mk len acc nb s.outMem).held := by
  obtain ⟨h1, h2, h3, h4, h5, h6, h7, h8, h9⟩ := h
  have hl : (BitVec.ofNat 32 len).toNat = len := by rw [BitVec.toNat_ofNat, Nat.mod_eq_of_lt (by omega)]
  have ha : (BitVec.ofNat 7 acc).toNat = acc := by
    rw [BitVec.toNat_ofNat, Nat.mod_eq_of_lt]
    exact Nat.lt_of_lt_of_le h5 (Nat.pow_le_pow_right (by omega) (by omega))
  have hn : (BitVec.ofNat 3 nb).toNat = nb := by rw [BitVec.toNat_ofNat, Nat.mod_eq_of_lt (by omega)]
  exact ⟨by simp only [State.packer, h1, h2, h3, needReg, hl, ha, hn], ⟨h4, h5, h8, h9⟩,
    by simp only [State.pendingBits, State.outBytes, Packer.held, h1, h2, h3, hl, ha, hn]⟩

end Sys2Proof.Machine
end

