-- ==== Sys2Proof/Laws/Tree.lean ====
section
/-! SUPPORT. The tree builder and the code-table generator: the merges use every node once (41_huffman_tree.md R183 to
R185), and on such a tree the traversal reaches every leaf with 256 calls (R190, R194). -/

namespace Sys2Proof.Machine

/-- Insertion keeps the queue's contents. -/
theorem insertKey_perm (k : Key) (q : List Key) : (insertKey k q).Perm (k :: q) := by
  induction q with
  | nil => exact List.Perm.refl _
  | cons h q ih =>
    unfold insertKey
    split
    · exact List.Perm.refl _
    · exact (ih.cons h).trans (List.Perm.swap k h q)

/-- The queue of the leaves holds every symbol once. -/
theorem leafQueue_perm (k : Nat) (ws : List Word) :
    ((leafQueue k ws).map fun x => x.2).Perm (List.range' k ws.length) := by
  induction ws generalizing k with
  | nil => exact List.Perm.refl _
  | cons w ws ih =>
    rw [List.length_cons, List.range'_succ]
    exact ((insertKey_perm _ _).map _).trans ((ih (k + 1)).cons k)

/-- Reading a memory whose indices are consecutive. -/
theorem Memory.read_of_indices {α : Type} {m : Memory α} {i n : Nat} (h : m.map (fun x => x.1) = List.range' i n)
    (k : Nat) (hk : k < n) : Memory.read m (i + k) = (m[k]?).map fun x => x.2 := by
  induction m generalizing i n k with
  | nil => cases n with
    | zero => omega
    | succ n => simp [List.range'_succ] at h
  | cons x m ih =>
    cases n with
    | zero => omega
    | succ n =>
      rw [List.map_cons, List.range'_succ] at h
      obtain ⟨h1, h2⟩ := List.cons.inj h
      rw [show x = (x.1, x.2) from rfl, Memory.read_cons, h1]
      cases k with
      | zero => simp
      | succ k =>
        rw [if_neg (by omega), show i + (k + 1) = i + 1 + k by omega, ih h2 k (by omega)]
        simp

/-- Reading a memory with a lower part joined to it. -/
theorem Memory.read_append_right {α : Type} {m m' : Memory α} {a : Nat} (h : ∀ x ∈ m, x.1 ≠ a) :
    Memory.read (m ++ m') a = Memory.read m' a := by
  induction m with
  | nil => rfl
  | cons x m ih =>
    rw [List.cons_append, show x = (x.1, x.2) from rfl, Memory.read_cons, if_neg (Ne.symm (h x (by simp)))]
    exact ih fun y hy => h y (by simp [hy])

/-- A read that a lower part answers. -/
theorem Memory.read_append_left {α : Type} {m m' : Memory α} {a : Nat} {v : α} (h : Memory.read m a = some v) :
    Memory.read (m ++ m') a = some v := by
  induction m with
  | nil => simp at h
  | cons x m ih =>
    rw [show x = (x.1, x.2) from rfl, Memory.read_cons] at h
    rw [List.cons_append, show x = (x.1, x.2) from rfl, Memory.read_cons]
    split
    · simpa [*] using h
    · exact ih (by simpa [*] using h)

/-- The merges that `n` rounds make from a queue of `n + 1` keys below `i`: nodes i, i+1, …, each with two earlier nodes as
children; and the children together with the last root are the queue and the new nodes, each once. -/
theorem mergeLoop_spec (n i : Nat) (q : List Key) (hq : q.length = n + 1) (hi : ∀ x ∈ q, x.2 < i) (hb : i + n ≤ 511) :
    (mergeLoop n i q).map (fun x => x.1) = List.range' i n ∧
      (∀ x ∈ mergeLoop n i q, x.2.leaf = false ∧ x.2.sym = 0 ∧ x.2.left.toNat < x.1 ∧ x.2.right.toNat < x.1) ∧
      ∃ last, (n ≠ 0 → last = i + n - 1) ∧ (n = 0 → q.map (fun x => x.2) = [last]) ∧
        (((mergeLoop n i q).flatMap fun x => [x.2.left.toNat, x.2.right.toNat]) ++ [last]).Perm
          (q.map (fun x => x.2) ++ List.range' i n) := by
  induction n generalizing i q with
  | zero =>
    obtain ⟨x, rfl⟩ := List.length_eq_one_iff.1 hq
    exact ⟨rfl, by simp [mergeLoop], x.2, by simp, by simp, by simp [mergeLoop]⟩
  | succ n ih =>
    match q, hq, hi with
    | a :: b :: q, hq, hi =>
      have ha := hi a (by simp)
      have hbb := hi b (by simp)
      have hp := insertKey_perm (a.1 + b.1, i) q
      obtain ⟨h1, h2, last, h3, h4, h5⟩ := ih (i + 1) (insertKey (a.1 + b.1, i) q)
        (by rw [hp.length_eq]; simpa using hq)
        (fun x hx => by
          rcases List.mem_cons.1 (hp.mem_iff.1 hx) with rfl | hx
          · simp
          · have := hi x (by simp [hx]); omega)
        (by omega)
      have hl : last = i + n := by
        by_cases h0 : n = 0
        · subst h0
          have hq0 : q = [] := List.length_eq_zero_iff.1 (by simpa using hq)
          subst hq0
          simpa [insertKey, eq_comm] using h4 rfl
        · have := h3 h0; omega
      have el : (BitVec.ofNat 9 a.2).toNat = a.2 := by rw [BitVec.toNat_ofNat, Nat.mod_eq_of_lt (by omega)]
      have er : (BitVec.ofNat 9 b.2).toNat = b.2 := by rw [BitVec.toNat_ofNat, Nat.mod_eq_of_lt (by omega)]
      refine ⟨by simp [mergeLoop, h1, List.range'_succ], fun x hx => ?_, last, fun _ => by omega, fun h => by omega, ?_⟩
      · rcases List.mem_cons.1 hx with rfl | hx
        · simp only [mergeNode, el, er]
          exact ⟨trivial, trivial, ha, hbb⟩
        · exact h2 x hx
      · simp only [mergeLoop, List.flatMap_cons, mergeNode, el, er, List.cons_append, List.nil_append, List.map_cons]
        refine ((h5.trans ((hp.map _).append_right _)).cons b.2).cons a.2 |>.trans ?_
        simp only [List.map_cons, List.cons_append, List.range'_succ]
        exact (List.perm_middle.symm.cons b.2).cons a.2

/-- The leaves of the counts `ws` from symbol `k` on. -/
theorem leaves_spec (k : Nat) (ws : List Word) :
    (leaves k ws).map (fun x => x.1) = List.range' k ws.length ∧
      ∀ j < ws.length, (leaves k ws)[j]? = some (k + j, leafNode (k + j) (ws.getD j 0)) := by
  induction ws generalizing k with
  | nil => exact ⟨rfl, by simp⟩
  | cons w ws ih =>
    obtain ⟨h1, h2⟩ := ih (k + 1)
    refine ⟨by simp [leaves, h1, List.range'_succ], fun j hj => ?_⟩
    cases j with
    | zero => simp [leaves]
    | succ j =>
      have := h2 j (by simpa using hj)
      simp only [leaves, List.getElem?_cons_succ, this, List.getD_cons_succ, Nat.add_assoc, Nat.add_comm 1 j]

/-- Visiting a memory with consecutive indices in index order. -/
theorem Memory.flatMap_range {α β : Type} {m : Memory α} {i n : Nat} (h : m.map (fun x => x.1) = List.range' i n)
    (f : α → List β) :
    ((List.range n).flatMap fun k => match Memory.read m (i + k) with | some v => f v | none => []) =
      m.flatMap fun x => f x.2 := by
  have hl : m.length = n := by simpa using congrArg List.length h
  have : (List.range n).flatMap (fun k => match Memory.read m (i + k) with | some v => f v | none => []) =
      (List.range n).flatMap fun k => match m[k]? with | some x => f x.2 | none => [] := by
    refine List.flatMap_congr fun k hk => ?_
    rw [Memory.read_of_indices h k (List.mem_range.1 hk)]
    cases m[k]? <;> rfl
  rw [this, ← hl]
  clear * -
  induction m with
  | nil => rfl
  | cons x m ih =>
    rw [List.length_cons, List.range_succ_eq_map, List.flatMap_cons, List.flatMap_map, List.flatMap_cons]
    simp only [List.getElem?_cons_zero, List.getElem?_cons_succ, Nat.succ_eq_add_one]
    rw [ih]

/-- The builder's arena is a tree over the 256 symbols, with their counts in the leaves (R185). -/
theorem treeOk_buildTree {ws : List Word} (h : ws.length = 256) :
    treeOk (buildTree ws) ∧ ∀ k < 256, weightAt (buildTree ws) k = (ws.getD k 0).toNat := by
  obtain ⟨l1, l2⟩ := leaves_spec 0 ws
  have hq := leafQueue_perm 0 ws
  rw [h] at l1 l2 hq
  have hlen : (leafQueue 0 ws).length = 255 + 1 := by simpa using hq.length_eq
  obtain ⟨m1, m2, last, m3, -, m5⟩ := mergeLoop_spec 255 256 (leafQueue 0 ws) hlen
    (fun x hx => by
      have := hq.mem_iff.1 (List.mem_map_of_mem hx)
      simp only [List.mem_range'_1] at this
      omega) (by omega)
  have hl : ∀ k < 256, Memory.read (buildTree ws) k = some (leafNode k (ws.getD k 0)) := fun k hk => by
    refine Memory.read_append_left ?_
    have := Memory.read_of_indices l1 k hk
    rw [Nat.zero_add] at this
    rw [this, l2 k hk]; simp
  have hr : ∀ k < 255, Memory.read (buildTree ws) (256 + k) = Memory.read (mergeLoop 255 256 (leafQueue 0 ws)) (256 + k) :=
    fun k _ => Memory.read_append_right fun x hx => by
      have : x.1 ∈ List.range' 0 256 := l1 ▸ List.mem_map_of_mem hx
      simp only [List.mem_range'_1] at this
      omega
  refine ⟨⟨fun k hk => ⟨_, hl k hk, rfl, rfl, rfl, rfl⟩, fun k hk => ?_, ?_⟩, fun k hk => by
    simp only [weightAt, hl k hk, leafNode]⟩
  · have hk' : k < (mergeLoop 255 256 (leafQueue 0 ws)).length := by
      have := congrArg List.length m1
      simp only [List.length_map, List.length_range'] at this
      omega
    have e := Memory.read_of_indices m1 k hk
    rw [List.getElem?_eq_getElem hk', Option.map_some] at e
    have hx : (mergeLoop 255 256 (leafQueue 0 ws))[k].1 = 256 + k := by
      have := congrArg (fun l => l[k]?) m1
      simp only [List.getElem?_map, List.getElem?_eq_getElem hk', Option.map_some] at this
      rw [List.getElem?_range' (by omega)] at this
      simpa using this
    obtain ⟨g1, g2, g3, g4⟩ := m2 _ (List.getElem_mem hk')
    rw [hx] at g3 g4
    exact ⟨_, (hr k hk).trans e, g1, g2, g3, g4⟩
  · have hc : treeChildren (buildTree ws) =
        (mergeLoop 255 256 (leafQueue 0 ws)).flatMap fun x => [x.2.left.toNat, x.2.right.toNat] := by
      rw [← Memory.flatMap_range m1 fun nd => [nd.left.toNat, nd.right.toNat]]
      refine List.flatMap_congr fun k hk => ?_
      rw [hr k (List.mem_range.1 hk)]
      cases Memory.read (mergeLoop 255 256 (leafQueue 0 ws)) (256 + k) <;> rfl
    rw [hc]
    have hlast : last = 510 := m3 (by decide)
    subst hlast
    have hfin := m5.trans (hq.append_right _)
    have hrange : List.range' 0 256 ++ List.range' 256 255 = List.range 510 ++ [510] := by
      rw [← List.range_succ (n := 510), List.range_eq_range']
      exact List.range'_append_1
    rw [hrange] at hfin
    exact (List.perm_append_right_iff _).1 hfin

/-! ## The code table -/

/-- On a tree, a traversal whose fuel covers the node's number answers a table (R190, R194). -/
theorem assignCodes_ok {nodes : Memory Node} (h : treeOk nodes) {d n : Nat} (path : BitStr) (codes : Memory BitStr)
    (hn : n ≤ 510) (hd : 1 ≤ d ∧ n ≤ d + 254) : ∃ c, assignCodes nodes d n path codes = .ok c := by
  induction d generalizing n path codes with
  | zero => omega
  | succ d ih =>
    unfold assignCodes
    by_cases hl : n < 256
    · obtain ⟨nd, e, h1, -⟩ := h.1 n hl
      rw [Option.mem_def] at e
      exact ⟨_, by simp only [e, h1, if_true]; rfl⟩
    · obtain ⟨nd, e, h1, -, h3, h4⟩ := h.2.1 (n - 256) (by omega)
      rw [Option.mem_def, show 256 + (n - 256) = n by omega] at e
      have hd' : 1 ≤ d := by omega
      obtain ⟨c, hc⟩ := ih (path ++ [false]) codes (n := nd.left.toNat) (by omega) (by omega)
      obtain ⟨c', hc'⟩ := ih (path ++ [true]) c (n := nd.right.toNat) (by omega) (by omega)
      exact ⟨c', by simp only [e, h1, Bool.false_eq_true, if_false, hc, hc']⟩

/-- What a traversal leaves of the table it is given: entries are only added or replaced, each new one no longer than the
path and the fuel allow. -/
theorem assignCodes_keeps {nodes : Memory Node} {d n : Nat} {path : BitStr} {codes c : Memory BitStr}
    (h : assignCodes nodes d n path codes = .ok c) (hc : Memory.wf codes) :
    Memory.wf c ∧ (∀ k, (Memory.read codes k).isSome → (Memory.read c k).isSome) ∧
      ∀ k p, Memory.read c k = some p → Memory.read codes k = some p ∨ p.length + 1 ≤ path.length + d := by
  induction d generalizing n path codes c with
  | zero => simp [assignCodes] at h
  | succ d ih =>
    unfold assignCodes at h
    split at h
    · cases h
    · rename_i nd _
      split at h
      · cases h
        refine ⟨Memory.wf_write hc _ _, fun k hk => ?_, fun k p hp => ?_⟩
        · by_cases e : k = nd.sym.toNat
          · subst e; simp
          · rwa [Memory.read_write_other hc _ e]
        · by_cases e : k = nd.sym.toNat
          · subst e
            rw [Memory.read_write_same] at hp
            cases hp
            exact .inr (by omega)
          · rw [Memory.read_write_other hc _ e] at hp
            exact .inl hp
      · split at h
        · cases h
        · rename_i c1 h1
          obtain ⟨i1, i2, i3⟩ := ih h1 hc
          obtain ⟨j1, j2, j3⟩ := ih h i1
          refine ⟨j1, fun k hk => j2 k (i2 k hk), fun k p hp => ?_⟩
          rcases j3 k p hp with g | g
          · rcases i3 k p g with g | g
            · exact .inl g
            · exact .inr (by simp at g; omega)
          · exact .inr (by simp at g; omega)

/-- The nodes below a node. -/
inductive Below (nodes : Memory Node) (n : Nat) : Nat → Prop where
  | self : Below nodes n n
  | left {m : Nat} {nd : Node} : Below nodes n m → Memory.read nodes m = some nd → nd.leaf = false →
      Below nodes n nd.left.toNat
  | right {m : Nat} {nd : Node} : Below nodes n m → Memory.read nodes m = some nd → nd.leaf = false →
      Below nodes n nd.right.toNat

theorem Below.trans {nodes : Memory Node} {a b c : Nat} (h : Below nodes a b) (g : Below nodes b c) : Below nodes a c := by
  induction g with
  | self => exact h
  | left _ e1 e2 ih => exact .left ih e1 e2
  | right _ e1 e2 ih => exact .right ih e1 e2

/-- In a tree every node is below the root (R185). -/
theorem treeOk.below_root {nodes : Memory Node} (h : treeOk nodes) (n : Nat) (hn : n ≤ 510) : Below nodes 510 n := by
  induction hm : 510 - n using Nat.strong_induction_on generalizing n with
  | _ m ih =>
    rcases Nat.lt_or_ge n 510 with h' | h'
    · have hmem : n ∈ treeChildren nodes := h.2.2.mem_iff.2 (List.mem_range.2 h')
      obtain ⟨k, hk, hc⟩ := List.mem_flatMap.1 hmem
      have hk := List.mem_range.1 hk
      obtain ⟨nd, e, h1, -, h3, h4⟩ := h.2.1 k hk
      rw [Option.mem_def] at e
      rw [e] at hc
      have hlt : n < 256 + k := by
        rcases List.mem_cons.1 hc with rfl | hc
        · exact h3
        · rw [List.mem_singleton.1 hc]; exact h4
      have hb := ih (510 - (256 + k)) (by omega) (256 + k) (by omega) rfl
      rcases List.mem_cons.1 hc with rfl | hc
      · exact .left hb e h1
      · rw [List.mem_singleton.1 hc]; exact .right hb e h1
    · rw [show n = 510 by omega]; exact .self

/-- A node below another is that node or below one of its children. -/
theorem below_top {nodes : Memory Node} {n m : Nat} (hb : Below nodes n m) :
    m = n ∨ ∃ e, Memory.read nodes n = some e ∧ e.leaf = false ∧
      (Below nodes e.left.toNat m ∨ Below nodes e.right.toNat m) := by
  induction hb with
  | self => exact .inl rfl
  | left _ e1 e2 ih =>
    rcases ih with rfl | ⟨e, g1, g2, g3 | g3⟩
    · exact .inr ⟨_, e1, e2, .inl .self⟩
    · exact .inr ⟨e, g1, g2, .inl (.left g3 e1 e2)⟩
    · exact .inr ⟨e, g1, g2, .inr (.left g3 e1 e2)⟩
  | right _ e1 e2 ih =>
    rcases ih with rfl | ⟨e, g1, g2, g3 | g3⟩
    · exact .inr ⟨_, e1, e2, .inr .self⟩
    · exact .inr ⟨e, g1, g2, .inl (.right g3 e1 e2)⟩
    · exact .inr ⟨e, g1, g2, .inr (.right g3 e1 e2)⟩

/-- A traversal gives a code to every leaf below its node (R190). -/
theorem assignCodes_lists {nodes : Memory Node} {d n : Nat} {path : BitStr} {codes c : Memory BitStr}
    (h : assignCodes nodes d n path codes = .ok c) (hc : Memory.wf codes) {m : Nat} (hb : Below nodes n m) {nd : Node}
    (hr : Memory.read nodes m = some nd) (hl : nd.leaf = true) : (Memory.read c nd.sym.toNat).isSome := by
  induction d generalizing n path codes c with
  | zero => simp [assignCodes] at h
  | succ d ih =>
    have ht := below_top hb
    unfold assignCodes at h
    split at h
    · cases h
    · rename_i e he
      split at h
      · rename_i hleaf
        rcases ht with rfl | ⟨e', g1, g2, -⟩
        · rw [he] at hr; cases hr; cases h; simp
        · rw [he] at g1; cases g1; rw [g2] at hleaf; cases hleaf
      · rename_i hleaf
        split at h
        · cases h
        · rename_i c1 h1
          obtain ⟨i1, -, -⟩ := assignCodes_keeps h1 hc
          obtain ⟨-, j2, -⟩ := assignCodes_keeps h i1
          rcases ht with rfl | ⟨e', g1, -, g3 | g3⟩
          · rw [he] at hr; cases hr; exact absurd hl hleaf
          · rw [he] at g1; cases g1
            exact j2 _ (ih h1 hc g3)
          · rw [he] at g1; cases g1
            exact ih h i1 g3

/-- On a tree the code stage writes a code of at most 255 bits for every symbol (R190, R194). -/
theorem stageCodes_ok {s : State} (h : treeOk s.nodeMem) (hroot : s.root = 510) :
    ∃ c, stageCodes s = .ok { s with codeMem := c, status := { s.status with codesValid := true } } ∧ Memory.wf c ∧
      (∀ k < 256, (Memory.read c k).isSome) ∧ ∀ k p, Memory.read c k = some p → p.length ≤ 255 := by
  have hr : s.root.toNat = 510 := by rw [hroot]; rfl
  obtain ⟨c, hc⟩ := assignCodes_ok h [] [] (d := 256) (n := 510) (by omega) (by omega)
  have hw : Memory.wf ([] : Memory BitStr) := List.Pairwise.nil
  obtain ⟨k1, -, k3⟩ := assignCodes_keeps hc hw
  refine ⟨c, by simp only [stageCodes, hr, hc], k1, fun k hk => ?_, fun k p hp => ?_⟩
  · obtain ⟨nd, e, h1, h2, -⟩ := h.1 k hk
    have := assignCodes_lists hc hw (treeOk.below_root h k (by omega)) e h1
    rwa [h2, BitVec.toNat_ofNat, Nat.mod_eq_of_lt hk] at this
  · rcases k3 k p hp with g | g
    · simp at g
    · simp at g; omega

/-- The three stages before WRITE, on any input (43_huffman_container.md R240). -/
theorem hufStages_ok {s : State} {bs : List Byte} (h : s.inputIs bs) :
    ∃ ws c, ws.length = 256 ∧ hufStages s = .ok { s with
        freqMem := freqTable bs
        fileSize := some s.inLen
        nodeMem := buildTree ws
        root := 510
        codeMem := c
        status := { s.status with freqValid := true, treeValid := true, codesValid := true } } ∧ Memory.wf c ∧
      (∀ k < 256, (Memory.read c k).isSome) ∧ ∀ k p, Memory.read c k = some p → p.length ≤ 255 := by
  have h1 : stageStats s = .ok { s with
      freqMem := freqTable bs
      fileSize := some s.inLen
      status := { s.status with freqValid := true } } := by simp only [stageStats, inBytes_of_inputIs h]
  have hidx : (freqTable bs).map (fun x => x.1) = List.range' 0 256 := by
    simp [freqTable, Function.comp_def, List.range_eq_range']
  have hall : ∀ i < 256, (Memory.read (freqTable bs) (0 + i)).isSome := fun i hi => by
    rw [Memory.read_of_indices hidx i hi]
    simp [freqTable, hi]
  obtain ⟨ws, hl, -, h2⟩ : ∃ ws : List Word, ws.length = 256 ∧ True ∧
      readRange (Fault.unspecifiedRecord .freq) (freqTable bs) 0 256 = .ok ws := by
    rcases readRange_cases (f := Fault.unspecifiedRecord .freq) (m := freqTable bs) (a := 0) (n := 256) with
      ⟨ws, hl, -, he⟩ | ⟨i, -, hi, hn, -⟩
    · exact ⟨ws, hl, trivial, he⟩
    · have := hall i (by omega)
      rw [Nat.zero_add, hn] at this
      cases this
  obtain ⟨c, h3, h4, h5, h6⟩ := stageCodes_ok (s := { s with
      freqMem := freqTable bs
      fileSize := some s.inLen
      nodeMem := buildTree ws
      root := 510
      status := { s.status with freqValid := true, treeValid := true } }) (treeOk_buildTree hl).1 rfl
  exact ⟨ws, c, hl, by simp only [hufStages, h1, stageBuild, h2, h3], h4, h5, h6⟩

end Sys2Proof.Machine
end

