-- ==== Sys2Proof/Laws/Container.lean ====
section
/-! SUPPORT. How long the containers' parts are (30_encoding.md R121, R130, R131, R135, R136), and the encoders as a bit
stream written to OUT (43_huffman_container.md R240, 44_lz78.md R276). -/

namespace Sys2Proof.Machine

@[simp] theorem nulField_length (bs : List Byte) : (nulField bs).length = 8 * (bs.length + 1) := by
  simp [nulField]; ring

/-- A header integer has at most four bytes (R124). -/
theorem beMin_length_le (v : Nat) : (beMin v).length ≤ 4 := by
  have : ∀ n v, (beDigits n v).length ≤ n := fun n => by
    induction n with
    | zero => simp [beDigits]
    | succ n ih =>
      intro v
      unfold beDigits
      split
      · simp
      · simpa using ih _
  exact this 4 v

/-- A code entry is the length byte and the code's whole bytes (R130). -/
theorem codeEntry_length (c : BitStr) : (codeEntry c).length = 8 * (1 + ceilDiv8 c.length) := by
  have : c.length ≤ 8 * ceilDiv8 c.length := by unfold ceilDiv8; omega
  simp [codeEntry]; omega

/-- A token has W + 8 bits (R135). -/
@[simp] theorem tokenBits_length (w : Nat) (t : Entry) : (tokenBits w t).length = w + 8 := by simp [tokenBits]

/-- The parts of an LZ78 container (R136). -/
theorem lzContainer_length (name : List Byte) (size w : Nat) (toks : List Entry) :
    (lzContainer name size w toks).length =
      8 * (name.length + 1) + 8 * ((beMin size).length + 1) + 8 * ((beMin w).length + 1) + toks.length * (w + 8) := by
  have : ∀ ts : List Entry, (ts.flatMap (tokenBits w)).length = ts.length * (w + 8) := fun ts => by
    induction ts with
    | nil => simp
    | cons t ts ih => rw [List.flatMap_cons, List.length_append, ih, tokenBits_length, List.length_cons]; ring
  simp [lzContainer, this]; ring

/-- The parts of a Huffman container (R131). -/
theorem hufContainer_length (name : List Byte) (size : Nat) (table payload : List BitStr) :
    (hufContainer name size table payload).length =
      8 * (name.length + 1) + 8 * ((beMin size).length + 1) + (table.flatMap codeEntry).length +
        payload.flatten.length := by
  simp [hufContainer]; ring

/-- Strings of at most b bits each. -/
theorem length_flatMap_le {α : Type} (l : List α) (f : α → BitStr) (b : Nat) (h : ∀ x ∈ l, (f x).length ≤ b) :
    (l.flatMap f).length ≤ l.length * b := by
  induction l with
  | nil => simp
  | cons x l ih =>
    have h1 := h x (by simp)
    have h2 := ih fun y hy => h y (by simp [hy])
    rw [List.flatMap_cons, List.length_append, List.length_cons, Nat.succ_mul]
    omega

/-- HUF_ENCODE past its argument checks: the stages' state, and the container of their code table written to OUT. -/
theorem hufEncode_writes {s : State} {bs f : List Byte} (h : s.inputIs bs) (hf : Memory.holds s.fnameMem 0 f)
    (hc : checkEncode s = .ok f.length) :
    ∃ (ws : List Word) (c : Memory BitStr) (table payload : List BitStr) (t : State), t = { s with
        freqMem := freqTable bs
        fileSize := some s.inLen
        nodeMem := buildTree ws
        root := 510
        codeMem := c
        status := { s.status with freqValid := true, treeValid := true, codesValid := true } } ∧
      hufStages s = .ok t ∧ table.length = 256 ∧ payload.length = bs.length ∧ (∀ p ∈ table, p.length ≤ 255) ∧
      (∀ p ∈ payload, p.length ≤ 255) ∧
      hufEncode s = writeContainer t (hufContainer f bs.length table payload) := by
  obtain ⟨ws, c, -, h1, -, h3, h4⟩ := hufStages_ok h
  have look : ∀ ks : List Nat, (∀ k ∈ ks, k < 256) →
      ∃ cs : List BitStr, codesOf c ks = .ok cs ∧ cs.length = ks.length ∧ ∀ p ∈ cs, p.length ≤ 255 := fun ks hk => by
    rcases codesOf_cases c ks with ⟨cs, e1, e2, e3⟩ | ⟨k, e1, e2, -⟩
    · refine ⟨cs, e1, e2, fun p hp => ?_⟩
      obtain ⟨i, hi, rfl⟩ := List.mem_iff_getElem.1 hp
      have := e3 i (by omega)
      rw [List.getElem?_eq_getElem hi] at this
      exact h4 _ _ this
    · have := h3 k (hk k e1)
      rw [e2] at this
      cases this
  obtain ⟨table, t1, t2, t3⟩ := look (List.range 256) fun k hk => List.mem_range.1 hk
  obtain ⟨payload, p1, p2, p3⟩ := look (bs.map BitVec.toNat) fun k hk => by
    obtain ⟨b, -, rfl⟩ := List.mem_map.1 hk
    exact b.isLt
  refine ⟨ws, c, table, payload, _, rfl, h1, by simpa using t2, by simpa using p2, t3, p3, ?_⟩
  have hn : fnameBytes s f.length = .ok f := fnameBytes_of_nameIs hf
  have hi := inBytes_of_inputIs h
  have hl := h.1
  simp only [hufEncode, hc, h1, hufStream, fnameBytes, inBytes, t1] at hn hi ⊢
  rw [hl] at hi
  simp only [hn, hl, hi, p1]

/-- LZ_ENCODE past its argument checks: the segmentation's state, and its container written to OUT. -/
theorem lzEncode_writes {s : State} {bs f : List Byte} (h : s.inputIs bs) (hf : Memory.holds s.fnameMem 0 f)
    (hc : checkEncode s = .ok f.length) :
    lzEncode s = writeContainer (s.setSegments (Seg.start.run bs))
      (lzContainer f bs.length (ceilLog2 (Seg.start.run bs).dict.count) (Seg.start.run bs).tokens) := by
  have hn : fnameBytes (s.setSegments (Seg.start.run bs)) f.length = .ok f := fnameBytes_of_nameIs hf
  have hi := inBytes_of_inputIs h
  rw [h.1] at hi
  simp only [lzEncode, hc, stageSegment, h.1, hi, hn]

end Sys2Proof.Machine
end

