-- ==== Sys2Proof/Laws/Decode.lean ====
section
/-! SUPPORT. The opcode map read both ways. -/

namespace Sys2Proof

/-- The opcode map and the opcodes of the commands are inverse to each other. -/
theorem opcodeInstr_eq_some {n : Nat} {i : Instr} (h : opcodeInstr n = some i) : n = i.opcode.toNat := by
  unfold opcodeInstr at h
  split at h <;> first | (cases h; rfl) | cases h

/-- Each command's opcode selects it. -/
theorem opcodeInstr_opcode (i : Instr) : opcodeInstr i.opcode.toNat = some i := by
  cases i <;> rfl

end Sys2Proof
end

