-- ==== Sys2Proof/Laws/PerInstr.lean ====
section
/-! SUPPORT. The encoding family, command by command (30_encoding.md R110, R111). -/

namespace Sys2Proof.Laws.Encoding

/-- The command's word is legal, has its opcode in bits [7:0] and zeros above, and the opcode table's 32-bit word of that
number is read as the command. -/
def Statement (i : Instr) : Prop :=
  CmdWord.wf (encode i) = true ∧ CmdWord.opc (encode i) = i.opcode ∧ CmdWord.rsvd (encode i) = 0 ∧
    decodeTableWord 32 (encode i).toNat = some i

theorem nop : Statement .nop := by unfold Statement; decide
theorem bpReset : Statement .bpReset := by unfold Statement; decide
theorem bpPut : Statement .bpPut := by unfold Statement; decide
theorem bpFlush : Statement .bpFlush := by unfold Statement; decide
theorem brGetbit : Statement .brGetbit := by unfold Statement; decide
theorem brGetbits : Statement .brGetbits := by unfold Statement; decide
theorem hufStats : Statement .hufStats := by unfold Statement; decide
theorem hufBuild : Statement .hufBuild := by unfold Statement; decide
theorem hufCodes : Statement .hufCodes := by unfold Statement; decide
theorem hufEncode : Statement .hufEncode := by unfold Statement; decide
theorem hufDecode : Statement .hufDecode := by unfold Statement; decide
theorem lzSegment : Statement .lzSegment := by unfold Statement; decide
theorem lzEncode : Statement .lzEncode := by unfold Statement; decide
theorem lzDecode : Statement .lzDecode := by unfold Statement; decide

end Sys2Proof.Laws.Encoding
end

