-- ==== Sys2Proof/Laws/State.lean ====
section
/-! SUPPORT. What each named update of the state does to each field: one lemma per field and update. -/

namespace Sys2Proof.Machine

/-! ## State.complete -/

@[simp] theorem State.complete_cmd (s : State) (e : Option ErrCode) : (s.complete e).cmd = s.cmd := rfl
@[simp] theorem State.complete_status (s : State) (e : Option ErrCode) : (s.complete e).status = s.status.complete e := rfl
@[simp] theorem State.complete_arg0 (s : State) (e : Option ErrCode) : (s.complete e).arg0 = s.arg0 := rfl
@[simp] theorem State.complete_arg1 (s : State) (e : Option ErrCode) : (s.complete e).arg1 = s.arg1 := rfl
@[simp] theorem State.complete_result (s : State) (e : Option ErrCode) : (s.complete e).result = s.result := rfl
@[simp] theorem State.complete_inLen (s : State) (e : Option ErrCode) : (s.complete e).inLen = s.inLen := rfl
@[simp] theorem State.complete_fnameLen (s : State) (e : Option ErrCode) : (s.complete e).fnameLen = s.fnameLen := rfl
@[simp] theorem State.complete_outLen (s : State) (e : Option ErrCode) : (s.complete e).outLen = s.outLen := rfl
@[simp] theorem State.complete_fileSize (s : State) (e : Option ErrCode) : (s.complete e).fileSize = s.fileSize := rfl
@[simp] theorem State.complete_root (s : State) (e : Option ErrCode) : (s.complete e).root = s.root := rfl
@[simp] theorem State.complete_dictSize (s : State) (e : Option ErrCode) : (s.complete e).dictSize = s.dictSize := rfl
@[simp] theorem State.complete_indexWidth (s : State) (e : Option ErrCode) : (s.complete e).indexWidth = s.indexWidth := rfl
@[simp] theorem State.complete_tokenCount (s : State) (e : Option ErrCode) : (s.complete e).tokenCount = s.tokenCount := rfl
@[simp] theorem State.complete_bpAcc (s : State) (e : Option ErrCode) : (s.complete e).bpAcc = s.bpAcc := rfl
@[simp] theorem State.complete_bpNbits (s : State) (e : Option ErrCode) : (s.complete e).bpNbits = s.bpNbits := rfl
@[simp] theorem State.complete_brByte (s : State) (e : Option ErrCode) : (s.complete e).brByte = s.brByte := rfl
@[simp] theorem State.complete_brBit (s : State) (e : Option ErrCode) : (s.complete e).brBit = s.brBit := rfl
@[simp] theorem State.complete_payloadOff (s : State) (e : Option ErrCode) : (s.complete e).payloadOff = s.payloadOff := rfl
@[simp] theorem State.complete_inMem (s : State) (e : Option ErrCode) : (s.complete e).inMem = s.inMem := rfl
@[simp] theorem State.complete_outMem (s : State) (e : Option ErrCode) : (s.complete e).outMem = s.outMem := rfl
@[simp] theorem State.complete_fnameMem (s : State) (e : Option ErrCode) : (s.complete e).fnameMem = s.fnameMem := rfl
@[simp] theorem State.complete_freqMem (s : State) (e : Option ErrCode) : (s.complete e).freqMem = s.freqMem := rfl
@[simp] theorem State.complete_nodeMem (s : State) (e : Option ErrCode) : (s.complete e).nodeMem = s.nodeMem := rfl
@[simp] theorem State.complete_codeMem (s : State) (e : Option ErrCode) : (s.complete e).codeMem = s.codeMem := rfl
@[simp] theorem State.complete_dictMem (s : State) (e : Option ErrCode) : (s.complete e).dictMem = s.dictMem := rfl
@[simp] theorem State.complete_tokMem (s : State) (e : Option ErrCode) : (s.complete e).tokMem = s.tokMem := rfl
@[simp] theorem State.complete_params (s : State) (e : Option ErrCode) : (s.complete e).params = s.params := rfl
@[simp] theorem State.complete_events (s : State) (e : Option ErrCode) : (s.complete e).events = s.events := rfl
@[simp] theorem State.complete_observed (s : State) (e : Option ErrCode) : (s.complete e).observed = s.observed := rfl

/-! ## State.issue -/

@[simp] theorem State.issue_cmd (s : State) (v : Word) : (s.issue v).cmd = v := rfl
@[simp] theorem State.issue_status (s : State) (v : Word) : (s.issue v).status = s.status.issue := rfl
@[simp] theorem State.issue_arg0 (s : State) (v : Word) : (s.issue v).arg0 = s.arg0 := rfl
@[simp] theorem State.issue_arg1 (s : State) (v : Word) : (s.issue v).arg1 = s.arg1 := rfl
@[simp] theorem State.issue_result (s : State) (v : Word) : (s.issue v).result = s.result := rfl
@[simp] theorem State.issue_inLen (s : State) (v : Word) : (s.issue v).inLen = s.inLen := rfl
@[simp] theorem State.issue_fnameLen (s : State) (v : Word) : (s.issue v).fnameLen = s.fnameLen := rfl
@[simp] theorem State.issue_outLen (s : State) (v : Word) : (s.issue v).outLen = s.outLen := rfl
@[simp] theorem State.issue_fileSize (s : State) (v : Word) : (s.issue v).fileSize = s.fileSize := rfl
@[simp] theorem State.issue_root (s : State) (v : Word) : (s.issue v).root = s.root := rfl
@[simp] theorem State.issue_dictSize (s : State) (v : Word) : (s.issue v).dictSize = s.dictSize := rfl
@[simp] theorem State.issue_indexWidth (s : State) (v : Word) : (s.issue v).indexWidth = s.indexWidth := rfl
@[simp] theorem State.issue_tokenCount (s : State) (v : Word) : (s.issue v).tokenCount = s.tokenCount := rfl
@[simp] theorem State.issue_bpAcc (s : State) (v : Word) : (s.issue v).bpAcc = s.bpAcc := rfl
@[simp] theorem State.issue_bpNbits (s : State) (v : Word) : (s.issue v).bpNbits = s.bpNbits := rfl
@[simp] theorem State.issue_brByte (s : State) (v : Word) : (s.issue v).brByte = s.brByte := rfl
@[simp] theorem State.issue_brBit (s : State) (v : Word) : (s.issue v).brBit = s.brBit := rfl
@[simp] theorem State.issue_payloadOff (s : State) (v : Word) : (s.issue v).payloadOff = s.payloadOff := rfl
@[simp] theorem State.issue_inMem (s : State) (v : Word) : (s.issue v).inMem = s.inMem := rfl
@[simp] theorem State.issue_outMem (s : State) (v : Word) : (s.issue v).outMem = s.outMem := rfl
@[simp] theorem State.issue_fnameMem (s : State) (v : Word) : (s.issue v).fnameMem = s.fnameMem := rfl
@[simp] theorem State.issue_freqMem (s : State) (v : Word) : (s.issue v).freqMem = s.freqMem := rfl
@[simp] theorem State.issue_nodeMem (s : State) (v : Word) : (s.issue v).nodeMem = s.nodeMem := rfl
@[simp] theorem State.issue_codeMem (s : State) (v : Word) : (s.issue v).codeMem = s.codeMem := rfl
@[simp] theorem State.issue_dictMem (s : State) (v : Word) : (s.issue v).dictMem = s.dictMem := rfl
@[simp] theorem State.issue_tokMem (s : State) (v : Word) : (s.issue v).tokMem = s.tokMem := rfl
@[simp] theorem State.issue_params (s : State) (v : Word) : (s.issue v).params = s.params := rfl
@[simp] theorem State.issue_events (s : State) (v : Word) : (s.issue v).events = s.events := rfl
@[simp] theorem State.issue_observed (s : State) (v : Word) : (s.issue v).observed = s.observed := rfl

/-! ## State.setPacker -/

@[simp] theorem State.setPacker_cmd (s : State) (p : Packer) : (s.setPacker p).cmd = s.cmd := rfl
@[simp] theorem State.setPacker_status (s : State) (p : Packer) : (s.setPacker p).status = s.status := rfl
@[simp] theorem State.setPacker_arg0 (s : State) (p : Packer) : (s.setPacker p).arg0 = s.arg0 := rfl
@[simp] theorem State.setPacker_arg1 (s : State) (p : Packer) : (s.setPacker p).arg1 = s.arg1 := rfl
@[simp] theorem State.setPacker_result (s : State) (p : Packer) : (s.setPacker p).result = s.result := rfl
@[simp] theorem State.setPacker_inLen (s : State) (p : Packer) : (s.setPacker p).inLen = s.inLen := rfl
@[simp] theorem State.setPacker_fnameLen (s : State) (p : Packer) : (s.setPacker p).fnameLen = s.fnameLen := rfl
@[simp] theorem State.setPacker_outLen (s : State) (p : Packer) : (s.setPacker p).outLen = some (BitVec.ofNat 32 p.outLen) := rfl
@[simp] theorem State.setPacker_fileSize (s : State) (p : Packer) : (s.setPacker p).fileSize = s.fileSize := rfl
@[simp] theorem State.setPacker_root (s : State) (p : Packer) : (s.setPacker p).root = s.root := rfl
@[simp] theorem State.setPacker_dictSize (s : State) (p : Packer) : (s.setPacker p).dictSize = s.dictSize := rfl
@[simp] theorem State.setPacker_indexWidth (s : State) (p : Packer) : (s.setPacker p).indexWidth = s.indexWidth := rfl
@[simp] theorem State.setPacker_tokenCount (s : State) (p : Packer) : (s.setPacker p).tokenCount = s.tokenCount := rfl
@[simp] theorem State.setPacker_bpAcc (s : State) (p : Packer) : (s.setPacker p).bpAcc = some (BitVec.ofNat 7 p.acc) := rfl
@[simp] theorem State.setPacker_bpNbits (s : State) (p : Packer) : (s.setPacker p).bpNbits = some (BitVec.ofNat 3 p.nbits) := rfl
@[simp] theorem State.setPacker_brByte (s : State) (p : Packer) : (s.setPacker p).brByte = s.brByte := rfl
@[simp] theorem State.setPacker_brBit (s : State) (p : Packer) : (s.setPacker p).brBit = s.brBit := rfl
@[simp] theorem State.setPacker_payloadOff (s : State) (p : Packer) : (s.setPacker p).payloadOff = s.payloadOff := rfl
@[simp] theorem State.setPacker_inMem (s : State) (p : Packer) : (s.setPacker p).inMem = s.inMem := rfl
@[simp] theorem State.setPacker_outMem (s : State) (p : Packer) : (s.setPacker p).outMem = p.out := rfl
@[simp] theorem State.setPacker_fnameMem (s : State) (p : Packer) : (s.setPacker p).fnameMem = s.fnameMem := rfl
@[simp] theorem State.setPacker_freqMem (s : State) (p : Packer) : (s.setPacker p).freqMem = s.freqMem := rfl
@[simp] theorem State.setPacker_nodeMem (s : State) (p : Packer) : (s.setPacker p).nodeMem = s.nodeMem := rfl
@[simp] theorem State.setPacker_codeMem (s : State) (p : Packer) : (s.setPacker p).codeMem = s.codeMem := rfl
@[simp] theorem State.setPacker_dictMem (s : State) (p : Packer) : (s.setPacker p).dictMem = s.dictMem := rfl
@[simp] theorem State.setPacker_tokMem (s : State) (p : Packer) : (s.setPacker p).tokMem = s.tokMem := rfl
@[simp] theorem State.setPacker_params (s : State) (p : Packer) : (s.setPacker p).params = s.params := rfl
@[simp] theorem State.setPacker_events (s : State) (p : Packer) : (s.setPacker p).events = s.events := rfl
@[simp] theorem State.setPacker_observed (s : State) (p : Packer) : (s.setPacker p).observed = s.observed := rfl

/-! ## State.setCursor -/

@[simp] theorem State.setCursor_cmd (s : State) (pos : Nat) : (s.setCursor pos).cmd = s.cmd := rfl
@[simp] theorem State.setCursor_status (s : State) (pos : Nat) : (s.setCursor pos).status = s.status := rfl
@[simp] theorem State.setCursor_arg0 (s : State) (pos : Nat) : (s.setCursor pos).arg0 = s.arg0 := rfl
@[simp] theorem State.setCursor_arg1 (s : State) (pos : Nat) : (s.setCursor pos).arg1 = s.arg1 := rfl
@[simp] theorem State.setCursor_result (s : State) (pos : Nat) : (s.setCursor pos).result = s.result := rfl
@[simp] theorem State.setCursor_inLen (s : State) (pos : Nat) : (s.setCursor pos).inLen = s.inLen := rfl
@[simp] theorem State.setCursor_fnameLen (s : State) (pos : Nat) : (s.setCursor pos).fnameLen = s.fnameLen := rfl
@[simp] theorem State.setCursor_outLen (s : State) (pos : Nat) : (s.setCursor pos).outLen = s.outLen := rfl
@[simp] theorem State.setCursor_fileSize (s : State) (pos : Nat) : (s.setCursor pos).fileSize = s.fileSize := rfl
@[simp] theorem State.setCursor_root (s : State) (pos : Nat) : (s.setCursor pos).root = s.root := rfl
@[simp] theorem State.setCursor_dictSize (s : State) (pos : Nat) : (s.setCursor pos).dictSize = s.dictSize := rfl
@[simp] theorem State.setCursor_indexWidth (s : State) (pos : Nat) : (s.setCursor pos).indexWidth = s.indexWidth := rfl
@[simp] theorem State.setCursor_tokenCount (s : State) (pos : Nat) : (s.setCursor pos).tokenCount = s.tokenCount := rfl
@[simp] theorem State.setCursor_bpAcc (s : State) (pos : Nat) : (s.setCursor pos).bpAcc = s.bpAcc := rfl
@[simp] theorem State.setCursor_bpNbits (s : State) (pos : Nat) : (s.setCursor pos).bpNbits = s.bpNbits := rfl
@[simp] theorem State.setCursor_brByte (s : State) (pos : Nat) : (s.setCursor pos).brByte = some (BitVec.ofNat 32 (pos / 8)) := rfl
@[simp] theorem State.setCursor_brBit (s : State) (pos : Nat) : (s.setCursor pos).brBit = some (BitVec.ofNat 3 (pos % 8)) := rfl
@[simp] theorem State.setCursor_payloadOff (s : State) (pos : Nat) : (s.setCursor pos).payloadOff = s.payloadOff := rfl
@[simp] theorem State.setCursor_inMem (s : State) (pos : Nat) : (s.setCursor pos).inMem = s.inMem := rfl
@[simp] theorem State.setCursor_outMem (s : State) (pos : Nat) : (s.setCursor pos).outMem = s.outMem := rfl
@[simp] theorem State.setCursor_fnameMem (s : State) (pos : Nat) : (s.setCursor pos).fnameMem = s.fnameMem := rfl
@[simp] theorem State.setCursor_freqMem (s : State) (pos : Nat) : (s.setCursor pos).freqMem = s.freqMem := rfl
@[simp] theorem State.setCursor_nodeMem (s : State) (pos : Nat) : (s.setCursor pos).nodeMem = s.nodeMem := rfl
@[simp] theorem State.setCursor_codeMem (s : State) (pos : Nat) : (s.setCursor pos).codeMem = s.codeMem := rfl
@[simp] theorem State.setCursor_dictMem (s : State) (pos : Nat) : (s.setCursor pos).dictMem = s.dictMem := rfl
@[simp] theorem State.setCursor_tokMem (s : State) (pos : Nat) : (s.setCursor pos).tokMem = s.tokMem := rfl
@[simp] theorem State.setCursor_params (s : State) (pos : Nat) : (s.setCursor pos).params = s.params := rfl
@[simp] theorem State.setCursor_events (s : State) (pos : Nat) : (s.setCursor pos).events = s.events := rfl
@[simp] theorem State.setCursor_observed (s : State) (pos : Nat) : (s.setCursor pos).observed = s.observed := rfl

/-! ## State.unspecifyPacker -/

@[simp] theorem State.unspecifyPacker_cmd (s : State) : s.unspecifyPacker.cmd = s.cmd := rfl
@[simp] theorem State.unspecifyPacker_status (s : State) : s.unspecifyPacker.status = s.status := rfl
@[simp] theorem State.unspecifyPacker_arg0 (s : State) : s.unspecifyPacker.arg0 = s.arg0 := rfl
@[simp] theorem State.unspecifyPacker_arg1 (s : State) : s.unspecifyPacker.arg1 = s.arg1 := rfl
@[simp] theorem State.unspecifyPacker_result (s : State) : s.unspecifyPacker.result = s.result := rfl
@[simp] theorem State.unspecifyPacker_inLen (s : State) : s.unspecifyPacker.inLen = s.inLen := rfl
@[simp] theorem State.unspecifyPacker_fnameLen (s : State) : s.unspecifyPacker.fnameLen = s.fnameLen := rfl
@[simp] theorem State.unspecifyPacker_outLen (s : State) : s.unspecifyPacker.outLen = none := rfl
@[simp] theorem State.unspecifyPacker_fileSize (s : State) : s.unspecifyPacker.fileSize = s.fileSize := rfl
@[simp] theorem State.unspecifyPacker_root (s : State) : s.unspecifyPacker.root = s.root := rfl
@[simp] theorem State.unspecifyPacker_dictSize (s : State) : s.unspecifyPacker.dictSize = s.dictSize := rfl
@[simp] theorem State.unspecifyPacker_indexWidth (s : State) : s.unspecifyPacker.indexWidth = s.indexWidth := rfl
@[simp] theorem State.unspecifyPacker_tokenCount (s : State) : s.unspecifyPacker.tokenCount = s.tokenCount := rfl
@[simp] theorem State.unspecifyPacker_bpAcc (s : State) : s.unspecifyPacker.bpAcc = none := rfl
@[simp] theorem State.unspecifyPacker_bpNbits (s : State) : s.unspecifyPacker.bpNbits = none := rfl
@[simp] theorem State.unspecifyPacker_brByte (s : State) : s.unspecifyPacker.brByte = s.brByte := rfl
@[simp] theorem State.unspecifyPacker_brBit (s : State) : s.unspecifyPacker.brBit = s.brBit := rfl
@[simp] theorem State.unspecifyPacker_payloadOff (s : State) : s.unspecifyPacker.payloadOff = s.payloadOff := rfl
@[simp] theorem State.unspecifyPacker_inMem (s : State) : s.unspecifyPacker.inMem = s.inMem := rfl
@[simp] theorem State.unspecifyPacker_outMem (s : State) : s.unspecifyPacker.outMem = [] := rfl
@[simp] theorem State.unspecifyPacker_fnameMem (s : State) : s.unspecifyPacker.fnameMem = s.fnameMem := rfl
@[simp] theorem State.unspecifyPacker_freqMem (s : State) : s.unspecifyPacker.freqMem = s.freqMem := rfl
@[simp] theorem State.unspecifyPacker_nodeMem (s : State) : s.unspecifyPacker.nodeMem = s.nodeMem := rfl
@[simp] theorem State.unspecifyPacker_codeMem (s : State) : s.unspecifyPacker.codeMem = s.codeMem := rfl
@[simp] theorem State.unspecifyPacker_dictMem (s : State) : s.unspecifyPacker.dictMem = s.dictMem := rfl
@[simp] theorem State.unspecifyPacker_tokMem (s : State) : s.unspecifyPacker.tokMem = s.tokMem := rfl
@[simp] theorem State.unspecifyPacker_params (s : State) : s.unspecifyPacker.params = s.params := rfl
@[simp] theorem State.unspecifyPacker_events (s : State) : s.unspecifyPacker.events = s.events := rfl
@[simp] theorem State.unspecifyPacker_observed (s : State) : s.unspecifyPacker.observed = s.observed := rfl

/-! ## State.unspecifyEncode -/

@[simp] theorem State.unspecifyEncode_cmd (s : State) : s.unspecifyEncode.cmd = s.cmd := rfl
@[simp] theorem State.unspecifyEncode_status (s : State) : s.unspecifyEncode.status = s.status := rfl
@[simp] theorem State.unspecifyEncode_arg0 (s : State) : s.unspecifyEncode.arg0 = s.arg0 := rfl
@[simp] theorem State.unspecifyEncode_arg1 (s : State) : s.unspecifyEncode.arg1 = s.arg1 := rfl
@[simp] theorem State.unspecifyEncode_result (s : State) : s.unspecifyEncode.result = s.result := rfl
@[simp] theorem State.unspecifyEncode_inLen (s : State) : s.unspecifyEncode.inLen = s.inLen := rfl
@[simp] theorem State.unspecifyEncode_fnameLen (s : State) : s.unspecifyEncode.fnameLen = s.fnameLen := rfl
@[simp] theorem State.unspecifyEncode_outLen (s : State) : s.unspecifyEncode.outLen = none := rfl
@[simp] theorem State.unspecifyEncode_fileSize (s : State) : s.unspecifyEncode.fileSize = none := rfl
@[simp] theorem State.unspecifyEncode_root (s : State) : s.unspecifyEncode.root = s.root := rfl
@[simp] theorem State.unspecifyEncode_dictSize (s : State) : s.unspecifyEncode.dictSize = s.dictSize := rfl
@[simp] theorem State.unspecifyEncode_indexWidth (s : State) : s.unspecifyEncode.indexWidth = s.indexWidth := rfl
@[simp] theorem State.unspecifyEncode_tokenCount (s : State) : s.unspecifyEncode.tokenCount = s.tokenCount := rfl
@[simp] theorem State.unspecifyEncode_bpAcc (s : State) : s.unspecifyEncode.bpAcc = none := rfl
@[simp] theorem State.unspecifyEncode_bpNbits (s : State) : s.unspecifyEncode.bpNbits = none := rfl
@[simp] theorem State.unspecifyEncode_brByte (s : State) : s.unspecifyEncode.brByte = s.brByte := rfl
@[simp] theorem State.unspecifyEncode_brBit (s : State) : s.unspecifyEncode.brBit = s.brBit := rfl
@[simp] theorem State.unspecifyEncode_payloadOff (s : State) : s.unspecifyEncode.payloadOff = s.payloadOff := rfl
@[simp] theorem State.unspecifyEncode_inMem (s : State) : s.unspecifyEncode.inMem = s.inMem := rfl
@[simp] theorem State.unspecifyEncode_outMem (s : State) : s.unspecifyEncode.outMem = [] := rfl
@[simp] theorem State.unspecifyEncode_fnameMem (s : State) : s.unspecifyEncode.fnameMem = s.fnameMem := rfl
@[simp] theorem State.unspecifyEncode_freqMem (s : State) : s.unspecifyEncode.freqMem = s.freqMem := rfl
@[simp] theorem State.unspecifyEncode_nodeMem (s : State) : s.unspecifyEncode.nodeMem = s.nodeMem := rfl
@[simp] theorem State.unspecifyEncode_codeMem (s : State) : s.unspecifyEncode.codeMem = s.codeMem := rfl
@[simp] theorem State.unspecifyEncode_dictMem (s : State) : s.unspecifyEncode.dictMem = s.dictMem := rfl
@[simp] theorem State.unspecifyEncode_tokMem (s : State) : s.unspecifyEncode.tokMem = s.tokMem := rfl
@[simp] theorem State.unspecifyEncode_params (s : State) : s.unspecifyEncode.params = s.params := rfl
@[simp] theorem State.unspecifyEncode_events (s : State) : s.unspecifyEncode.events = s.events := rfl
@[simp] theorem State.unspecifyEncode_observed (s : State) : s.unspecifyEncode.observed = s.observed := rfl

/-! ## State.unspecifyDecode -/

@[simp] theorem State.unspecifyDecode_cmd (s : State) : s.unspecifyDecode.cmd = s.cmd := rfl
@[simp] theorem State.unspecifyDecode_status (s : State) : s.unspecifyDecode.status = s.status := rfl
@[simp] theorem State.unspecifyDecode_arg0 (s : State) : s.unspecifyDecode.arg0 = s.arg0 := rfl
@[simp] theorem State.unspecifyDecode_arg1 (s : State) : s.unspecifyDecode.arg1 = s.arg1 := rfl
@[simp] theorem State.unspecifyDecode_result (s : State) : s.unspecifyDecode.result = s.result := rfl
@[simp] theorem State.unspecifyDecode_inLen (s : State) : s.unspecifyDecode.inLen = s.inLen := rfl
@[simp] theorem State.unspecifyDecode_fnameLen (s : State) : s.unspecifyDecode.fnameLen = none := rfl
@[simp] theorem State.unspecifyDecode_outLen (s : State) : s.unspecifyDecode.outLen = none := rfl
@[simp] theorem State.unspecifyDecode_fileSize (s : State) : s.unspecifyDecode.fileSize = none := rfl
@[simp] theorem State.unspecifyDecode_root (s : State) : s.unspecifyDecode.root = s.root := rfl
@[simp] theorem State.unspecifyDecode_dictSize (s : State) : s.unspecifyDecode.dictSize = s.dictSize := rfl
@[simp] theorem State.unspecifyDecode_indexWidth (s : State) : s.unspecifyDecode.indexWidth = s.indexWidth := rfl
@[simp] theorem State.unspecifyDecode_tokenCount (s : State) : s.unspecifyDecode.tokenCount = s.tokenCount := rfl
@[simp] theorem State.unspecifyDecode_bpAcc (s : State) : s.unspecifyDecode.bpAcc = none := rfl
@[simp] theorem State.unspecifyDecode_bpNbits (s : State) : s.unspecifyDecode.bpNbits = none := rfl
@[simp] theorem State.unspecifyDecode_brByte (s : State) : s.unspecifyDecode.brByte = none := rfl
@[simp] theorem State.unspecifyDecode_brBit (s : State) : s.unspecifyDecode.brBit = none := rfl
@[simp] theorem State.unspecifyDecode_payloadOff (s : State) : s.unspecifyDecode.payloadOff = none := rfl
@[simp] theorem State.unspecifyDecode_inMem (s : State) : s.unspecifyDecode.inMem = s.inMem := rfl
@[simp] theorem State.unspecifyDecode_outMem (s : State) : s.unspecifyDecode.outMem = [] := rfl
@[simp] theorem State.unspecifyDecode_fnameMem (s : State) : s.unspecifyDecode.fnameMem = [] := rfl
@[simp] theorem State.unspecifyDecode_freqMem (s : State) : s.unspecifyDecode.freqMem = s.freqMem := rfl
@[simp] theorem State.unspecifyDecode_nodeMem (s : State) : s.unspecifyDecode.nodeMem = s.nodeMem := rfl
@[simp] theorem State.unspecifyDecode_codeMem (s : State) : s.unspecifyDecode.codeMem = s.codeMem := rfl
@[simp] theorem State.unspecifyDecode_dictMem (s : State) : s.unspecifyDecode.dictMem = s.dictMem := rfl
@[simp] theorem State.unspecifyDecode_tokMem (s : State) : s.unspecifyDecode.tokMem = s.tokMem := rfl
@[simp] theorem State.unspecifyDecode_params (s : State) : s.unspecifyDecode.params = s.params := rfl
@[simp] theorem State.unspecifyDecode_events (s : State) : s.unspecifyDecode.events = s.events := rfl
@[simp] theorem State.unspecifyDecode_observed (s : State) : s.unspecifyDecode.observed = s.observed := rfl

/-! ## State.unspecifyReplay -/

@[simp] theorem State.unspecifyReplay_cmd (s : State) : s.unspecifyReplay.cmd = s.cmd := rfl
@[simp] theorem State.unspecifyReplay_status (s : State) : s.unspecifyReplay.status = { s.status with dictValid := false } := rfl
@[simp] theorem State.unspecifyReplay_arg0 (s : State) : s.unspecifyReplay.arg0 = s.arg0 := rfl
@[simp] theorem State.unspecifyReplay_arg1 (s : State) : s.unspecifyReplay.arg1 = s.arg1 := rfl
@[simp] theorem State.unspecifyReplay_result (s : State) : s.unspecifyReplay.result = s.result := rfl
@[simp] theorem State.unspecifyReplay_inLen (s : State) : s.unspecifyReplay.inLen = s.inLen := rfl
@[simp] theorem State.unspecifyReplay_fnameLen (s : State) : s.unspecifyReplay.fnameLen = none := rfl
@[simp] theorem State.unspecifyReplay_outLen (s : State) : s.unspecifyReplay.outLen = none := rfl
@[simp] theorem State.unspecifyReplay_fileSize (s : State) : s.unspecifyReplay.fileSize = none := rfl
@[simp] theorem State.unspecifyReplay_root (s : State) : s.unspecifyReplay.root = s.root := rfl
@[simp] theorem State.unspecifyReplay_dictSize (s : State) : s.unspecifyReplay.dictSize = if s.status.dictValid then none else s.dictSize := rfl
@[simp] theorem State.unspecifyReplay_indexWidth (s : State) : s.unspecifyReplay.indexWidth = none := rfl
@[simp] theorem State.unspecifyReplay_tokenCount (s : State) : s.unspecifyReplay.tokenCount = s.tokenCount := rfl
@[simp] theorem State.unspecifyReplay_bpAcc (s : State) : s.unspecifyReplay.bpAcc = none := rfl
@[simp] theorem State.unspecifyReplay_bpNbits (s : State) : s.unspecifyReplay.bpNbits = none := rfl
@[simp] theorem State.unspecifyReplay_brByte (s : State) : s.unspecifyReplay.brByte = none := rfl
@[simp] theorem State.unspecifyReplay_brBit (s : State) : s.unspecifyReplay.brBit = none := rfl
@[simp] theorem State.unspecifyReplay_payloadOff (s : State) : s.unspecifyReplay.payloadOff = none := rfl
@[simp] theorem State.unspecifyReplay_inMem (s : State) : s.unspecifyReplay.inMem = s.inMem := rfl
@[simp] theorem State.unspecifyReplay_outMem (s : State) : s.unspecifyReplay.outMem = [] := rfl
@[simp] theorem State.unspecifyReplay_fnameMem (s : State) : s.unspecifyReplay.fnameMem = [] := rfl
@[simp] theorem State.unspecifyReplay_freqMem (s : State) : s.unspecifyReplay.freqMem = s.freqMem := rfl
@[simp] theorem State.unspecifyReplay_nodeMem (s : State) : s.unspecifyReplay.nodeMem = s.nodeMem := rfl
@[simp] theorem State.unspecifyReplay_codeMem (s : State) : s.unspecifyReplay.codeMem = s.codeMem := rfl
@[simp] theorem State.unspecifyReplay_dictMem (s : State) : s.unspecifyReplay.dictMem = [] := rfl
@[simp] theorem State.unspecifyReplay_tokMem (s : State) : s.unspecifyReplay.tokMem = s.tokMem := rfl
@[simp] theorem State.unspecifyReplay_params (s : State) : s.unspecifyReplay.params = s.params := rfl
@[simp] theorem State.unspecifyReplay_events (s : State) : s.unspecifyReplay.events = s.events := rfl
@[simp] theorem State.unspecifyReplay_observed (s : State) : s.unspecifyReplay.observed = s.observed := rfl

/-! ## State.dropCodes -/

@[simp] theorem State.dropCodes_cmd (s : State) : s.dropCodes.cmd = s.cmd := rfl
@[simp] theorem State.dropCodes_status (s : State) : s.dropCodes.status = { s.status with codesValid := false } := rfl
@[simp] theorem State.dropCodes_arg0 (s : State) : s.dropCodes.arg0 = s.arg0 := rfl
@[simp] theorem State.dropCodes_arg1 (s : State) : s.dropCodes.arg1 = s.arg1 := rfl
@[simp] theorem State.dropCodes_result (s : State) : s.dropCodes.result = s.result := rfl
@[simp] theorem State.dropCodes_inLen (s : State) : s.dropCodes.inLen = s.inLen := rfl
@[simp] theorem State.dropCodes_fnameLen (s : State) : s.dropCodes.fnameLen = s.fnameLen := rfl
@[simp] theorem State.dropCodes_outLen (s : State) : s.dropCodes.outLen = s.outLen := rfl
@[simp] theorem State.dropCodes_fileSize (s : State) : s.dropCodes.fileSize = s.fileSize := rfl
@[simp] theorem State.dropCodes_root (s : State) : s.dropCodes.root = s.root := rfl
@[simp] theorem State.dropCodes_dictSize (s : State) : s.dropCodes.dictSize = s.dictSize := rfl
@[simp] theorem State.dropCodes_indexWidth (s : State) : s.dropCodes.indexWidth = s.indexWidth := rfl
@[simp] theorem State.dropCodes_tokenCount (s : State) : s.dropCodes.tokenCount = s.tokenCount := rfl
@[simp] theorem State.dropCodes_bpAcc (s : State) : s.dropCodes.bpAcc = s.bpAcc := rfl
@[simp] theorem State.dropCodes_bpNbits (s : State) : s.dropCodes.bpNbits = s.bpNbits := rfl
@[simp] theorem State.dropCodes_brByte (s : State) : s.dropCodes.brByte = s.brByte := rfl
@[simp] theorem State.dropCodes_brBit (s : State) : s.dropCodes.brBit = s.brBit := rfl
@[simp] theorem State.dropCodes_payloadOff (s : State) : s.dropCodes.payloadOff = s.payloadOff := rfl
@[simp] theorem State.dropCodes_inMem (s : State) : s.dropCodes.inMem = s.inMem := rfl
@[simp] theorem State.dropCodes_outMem (s : State) : s.dropCodes.outMem = s.outMem := rfl
@[simp] theorem State.dropCodes_fnameMem (s : State) : s.dropCodes.fnameMem = s.fnameMem := rfl
@[simp] theorem State.dropCodes_freqMem (s : State) : s.dropCodes.freqMem = s.freqMem := rfl
@[simp] theorem State.dropCodes_nodeMem (s : State) : s.dropCodes.nodeMem = s.nodeMem := rfl
@[simp] theorem State.dropCodes_codeMem (s : State) : s.dropCodes.codeMem = [] := rfl
@[simp] theorem State.dropCodes_dictMem (s : State) : s.dropCodes.dictMem = s.dictMem := rfl
@[simp] theorem State.dropCodes_tokMem (s : State) : s.dropCodes.tokMem = s.tokMem := rfl
@[simp] theorem State.dropCodes_params (s : State) : s.dropCodes.params = s.params := rfl
@[simp] theorem State.dropCodes_events (s : State) : s.dropCodes.events = s.events := rfl
@[simp] theorem State.dropCodes_observed (s : State) : s.dropCodes.observed = s.observed := rfl

/-! ## State.setCodes -/

@[simp] theorem State.setCodes_cmd (s : State) (c : Memory BitStr) : (s.setCodes c).cmd = s.cmd := rfl
@[simp] theorem State.setCodes_status (s : State) (c : Memory BitStr) : (s.setCodes c).status = { s.status with codesValid := true } := rfl
@[simp] theorem State.setCodes_arg0 (s : State) (c : Memory BitStr) : (s.setCodes c).arg0 = s.arg0 := rfl
@[simp] theorem State.setCodes_arg1 (s : State) (c : Memory BitStr) : (s.setCodes c).arg1 = s.arg1 := rfl
@[simp] theorem State.setCodes_result (s : State) (c : Memory BitStr) : (s.setCodes c).result = s.result := rfl
@[simp] theorem State.setCodes_inLen (s : State) (c : Memory BitStr) : (s.setCodes c).inLen = s.inLen := rfl
@[simp] theorem State.setCodes_fnameLen (s : State) (c : Memory BitStr) : (s.setCodes c).fnameLen = s.fnameLen := rfl
@[simp] theorem State.setCodes_outLen (s : State) (c : Memory BitStr) : (s.setCodes c).outLen = s.outLen := rfl
@[simp] theorem State.setCodes_fileSize (s : State) (c : Memory BitStr) : (s.setCodes c).fileSize = s.fileSize := rfl
@[simp] theorem State.setCodes_root (s : State) (c : Memory BitStr) : (s.setCodes c).root = s.root := rfl
@[simp] theorem State.setCodes_dictSize (s : State) (c : Memory BitStr) : (s.setCodes c).dictSize = s.dictSize := rfl
@[simp] theorem State.setCodes_indexWidth (s : State) (c : Memory BitStr) : (s.setCodes c).indexWidth = s.indexWidth := rfl
@[simp] theorem State.setCodes_tokenCount (s : State) (c : Memory BitStr) : (s.setCodes c).tokenCount = s.tokenCount := rfl
@[simp] theorem State.setCodes_bpAcc (s : State) (c : Memory BitStr) : (s.setCodes c).bpAcc = s.bpAcc := rfl
@[simp] theorem State.setCodes_bpNbits (s : State) (c : Memory BitStr) : (s.setCodes c).bpNbits = s.bpNbits := rfl
@[simp] theorem State.setCodes_brByte (s : State) (c : Memory BitStr) : (s.setCodes c).brByte = s.brByte := rfl
@[simp] theorem State.setCodes_brBit (s : State) (c : Memory BitStr) : (s.setCodes c).brBit = s.brBit := rfl
@[simp] theorem State.setCodes_payloadOff (s : State) (c : Memory BitStr) : (s.setCodes c).payloadOff = s.payloadOff := rfl
@[simp] theorem State.setCodes_inMem (s : State) (c : Memory BitStr) : (s.setCodes c).inMem = s.inMem := rfl
@[simp] theorem State.setCodes_outMem (s : State) (c : Memory BitStr) : (s.setCodes c).outMem = s.outMem := rfl
@[simp] theorem State.setCodes_fnameMem (s : State) (c : Memory BitStr) : (s.setCodes c).fnameMem = s.fnameMem := rfl
@[simp] theorem State.setCodes_freqMem (s : State) (c : Memory BitStr) : (s.setCodes c).freqMem = s.freqMem := rfl
@[simp] theorem State.setCodes_nodeMem (s : State) (c : Memory BitStr) : (s.setCodes c).nodeMem = s.nodeMem := rfl
@[simp] theorem State.setCodes_codeMem (s : State) (c : Memory BitStr) : (s.setCodes c).codeMem = c := rfl
@[simp] theorem State.setCodes_dictMem (s : State) (c : Memory BitStr) : (s.setCodes c).dictMem = s.dictMem := rfl
@[simp] theorem State.setCodes_tokMem (s : State) (c : Memory BitStr) : (s.setCodes c).tokMem = s.tokMem := rfl
@[simp] theorem State.setCodes_params (s : State) (c : Memory BitStr) : (s.setCodes c).params = s.params := rfl
@[simp] theorem State.setCodes_events (s : State) (c : Memory BitStr) : (s.setCodes c).events = s.events := rfl
@[simp] theorem State.setCodes_observed (s : State) (c : Memory BitStr) : (s.setCodes c).observed = s.observed := rfl

/-! ## State.setDecoded -/

@[simp] theorem State.setDecoded_cmd (s : State) (name : List Byte) (size off pos : Nat) (data : List Byte) : (s.setDecoded name size off pos data).cmd = s.cmd := rfl
@[simp] theorem State.setDecoded_status (s : State) (name : List Byte) (size off pos : Nat) (data : List Byte) : (s.setDecoded name size off pos data).status = s.status := rfl
@[simp] theorem State.setDecoded_arg0 (s : State) (name : List Byte) (size off pos : Nat) (data : List Byte) : (s.setDecoded name size off pos data).arg0 = s.arg0 := rfl
@[simp] theorem State.setDecoded_arg1 (s : State) (name : List Byte) (size off pos : Nat) (data : List Byte) : (s.setDecoded name size off pos data).arg1 = s.arg1 := rfl
@[simp] theorem State.setDecoded_result (s : State) (name : List Byte) (size off pos : Nat) (data : List Byte) : (s.setDecoded name size off pos data).result = s.result := rfl
@[simp] theorem State.setDecoded_inLen (s : State) (name : List Byte) (size off pos : Nat) (data : List Byte) : (s.setDecoded name size off pos data).inLen = s.inLen := rfl
@[simp] theorem State.setDecoded_fnameLen (s : State) (name : List Byte) (size off pos : Nat) (data : List Byte) : (s.setDecoded name size off pos data).fnameLen = some (BitVec.ofNat 32 name.length) := rfl
@[simp] theorem State.setDecoded_outLen (s : State) (name : List Byte) (size off pos : Nat) (data : List Byte) : (s.setDecoded name size off pos data).outLen = some (BitVec.ofNat 32 size) := rfl
@[simp] theorem State.setDecoded_fileSize (s : State) (name : List Byte) (size off pos : Nat) (data : List Byte) : (s.setDecoded name size off pos data).fileSize = some (BitVec.ofNat 32 size) := rfl
@[simp] theorem State.setDecoded_root (s : State) (name : List Byte) (size off pos : Nat) (data : List Byte) : (s.setDecoded name size off pos data).root = s.root := rfl
@[simp] theorem State.setDecoded_dictSize (s : State) (name : List Byte) (size off pos : Nat) (data : List Byte) : (s.setDecoded name size off pos data).dictSize = s.dictSize := rfl
@[simp] theorem State.setDecoded_indexWidth (s : State) (name : List Byte) (size off pos : Nat) (data : List Byte) : (s.setDecoded name size off pos data).indexWidth = s.indexWidth := rfl
@[simp] theorem State.setDecoded_tokenCount (s : State) (name : List Byte) (size off pos : Nat) (data : List Byte) : (s.setDecoded name size off pos data).tokenCount = s.tokenCount := rfl
@[simp] theorem State.setDecoded_bpAcc (s : State) (name : List Byte) (size off pos : Nat) (data : List Byte) : (s.setDecoded name size off pos data).bpAcc = some 0 := rfl
@[simp] theorem State.setDecoded_bpNbits (s : State) (name : List Byte) (size off pos : Nat) (data : List Byte) : (s.setDecoded name size off pos data).bpNbits = some 0 := rfl
@[simp] theorem State.setDecoded_brByte (s : State) (name : List Byte) (size off pos : Nat) (data : List Byte) : (s.setDecoded name size off pos data).brByte = some (BitVec.ofNat 32 (pos / 8)) := rfl
@[simp] theorem State.setDecoded_brBit (s : State) (name : List Byte) (size off pos : Nat) (data : List Byte) : (s.setDecoded name size off pos data).brBit = some (BitVec.ofNat 3 (pos % 8)) := rfl
@[simp] theorem State.setDecoded_payloadOff (s : State) (name : List Byte) (size off pos : Nat) (data : List Byte) : (s.setDecoded name size off pos data).payloadOff = some (BitVec.ofNat 32 off) := rfl
@[simp] theorem State.setDecoded_inMem (s : State) (name : List Byte) (size off pos : Nat) (data : List Byte) : (s.setDecoded name size off pos data).inMem = s.inMem := rfl
@[simp] theorem State.setDecoded_outMem (s : State) (name : List Byte) (size off pos : Nat) (data : List Byte) : (s.setDecoded name size off pos data).outMem = Memory.writeList s.outMem 0 data := rfl
@[simp] theorem State.setDecoded_fnameMem (s : State) (name : List Byte) (size off pos : Nat) (data : List Byte) : (s.setDecoded name size off pos data).fnameMem = Memory.writeList [] 0 name := rfl
@[simp] theorem State.setDecoded_freqMem (s : State) (name : List Byte) (size off pos : Nat) (data : List Byte) : (s.setDecoded name size off pos data).freqMem = s.freqMem := rfl
@[simp] theorem State.setDecoded_nodeMem (s : State) (name : List Byte) (size off pos : Nat) (data : List Byte) : (s.setDecoded name size off pos data).nodeMem = s.nodeMem := rfl
@[simp] theorem State.setDecoded_codeMem (s : State) (name : List Byte) (size off pos : Nat) (data : List Byte) : (s.setDecoded name size off pos data).codeMem = s.codeMem := rfl
@[simp] theorem State.setDecoded_dictMem (s : State) (name : List Byte) (size off pos : Nat) (data : List Byte) : (s.setDecoded name size off pos data).dictMem = s.dictMem := rfl
@[simp] theorem State.setDecoded_tokMem (s : State) (name : List Byte) (size off pos : Nat) (data : List Byte) : (s.setDecoded name size off pos data).tokMem = s.tokMem := rfl
@[simp] theorem State.setDecoded_params (s : State) (name : List Byte) (size off pos : Nat) (data : List Byte) : (s.setDecoded name size off pos data).params = s.params := rfl
@[simp] theorem State.setDecoded_events (s : State) (name : List Byte) (size off pos : Nat) (data : List Byte) : (s.setDecoded name size off pos data).events = s.events := rfl
@[simp] theorem State.setDecoded_observed (s : State) (name : List Byte) (size off pos : Nat) (data : List Byte) : (s.setDecoded name size off pos data).observed = s.observed := rfl

/-! ## State.setSegments -/

@[simp] theorem State.setSegments_cmd (s : State) (g : Seg) : (s.setSegments g).cmd = s.cmd := rfl
@[simp] theorem State.setSegments_status (s : State) (g : Seg) : (s.setSegments g).status = { s.status with tokensValid := true, dictValid := true } := rfl
@[simp] theorem State.setSegments_arg0 (s : State) (g : Seg) : (s.setSegments g).arg0 = s.arg0 := rfl
@[simp] theorem State.setSegments_arg1 (s : State) (g : Seg) : (s.setSegments g).arg1 = s.arg1 := rfl
@[simp] theorem State.setSegments_result (s : State) (g : Seg) : (s.setSegments g).result = s.result := rfl
@[simp] theorem State.setSegments_inLen (s : State) (g : Seg) : (s.setSegments g).inLen = s.inLen := rfl
@[simp] theorem State.setSegments_fnameLen (s : State) (g : Seg) : (s.setSegments g).fnameLen = s.fnameLen := rfl
@[simp] theorem State.setSegments_outLen (s : State) (g : Seg) : (s.setSegments g).outLen = s.outLen := rfl
@[simp] theorem State.setSegments_fileSize (s : State) (g : Seg) : (s.setSegments g).fileSize = some s.inLen := rfl
@[simp] theorem State.setSegments_root (s : State) (g : Seg) : (s.setSegments g).root = s.root := rfl
@[simp] theorem State.setSegments_dictSize (s : State) (g : Seg) : (s.setSegments g).dictSize = some (BitVec.ofNat 32 g.dict.count) := rfl
@[simp] theorem State.setSegments_indexWidth (s : State) (g : Seg) : (s.setSegments g).indexWidth = some (BitVec.ofNat 6 (ceilLog2 g.dict.count)) := rfl
@[simp] theorem State.setSegments_tokenCount (s : State) (g : Seg) : (s.setSegments g).tokenCount = BitVec.ofNat 32 g.tokens.length := rfl
@[simp] theorem State.setSegments_bpAcc (s : State) (g : Seg) : (s.setSegments g).bpAcc = s.bpAcc := rfl
@[simp] theorem State.setSegments_bpNbits (s : State) (g : Seg) : (s.setSegments g).bpNbits = s.bpNbits := rfl
@[simp] theorem State.setSegments_brByte (s : State) (g : Seg) : (s.setSegments g).brByte = s.brByte := rfl
@[simp] theorem State.setSegments_brBit (s : State) (g : Seg) : (s.setSegments g).brBit = s.brBit := rfl
@[simp] theorem State.setSegments_payloadOff (s : State) (g : Seg) : (s.setSegments g).payloadOff = s.payloadOff := rfl
@[simp] theorem State.setSegments_inMem (s : State) (g : Seg) : (s.setSegments g).inMem = s.inMem := rfl
@[simp] theorem State.setSegments_outMem (s : State) (g : Seg) : (s.setSegments g).outMem = s.outMem := rfl
@[simp] theorem State.setSegments_fnameMem (s : State) (g : Seg) : (s.setSegments g).fnameMem = s.fnameMem := rfl
@[simp] theorem State.setSegments_freqMem (s : State) (g : Seg) : (s.setSegments g).freqMem = s.freqMem := rfl
@[simp] theorem State.setSegments_nodeMem (s : State) (g : Seg) : (s.setSegments g).nodeMem = s.nodeMem := rfl
@[simp] theorem State.setSegments_codeMem (s : State) (g : Seg) : (s.setSegments g).codeMem = s.codeMem := rfl
@[simp] theorem State.setSegments_dictMem (s : State) (g : Seg) : (s.setSegments g).dictMem = g.dict.reverse := rfl
@[simp] theorem State.setSegments_tokMem (s : State) (g : Seg) : (s.setSegments g).tokMem = Memory.writeList [] 0 g.tokens := rfl
@[simp] theorem State.setSegments_params (s : State) (g : Seg) : (s.setSegments g).params = s.params := rfl
@[simp] theorem State.setSegments_events (s : State) (g : Seg) : (s.setSegments g).events = s.events := rfl
@[simp] theorem State.setSegments_observed (s : State) (g : Seg) : (s.setSegments g).observed = s.observed := rfl

/-! ## State.setReplayed -/

@[simp] theorem State.setReplayed_cmd (s : State) (w : Nat) (d : Dict) : (s.setReplayed w d).cmd = s.cmd := rfl
@[simp] theorem State.setReplayed_status (s : State) (w : Nat) (d : Dict) : (s.setReplayed w d).status = { s.status with dictValid := true } := rfl
@[simp] theorem State.setReplayed_arg0 (s : State) (w : Nat) (d : Dict) : (s.setReplayed w d).arg0 = s.arg0 := rfl
@[simp] theorem State.setReplayed_arg1 (s : State) (w : Nat) (d : Dict) : (s.setReplayed w d).arg1 = s.arg1 := rfl
@[simp] theorem State.setReplayed_result (s : State) (w : Nat) (d : Dict) : (s.setReplayed w d).result = s.result := rfl
@[simp] theorem State.setReplayed_inLen (s : State) (w : Nat) (d : Dict) : (s.setReplayed w d).inLen = s.inLen := rfl
@[simp] theorem State.setReplayed_fnameLen (s : State) (w : Nat) (d : Dict) : (s.setReplayed w d).fnameLen = s.fnameLen := rfl
@[simp] theorem State.setReplayed_outLen (s : State) (w : Nat) (d : Dict) : (s.setReplayed w d).outLen = s.outLen := rfl
@[simp] theorem State.setReplayed_fileSize (s : State) (w : Nat) (d : Dict) : (s.setReplayed w d).fileSize = s.fileSize := rfl
@[simp] theorem State.setReplayed_root (s : State) (w : Nat) (d : Dict) : (s.setReplayed w d).root = s.root := rfl
@[simp] theorem State.setReplayed_dictSize (s : State) (w : Nat) (d : Dict) : (s.setReplayed w d).dictSize = some (BitVec.ofNat 32 d.count) := rfl
@[simp] theorem State.setReplayed_indexWidth (s : State) (w : Nat) (d : Dict) : (s.setReplayed w d).indexWidth = some (BitVec.ofNat 6 w) := rfl
@[simp] theorem State.setReplayed_tokenCount (s : State) (w : Nat) (d : Dict) : (s.setReplayed w d).tokenCount = s.tokenCount := rfl
@[simp] theorem State.setReplayed_bpAcc (s : State) (w : Nat) (d : Dict) : (s.setReplayed w d).bpAcc = s.bpAcc := rfl
@[simp] theorem State.setReplayed_bpNbits (s : State) (w : Nat) (d : Dict) : (s.setReplayed w d).bpNbits = s.bpNbits := rfl
@[simp] theorem State.setReplayed_brByte (s : State) (w : Nat) (d : Dict) : (s.setReplayed w d).brByte = s.brByte := rfl
@[simp] theorem State.setReplayed_brBit (s : State) (w : Nat) (d : Dict) : (s.setReplayed w d).brBit = s.brBit := rfl
@[simp] theorem State.setReplayed_payloadOff (s : State) (w : Nat) (d : Dict) : (s.setReplayed w d).payloadOff = s.payloadOff := rfl
@[simp] theorem State.setReplayed_inMem (s : State) (w : Nat) (d : Dict) : (s.setReplayed w d).inMem = s.inMem := rfl
@[simp] theorem State.setReplayed_outMem (s : State) (w : Nat) (d : Dict) : (s.setReplayed w d).outMem = s.outMem := rfl
@[simp] theorem State.setReplayed_fnameMem (s : State) (w : Nat) (d : Dict) : (s.setReplayed w d).fnameMem = s.fnameMem := rfl
@[simp] theorem State.setReplayed_freqMem (s : State) (w : Nat) (d : Dict) : (s.setReplayed w d).freqMem = s.freqMem := rfl
@[simp] theorem State.setReplayed_nodeMem (s : State) (w : Nat) (d : Dict) : (s.setReplayed w d).nodeMem = s.nodeMem := rfl
@[simp] theorem State.setReplayed_codeMem (s : State) (w : Nat) (d : Dict) : (s.setReplayed w d).codeMem = s.codeMem := rfl
@[simp] theorem State.setReplayed_dictMem (s : State) (w : Nat) (d : Dict) : (s.setReplayed w d).dictMem = d.reverse := rfl
@[simp] theorem State.setReplayed_tokMem (s : State) (w : Nat) (d : Dict) : (s.setReplayed w d).tokMem = s.tokMem := rfl
@[simp] theorem State.setReplayed_params (s : State) (w : Nat) (d : Dict) : (s.setReplayed w d).params = s.params := rfl
@[simp] theorem State.setReplayed_events (s : State) (w : Nat) (d : Dict) : (s.setReplayed w d).events = s.events := rfl
@[simp] theorem State.setReplayed_observed (s : State) (w : Nat) (d : Dict) : (s.setReplayed w d).observed = s.observed := rfl

/-! ## State.observe -/

@[simp] theorem State.observe_cmd (s : State) (v : Word) : (s.observe v).cmd = s.cmd := rfl
@[simp] theorem State.observe_status (s : State) (v : Word) : (s.observe v).status = s.status := rfl
@[simp] theorem State.observe_arg0 (s : State) (v : Word) : (s.observe v).arg0 = s.arg0 := rfl
@[simp] theorem State.observe_arg1 (s : State) (v : Word) : (s.observe v).arg1 = s.arg1 := rfl
@[simp] theorem State.observe_result (s : State) (v : Word) : (s.observe v).result = s.result := rfl
@[simp] theorem State.observe_inLen (s : State) (v : Word) : (s.observe v).inLen = s.inLen := rfl
@[simp] theorem State.observe_fnameLen (s : State) (v : Word) : (s.observe v).fnameLen = s.fnameLen := rfl
@[simp] theorem State.observe_outLen (s : State) (v : Word) : (s.observe v).outLen = s.outLen := rfl
@[simp] theorem State.observe_fileSize (s : State) (v : Word) : (s.observe v).fileSize = s.fileSize := rfl
@[simp] theorem State.observe_root (s : State) (v : Word) : (s.observe v).root = s.root := rfl
@[simp] theorem State.observe_dictSize (s : State) (v : Word) : (s.observe v).dictSize = s.dictSize := rfl
@[simp] theorem State.observe_indexWidth (s : State) (v : Word) : (s.observe v).indexWidth = s.indexWidth := rfl
@[simp] theorem State.observe_tokenCount (s : State) (v : Word) : (s.observe v).tokenCount = s.tokenCount := rfl
@[simp] theorem State.observe_bpAcc (s : State) (v : Word) : (s.observe v).bpAcc = s.bpAcc := rfl
@[simp] theorem State.observe_bpNbits (s : State) (v : Word) : (s.observe v).bpNbits = s.bpNbits := rfl
@[simp] theorem State.observe_brByte (s : State) (v : Word) : (s.observe v).brByte = s.brByte := rfl
@[simp] theorem State.observe_brBit (s : State) (v : Word) : (s.observe v).brBit = s.brBit := rfl
@[simp] theorem State.observe_payloadOff (s : State) (v : Word) : (s.observe v).payloadOff = s.payloadOff := rfl
@[simp] theorem State.observe_inMem (s : State) (v : Word) : (s.observe v).inMem = s.inMem := rfl
@[simp] theorem State.observe_outMem (s : State) (v : Word) : (s.observe v).outMem = s.outMem := rfl
@[simp] theorem State.observe_fnameMem (s : State) (v : Word) : (s.observe v).fnameMem = s.fnameMem := rfl
@[simp] theorem State.observe_freqMem (s : State) (v : Word) : (s.observe v).freqMem = s.freqMem := rfl
@[simp] theorem State.observe_nodeMem (s : State) (v : Word) : (s.observe v).nodeMem = s.nodeMem := rfl
@[simp] theorem State.observe_codeMem (s : State) (v : Word) : (s.observe v).codeMem = s.codeMem := rfl
@[simp] theorem State.observe_dictMem (s : State) (v : Word) : (s.observe v).dictMem = s.dictMem := rfl
@[simp] theorem State.observe_tokMem (s : State) (v : Word) : (s.observe v).tokMem = s.tokMem := rfl
@[simp] theorem State.observe_params (s : State) (v : Word) : (s.observe v).params = s.params := rfl
@[simp] theorem State.observe_events (s : State) (v : Word) : (s.observe v).events = s.events := rfl
@[simp] theorem State.observe_observed (s : State) (v : Word) : (s.observe v).observed = s.observed ++ [v] := rfl

/-! ## STATUS -/

@[simp] theorem Status.complete_busy (st : Status) (e : Option ErrCode) : (st.complete e).busy = false := rfl
@[simp] theorem Status.complete_done (st : Status) (e : Option ErrCode) : (st.complete e).done = true := rfl
@[simp] theorem Status.complete_err (st : Status) (e : Option ErrCode) : (st.complete e).err = (completionCode e != 0) := rfl
@[simp] theorem Status.complete_errCode (st : Status) (e : Option ErrCode) : (st.complete e).errCode = completionCode e := rfl
@[simp] theorem Status.complete_freqValid (st : Status) (e : Option ErrCode) : (st.complete e).freqValid = st.freqValid := rfl
@[simp] theorem Status.complete_treeValid (st : Status) (e : Option ErrCode) : (st.complete e).treeValid = st.treeValid := rfl
@[simp] theorem Status.complete_codesValid (st : Status) (e : Option ErrCode) : (st.complete e).codesValid = st.codesValid := rfl
@[simp] theorem Status.complete_tokensValid (st : Status) (e : Option ErrCode) : (st.complete e).tokensValid = st.tokensValid := rfl
@[simp] theorem Status.complete_dictValid (st : Status) (e : Option ErrCode) : (st.complete e).dictValid = st.dictValid := rfl
@[simp] theorem Status.issue_busy (st : Status) : st.issue.busy = true := rfl
@[simp] theorem Status.issue_done (st : Status) : st.issue.done = false := rfl
@[simp] theorem Status.issue_err (st : Status) : st.issue.err = false := rfl
@[simp] theorem Status.issue_errCode (st : Status) : st.issue.errCode = 0 := rfl
@[simp] theorem Status.issue_freqValid (st : Status) : st.issue.freqValid = st.freqValid := rfl
@[simp] theorem Status.issue_treeValid (st : Status) : st.issue.treeValid = st.treeValid := rfl
@[simp] theorem Status.issue_codesValid (st : Status) : st.issue.codesValid = st.codesValid := rfl
@[simp] theorem Status.issue_tokensValid (st : Status) : st.issue.tokensValid = st.tokensValid := rfl
@[simp] theorem Status.issue_dictValid (st : Status) : st.issue.dictValid = st.dictValid := rfl

/-! ## State.platformReset -/

/-- The block's own state after a reset event is the reset state with the same parameters (R340). -/
theorem State.platformReset_eq (s : State) :
    s.platformReset = { State.resetWith s.params with events := s.events, observed := s.observed } := rfl

end Sys2Proof.Machine
end

