-- ==== Sys2Proof/Laws/Step.lean ====
section
/-! SUPPORT. Everything one step of the machine can do: the event it takes, and what that event does (00_scope.md R14,
40_command.md R161, 70_reset_and_hazards.md R340, R350). -/

namespace Sys2Proof.Machine

/-- A host access that goes on is a read that observes a value, a write while no command runs, or nothing. -/
theorem hostAccess_next {s t : State} {a : Access} (h : hostAccess s a = .next t) :
    (∃ v, t = s.observe v) ∨ t = s ∨
      (s.status.busy = false ∧ ((∃ i v, t = hostWriteReg s i v) ∨ ∃ sp i b, t = hostWriteByte s sp i b)) := by
  have ans : ∀ r, answer s r = .next t → ∃ v, t = s.observe v := fun r hr => by
    cases r with
    | ok v => exact ⟨v, by cases hr; rfl⟩
    | error f => cases hr
  unfold hostAccess at h
  split at h
  · cases a with
    | readReg i =>
      simp only [accessBusy] at h
      split at h
      · cases h; exact .inl ⟨_, rfl⟩
      · cases h
    | readByte sp i => cases h
    | readWord sp i => cases h
    | writeReg i v => cases h; exact .inr (.inl rfl)
    | writeByte sp i b => cases h; exact .inr (.inl rfl)
    | writeWord sp i w => cases h; exact .inr (.inl rfl)
  · rename_i hb
    have hb : s.status.busy = false := by simpa using hb
    cases a with
    | readReg i => exact .inl (ans _ h)
    | readByte sp i => exact .inl (ans _ h)
    | readWord sp i => exact .inl (ans _ h)
    | writeReg i v => cases h; exact .inr (.inr ⟨hb, .inl ⟨i, v, rfl⟩⟩)
    | writeByte sp i b => cases h; exact .inr (.inr ⟨hb, .inr ⟨sp, i, b, rfl⟩⟩)
    | writeWord sp i w => cases h; exact .inr (.inl rfl)

/-- The engine's step is a command that completes or an illegal word's completion (R161). -/
theorem engineStep_next {s t : State} (h : engineStep s = .next t) :
    (∃ i, decode s.cmd = .ok i ∧ exec i s = .next t) ∨ t = s.complete (some .unknownOperation) := by
  unfold engineStep at h
  split at h
  · rename_i i hi; exact .inl ⟨i, hi, h⟩
  · cases h; exact .inr rfl

/-- Everything a step that goes on can do, `s'` being `s` with the events that are still to come: a reset; a command of
the engine, or an illegal word's completion; a host read; a host write while no command runs; or nothing. -/
theorem step_cases {s t : State} (h : step s = .next t) :
    ∃ es, (∃ s' : State, s' = { s with events := es } ∧
      (t = s'.platformReset ∨
        (s.status.busy = true ∧
          ((∃ i, decode s.cmd = .ok i ∧ exec i s' = .next t) ∨ t = s'.complete (some .unknownOperation))) ∨
        (∃ v, t = s'.observe v) ∨ t = s' ∨
        (s.status.busy = false ∧
          ((∃ i v, t = hostWriteReg s' i v) ∨ ∃ sp i b, t = hostWriteByte s' sp i b)))) := by
  have eng : ∀ es, engineTurn { s with events := es } = .next t →
      (s.status.busy = true ∧ ((∃ i, decode s.cmd = .ok i ∧ exec i { s with events := es } = .next t) ∨
        t = ({ s with events := es } : State).complete (some .unknownOperation))) ∨ t = { s with events := es } := by
    intro es he
    unfold engineTurn at he
    split at he
    · rename_i hb; exact .inl ⟨hb, engineStep_next he⟩
    · cases he; exact .inr rfl
  unfold step turn at h
  split at h
  · rename_i hev
    refine ⟨[], _, rfl, ?_⟩
    have : s = { s with events := [] } := by rw [← hev]
    rw [this] at h
    rcases eng [] h with h | h
    · exact .inr (.inl h)
    · exact .inr (.inr (.inr (.inl h)))
  · rename_i es hev
    refine ⟨es, _, rfl, ?_⟩
    rcases eng es h with h | h
    · exact .inr (.inl h)
    · exact .inr (.inr (.inr (.inl h)))
  · rename_i es hev
    split at h
    · rename_i hb
      refine ⟨.wait :: es, _, rfl, .inr (.inl ⟨hb, ?_⟩)⟩
      rw [← hev]
      exact engineStep_next h
    · cases h
      exact ⟨es, _, rfl, .inr (.inr (.inr (.inl rfl)))⟩
  · rename_i es hev
    cases h
    exact ⟨es, _, rfl, .inl rfl⟩
  · rename_i a es hev
    refine ⟨es, _, rfl, ?_⟩
    rcases hostAccess_next h with h | h | h
    · exact .inr (.inr (.inl h))
    · exact .inr (.inr (.inr (.inl h)))
    · exact .inr (.inr (.inr (.inr h)))

end Sys2Proof.Machine
end

