-- ==== Sys2Proof/Laws/Stream.lean ====
section
/-! SUPPORT. What the decoders' parsers answer on an input given as its parts: header fields, code entries, symbols, tokens
(43_huffman_container.md R250 to R256, 44_lz78.md R281 to R285). -/

namespace Sys2Proof.Machine

/-! ## Parts of the input -/

/-- The input from an offset on is held there. -/
theorem inputIs_holds {s : State} {pre mid post : List Byte} (h : s.inputIs (pre ++ (mid ++ post))) :
    Memory.holds s.inMem pre.length mid := fun i hi => by
  have := h.2 (pre.length + i) (by simp; omega)
  rw [Nat.zero_add] at this
  rw [this, List.getElem?_append_right (by omega), Nat.add_sub_cancel_left, List.getElem?_append_left hi]

/-! ## Header fields -/

/-- A field with its terminator, at any offset, is found whole (R250, R251, 44_lz78.md R282). -/
theorem parseField_found {s : State} {pre f rest : List Byte} {limit : Nat} {e : ErrCode}
    (h : s.inputIs (pre ++ (f ++ 0 :: rest))) (h0 : (0 : Byte) ∉ f) (hl : f.length ≤ limit) :
    parseField s limit e pre.length = .ok f := by
  have hi : s.inLen.toNat = pre.length + (f.length + (rest.length + 1)) := by simpa using h.1
  refine scanField_found (inputIs_holds (post := rest) (by simpa using h)) h0 (by omega) (by omega)

/-- A field whose first `limit + 1` bytes hold no 0x00 is an error: CorruptHeader if IN ends within them, else the error of
a field too long. -/
theorem parseField_bad {s : State} {pre f : List Byte} {limit : Nat} {e : ErrCode} (h : s.inputIs (pre ++ f))
    (h0 : (0 : Byte) ∉ f.take (limit + 1)) :
    parseField s limit e pre.length = .error (.raise (if f.length ≤ limit then .corruptHeader else e)) := by
  have main : ∀ (g : List Byte) (k cnt : Nat), cnt ≤ limit → Memory.holds s.inMem k g →
      (0 : Byte) ∉ g.take (limit - cnt + 1) →
      scanField s limit e g.length k cnt = .error (.raise (if cnt + g.length ≤ limit then .corruptHeader else e)) := by
    intro g
    induction g with
    | nil => intro k cnt hc _ _; simp [scanField, hc]
    | cons b g ih =>
      intro k cnt hc hg hz
      have hb := hg 0 (by simp)
      simp only [Nat.add_zero, List.getElem?_cons_zero] at hb
      simp only [List.take_succ_cons, List.mem_cons, not_or] at hz
      simp only [List.length_cons, scanField, inByte, hb, if_neg (Ne.symm hz.1)]
      by_cases hl : cnt = limit
      · rw [if_pos hl, if_neg (by omega)]
      · rw [if_neg hl, ih (k + 1) (cnt + 1) (by omega)
          (fun i hi => by
            have := hg (i + 1) (by simpa using hi)
            simpa [Nat.add_assoc, Nat.add_comm 1 i] using this)
          (by rw [show limit - (cnt + 1) + 1 = limit - cnt by omega]; exact hz.2)]
        simp only [show cnt + 1 + g.length = cnt + (g.length + 1) by omega]
  have hi : s.inLen.toNat - pre.length = f.length := by have := h.1; simp at this; omega
  rw [parseField, hi, main f pre.length 0 (Nat.zero_le _) (inputIs_holds (post := []) (by simpa using h)) (by simpa using h0),
    Nat.zero_add]

/-- A legal header parses back: the filename, then the size and the offset after it (R250, R251). -/
theorem legalHeader_parses {s : State} {cs f z rest : List Byte} (h : s.inputIs cs)
    (hh : legalHeader s.params cs f z rest) :
    parseFilename s = .ok f ∧ parseSize s (f.length + 1) = .ok (f.length + 1 + z.length + 1, beVal z) := by
  obtain ⟨rfl, h1, h2, h3, h4, h5, h6⟩ := hh
  refine ⟨parseField_found (pre := []) h h1 h2, ?_⟩
  have := parseField_found (pre := f ++ [0]) (f := z) (rest := rest) (e := .corruptHeader) (by simpa using h) h3 h4
  rw [List.length_append, List.length_singleton] at this
  simp only [parseSize, this, if_neg h5, if_neg (Nat.not_lt.2 h6)]

/-- A legal width field parses back (44_lz78.md R282). -/
theorem legalWidth_parses {s : State} {pre rest w payload : List Byte} (h : s.inputIs (pre ++ rest))
    (hw : legalWidth rest w payload) : parseWidth s pre.length = .ok (pre.length + w.length + 1, beVal w) := by
  obtain ⟨rfl, h1, h2, h3⟩ := hw
  simp only [parseWidth, parseField_found (e := .corruptHeader) h h1 h2, if_neg (Nat.not_lt.2 h3)]

/-! ## The code table -/

@[simp] theorem entryBytes_nil : entryBytes [] = [] := rfl
@[simp] theorem entryBytes_cons (e : RawEntry) (es : List RawEntry) :
    entryBytes (e :: es) = e.1 :: (e.2 ++ entryBytes es) := by simp [entryBytes]
@[simp] theorem entryTable_nil : entryTable [] = [] := rfl
@[simp] theorem entryTable_cons (e : RawEntry) (es : List RawEntry) :
    entryTable (e :: es) = (bytesBits e.2).take e.1.toNat :: entryTable es := rfl
@[simp] theorem entryTable_length (es : List RawEntry) : (entryTable es).length = es.length := by simp [entryTable]

/-- A code table as a memory, from symbol `k` on. -/
def tableFrom : Nat → List BitStr → Memory BitStr
  | _, [] => []
  | k, c :: cs => (k, c) :: tableFrom (k + 1) cs

@[simp] theorem tableFrom_nil (k : Nat) : tableFrom k [] = [] := rfl
@[simp] theorem tableFrom_cons (k : Nat) (c : BitStr) (cs : List BitStr) :
    tableFrom k (c :: cs) = (k, c) :: tableFrom (k + 1) cs := rfl

/-- Complete entries are read one after another; what follows them decides the rest (R252). -/
theorem parseTable_append {s : State} {pre post : List Byte} (es : List RawEntry) (sym n : Nat)
    (h : s.inputIs (pre ++ (entryBytes es ++ post))) (hc : ∀ e ∈ es, e.complete) :
    parseTable s (es.length + n) sym pre.length =
      match parseTable s n (sym + es.length) (pre.length + (entryBytes es).length) with
      | .error x => .error x
      | .ok (codes, fin) => .ok (tableFrom sym (entryTable es) ++ codes, fin) := by
  induction es generalizing pre sym with
  | nil =>
    simp only [List.length_nil, Nat.zero_add, entryBytes_nil, Nat.add_zero, entryTable_nil, tableFrom_nil, List.nil_append]
    cases parseTable s n sym pre.length <;> rfl
  | cons e es ih =>
    have hi : s.inLen.toNat = pre.length + (1 + (e.2.length + ((entryBytes es).length + post.length))) := by
      have := h.1; simp at this; omega
    have he : e.2.length = ceilDiv8 e.1.toNat := hc e (by simp)
    have hb : inByte s pre.length = .ok e.1 := inByte_of_inputIs h (by simp)
    have hbody : inBytes s (pre.length + 1) (ceilDiv8 e.1.toNat) = .ok e.2 := by
      rw [← he]
      have := readRange_ok (f := Fault.unspecifiedByte .input)
        (inputIs_holds (pre := pre ++ [e.1]) (mid := e.2) (post := entryBytes es ++ post) (by simpa using h))
      simpa [inBytes] using this
    have hrest := ih (pre := pre ++ (e.1 :: e.2)) (sym := sym + 1) (by simpa using h) fun x hx => hc x (by simp [hx])
    rw [show (e :: es).length + n = (es.length + n) + 1 by simp; omega, parseTable, if_neg (by omega)]
    simp only [hb, if_neg (show ¬ s.inLen.toNat < pre.length + 1 + ceilDiv8 e.1.toNat by omega), hbody]
    rw [show pre.length + 1 + ceilDiv8 e.1.toNat = (pre ++ (e.1 :: e.2)).length by simp; omega, hrest,
      show sym + (e :: es).length = sym + 1 + es.length by simp; omega,
      show pre.length + (entryBytes (e :: es)).length = (pre ++ (e.1 :: e.2)).length + (entryBytes es).length by
        simp; omega]
    cases parseTable s n (sym + 1 + es.length) ((pre ++ e.1 :: e.2).length + (entryBytes es).length) <;> simp

/-- 256 complete entries give their codes and the offset after them (R252). -/
theorem fullTable_parses {s : State} {pre rest payload : List Byte} {es : List RawEntry} (h : s.inputIs (pre ++ rest))
    (ht : fullTable es rest payload) :
    parseTable s 256 0 pre.length = .ok (tableFrom 0 (entryTable es), pre.length + (entryBytes es).length) := by
  obtain ⟨h1, h2, rfl⟩ := ht
  have := parseTable_append es 0 0 h h2
  rw [Nat.add_zero, h1] at this
  rw [this]
  simp [parseTable]

/-- Fewer than 256 complete entries are CorruptHeader (R252, R259). -/
theorem shortTable_errs {s : State} {pre rest : List Byte} (h : s.inputIs (pre ++ rest)) (ht : shortTable rest) :
    parseTable s 256 0 pre.length = .error (.raise .corruptHeader) := by
  obtain ⟨es, cut, h1, h2, rfl, h3⟩ := ht
  have := parseTable_append es 0 (256 - es.length) h h2
  rw [show es.length + (256 - es.length) = 256 by omega] at this
  rw [this, show 256 - es.length = (255 - es.length) + 1 by omega, parseTable]
  have hi : s.inLen.toNat = pre.length + (entryBytes es).length + cut.length := by have := h.1; simp at this; omega
  cases cut with
  | nil => rw [if_pos (by simp at hi; omega)]
  | cons l body =>
    have hl := h3 l body rfl
    have hb : inByte s (pre.length + (entryBytes es).length) = .ok l := inByte_of_inputIs h (by simp)
    simp only [List.length_cons] at hi
    rw [if_neg (by omega)]
    simp only [hb, if_pos (show s.inLen.toNat < pre.length + (entryBytes es).length + 1 + ceilDiv8 l.toNat by omega)]

/-! ## Symbols -/

/-- The inverse table answers the highest symbol with the code (R254). -/
theorem invCode_of_invIs {table : List BitStr} {c : BitStr} {k : Nat} (h : invIs table c k) (a : Nat) :
    invCode (tableFrom a table) c = some (a + k) := by
  induction table generalizing a k with
  | nil => cases h.2.1
  | cons d table ih =>
    obtain ⟨h0, h1, h2⟩ := h
    cases k with
    | zero =>
      have hn : ∀ (tb : List BitStr) (b : Nat), c ∉ tb → invCode (tableFrom b tb) c = none := fun tb => by
        induction tb with
        | nil => intro b _; rfl
        | cons x tb ih => intro b hx; simp at hx; simp [invCode, ih (b + 1) hx.2, Ne.symm hx.1]
      have : c ∉ table := fun hm => by
        obtain ⟨j, hj⟩ := List.mem_iff_getElem?.1 hm
        exact h2 (j + 1) (by omega) (by simpa using hj)
      have hd : d = c := by simpa using h1
      simp [invCode, hn table (a + 1) this, hd, h0]
    | succ k =>
      have := ih (k := k) ⟨h0, by simpa using h1, fun j hj => by simpa using h2 (j + 1) (by omega)⟩ (a + 1)
      simp [invCode, this]; omega

/-- It answers nothing for a bit string that is no code (R254). -/
theorem invCode_none {table : List BitStr} {c : BitStr} (h : c ∉ table) (a : Nat) :
    invCode (tableFrom a table) c = none := by
  induction table generalizing a with
  | nil => rfl
  | cons x table ih => simp at h; simp [invCode, ih h.2, Ne.symm h.1]

/-- Bits with no match among them are read past (R255). -/
theorem decodeSymbol_skip {s : State} {cs : List Byte} {table : List BitStr} (h : s.inputIs cs) (acc bits rest : BitStr)
    (pos : Nat) (hb : (bytesBits cs).drop pos = bits ++ rest) (hn : ∀ d, d <+: bits → d ≠ [] → acc ++ d ∉ table) :
    decodeSymbol s (tableFrom 0 table) (bitsLeft s pos) pos acc =
      decodeSymbol s (tableFrom 0 table) (bitsLeft s (pos + bits.length)) (pos + bits.length) (acc ++ bits) := by
  induction bits generalizing acc pos with
  | nil => simp
  | cons b bits ih =>
    have hp : (bytesBits cs)[pos]? = some b := by
      have := congrArg (·[0]?) hb
      simpa using this
    have hlt : pos < 8 * cs.length := by
      obtain ⟨hq, -⟩ := List.getElem?_eq_some_iff.1 hp
      simpa using hq
    have hl : bitsLeft s pos = bitsLeft s (pos + 1) + 1 := by simp only [bitsLeft, h.1]; omega
    have hd : (bytesBits cs).drop (pos + 1) = bits ++ rest := by
      have := congrArg (List.drop 1) hb
      simpa [List.drop_drop, Nat.add_comm 1 pos] using this
    rw [hl, decodeSymbol]
    simp only [inBit_of_inputIs h hp, invCode_none (hn [b] (by simp) (by simp)) 0]
    rw [ih (acc ++ [b]) (pos + 1) hd fun d hd' hne => by
      have := hn (b :: d) (by simpa using hd') (by simp)
      simpa using this]
    simp [Nat.add_assoc, Nat.add_comm 1]

/-- A code no beginning of which is a code is matched, and gives the highest symbol with it (R255). -/
theorem decodeSymbol_match {s : State} {cs : List Byte} {table : List BitStr} (h : s.inputIs cs) {c rest : BitStr} {k pos : Nat}
    (hb : (bytesBits cs).drop pos = c ++ rest) (hk : invIs table c k) (hn : noMatch table c.dropLast) :
    decodeSymbol s (tableFrom 0 table) (bitsLeft s pos) pos [] = .ok (k, pos + c.length) := by
  obtain ⟨d, b, rfl⟩ : ∃ d b, c = d ++ [b] := ⟨_, _, (List.dropLast_append_getLast hk.1).symm⟩
  rw [List.dropLast_concat] at hn
  rw [decodeSymbol_skip h [] d (b :: rest) pos (by simpa using hb) (by simpa using hn)]
  have hp : (bytesBits cs)[pos + d.length]? = some b := by
    have := congrArg (·[d.length]?) hb
    simpa using this
  have hlt : pos + d.length < 8 * cs.length := by
    obtain ⟨hq, -⟩ := List.getElem?_eq_some_iff.1 hp
    simpa using hq
  have hl : bitsLeft s (pos + d.length) = bitsLeft s (pos + d.length + 1) + 1 := by simp only [bitsLeft, h.1]; omega
  have hi := invCode_of_invIs hk 0
  rw [hl, decodeSymbol]
  simp only [inBit_of_inputIs h hp, List.nil_append, hi]
  simp [Nat.add_assoc]

/-- Bits that match no entry before IN ends are CorruptHeader (R255). -/
theorem decodeSymbol_exhausted {s : State} {cs : List Byte} {table : List BitStr} (h : s.inputIs cs) {fin : BitStr} {pos : Nat}
    (hb : (bytesBits cs).drop pos = fin) (hn : noMatch table fin) :
    decodeSymbol s (tableFrom 0 table) (bitsLeft s pos) pos [] = .error (.raise .corruptHeader) := by
  have hl : fin.length = 8 * cs.length - pos := by rw [← hb]; simp
  rw [decodeSymbol_skip h [] fin [] pos (by simpa using hb) (by simpa using hn),
    show bitsLeft s (pos + fin.length) = 0 by simp only [bitsLeft, h.1]; omega]
  rfl

/-- Symbols decode one after another; what follows them decides the rest (R255, R256). -/
theorem decodeSymbols_append {s : State} {cs : List Byte} {table : List BitStr} (h : s.inputIs cs)
    (data : List Byte) {bits fin : BitStr} {pos : Nat} (n : Nat)
    (hb : (bytesBits cs).drop pos = bits) (hd : decodesAs table bits data fin) :
    fin.length ≤ bits.length ∧ (bytesBits cs).drop (pos + (bits.length - fin.length)) = fin ∧
    decodeSymbols s (tableFrom 0 table) (data.length + n) pos =
      match decodeSymbols s (tableFrom 0 table) n (pos + (bits.length - fin.length)) with
      | .error x => .error x
      | .ok (bs, p) => .ok (data ++ bs, p) := by
  induction data generalizing bits pos with
  | nil =>
    have hd : bits = fin := hd
    subst hd
    refine ⟨Nat.le_refl _, by simpa using hb, ?_⟩
    simp only [List.length_nil, Nat.zero_add, Nat.sub_self, Nat.add_zero, List.nil_append]
    cases decodeSymbols s (tableFrom 0 table) n pos <;> rfl
  | cons b data ih =>
    obtain ⟨c, rest, rfl, hk, hn, hd⟩ := hd
    have hdrop : (bytesBits cs).drop (pos + c.length) = rest := by
      have := congrArg (List.drop c.length) hb
      simpa [List.drop_drop] using this
    obtain ⟨i1, i2, i3⟩ := ih hdrop hd
    have e : pos + ((c ++ rest).length - fin.length) = pos + c.length + (rest.length - fin.length) := by
      rw [List.length_append]; omega
    refine ⟨by simp; omega, by rw [e]; exact i2, ?_⟩
    rw [show (b :: data).length + n = (data.length + n) + 1 by simp; omega, decodeSymbols, decodeSymbol_match h hb hk hn]
    simp only [i3, e]
    cases decodeSymbols s (tableFrom 0 table) n (pos + c.length + (rest.length - fin.length)) <;> simp

/-! ## Tokens -/

/-- A dictionary whose entries, the oldest first, stand for `reg`. -/
def Dict.standsFor (d : Dict) (reg : List (List Byte)) : Prop :=
  d.count = reg.length ∧ ∀ k, k ≤ reg.length → some (d.seq k) = ([] :: reg)[k]?

theorem Dict.standsFor_nil : Dict.standsFor [] [] :=
  ⟨rfl, fun k hk => by obtain rfl : k = 0 := by simpa using hk
                       rfl⟩

/-- The segment of a token, from the registered ones (44_lz78.md R281, R285). -/
theorem segmentOf_standsFor {d : Dict} {reg : List (List Byte)} (h : d.standsFor reg) (p : Nat) (c : Byte) :
    segmentOf d p c =
      match ([] :: reg)[p]? with
      | some seg => .ok (seg ++ [c])
      | none => .error (.raise .corruptHeader) := by
  unfold segmentOf
  by_cases h0 : p = 0
  · subst h0; simp
  · rw [if_neg h0, h.1]
    by_cases hp : p ≤ reg.length
    · rw [if_pos hp, ← h.2 p hp]
    · rw [if_neg hp, List.getElem?_eq_none (by simp; omega)]

/-- Registering a token registers its segment (44_lz78.md R284). -/
theorem Dict.standsFor_cons {d : Dict} {reg : List (List Byte)} (h : d.standsFor reg) {e : Entry} {seg : List Byte}
    (he : ([] :: reg)[e.pfx.toNat]? = some seg) :
    Dict.standsFor ((d.count + 1, e) :: d) (reg ++ [seg ++ [e.byte]]) := by
  obtain ⟨h1, h3⟩ := h
  have hp : e.pfx.toNat ≤ reg.length := by
    obtain ⟨hq, -⟩ := List.getElem?_eq_some_iff.1 he
    simpa [Nat.lt_succ_iff] using hq
  refine ⟨by rw [List.length_append, ← h1]; rfl, fun k hk => ?_⟩
  by_cases hk' : k = reg.length + 1
  · subst hk'
    have := h3 _ hp
    rw [he] at this
    rw [Dict.seq, if_pos (by omega), Option.some.inj this]
    simp
  · simp only [List.length_append, List.length_singleton] at hk
    rw [Dict.seq, if_neg (by omega), h3 k (by omega)]
    cases k with
    | zero => simp
    | succ k => simp [List.getElem?_append_left (show k < reg.length by omega)]

/-- The dictionary after the tokens are registered in turn. -/
def Dict.register (d : Dict) (toks : List Entry) : Dict := toks.foldl (fun d t => (d.count + 1, t) :: d) d

@[simp] theorem Dict.register_nil (d : Dict) : d.register [] = d := rfl
@[simp] theorem Dict.register_cons (d : Dict) (t : Entry) (ts : List Entry) :
    d.register (t :: ts) = Dict.register ((d.count + 1, t) :: d) ts := rfl

/-- Every token has a segment of a byte or more (44_lz78.md R283). -/
theorem replaySegments_length {toks : List Entry} {reg segs : List (List Byte)} (h : replaySegments reg toks = some segs) :
    segs.length = toks.length ∧ toks.length ≤ segs.flatten.length := by
  induction toks generalizing reg segs with
  | nil =>
    obtain rfl : [] = segs := by simpa [replaySegments] using h
    exact ⟨rfl, Nat.le_refl _⟩
  | cons t ts ih =>
    rw [replaySegments] at h
    split at h
    · cases h
    · split at h
      · cases h
      · rename_i hh
        cases h
        obtain ⟨h1, h2⟩ := ih hh
        exact ⟨by simp [h1], by simp at h2 ⊢; omega⟩

/-- One more token (44_lz78.md R281). -/
theorem replaySegments_snoc {toks : List Entry} {reg segs : List (List Byte)} (h : replaySegments reg toks = some segs)
    (tok : Entry) :
    replaySegments reg (toks ++ [tok]) =
      (([] :: (reg ++ segs))[tok.pfx.toNat]?).map fun seg => segs ++ [seg ++ [tok.byte]] := by
  induction toks generalizing reg segs with
  | nil =>
    obtain rfl : [] = segs := by simpa [replaySegments] using h
    simp only [List.nil_append, List.append_nil, replaySegments]
    cases ([] :: reg)[tok.pfx.toNat]? <;> rfl
  | cons t ts ih =>
    rw [replaySegments] at h
    rw [List.cons_append, replaySegments]
    split at h
    · cases h
    · split at h
      · cases h
      · rename_i hh
        cases h
        simp only [ih hh, List.append_assoc, List.singleton_append]
        cases ([] :: (reg ++ (_ ++ [t.byte]) :: _))[tok.pfx.toNat]? <;> rfl

/-- One turn of the replay, at a token that the payload has whole (44_lz78.md R281, R284, R285). -/
theorem replay_token {s : State} {cs : List Byte} (h : s.inputIs cs) {d : Dict} {reg : List (List Byte)}
    (hd : d.standsFor reg) {t : Entry} {w pos out size : Nat} {rest : BitStr}
    (hb : (bytesBits cs).drop pos = tokenBits w t ++ rest) (ht : t.pfx.toNat < 2 ^ w) (ho : out < size) (n : Nat) :
    replay s w size (n + 1) pos out d =
      match ([] :: reg)[t.pfx.toNat]? with
      | none => .error (.raise .corruptHeader)
      | some seg =>
        if size < out + (seg ++ [t.byte]).length then .error (.raise .corruptHeader)
        else
          match replay s w size n (pos + w + 8) (out + (seg ++ [t.byte]).length)
            (if out + (seg ++ [t.byte]).length < size then (d.count + 1, t) :: d else d) with
          | .error e => .error e
          | .ok r => .ok (Replayed.mk ((seg ++ [t.byte]) ++ r.data) r.dict r.pos) := by
  have hlen : (w + 8) + rest.length = 8 * cs.length - pos := by
    have := congrArg List.length hb
    simpa using this.symm
  have e1 : readBits s pos w = .ok t.pfx.toNat := by
    rw [readBits_of_inputIs h (by omega) (by omega), hb, tokenBits, List.append_assoc, List.take_left' (bitsMSB_length _ _),
      bitsVal_bitsMSB, Nat.mod_eq_of_lt ht]
  have e2 : readBits s (pos + w) 8 = .ok t.byte.toNat := by
    have : (bytesBits cs).drop (pos + w) = bitsMSB t.byte.toNat 8 ++ rest := by
      rw [← List.drop_drop, hb, tokenBits, List.append_assoc, List.drop_left' (bitsMSB_length _ _)]
    rw [readBits_of_inputIs h (by omega) (by omega), this, List.take_left' (bitsMSB_length _ _), bitsVal_bitsMSB,
      Nat.mod_eq_of_lt t.byte.isLt]
  rw [replay, if_neg (by omega)]
  simp only [e1, e2, BitVec.ofNat_toNat, BitVec.setWidth_eq, segmentOf_standsFor hd]
  cases ([] :: reg)[t.pfx.toNat]? <;> rfl

/-- Fewer bits than a token has are CorruptHeader (44_lz78.md R285). -/
theorem replay_exhausted {s : State} {cs : List Byte} (h : s.inputIs cs) {w pos out size : Nat} (d : Dict)
    (hb : ((bytesBits cs).drop pos).length < w + 8) (hp : pos ≤ 8 * cs.length) (ho : out < size) (n : Nat) :
    replay s w size (n + 1) pos out d = .error (.raise .corruptHeader) := by
  simp only [List.length_drop, bytesBits_length] at hb
  rw [replay, if_neg (by omega)]
  by_cases hw : w ≤ 8 * cs.length - pos
  · simp only [readBits_of_inputIs h hw (.inl hp), readBits_short (s := s) (pos := pos + w) (n := 8) (by rw [h.1]; omega)]
  · simp only [readBits_short (s := s) (pos := pos) (n := w) (by rw [h.1]; omega)]

/-- Tokens that leave the output short of the size replay one after another, all registered; what follows them decides the
rest (44_lz78.md R281, R283). -/
theorem replay_append {s : State} {cs : List Byte} (h : s.inputIs cs) {w size : Nat} (toks : List Entry) {d : Dict}
    {reg segs : List (List Byte)} {pos out : Nat} {rest : BitStr} (hd : d.standsFor reg)
    (hb : (bytesBits cs).drop pos = toks.flatMap (tokenBits w) ++ rest) (ht : ∀ t ∈ toks, t.pfx.toNat < 2 ^ w)
    (hs : replaySegments reg toks = some segs) (ho : out + segs.flatten.length < size) (n : Nat) :
    (d.register toks).standsFor (reg ++ segs) ∧ segs.length = toks.length ∧
    (bytesBits cs).drop (pos + toks.length * (w + 8)) = rest ∧
    replay s w size (toks.length + n) pos out d =
      match replay s w size n (pos + toks.length * (w + 8)) (out + segs.flatten.length) (d.register toks) with
      | .error e => .error e
      | .ok r => .ok (Replayed.mk (segs.flatten ++ r.data) r.dict r.pos) := by
  induction toks generalizing d reg segs pos out with
  | nil =>
    obtain rfl : [] = segs := by simpa [replaySegments] using hs
    refine ⟨by simpa using hd, rfl, by simpa using hb, ?_⟩
    simp only [List.length_nil, Nat.zero_add, Nat.zero_mul, Nat.add_zero, List.flatten_nil, Dict.register_nil,
      List.nil_append]
    cases replay s w size n pos out d <;> rfl
  | cons t ts ih =>
    rw [replaySegments] at hs
    cases hseg : ([] :: reg)[t.pfx.toNat]? with
    | none => rw [hseg] at hs; cases hs
    | some seg =>
      simp only [hseg] at hs
      cases hrec : replaySegments (reg ++ [seg ++ [t.byte]]) ts with
      | none => rw [hrec] at hs; cases hs
      | some segs' =>
        rw [hrec] at hs
        obtain rfl := Option.some.inj hs
        rw [List.flatten_cons, List.length_append] at ho
        rw [List.flatMap_cons, List.append_assoc] at hb
        have hdrop : (bytesBits cs).drop (pos + w + 8) = ts.flatMap (tokenBits w) ++ rest := by
          rw [Nat.add_assoc, ← List.drop_drop, hb, List.drop_left' (tokenBits_length w t)]
        obtain ⟨i1, i2, i3, i4⟩ := ih (out := out + (seg ++ [t.byte]).length) (Dict.standsFor_cons hd hseg) hdrop (fun x hx => ht x (by simp [hx])) hrec (by omega)
        have e : pos + (t :: ts).length * (w + 8) = pos + w + 8 + ts.length * (w + 8) := by
          rw [List.length_cons, Nat.succ_mul]; omega
        refine ⟨by simpa using i1, by simp [i2], by rw [e]; exact i3, ?_⟩
        rw [show (t :: ts).length + n = (ts.length + n) + 1 by simp; omega,
          replay_token h hd hb (ht t (by simp)) (by omega), e, hseg]
        simp only [if_neg (show ¬ size < out + (seg ++ [t.byte]).length by omega),
          if_pos (show out + (seg ++ [t.byte]).length < size by omega), i4, Dict.register_cons, List.flatten_cons,
          List.length_append (as := seg ++ [t.byte]) (bs := segs'.flatten), Nat.add_assoc out]
        cases replay s w size n (pos + w + 8 + ts.length * (w + 8))
          (out + ((seg ++ [t.byte]).length + segs'.flatten.length))
          (Dict.register ((d.count + 1, t) :: d) ts) <;> simp

end Sys2Proof.Machine
end

