-- ==== Sys2Proof/Tests/Slice0.lean ====
section
/-! SUPPORT. Tests with results from the spec's own vectors (95_test_vectors.md, named V…), and for every statement with
hypotheses a state and operands that meet them. -/

namespace Sys2Proof.Tests

open Sys2Proof Sys2Proof.Machine

/-! ## Helpers -/

/-- One field of a command's next state. -/
def field {α : Type} (f : State → α) : Host.Outcome State Fault Refusal → Option α
  | .next t => some (f t)
  | _ => none

/-- The fault an outcome is. -/
def faultOf : Host.Outcome State Fault Refusal → Option Fault
  | .fault f => some f
  | _ => none

/-- STATUS as the host reads it after a command. -/
def statusAfter (o : Host.Outcome State Fault Refusal) : Option Nat := field (fun t => t.status.word.toNat) o

/-- Whether a step goes on. -/
def goesOn (o : Host.Outcome State Fault Refusal) : Bool := (field (fun _ => ()) o).isSome

/-- What `field` says of an outcome. -/
theorem field_eq {α : Type} {f : State → α} {o : Host.Outcome State Fault Refusal} {v : α} (h : field f o = some v) :
    ∃ t, o = .next t ∧ f t = v := by
  cases o with
  | next t => exact ⟨t, rfl, Option.some.inj h⟩
  | fault x => cases h
  | refused x => cases h

/-- Reset with `bs` in IN. -/
def inp (bs : List Byte) : State :=
  { State.reset with inMem := Memory.writeList [] 0 bs, inLen := BitVec.ofNat 32 bs.length }

/-- Reset with `bs` in IN and `f` in FNAME. -/
def inpName (bs f : List Byte) : State :=
  { inp bs with fnameMem := Memory.writeList [] 0 f, fnameLen := some (BitVec.ofNat 32 f.length) }

/-- Small parameters. -/
def small (inMax outMax fnameMax : Nat) (pol : NulPolicy) : Params := Params.mk inMax outMax fnameMax 1024 1024 pol

/-- What IN holds after `inp`. -/
theorem inp_inputIs {bs : List Byte} (h : bs.length < 2 ^ 32) (s : State) (h1 : s.inMem = (inp bs).inMem)
    (h2 : s.inLen = (inp bs).inLen) : s.inputIs bs := by
  refine ⟨by rw [h2]; simp only [inp, BitVec.toNat_ofNat]; omega, fun i hi => ?_⟩
  rw [h1]
  simp only [inp]
  rw [Memory.read_writeList List.Pairwise.nil, if_pos (by omega)]
  simp

/-! ## Well-formedness: an ill-formed term for each check -/

theorem test_wf_good_word : CmdWord.wf 0x00000013 = true := by decide
theorem test_wf_reserved_bits : CmdWord.rsvdOk 0x00000100 = false ∧ CmdWord.wf 0x00000100 = false := by decide
theorem test_wf_illegal_opcode : CmdWord.opcOk 0x00000006 = false ∧ CmdWord.wf 0x00000006 = false := by decide
theorem test_wf_params_good : Params.wf Config.exampleParams = true := by decide
theorem test_wf_in_max : (Params.mk 0 1 0 1 1 .refuse).inMaxOk = false ∧ (Params.mk 0 1 0 1 1 .refuse).wf = false := by decide
theorem test_wf_out_max : (Params.mk 1 0 0 1 1 .refuse).outMaxOk = false ∧ (Params.mk 1 0 0 1 1 .refuse).wf = false := by decide
theorem test_wf_fname_max :
    (Params.mk 1 1 (2 ^ 32) 1 1 .refuse).fnameMaxOk = false ∧ (Params.mk 1 1 (2 ^ 32) 1 1 .refuse).wf = false := by decide
theorem test_wf_dict_max : (Params.mk 1 2 0 1 1 .refuse).dictMaxOk = false ∧ (Params.mk 1 2 0 1 1 .refuse).wf = false := by
  decide
theorem test_wf_tok_max : (Params.mk 2 1 0 2 1 .refuse).tokMaxOk = false ∧ (Params.mk 2 1 0 2 1 .refuse).wf = false := by
  decide

/-! ## Decoding: bits [31:8] zero, then OPC, written out from 30_encoding.md R110, R111 -/

theorem test_decode_nop : decodeTableWord 32 0b000000000000000000000000_00000000 = some .nop := by decide
theorem test_decode_bpReset : decodeTableWord 32 0b000000000000000000000000_00000001 = some .bpReset := by decide
theorem test_decode_bpPut : decodeTableWord 32 0b000000000000000000000000_00000010 = some .bpPut := by decide
theorem test_decode_bpFlush : decodeTableWord 32 0b000000000000000000000000_00000011 = some .bpFlush := by decide
theorem test_decode_brGetbit : decodeTableWord 32 0b000000000000000000000000_00000100 = some .brGetbit := by decide
theorem test_decode_brGetbits : decodeTableWord 32 0b000000000000000000000000_00000101 = some .brGetbits := by decide
theorem test_decode_hufStats : decodeTableWord 32 0b000000000000000000000000_00010000 = some .hufStats := by decide
theorem test_decode_hufBuild : decodeTableWord 32 0b000000000000000000000000_00010001 = some .hufBuild := by decide
theorem test_decode_hufCodes : decodeTableWord 32 0b000000000000000000000000_00010010 = some .hufCodes := by decide
theorem test_decode_hufEncode : decodeTableWord 32 0b000000000000000000000000_00010011 = some .hufEncode := by decide
theorem test_decode_hufDecode : decodeTableWord 32 0b000000000000000000000000_00010100 = some .hufDecode := by decide
theorem test_decode_lzSegment : decodeTableWord 32 0b000000000000000000000000_00100000 = some .lzSegment := by decide
theorem test_decode_lzEncode : decodeTableWord 32 0b000000000000000000000000_00100001 = some .lzEncode := by decide
theorem test_decode_lzDecode : decodeTableWord 32 0b000000000000000000000000_00100010 = some .lzDecode := by decide

/-- V6.1, V6.2: words that are no command. -/
theorem test_decode_illegal :
    decodeTableWord 32 0x00000006 = none ∧ decodeTableWord 32 0x000000FF = none ∧ decodeTableWord 32 0x00000023 = none ∧
      decodeTableWord 32 0x00000100 = none ∧ decodeTableWord 32 0x00000113 = none := by decide

/-- Each of the 14 words runs as the first command after reset. -/
theorem test_first_steps :
    ([0x00, 0x01, 0x02, 0x03, 0x04, 0x05, 0x10, 0x11, 0x12, 0x13, 0x14, 0x20, 0x21, 0x22] : List Nat).all
      (fun w => goesOn (step (State.reset.withFetchWord 32 w))) = true := by decide

/-- V6.1: UnknownOperation, STATUS = 0x056. -/
theorem test_illegal_word : statusAfter (step (State.reset.withFetchWord 32 0xFF)) = some 0x056 := by decide

/-! ## One step of each command -/

/-- V6.8: STATUS = 0x146, then NOP gives 0x102. -/
theorem test_nop :
    statusAfter (exec .nop { State.reset with
      status := { Status.reset with done := true, err := true, errCode := 4, freqValid := true } }) = some 0x102 := by
  decide

/-- R211: BP_RESET drops the pending bits. -/
theorem test_bpReset :
    field (fun t => (t.outMem, t.outLen, t.bpAcc, t.bpNbits))
      (exec .bpReset { State.reset with outLen := some 1, bpAcc := some 5, bpNbits := some 3, outMem := [(0, 0xb5)] }) =
      some ([(0, 0xb5)], some 0, some 0, some 0) := by decide

/-- V2.2: PUT 7, 0x55 after 101 makes the byte b5 and leaves 01. -/
theorem test_bpPut :
    field (fun t => (t.outMem, t.outLen, t.bpAcc, t.bpNbits))
      (exec .bpPut { State.reset with bpAcc := some 5, bpNbits := some 3, arg0 := 7, arg1 := 0x55 }) =
      some ([(0, 0xb5)], some 1, some 1, some 2) := by decide

/-- V2.7: PUT 33 is InvalidArgument, STATUS = 0x086. -/
theorem test_bpPut_too_wide : statusAfter (exec .bpPut { State.reset with arg0 := 33 }) = some 0x086 := by decide

/-- V2.5: BP_FLUSH pads 01 to the byte 40. -/
theorem test_bpFlush :
    field (fun t => (t.outMem, t.outLen, t.bpAcc, t.bpNbits))
      (exec .bpFlush { State.reset with outMem := [(0, 0xb5)], outLen := some 1, bpAcc := some 1, bpNbits := some 2 }) =
      some ([(0, 0xb5), (1, 0x40)], some 2, some 0, some 0) := by decide

/-- V2.13: no room for the partial byte, CapacityExceeded. -/
theorem test_bpFlush_full :
    statusAfter (exec .bpFlush { State.reset with
      params := small 1 1 0 .refuse, outMem := [(0, 0xab)], outLen := some 1, bpAcc := some 1, bpNbits := some 1 }) =
      some 0x076 := by decide

/-- V2.18: BR_GETBIT at (1, 2) reads 0 and moves to (1, 3). -/
theorem test_brGetbit :
    field (fun t => (t.result, t.brByte, t.brBit))
      (exec .brGetbit { inp [0xb5, 0x40] with brByte := some 1, brBit := some 2, result := 0x55 }) =
      some (0, some 1, some 3) := by decide

/-- V2.22: at the end of the input, CorruptHeader. -/
theorem test_brGetbit_end : statusAfter (exec .brGetbit { inp [0xb5, 0x40] with brByte := some 2 }) = some 0x046 := by decide

/-- V2.28: 32 bits across byte boundaries. -/
theorem test_brGetbits :
    field (fun t => (t.result, t.brByte, t.brBit))
      (exec .brGetbits { inp [0xde, 0xad, 0xbe, 0xef, 0x01] with brBit := some 4, arg0 := 32 }) =
      some (0xEADBEEF0, some 4, some 4) := by decide

/-- V2.25: the position does not wrap. -/
theorem test_brGetbits_no_wrap :
    statusAfter (exec .brGetbits { inp [0xb5, 0x40] with brByte := some 0xFFFFFFFF, brBit := some 7, arg0 := 1 }) =
      some 0x046 := by decide

/-- V3.4: counts of "ABRACADABRA", STATUS = 0x102. -/
theorem test_hufStats :
    field (fun t => (([0x41, 0x42, 0x43, 0x44, 0x52, 0x45].map (Memory.read t.freqMem)), t.fileSize, t.status.word))
      (exec .hufStats (inp [0x41, 0x42, 0x52, 0x41, 0x43, 0x41, 0x44, 0x41, 0x42, 0x52, 0x41])) =
      some ([some 5, some 2, some 1, some 1, some 2, some 0], some 11, 0x102) := by decide +kernel

/-- V6.3: HUF_BUILD from reset is InvalidState, STATUS = 0x096. -/
theorem test_hufBuild_invalid : statusAfter (exec .hufBuild State.reset) = some 0x096 := by decide

/-- R184, R186: keys order by weight, then by index; the lesser one is the left child. -/
theorem test_merge :
    mergeLoop 2 3 (insertKey (1, 2) (insertKey (1, 1) (insertKey (2, 0) []))) =
      [(3, Node.mk 2 false 0 1 2), (4, Node.mk 4 false 0 0 3)] := by decide

/-- V6.5: HUF_CODES without a tree is InvalidState, STATUS = 0x196. -/
theorem test_hufCodes_invalid :
    statusAfter (exec .hufCodes { State.reset with status := { Status.reset with freqValid := true } }) = some 0x196 := by
  decide

/-- R190: the codes of a tree of three leaves: 0 for the left edge, 1 for the right edge. -/
theorem test_codes :
    (assignCodes [(0, leafNode 0 2), (1, leafNode 1 1), (2, leafNode 2 1), (3, Node.mk 2 false 0 1 2),
      (4, Node.mk 4 false 0 0 3)] 256 4 [] []).toOption =
      some [(0, [false]), (1, [true, false]), (2, [true, true])] := by decide

/-- V5.8: a filename with 0x00 in it is UnencodableHeader. -/
theorem test_hufEncode_name : statusAfter (exec .hufEncode (inpName [0x41] [0x61, 0x00, 0x62])) = some 0x066 := by decide

/-- V5.12: EmptyInput comes before the filename's check. -/
theorem test_hufEncode_empty : statusAfter (exec .hufEncode (inpName [] [0x00])) = some 0x026 := by decide

/-- R130: a code entry: the length 9 and the code 000000010, padded (V3.1: `09 01 00`). -/
theorem test_codeEntry :
    codeEntry (bitsMSB 2 9) = bytesBits [0x09, 0x01, 0x00] := by decide

/-- V5.15: the name does not fit in FNAME. -/
theorem test_hufDecode_name :
    statusAfter (exec .hufDecode { inp [0x78, 0x00, 0x01, 0x00] with params := small 1024 1024 0 .refuse }) =
      some 0x076 := by decide

/-- V4.11: LZ_SEGMENT of "ABABABAB". -/
theorem test_lzSegment :
    field (fun t => (t.dictMem, t.dictSize, t.indexWidth, t.tokenCount, t.status.word))
      (exec .lzSegment (inp [0x41, 0x42, 0x41, 0x42, 0x41, 0x42, 0x41, 0x42])) =
      some ([(1, Entry.mk 0 0x41), (2, Entry.mk 0 0x42), (3, Entry.mk 1 0x42), (4, Entry.mk 3 0x41)],
        some 4, some 2, 5, 0x1802) := by decide +kernel

/-- V4.5 (90_conflicts.md C2): the leftover "AB" gives the token (1, 'B'). -/
theorem test_lzSegment_leftover :
    field (fun t => t.tokMem) (exec .lzSegment (inp [0x41, 0x42, 0x41, 0x42, 0x41, 0x42])) =
      some [(0, Entry.mk 0 0x41), (1, Entry.mk 0 0x42), (2, Entry.mk 1 0x42), (3, Entry.mk 1 0x42)] := by decide +kernel

/-- V4.6: the container of "ABABABAB". -/
theorem test_lzEncode :
    field (fun t => (t.outBytes, t.status.word))
      (exec .lzEncode (inpName [0x41, 0x42, 0x41, 0x42, 0x41, 0x42, 0x41, 0x42] [0x66])) =
      some ([0x66, 0x00, 0x08, 0x00, 0x02, 0x00, 0x10, 0x44, 0x25, 0x0b, 0x41, 0x10, 0x80], 0x1802) := by decide +kernel

/-- V5.18: OUT_MAX = 12 is too small, STATUS = 0x1876. -/
theorem test_lzEncode_full :
    statusAfter (exec .lzEncode { inpName [0x41, 0x42, 0x41, 0x42, 0x41, 0x42, 0x41, 0x42] [0x66] with
      params := small 1024 12 255 .refuse }) = some 0x1876 := by decide +kernel

/-- V4.6: decoding that container. -/
theorem test_lzDecode :
    field (fun t => (t.outBytes, t.dictSize, t.payloadOff, t.brByte, t.brBit))
      (exec .lzDecode (inp [0x66, 0x00, 0x08, 0x00, 0x02, 0x00, 0x10, 0x44, 0x25, 0x0b, 0x41, 0x10, 0x80])) =
      some ([0x41, 0x42, 0x41, 0x42, 0x41, 0x42, 0x41, 0x42], some 4, some 6, some 12, some 2) := by decide +kernel

/-- V5.28: a prefix index past D, STATUS = 0x046. -/
theorem test_lzDecode_prefix :
    statusAfter (exec .lzDecode (inp [0x66, 0x00, 0x01, 0x00, 0x01, 0x00, 0xa0, 0x80])) = some 0x046 := by decide +kernel

/-! ## Witnesses: for every statement with hypotheses, a state and operands that meet them -/

/-- Reset with a command word issued. -/
def issued (w : Word) (es : List Event) : State := { State.reset.issue w with events := es }

/-- The host's events, on reset. -/
def doing (es : List Event) : State := { State.reset with events := es }

theorem witness_DecodeEncodeAgree : decode 0x13 = .ok .hufEncode ∧ (0x13 : Word) = encode .hufEncode := ⟨rfl, by decide⟩

theorem witness_IllegalWordCompletesUnknownOperation :
    (issued 0x06 []).status.busy = true ∧ (issued 0x06 []).events = [] ∧ (∀ i, decode (issued 0x06 []).cmd ≠ .ok i) ∧
      (issued 0x100 [.wait]).events = .wait :: [] ∧ (∀ i, decode (issued 0x100 [.wait]).cmd ≠ .ok i) ∧
      (issued 0xFF [.engineTurn]).events = .engineTurn :: [] ∧ ∀ i, decode (issued 0xFF [.engineTurn]).cmd ≠ .ok i :=
  ⟨rfl, rfl, (fun _ h => by cases h), rfl, (fun _ h => by cases h), rfl, (fun _ h => by cases h)⟩

theorem witness_StepRunsTheDecodedCommand :
    (issued 0x02 []).status.busy = true ∧ decode (issued 0x02 []).cmd = .ok .bpPut ∧ (issued 0x02 []).events = [] ∧
      (issued 0x02 [.engineTurn]).events = .engineTurn :: [] ∧ (issued 0x02 [.wait]).events = .wait :: [] ∧
      decodeTableWord 32 0x22 = some .lzDecode := ⟨rfl, rfl, rfl, rfl, rfl, rfl⟩

theorem witness_CmdWriteIssues :
    (doing [.host (.writeReg 0x00 0x01)]).events = .host (.writeReg 0x00 0x01) :: [] ∧
      (doing [.host (.writeReg 0x00 0x01)]).status.busy = false ∧
      (issued 0x02 [.host (.writeReg 0x00 0x01)]).status.busy = true := ⟨rfl, rfl, rfl⟩

theorem witness_WaitEndsWithTheCommand :
    (issued 0x00 [.wait]).events = .wait :: [] ∧ (issued 0x00 [.wait]).status.busy = true ∧
      ∃ t, step (issued 0x00 [.wait]) = .next t := ⟨rfl, rfl, _, rfl⟩

theorem witness_HostAccessWhileBusy :
    (issued 0x00 []).status.busy = true ∧ (issued 0x00 [.host (.readReg 0x01)]).events = .host (.readReg 0x01) :: [] ∧
      (0x00 : Nat) ≠ 0x01 ∧ (0x02 : Nat) ≠ 0x01 ∧ (0x15 : Nat) ≠ 0x01 := by decide

theorem witness_ResetEventAbandonsEverything : (issued 0x13 [.reset]).events = .reset :: [] := rfl

/-- Success and each error code of the argument checks, a stage error of LZ_ENCODE, one of LZ_DECODE. -/
theorem witness_CompletionWritesStatus :
    statusAfter (exec .nop State.reset) = some 0x002 ∧ statusAfter (exec .hufStats State.reset) = some 0x026 ∧
      statusAfter (exec .lzDecode State.reset) = some 0x046 ∧
      statusAfter (exec .lzEncode (inpName [0x41] [0x00])) = some 0x066 ∧
      statusAfter (exec .bpPut { State.reset with arg0 := 33 }) = some 0x086 ∧
      statusAfter (exec .hufCodes State.reset) = some 0x096 := by decide

theorem witness_CommandsRaiseOnlyTheirErrors :
    (field (fun t => t.status.errCode) (exec .lzEncode { inpName [0x41] [0x66] with params := small 8 5 8 .refuse })) =
      some 7 := by decide

theorem witness_CommandsWriteOnlyTheirRow : ∃ t, exec .lzSegment (inp [0x41]) = .next t ∧ t.tokenCount = 1 :=
  field_eq (f := fun t => t.tokenCount) (by decide)

theorem witness_ArgumentErrorsChangeOnlyStatus :
    (∃ t, exec .lzEncode (inpName [0x41] [0x00]) = .next t ∧ t.status.errCode = 6) ∧
      (∃ t, exec .lzSegment (inp []) = .next t ∧ t.status.errCode = 2) ∧
      (∃ t, exec .hufBuild State.reset = .next t ∧ t.status.errCode = 9) ∧
      (∃ t, exec .brGetbits { State.reset with arg0 := 33 } = .next t ∧ t.status.errCode = 8) ∧
      ∃ t, exec .brGetbit State.reset = .next t ∧ t.status.errCode = 4 ∧ t.status.err = true ∧ Instr.brGetbit ∈ primitives :=
  ⟨field_eq (f := fun t => t.status.errCode) (by decide), field_eq (f := fun t => t.status.errCode) (by decide),
    field_eq (f := fun t => t.status.errCode) (by decide), field_eq (f := fun t => t.status.errCode) (by decide),
    by
      obtain ⟨t, h, e⟩ := field_eq (f := fun t => t.status) (o := exec .brGetbit State.reset) rfl
      exact ⟨t, h, by rw [e]; decide, by rw [e]; decide, by decide⟩⟩

/-! ### The Huffman encoder, on "A" with the empty filename -/

/-- Reset with the parameters `P` and "A" in IN. -/
def letterA (P : Params) : State := { inpName [0x41] [] with params := P }

theorem letterA_holds (P : Params) : (letterA P).inputIs [0x41] ∧ (letterA P).nameIs [] :=
  ⟨inp_inputIs (by decide) _ rfl rfl, rfl, by decide, by simp [Memory.holds]⟩

theorem letterA_check (P : Params) (h : 1 ≤ P.inMax) : checkEncode (letterA P) = .ok ([] : List Byte).length := by
  have h1 : checkData (letterA P) = .ok () := by
    have : ¬ P.inMax < 1 := by omega
    have e : (letterA P).inLen.toNat = 1 := rfl
    have p : (letterA P).params = P := rfl
    simp only [checkData, checkInMax, e, p, if_neg this]
    rfl
  have h2 : checkNulSafe (letterA P) 0 = .ok () := by
    have e : (letterA P).inLen.toNat = 1 := rfl
    unfold checkNulSafe
    split
    · rfl
    · simp only [fnameHasZero, e]
      rw [if_neg (by decide)]
  simp only [checkEncode, h1]
  exact (by simp [letterA, inpName, inp, needReg] at h2 ⊢; exact by rw [h2])

/-- The 770 bytes of V3.8 are more than OUT_MAX = 1, and fit in 2^22: both ends of WRITE. -/
theorem letterA_writes (P : Params) (h : 1 ≤ P.inMax) :
    ∃ (ws : List Word) (c : Memory BitStr) (bits : BitStr) (t : State), t = { letterA P with
        freqMem := freqTable [0x41]
        fileSize := some (letterA P).inLen
        nodeMem := buildTree ws
        root := 510
        codeMem := c
        status := { (letterA P).status with freqValid := true, treeValid := true, codesValid := true } } ∧
      16 ≤ bits.length ∧ bits.length ≤ 8 * 8500 ∧ exec .hufEncode (letterA P) = finish (writeContainer t bits) := by
  obtain ⟨ws, c, table, payload, t, ht, -, h1, h2, h3, h4, h5⟩ :=
    hufEncode_writes (letterA_holds P).1 (letterA_holds P).2.2.2 (letterA_check P h)
  have hb := beMin_length_le 1
  have e1 : (table.flatMap codeEntry).length ≤ 256 * 264 := by
    have := length_flatMap_le table codeEntry 264 fun p hp => by
      have := h3 p hp
      rw [codeEntry_length]; unfold ceilDiv8; omega
    rwa [h1] at this
  have e2 : payload.flatten.length ≤ 255 := by
    have := length_flatMap_le payload id 255 h4
    rw [h2] at this
    simpa [List.flatMap_id] using this
  refine ⟨ws, c, _, t, ht, ?_, ?_, by rw [exec, execHufEncode, h5]⟩
  · rw [hufContainer_length]; simp; omega
  · rw [hufContainer_length]; simp only [List.length_nil, List.length_cons, Nat.zero_add] at hb ⊢; omega

theorem witness_EncoderStageErrorState :
    (∃ t, exec .hufEncode (letterA (small 1 1 0 .refuse)) = .next t ∧ t.status.errCode = 7) ∧
      ∃ t, exec .lzEncode (letterA (small 1 1 0 .refuse)) = .next t ∧ t.status.errCode = 7 := by
  refine ⟨?_, field_eq (f := fun t => t.status.errCode) (by decide)⟩
  obtain ⟨ws, c, bits, t, rfl, h1, -, h3⟩ := letterA_writes (small 1 1 0 .refuse) (by decide)
  rcases writeContainer_spec (s := { letterA (small 1 1 0 .refuse) with
    freqMem := freqTable [0x41], fileSize := some (letterA (small 1 1 0 .refuse)).inLen, nodeMem := buildTree ws
    root := 510, codeMem := c
    status := { (letterA (small 1 1 0 .refuse)).status with freqValid := true, treeValid := true, codesValid := true } })
    List.Pairwise.nil bits with ⟨-, h⟩ | ⟨h, -⟩
  · exact ⟨_, by rw [h3, h]; rfl, rfl⟩
  · have : ceilDiv8 bits.length ≤ 1 := h
    unfold ceilDiv8 at this; omega

/-- Entries for the codes "1" (symbols 0x41 and 0x42, the latter with padding bits of 1) and "11" (0x43), and 253 entries of
length 0 (43_huffman_container.md R252, R254). -/
def mixedEntries : List RawEntry :=
  List.replicate 65 (0x00, []) ++ [(0x01, [0x80]), (0x01, [0xFF]), (0x02, [0xC0])] ++ List.replicate 188 (0x00, [])

/-- A container with those entries, the empty filename and the size `n`. -/
def mixedContainer (n : Byte) (payload : List Byte) : List Byte :=
  [] ++ 0 :: ([n] ++ 0 :: (entryBytes mixedEntries ++ payload))

theorem mixed_full (payload : List Byte) : fullTable mixedEntries (entryBytes mixedEntries ++ payload) payload :=
  ⟨by decide +kernel, by decide +kernel, rfl⟩

theorem mixed_header (n : Byte) (payload : List Byte) (h : n ≠ 0) :
    legalHeader State.reset.params (mixedContainer n payload) [] [n] (entryBytes mixedEntries ++ payload) := by
  refine ⟨rfl, by simp, by decide, by simpa using h.symm, by simp, fun e => h ?_, ?_⟩
  · have : n.toNat = 0 := by simpa [beVal] using e
    exact BitVec.eq_of_toNat_eq this
  · exact Nat.le_trans (m := 255) (by simp [beVal]; have := n.isLt; omega) (by decide)

/-- Two entries have the code "1" and one begins with it: the bits 11 are the higher symbol twice; no code begins with 0. -/
theorem mixed_decodes : decodesAs (entryTable mixedEntries) (bytesBits [0xC0]) [0x42, 0x42] (zeros 6) ∧
    noMatch (entryTable mixedEntries) (zeros 6) := by
  have inv : invIs (entryTable mixedEntries) [true] (0x42 : Byte).toNat := by
    refine ⟨by simp, by decide +kernel, fun j hj he => ?_⟩
    have hl : j < (entryTable mixedEntries).length := (List.getElem?_eq_some_iff.1 he).1
    rw [entryTable_length, (mixed_full []).1] at hl
    have all : ∀ j < 256, 66 < j → (entryTable mixedEntries)[j]? ≠ some [true] := by decide +kernel
    exact all j hl hj he
  have none : noMatch (entryTable mixedEntries) ([true] : BitStr).dropLast := fun c hc hne _ =>
    hne (List.prefix_nil.1 hc)
  have bits : bytesBits [0xC0] = [true] ++ ([true] ++ zeros 6) := by decide
  refine ⟨⟨_, _, bits, inv, none, _, _, rfl, inv, none, rfl⟩, fun c hc hne hm => ?_⟩
  have h1 : ∀ d ∈ entryTable mixedEntries, d.head? ≠ some false := by decide +kernel
  obtain ⟨b, c', rfl⟩ := List.exists_cons_of_ne_nil hne
  have hb : b = false := by
    have := (List.cons_prefix_cons (l₂ := zeros 5) (b := false)).1 hc
    exact this.1
  exact h1 _ hm (by simp [hb])

/-- R254, R255: HUF_DECODE of that container gives the higher symbol twice. -/
theorem test_hufDecode_mixed :
    field (fun t => (t.outBytes, t.payloadOff, t.brByte, t.brBit)) (exec .hufDecode (inp (mixedContainer 2 [0xC0]))) =
      some ([0x42, 0x42], some 262, some 262, some 2) := by decide +kernel

/-- Errors in the header, in the coded stage, after it (the flag is 1), and CapacityExceeded, which only the header raises. -/
theorem witness_DecoderStageErrorState :
    (∃ t, exec .hufDecode (inp [0x78]) = .next t ∧ t.status.errCode = 4) ∧
      (∃ t, exec .hufDecode (inp [0x00, 0x01, 0x00, 0x09]) = .next t ∧ t.status.errCode = 4) ∧
      (∃ t, exec .hufDecode (inp (mixedContainer 3 [0xC0])) = .next t ∧
        (t.status.errCode, t.status.codesValid) = (4, true)) ∧
      (∃ t, exec .hufDecode { inp [0x00, 0x02, 0x00] with params := small 8 1 0 .refuse } = .next t ∧
        t.status.errCode = 7) ∧
      (∃ t, exec .lzDecode (inp [0x78]) = .next t ∧ t.status.errCode = 4) ∧
      (∃ t, exec .lzDecode (inp [0x00, 0x01, 0x00, 0x00]) = .next t ∧ t.status.errCode = 4) ∧
      ∃ t, exec .lzDecode { inp [0x00, 0x02, 0x00] with params := small 8 1 0 .refuse } = .next t ∧
        t.status.errCode = 7 :=
  ⟨field_eq (f := fun t => t.status.errCode) (by decide), field_eq (f := fun t => t.status.errCode) (by decide),
    field_eq (f := fun t => (t.status.errCode, t.status.codesValid)) (by decide +kernel),
    field_eq (f := fun t => t.status.errCode) (by decide), field_eq (f := fun t => t.status.errCode) (by decide),
    field_eq (f := fun t => t.status.errCode) (by decide), field_eq (f := fun t => t.status.errCode) (by decide)⟩

/-- Inputs for each stage of the decoders: no legal header, a table cut short, all 256 entries, a legal width. -/
theorem witness_DecoderStageErrorState_stages :
    ((inp [0x78]).inputIs [0x78] ∧ ∀ f z rest, ¬ legalHeader (inp [0x78]).params [0x78] f z rest) ∧
      ((inp [0x00, 0x01, 0x00, 0x09]).inputIs [0x00, 0x01, 0x00, 0x09] ∧
        legalHeader State.reset.params [0x00, 0x01, 0x00, 0x09] [] [0x01] [0x09] ∧ shortTable [0x09]) ∧
      ((inp (mixedContainer 3 [0xC0])).inputIs (mixedContainer 3 [0xC0]) ∧
        legalHeader State.reset.params (mixedContainer 3 [0xC0]) [] [3] (entryBytes mixedEntries ++ [0xC0]) ∧
        fullTable mixedEntries (entryBytes mixedEntries ++ [0xC0]) [0xC0]) ∧
      ((inp [0x00, 0x01, 0x00, 0x00]).inputIs [0x00, 0x01, 0x00, 0x00] ∧
        legalHeader State.reset.params [0x00, 0x01, 0x00, 0x00] [] [0x01] [0x00] ∧ legalWidth [0x00] [] []) := by
  refine ⟨⟨inp_inputIs (by decide) _ rfl rfl, fun f z rest h => ?_⟩, ⟨inp_inputIs (by decide) _ rfl rfl, by decide, ?_⟩,
    ⟨inp_inputIs (by decide +kernel) _ rfl rfl, mixed_header 3 _ (by decide), mixed_full _⟩,
    inp_inputIs (by decide) _ rfl rfl, by decide, by decide⟩
  · have : (0 : Byte) ∈ ([0x78] : List Byte) := by rw [h.1]; simp
    exact absurd this (by decide)
  · exact ⟨[], [0x09], by decide, by simp, rfl, fun l body e => by cases e; decide⟩

/-- 256 zero counts. -/
@[irreducible] def zeroCounts : List Word := List.replicate 256 0

theorem zeroCounts_length : zeroCounts.length = 256 := by unfold zeroCounts; exact List.length_replicate

/-- Reset with the statistics of 256 zero counts. -/
def counted : State :=
  { State.reset with freqMem := Memory.writeList [] 0 zeroCounts, status := { Status.reset with freqValid := true } }

/-- Reset with the tree of 256 zero counts. -/
def treed : State :=
  { State.reset with
    nodeMem := buildTree zeroCounts
    root := 510
    status := { Status.reset with treeValid := true } }

theorem counted_holds : Memory.holds counted.freqMem 0 zeroCounts := fun i hi => by
  rw [show counted.freqMem = Memory.writeList [] 0 zeroCounts from rfl, Memory.read_writeList List.Pairwise.nil,
    if_pos (by omega)]
  simp

theorem treed_ok : treeOk treed.nodeMem ∧ treed.root = 510 ∧ treed.status.treeValid = true :=
  ⟨(treeOk_buildTree (zeroCounts_length)).1, rfl, rfl⟩

/-- What the host must write for each command, and nothing for the others (R344). -/
theorem witness_ReadyCommandsComplete :
    (∀ i ∈ ([.nop, .bpReset, .bpPut, .bpFlush, .brGetbit, .brGetbits, .hufStats, .hufEncode, .hufDecode, .lzSegment,
      .lzEncode, .lzDecode] : List Instr), readyFor i (inpName [0x41] [0x66])) ∧
      readyFor .hufBuild counted ∧ readyFor .hufCodes treed := by
  refine ⟨fun i hi => ?_, fun _ i hi => ?_, fun _ => ⟨treed_ok.1, treed_ok.2.1⟩⟩
  · have hi' : i ∉ ([.hufBuild, .hufCodes] : List Instr) := by
      intro h
      simp only [List.mem_cons, List.not_mem_nil, or_false] at h
      rcases h with rfl | rfl <;> exact absurd hi (by decide)
    have h1 : Memory.listed (inpName [0x41] [0x66]).inMem 0 (inpName [0x41] [0x66]).inLen.toNat := by decide
    have h2 : Memory.listed (inpName [0x41] [0x66]).fnameMem 0 (1 : Word).toNat := by decide
    cases i
    case hufBuild | hufCodes => exact absurd (by decide) hi'
    case nop | bpReset => trivial
    case bpPut | bpFlush => exact ⟨rfl, rfl, rfl⟩
    case brGetbit | brGetbits => exact ⟨rfl, rfl, h1⟩
    case hufStats | lzSegment | hufDecode | lzDecode => exact h1
    case hufEncode | lzEncode => exact ⟨h1, 1, rfl, h2⟩
  · have hi' : i < zeroCounts.length := by rw [zeroCounts_length]; exact hi
    rw [counted_holds i hi']
    simp [hi']

/-! ### The packer and the reader -/

/-- An empty packer that puts 32 bits and 0 bits, and OUT_MAX = 1 exactly filled (V2.14). -/
theorem witness_BpPutAppendsTheField :
    (State.reset.packerIs 0 0 0 ∧ ({ State.reset with arg0 := 32 } : State).arg0.toNat ≤ 32 ∧
        0 + (0 + 32) / 8 ≤ State.reset.params.outMax) ∧
      (({ State.reset with params := small 1 1 0 .refuse, arg0 := 9 } : State).packerIs 0 0 0 ∧ 0 + (0 + 9) / 8 ≤ 1) ∧
      ({ State.reset with outLen := some 1, bpAcc := some 127, bpNbits := some 7, outMem := [(0, 1)] } : State).packerIs
        1 127 7 := by decide

theorem witness_BpPutErrors :
    32 < ({ State.reset with arg0 := 33 } : State).arg0.toNat ∧
      ({ State.reset with params := small 1 1 0 .refuse, arg0 := 16 } : State).packerIs 0 0 0 ∧
      (small 1 1 0 .refuse).outMax < 0 + (0 + 16) / 8 := by decide

theorem witness_BpFlushPadsTheByte :
    State.reset.packerIs 0 0 0 ∧
      (({ State.reset with bpAcc := some 1, bpNbits := some 1 } : State).packerIs 0 1 1 ∧ 0 < State.reset.params.outMax) ∧
      ({ State.reset with
        params := small 1 1 0 .refuse, outMem := [(0, 0xab)], outLen := some 1, bpAcc := some 1, bpNbits := some 1 } :
        State).packerIs 1 1 1 := by decide

/-- V2.1 to V2.4. -/
theorem witness_PackingLaw :
    ∃ s1 s2 s3, State.reset.params.outMax < 2 ^ 32 ∧ Memory.wf State.reset.outMem ∧
      (∀ f ∈ ([(3, 5), (7, 0x55), (4, 0xFA)] : List (Nat × Word)), f.1 ≤ 32) ∧ exec .bpReset State.reset = .next s1 ∧
      putAll s1 [(3, 5), (7, 0x55), (4, 0xFA)] = some s2 ∧ exec .bpFlush s2 = .next s3 ∧ s3.status.err = false :=
  ⟨_, _, _, by decide, by decide, by decide, rfl, rfl, rfl, rfl⟩

/-- All 16 bits (V2.20), no bits at the end (V2.21), no bits with the cursor far past the end (V2.25). -/
theorem witness_BrGetbitsReadsTheField :
    ∀ x ∈ ([(0, 0, 16), (2, 0, 0), (0xFFFFFFFF, 7, 0)] : List (Word × BitVec 3 × Word)),
      ∃ s : State, s.inputIs [0xb5, 0x40] ∧ 2 ≤ s.params.inMax ∧ s.arg0 = x.2.2 ∧ s.arg0.toNat ≤ 32 ∧
        ∃ pos, cursorPos s = .ok pos ∧ s.arg0.toNat ≤ 8 * 2 - pos := by
  intro x hx
  refine ⟨{ inp [0xb5, 0x40] with brByte := some x.1, brBit := some x.2.1, arg0 := x.2.2 },
    inp_inputIs (by decide) _ rfl rfl, (by decide : 2 ≤ 2 ^ 20), rfl, ?_, _, rfl, ?_⟩ <;>
  (simp only [List.mem_cons, List.not_mem_nil, or_false] at hx; rcases hx with rfl | rfl | rfl <;> decide)

/-- The first bit, and the last one. -/
theorem witness_BrGetbitReadsTheBit :
    ∀ k ∈ ([0, 15] : List Nat), ∃ (s : State) (b : Byte), s.inLen.toNat ≤ s.params.inMax ∧ cursorPos s = .ok k ∧
      k + 1 ≤ 8 * s.inLen.toNat ∧ Memory.read s.inMem (k / 8) = some b := by
  intro k hk
  simp only [List.mem_cons, List.not_mem_nil, or_false] at hk
  rcases hk with rfl | rfl
  · exact ⟨inp [0xb5, 0x40], 0xb5, by decide, rfl, by decide, rfl⟩
  · exact ⟨{ inp [0xb5, 0x40] with brByte := some 1, brBit := some 7 }, 0x40, by decide, rfl, by decide, rfl⟩

/-- V2.27, V2.24, V2.22, V2.23. -/
theorem witness_BitReaderErrors :
    (small 1 1 0 .refuse).inMax < ({ State.reset with inLen := 2 } : State).inLen.toNat ∧
      32 < ({ State.reset with arg0 := 33 } : State).arg0.toNat ∧
      (cursorPos { inp [0xb5, 0x40] with brByte := some 2 } = .ok 16 ∧ 8 * (inp [0xb5, 0x40]).inLen.toNat < 16 + 1) ∧
      (cursorPos { inp [0xb5, 0x40] with brBit := some 1 } = .ok 1 ∧ 8 * (inp [0xb5, 0x40]).inLen.toNat - 1 < 16) ∧
      (inp [0xb5, 0x40]).inLen.toNat ≤ (inp [0xb5, 0x40]).params.inMax :=
  ⟨by decide, by decide, ⟨rfl, by decide⟩, ⟨rfl, by decide⟩, by decide⟩

/-- The fields of V2.1 to V2.4 in their bytes. -/
theorem witness_ReadBackLaw :
    (inp [0xb5, 0x68]).inputIs [0xb5, 0x68] ∧
      (∀ f ∈ ([(3, 5), (7, 0x55), (4, 0xFA)] : List (Nat × Word)), f.1 ≤ 32) ∧ (inp [0xb5, 0x68]).brByte = some 0 ∧
      (inp [0xb5, 0x68]).brBit = some 0 ∧ 2 ≤ (inp [0xb5, 0x68]).params.inMax ∧
      bytesBits [0xb5, 0x68] = fieldBits [(3, 5), (7, 0x55), (4, 0xFA)] ++
        zeros (8 * ceilDiv8 (fieldBits [(3, 5), (7, 0x55), (4, 0xFA)]).length -
          (fieldBits [(3, 5), (7, 0x55), (4, 0xFA)]).length) :=
  ⟨inp_inputIs (by decide) _ rfl rfl, by decide, rfl, rfl, by decide, by decide⟩

/-! ### Statistics, tree, codes -/

theorem witness_HufStatsCountsBytes : (inp [0x41]).inputIs [0x41] ∧ ([0x41] : List Byte) ≠ [] ∧
    ([0x41] : List Byte).length ≤ (inp [0x41]).params.inMax := ⟨inp_inputIs (by decide) _ rfl rfl, by decide, by decide⟩

theorem witness_OriginalDataChecks :
    Instr.lzSegment ∈ ([.hufStats, .hufEncode, .lzSegment, .lzEncode] : List Instr) ∧ State.reset.inLen = 0 ∧
      ({ State.reset with params := small 1 1 0 .refuse, inLen := 2 } : State).inLen ≠ 0 ∧
      (small 1 1 0 .refuse).inMax < ({ State.reset with inLen := 2 } : State).inLen.toNat := by decide

theorem zeroCounts_sum : (zeroCounts.map BitVec.toNat).sum < 2 ^ 32 := by
  unfold zeroCounts; rw [List.map_replicate, List.sum_replicate]; decide

theorem witness_HufBuildMakesATree :
    counted.status.freqValid = true ∧ zeroCounts.length = 256 ∧ Memory.holds counted.freqMem 0 zeroCounts ∧
      (zeroCounts.map BitVec.toNat).sum < 2 ^ 32 := ⟨rfl, zeroCounts_length, counted_holds, zeroCounts_sum⟩

/-- HUF_BUILD completes there. -/
theorem counted_builds : ∃ t, exec .hufBuild counted = .next t := by
  have h : readRange (Fault.unspecifiedRecord .freq) counted.freqMem 0 256 = .ok zeroCounts := by
    have := readRange_ok (f := Fault.unspecifiedRecord .freq) counted_holds
    rwa [zeroCounts_length] at this
  exact ⟨_, by simp only [exec, execHufBuild, hufBuild, stageBuild, h]; rfl⟩

theorem witness_MergesTakeTheLeastKeys :
    counted.status.freqValid = true ∧ zeroCounts.length = 256 ∧ Memory.holds counted.freqMem 0 zeroCounts ∧
      (zeroCounts.map BitVec.toNat).sum < 2 ^ 32 ∧ ∃ t, exec .hufBuild counted = .next t :=
  ⟨rfl, zeroCounts_length, counted_holds, zeroCounts_sum, counted_builds⟩

theorem witness_TreeDependsOnFreqAlone :
    counted.freqMem = ({ counted with arg0 := 1 } : State).freqMem ∧ counted.status.freqValid = true ∧
      (∃ t, exec .hufBuild counted = .next t) ∧ ∃ t, exec .hufBuild { counted with arg0 := 1 } = .next t := by
  refine ⟨rfl, rfl, counted_builds, ?_⟩
  have h : readRange (Fault.unspecifiedRecord .freq) counted.freqMem 0 256 = .ok zeroCounts := by
    have := readRange_ok (f := Fault.unspecifiedRecord .freq) counted_holds
    rwa [zeroCounts_length] at this
  exact ⟨_, by simp only [exec, execHufBuild, hufBuild, stageBuild, h]; rfl⟩

theorem witness_InvalidStateChecks : State.reset.status.freqValid = false ∧ State.reset.status.treeValid = false :=
  ⟨rfl, rfl⟩

theorem witness_HufCodesRecordsThePaths : treed.status.treeValid = true ∧ treed.root = 510 ∧ treeOk treed.nodeMem :=
  ⟨rfl, rfl, treed_ok.1⟩

/-- HUF_CODES completes there, and lists two codes to compare. -/
theorem treed_codes : ∃ t c d, exec .hufCodes treed = .next t ∧ Memory.read t.codeMem 0 = some c ∧
    Memory.read t.codeMem 255 = some d := by
  obtain ⟨c, h1, -, h3, -⟩ := stageCodes_ok treed_ok.1 rfl
  obtain ⟨x, hx⟩ := Option.isSome_iff_exists.1 (h3 0 (by decide))
  obtain ⟨y, hy⟩ := Option.isSome_iff_exists.1 (h3 255 (by decide))
  exact ⟨_, x, y, by simp only [exec, execHufCodes, hufCodes, h1]; rfl, hx, hy⟩

theorem witness_HufCodesArePrefixFree :
    treed.status.treeValid = true ∧ treed.root = 510 ∧ treeOk treed.nodeMem ∧ (0 : Nat) ≠ 255 ∧
      ∃ t c d, exec .hufCodes treed = .next t ∧ Memory.read t.codeMem 0 = some c ∧ Memory.read t.codeMem 255 = some d :=
  ⟨rfl, rfl, treed_ok.1, by decide, treed_codes⟩

theorem witness_HufCodesAreComplete :
    treed.status.treeValid = true ∧ treed.root = 510 ∧ treeOk treed.nodeMem ∧ ∃ t, exec .hufCodes treed = .next t :=
  ⟨rfl, rfl, treed_ok.1, treed_codes.imp fun _ ⟨_, _, h, _⟩ => h⟩

/-! ### Containers -/

theorem witness_BeMinIsMinimal :
    (0 < 1 ∧ 1 < 2 ^ 32 ∧ beMin 1 = [0x01]) ∧ (0 < 2 ^ 32 - 1 ∧ beMin (2 ^ 32 - 1) = [0xFF, 0xFF, 0xFF, 0xFF]) ∧
      beMin 256 = [0x01, 0x00] := by decide

theorem witness_CeilLog2IsLeast :
    ceilLog2 1 = 0 ∧ ceilLog2 2 = 1 ∧ ceilLog2 3 = 2 ∧ ceilLog2 4 = 2 ∧ (3 : Nat) ≤ 2 ^ 2 := by decide

/-- V5.14, V5.8, V5.9. -/
theorem witness_EncodersCheckTheHeader :
    (∃ s : State, s.inLen ≠ 0 ∧ s.inLen.toNat ≤ s.params.inMax ∧ s.fnameLen = some 3 ∧
        s.params.fnameMax < (3 : Word).toNat) ∧
      (∃ s : State, s.inLen ≠ 0 ∧ s.inLen.toNat ≤ s.params.inMax ∧ s.params.nulPolicy = .refuse ∧
        s.nameIs [0x61, 0x00] ∧ 2 ≤ s.params.fnameMax ∧ (0 : Byte) ∈ ([0x61, 0x00] : List Byte)) ∧
      ∃ s : State, s.inLen ≠ 0 ∧ s.inLen.toNat ≤ s.params.inMax ∧ s.params.nulPolicy = .refuse ∧ s.nameIs [] ∧
        0 ≤ s.params.fnameMax ∧ (0 : Byte) ∈ beMin s.inLen.toNat :=
  ⟨⟨{ inpName [0x41] [0x61, 0x61, 0x61] with params := small 8 8 2 .refuse }, by decide⟩,
    ⟨inpName [0x41] [0x61, 0x00], by decide⟩, ⟨{ State.reset with inLen := 256 }, by decide⟩⟩

theorem witness_HufEncodeWritesTheContainer :
    (letterA Config.exampleParams).inputIs [0x41] ∧ (letterA Config.exampleParams).nameIs [] ∧
      ([0x41] : List Byte) ≠ [] ∧ 1 ≤ Config.exampleParams.inMax ∧ Config.exampleParams.outMax < 2 ^ 32 ∧
      Memory.wf (letterA Config.exampleParams).outMem ∧ (0 : Byte) ∉ ([] : List Byte) ∧ (0 : Byte) ∉ beMin 1 ∧
      ([] : List Byte).length ≤ Config.exampleParams.fnameMax :=
  ⟨(letterA_holds _).1, (letterA_holds _).2, by decide, by decide, by decide, List.Pairwise.nil, by decide, by decide,
    by decide⟩

/-- The table of all 8-bit codes. -/
def byteTable : List BitStr := (List.range 256).map fun k => bitsMSB k 8

/-- A container of R131 with that table, for "A" and the empty filename, one byte after its payload. -/
def byteContainer : List Byte :=
  [0x00, 0x01, 0x00] ++ (List.range 256).flatMap (fun k => [0x08, BitVec.ofNat 8 k]) ++ [0x41, 0x99]

theorem byteContainer_bits :
    bytesBits byteContainer =
      hufContainer [] 1 byteTable ([0x41].map fun b : Byte => byteTable.getD b.toNat []) ++ bitsMSB 0x99 8 := by
  have hb : ∀ n, bytesBits ((List.range n).flatMap fun k => [0x08, BitVec.ofNat 8 k]) =
      ((List.range n).map fun k => bitsMSB k 8).flatMap codeEntry := fun n => by
    induction n with
    | zero => rfl
    | succ n ih =>
      rw [List.range_succ, List.flatMap_append, bytesBits_append, ih, List.map_append, List.flatMap_append]
      congr 1
      have h8 : (BitVec.ofNat 8 n).toNat = n % 2 ^ 8 := BitVec.toNat_ofNat n 8
      simp only [List.flatMap_cons, List.flatMap_nil, List.append_nil, List.map_cons, List.map_nil, bytesBits_cons,
        bytesBits_nil, h8, bitsMSB_mod, codeEntry, bitsMSB_length]
      rfl
  simp only [byteContainer, bytesBits_append, hb, hufContainer, List.map_cons, List.map_nil, byteTable]
  simp [nulField, beMin, beDigits]

theorem witness_HufDecodeRecoversTheData :
    ∃ s : State, s.inputIs byteContainer ∧ byteContainer.length ≤ s.params.inMax ∧ byteTable.length = 256 ∧
      (∀ c ∈ byteTable, 1 ≤ c.length ∧ c.length ≤ 255) ∧ prefixFree byteTable ∧ ([0x41] : List Byte) ≠ [] ∧
      1 ≤ s.params.outMax ∧ 0 ≤ s.params.fnameMax ∧ Memory.wf s.outMem ∧ (0 : Byte) ∉ ([] : List Byte) ∧
      (0 : Byte) ∉ beMin 1 := by
  have hl : byteContainer.length = 517 := by
    have := congrArg List.length byteContainer_bits
    have e : (byteTable.flatMap codeEntry).length = 256 * 16 := by decide +kernel
    have g : (byteTable.getD (0x41 : Byte).toNat []).length = 8 := by decide +kernel
    rw [bytesBits_length, List.length_append, hufContainer_length, e] at this
    simp only [List.map_cons, List.map_nil, List.flatten_cons, List.flatten_nil, List.append_nil, g, bitsMSB_length] at this
    have : 8 * byteContainer.length = 8 * (0 + 1) + 8 * (1 + 1) + 256 * 16 + 8 + 8 := this
    omega
  refine ⟨inp byteContainer, inp_inputIs (by rw [hl]; decide) _ rfl rfl, by rw [hl]; decide, by simp [byteTable],
    fun c hc => ?_, ?_, by decide, by decide, by decide, List.Pairwise.nil, by decide, by decide⟩
  · obtain ⟨k, -, rfl⟩ := List.mem_map.1 hc
    simp
  · refine List.pairwise_map.2 (List.Pairwise.imp_of_mem (fun {a b} ha hb hne => ?_) List.nodup_range)
    have ha := List.mem_range.1 ha
    have hb := List.mem_range.1 hb
    have key : ∀ x y, x < 256 → y < 256 → x ≠ y → ¬ bitsMSB x 8 <+: bitsMSB y 8 := fun x y hx hy hn h => by
      have := bitsMSB_inj (h.eq_of_length (by simp))
      omega
    exact ⟨key a b ha hb hne, key b a hb ha (Ne.symm hne)⟩

/-- A table that is not prefix-free, with equal codes and lengths of 0. -/
theorem witness_HufDecodeRecoversTheData_any_table :
    ∃ s : State, s.inputIs (mixedContainer 2 [0xC0]) ∧ (mixedContainer 2 [0xC0]).length ≤ s.params.inMax ∧
      Memory.wf s.outMem ∧ legalHeader s.params (mixedContainer 2 [0xC0]) [] [2] (entryBytes mixedEntries ++ [0xC0]) ∧
      fullTable mixedEntries (entryBytes mixedEntries ++ [0xC0]) [0xC0] ∧
      decodesAs (entryTable mixedEntries) (bytesBits [0xC0]) [0x42, 0x42] (zeros 6) ∧
      ([0x42, 0x42] : List Byte).length = beVal [2] :=
  ⟨inp _, inp_inputIs (by decide +kernel) _ rfl rfl, by decide +kernel, List.Pairwise.nil, mixed_header 2 _ (by decide),
    mixed_full _, mixed_decodes.1, by decide⟩

/-- What HUF_ENCODE of "A" gives, given to a decoder whose IN holds exactly that much. -/
theorem witness_HuffmanRoundTrip :
    ∃ s t s' : State, s.inputIs [0x41] ∧ s.nameIs [] ∧ s.params.outMax < 2 ^ 32 ∧ Memory.wf s.outMem ∧
      (0 : Byte) ∉ ([] : List Byte) ∧ (0 : Byte) ∉ beMin 1 ∧ exec .hufEncode s = .next t ∧ t.status.err = false ∧
      s'.inputIs t.outBytes ∧ t.outBytes.length ≤ s'.params.inMax ∧ 1 ≤ s'.params.outMax ∧ 0 ≤ s'.params.fnameMax ∧
      Memory.wf s'.outMem := by
  obtain ⟨ws, c, bits, t, rfl, -, h2, h3⟩ := letterA_writes Config.exampleParams (by decide)
  rcases writeContainer_spec (s := { letterA Config.exampleParams with
    freqMem := freqTable [0x41], fileSize := some (letterA Config.exampleParams).inLen, nodeMem := buildTree ws
    root := 510, codeMem := c
    status := { (letterA Config.exampleParams).status with freqValid := true, treeValid := true, codesValid := true } })
    List.Pairwise.nil bits with ⟨h, -⟩ | ⟨-, q, h, g1, g2, -, -, -, -⟩
  · have : 2 ^ 22 < ceilDiv8 bits.length := h
    unfold ceilDiv8 at this; omega
  · have hq : q.outLen ≤ 8501 := by rw [g2]; unfold ceilDiv8; omega
    rw [h] at h3
    refine ⟨_, _, inp _, (letterA_holds Config.exampleParams).1, (letterA_holds _).2, by decide, List.Pairwise.nil,
      by decide, by decide, h3, rfl, inp_inputIs (bs := State.outBytes _) ?_ _ rfl rfl, ?_,
      (by decide : 1 ≤ 2 ^ 22), Nat.zero_le _, List.Pairwise.nil⟩
    · refine Nat.lt_of_le_of_lt (m := 8501) ?_ (by decide)
      have : (BitVec.ofNat 32 q.outLen).toNat = q.outLen := by rw [BitVec.toNat_ofNat]; omega
      simp only [State.complete, State.setPacker, State.outBytes, this]
      exact (Memory.holds_slice g1.2.2.1).1.le.trans hq
    · refine Nat.le_trans (m := 8501) ?_ (by decide : 8501 ≤ 2 ^ 20)
      have : (BitVec.ofNat 32 q.outLen).toNat = q.outLen := by rw [BitVec.toNat_ofNat]; omega
      simp only [State.complete, State.setPacker, State.outBytes, this]
      exact (Memory.holds_slice g1.2.2.1).1.le.trans hq

theorem witness_DecodersOnBadLengths :
    Instr.lzDecode ∈ ([.hufDecode, .lzDecode] : List Instr) ∧ State.reset.inLen = 0 ∧
      (small 1 1 0 .refuse).inMax < ({ State.reset with inLen := 2 } : State).inLen.toNat := by decide

/-- A container for a decoder with FNAME_MAX = 2 and OUT_MAX = 1. -/
def tight (cs : List Byte) : State := { inp cs with params := small 9 1 2 .refuse }

/-- A name of two bytes with no end (IN ends first), one of three (the name is too long), a size field of five bytes, one
with no end, an empty one, size 2. -/
theorem witness_DecoderHeaderErrors :
    (∀ cs ∈ ([[0x61, 0x61], [0x61, 0x61, 0x61], [0x00, 1, 1, 1, 1, 1], [0x00, 1, 1, 1, 1], [0x00, 0x00],
        [0x00, 0x02, 0x00]] : List (List Byte)),
      (tight cs).inputIs cs ∧ cs.length ≤ (tight cs).params.inMax ∧ (tight cs).params.fnameMax = 2 ∧
        (tight cs).params.outMax = 1) ∧
      (0 : Byte) ∉ ([0x61, 0x61] : List Byte) ∧ (0 : Byte) ∉ ([0x61, 0x61, 0x61] : List Byte).take (2 + 1) ∧
      (([0x00, 1, 1, 1, 1, 1] : List Byte) = [] ++ 0 :: ([1, 1, 1, 1, 1] ++ []) ∧ (0 : Byte) ∉ ([1, 1, 1, 1, 1] : List Byte)) ∧
      (([0x00, 1, 1, 1, 1] : List Byte) = [] ++ 0 :: [1, 1, 1, 1] ∧ (0 : Byte) ∉ ([1, 1, 1, 1] : List Byte)) ∧
      (([0x00, 0x00] : List Byte) = [] ++ 0 :: ([] ++ 0 :: []) ∧ beVal [] = 0) ∧
      (([0x00, 0x02, 0x00] : List Byte) = [] ++ 0 :: ([0x02] ++ 0 :: []) ∧ 1 < beVal [0x02]) := by decide

/-- V5.22 (no width terminator), V5.20 (W = 33), V5.21 (a width field of two bytes). -/
theorem witness_DecoderHeaderErrors_width :
    ∀ x ∈ ([([0x02], []), ([0x21], [0x00, 0x41]), ([0x01, 0x02], [0x00, 0x41])] : List (List Byte × List Byte)),
      (inp ([0x66, 0x00, 0x01, 0x00] ++ (x.1 ++ x.2))).inputIs ([0x66, 0x00, 0x01, 0x00] ++ (x.1 ++ x.2)) ∧
        legalHeader State.reset.params ([0x66, 0x00, 0x01, 0x00] ++ (x.1 ++ x.2)) [0x66] [0x01] (x.1 ++ x.2) ∧
        (0 : Byte) ∉ x.1 ∧ (x.2 = [] ∨ 1 < x.1.length ∨ (x.2.head? = some 0 ∧ 32 < beVal x.1)) := by decide

/-- No entry at all, and one cut short; a payload with bits that match no entry. -/
theorem witness_DecoderHeaderErrors_table :
    (legalHeader State.reset.params [0x00, 0x01, 0x00] [] [0x01] [] ∧ shortTable []) ∧ shortTable [0x00, 0x09, 0x01] ∧
      legalHeader State.reset.params (mixedContainer 3 [0xC0]) [] [3] (entryBytes mixedEntries ++ [0xC0]) ∧
      fullTable mixedEntries (entryBytes mixedEntries ++ [0xC0]) [0xC0] ∧
      decodesAs (entryTable mixedEntries) (bytesBits [0xC0]) [0x42, 0x42] (zeros 6) ∧
      ([0x42, 0x42] : List Byte).length < beVal [3] ∧ noMatch (entryTable mixedEntries) (zeros 6) :=
  ⟨⟨by decide, [], [], by decide, by simp, rfl, fun l body e => by cases e⟩,
    ⟨[(0x00, [])], [0x09, 0x01], by decide, by decide, rfl, fun l body e => by cases e; decide⟩,
    mixed_header 3 _ (by decide), mixed_full _, mixed_decodes.1, by decide, mixed_decodes.2⟩

/-- V5.26 (exhausted after two literals), V5.28 (prefix 1 while D' = 0), V5.23 (the segment "AA" passes size 2). -/
theorem witness_DecoderHeaderErrors_tokens :
    (legalHeader State.reset.params [0x66, 0x00, 0x03, 0x00, 0x00, 0x41, 0x41] [0x66] [0x03] [0x00, 0x41, 0x41] ∧
        legalWidth [0x00, 0x41, 0x41] [] [0x41, 0x41] ∧
        replaySegments [] [Entry.mk 0 0x41, Entry.mk 0 0x41] = some [[0x41], [0x41]] ∧
        ([[0x41], [0x41]] : List (List Byte)).flatten.length < beVal [0x03] ∧
        tokenStream (beVal []) [0x41, 0x41] [Entry.mk 0 0x41, Entry.mk 0 0x41] [] ∧ ([] : BitStr).length < beVal [] + 8) ∧
      (legalHeader State.reset.params [0x66, 0x00, 0x01, 0x00, 0x01, 0x00, 0xa0, 0x80] [0x66] [0x01]
          [0x01, 0x00, 0xa0, 0x80] ∧
        legalWidth [0x01, 0x00, 0xa0, 0x80] [0x01] [0xa0, 0x80] ∧ replaySegments [] [] = some [] ∧
        ([] : List (List Byte)).flatten.length < beVal [0x01] ∧
        tokenStream (beVal [0x01]) [0xa0, 0x80] ([] ++ [Entry.mk 1 0x41]) (zeros 7) ∧
        ([] : List Entry).length < (Entry.mk 1 0x41).pfx.toNat) ∧
      (legalHeader State.reset.params [0x66, 0x00, 0x02, 0x00, 0x02, 0x00, 0x10, 0x54, 0x10] [0x66] [0x02]
          [0x02, 0x00, 0x10, 0x54, 0x10] ∧
        legalWidth [0x02, 0x00, 0x10, 0x54, 0x10] [0x02] [0x10, 0x54, 0x10] ∧
        replaySegments [] [Entry.mk 0 0x41] = some [[0x41]] ∧
        ([[0x41]] : List (List Byte)).flatten.length < beVal [0x02] ∧
        tokenStream (beVal [0x02]) [0x10, 0x54, 0x10] ([Entry.mk 0 0x41] ++ [Entry.mk 1 0x41]) (zeros 4) ∧
        replaySegments [] ([Entry.mk 0 0x41] ++ [Entry.mk 1 0x41]) = some ([[0x41]] ++ [[0x41, 0x41]]) ∧
        beVal [0x02] < ([[0x41]] : List (List Byte)).flatten.length + ([0x41, 0x41] : List Byte).length) :=
  ⟨⟨by decide, by decide, by decide, by decide, by decide, by decide⟩,
    ⟨by decide, by decide, rfl, by decide, by decide, by decide⟩,
    by decide, by decide, by decide, by decide, by decide, by decide, by decide⟩

/-- OUT exactly as large as each bound. -/
theorem witness_EncodersCompleteWithRoom :
    ∀ m ∈ ([8486, 13] : List Nat), ∃ s : State, s.inputIs [0x41] ∧ ([0x41] : List Byte) ≠ [] ∧
      ([0x41] : List Byte).length ≤ s.params.inMax ∧ s.nameIs [] ∧ ([] : List Byte).length ≤ s.params.fnameMax ∧
      s.params.outMax < 2 ^ 32 ∧ Memory.wf s.outMem ∧
      (s.params.nulPolicy = .refuse → (0 : Byte) ∉ ([] : List Byte) ∧ (0 : Byte) ∉ beMin 1) ∧
      (m = 8486 → 0 + 8454 + 32 * 1 ≤ s.params.outMax) ∧ (m = 13 → 0 + 8 + 5 * 1 ≤ s.params.outMax) := by
  intro m hm
  refine ⟨letterA (small 1 m 0 .refuse), (letterA_holds _).1, by decide, (by decide : 1 ≤ 1), (letterA_holds _).2,
    Nat.le_refl _, ?_, List.Pairwise.nil, fun _ => by decide, fun h => Nat.le_of_eq h.symm, fun h => Nat.le_of_eq h.symm⟩
  simp only [List.mem_cons, List.not_mem_nil, or_false] at hm
  rcases hm with rfl | rfl
  · exact (by decide : 8486 < 2 ^ 32)
  · exact (by decide : 13 < 2 ^ 32)

/-! ### LZ78 -/

theorem witness_LzSegmentBuildsTheDictionary : (inp [0x41, 0x41]).inputIs [0x41, 0x41] ∧
    ([0x41, 0x41] : List Byte) ≠ [] ∧ 2 ≤ (inp [0x41, 0x41]).params.inMax :=
  ⟨inp_inputIs (by decide) _ rfl rfl, by decide, by decide⟩

/-- OUT as large as the container of "A" with the empty filename (5 bytes), and one byte too small. -/
theorem witness_LzEncodeWritesTheContainer :
    ∀ m ∈ ([5, 4] : List Nat), ∃ s : State, s.inputIs [0x41] ∧ ([0x41] : List Byte) ≠ [] ∧
      ([0x41] : List Byte).length ≤ s.params.inMax ∧ s.nameIs [] ∧ ([] : List Byte).length ≤ s.params.fnameMax ∧
      s.params.outMax < 2 ^ 32 ∧ Memory.wf s.outMem ∧
      (s.params.nulPolicy = .refuse → (0 : Byte) ∉ ([] : List Byte) ∧ (0 : Byte) ∉ beMin 1) ∧ s.params.outMax = m ∧
      (lzContainer [] 1 (ceilLog2 (Seg.start.run [0x41]).dict.count) (Seg.start.run [0x41]).tokens).length = 8 * 5 := by
  intro m hm
  refine ⟨letterA (small 1 m 0 .refuse), (letterA_holds _).1, by decide, (by decide : 1 ≤ 1), (letterA_holds _).2,
    Nat.le_refl _, ?_, List.Pairwise.nil, fun _ => by decide, rfl, by decide⟩
  simp only [List.mem_cons, List.not_mem_nil, or_false] at hm
  rcases hm with rfl | rfl
  · exact (by decide : 5 < 2 ^ 32)
  · exact (by decide : 4 < 2 ^ 32)

/-- V4.4's container and one byte after it. -/
theorem witness_LzDecodeRecoversTheData :
    ∃ s : State, s.inputIs [0x66, 0x00, 0x04, 0x00, 0x02, 0x00, 0x10, 0x44, 0x25, 0x08, 0x99] ∧ 11 ≤ s.params.inMax ∧
      ([0x41, 0x42, 0x41, 0x42] : List Byte) ≠ [] ∧ ([0x41, 0x42, 0x41, 0x42] : List Byte).length ≤ s.params.outMax ∧
      1 ≤ s.params.fnameMax ∧ Memory.wf s.outMem ∧
      (0 : Byte) ∉ ([0x66] : List Byte) ∧ (0 : Byte) ∉ beMin 4 ∧
      bytesBits [0x66, 0x00, 0x04, 0x00, 0x02, 0x00, 0x10, 0x44, 0x25, 0x08, 0x99] =
        lzContainer [0x66] 4 (ceilLog2 (Seg.start.run [0x41, 0x42, 0x41, 0x42]).dict.count)
          (Seg.start.run [0x41, 0x42, 0x41, 0x42]).tokens ++ (zeros 2 ++ bitsMSB 0x99 8) :=
  ⟨inp _, inp_inputIs (by decide) _ rfl rfl, by decide, by decide, by decide, by decide, List.Pairwise.nil, by decide,
    by decide, by decide +kernel⟩

/-- V5.24: a width that the segmenter would not choose, and tokens that decode to "AAA". -/
theorem witness_LzDecodeRecoversTheData_any_tokens :
    ∃ s : State, s.inputIs [0x66, 0x00, 0x03, 0x00, 0x02, 0x00, 0x10, 0x54, 0x10] ∧ 9 ≤ s.params.inMax ∧
      Memory.wf s.outMem ∧
      legalHeader s.params [0x66, 0x00, 0x03, 0x00, 0x02, 0x00, 0x10, 0x54, 0x10] [0x66] [0x03]
        [0x02, 0x00, 0x10, 0x54, 0x10] ∧
      legalWidth [0x02, 0x00, 0x10, 0x54, 0x10] [0x02] [0x10, 0x54, 0x10] ∧
      tokenStream (beVal [0x02]) [0x10, 0x54, 0x10] [Entry.mk 0 0x41, Entry.mk 1 0x41] (zeros 4) ∧
      replaySegments [] [Entry.mk 0 0x41, Entry.mk 1 0x41] = some [[0x41], [0x41, 0x41]] ∧
      ([[0x41], [0x41, 0x41]] : List (List Byte)).flatten.length = beVal [0x03] :=
  ⟨inp _, inp_inputIs (by decide) _ rfl rfl, by decide, List.Pairwise.nil, by decide, by decide, by decide, by decide,
    by decide⟩

theorem witness_LzRoundTrip :
    ∃ s t s' : State, s.inputIs [0x41] ∧ s.nameIs [] ∧ s.params.outMax < 2 ^ 32 ∧ Memory.wf s.outMem ∧
      (0 : Byte) ∉ ([] : List Byte) ∧ (0 : Byte) ∉ beMin 1 ∧ exec .lzEncode s = .next t ∧ t.status.err = false ∧
      s'.inputIs t.outBytes ∧ t.outBytes.length ≤ s'.params.inMax ∧ 1 ≤ s'.params.outMax ∧ 0 ≤ s'.params.fnameMax ∧
      Memory.wf s'.outMem := by
  obtain ⟨t, h, e⟩ := field_eq (f := fun t => (t.outBytes, t.status.err)) (o := exec .lzEncode (letterA Config.exampleParams))
    (v := ([0x00, 0x01, 0x00, 0x00, 0x41], false)) (by decide +kernel)
  obtain ⟨e1, e2⟩ := Prod.mk.inj e
  refine ⟨_, t, inp t.outBytes, (letterA_holds Config.exampleParams).1, (letterA_holds _).2, by decide, List.Pairwise.nil,
    by decide, by decide, h, e2, inp_inputIs (by rw [e1]; decide) _ rfl rfl, by rw [e1]; decide, (by decide : 1 ≤ 2 ^ 22),
    Nat.zero_le _, List.Pairwise.nil⟩

/-! ### The host's side -/

/-- Reads of a register, a byte and a word that have a value, and one that has none. -/
theorem witness_HostReadsHaveNoSideEffects_step :
    State.reset.status.busy = false ∧ hostReadReg (doing [.host (.readReg 0x05)]) 0x05 = .ok 0 ∧
      hostReadByte (inp [0x41]) .input 0 = .ok 0x41 ∧ hostReadWord State.reset .freq 256 = .ok 0 ∧
      hostReadWord State.reset .freq 255 = .error (.unspecifiedRecord .freq 255) := ⟨rfl, rfl, rfl, rfl, rfl⟩

theorem witness_HostReadsHaveNoSideEffects :
    (doing [.host (.readReg 0x01), .host (.readReg 0x01)]).events = .host (.readReg 0x01) :: .host (.readReg 0x01) :: [] ∧
      (∃ t, step (doing [.host (.readReg 0x01), .host (.readReg 0x01)]) = .next t) ∧
      (∃ t, step { inp [0x41] with events := [.host (.readByte .input 0), .host (.readByte .input 0)] } = .next t) ∧
      ∃ t, step (doing [.host (.readWord .freq 300), .host (.readWord .freq 300)]) = .next t :=
  ⟨rfl, ⟨_, rfl⟩, ⟨_, rfl⟩, ⟨_, rfl⟩⟩

/-- The least indices that are reserved or past the end. -/
theorem witness_UnreachableHostAccesses :
    State.reset.status.busy = false ∧ 0x12 ≤ (0x12 : Nat) ∧ State.reset.params.inMax ≤ 2 ^ 20 ∧
      State.reset.params.fnameMax ≤ 255 ∧ State.reset.params.outMax ≤ 2 ^ 22 ∧
      wordCount State.reset.params .node ≤ 1022 ∧ wordCount State.reset.params .code ≤ 2304 := by decide

/-- Writes of a register, a byte and a word as the next event. -/
theorem witness_HostWritesReadBack_step :
    (doing [.host (.writeReg 0x05 1)]).status.busy = false ∧
      (doing [.host (.writeReg 0x05 1)]).events = .host (.writeReg 0x05 1) :: [] ∧
      (doing [.host (.writeByte .input 0 0x41)]).events = .host (.writeByte .input 0 0x41) :: [] ∧
      (doing [.host (.writeWord .freq 0 1)]).events = .host (.writeWord .freq 0 1) :: [] := ⟨rfl, rfl, rfl, rfl⟩

/-- The last element of IN while IN_LEN covers it, while it does not, and after IN_LEN is written; the last one of FNAME. -/
theorem witness_HostWritesReadBack :
    Reg.fnameLen ∈ ([.arg0, .arg1, .inLen, .fnameLen, .brByte] : List Reg) ∧ Reg.arg0 ≠ .fnameLen ∧ Reg.status ≠ .brBit ∧
      (2 ^ 20 - 1 < State.reset.params.inMax ∧ Memory.wf State.reset.inMem ∧
        2 ^ 20 - 1 < ({ State.reset with inLen := 0x100000 } : State).inLen.toNat ∧
        State.reset.inLen.toNat ≤ 2 ^ 20 - 1 ∧ 2 ^ 20 - 1 < (0x100000 : Word).toNat) ∧
      (254 < State.reset.params.fnameMax ∧ Memory.wf State.reset.fnameMem) := by decide

/-- U5: a host read of IN at IN_LEN faults, although the host wrote the byte. -/
theorem test_in_beyond_length :
    faultOf (step { hostWriteByte (inp [0x41]) .input 1 0x42 with events := [.host (.readByte .input 1)] }) =
      some (.unspecifiedByte .input 1) := by decide

/-- A count, a node, an entry and a token that the host reads. -/
def viewed : State :=
  { State.reset with
    status := Status.mk false true false 0 true true true true true
    freqMem := [(255, 7)]
    nodeMem := [(510, Node.mk 1 false 0 509 65)]
    codeMem := [(255, [true, false])]
    dictMem := [(1, Entry.mk 0 0x41)]
    tokMem := [(0, Entry.mk 0 0x41)] }

/-- Registers with a value: specified, under a flag of 1, and 0 under a flag of 0. -/
theorem witness_NodeDictTokViews_registers :
    (viewed.fnameLen = some 0 ∧ viewed.outLen = some 0 ∧ viewed.fileSize = some 0 ∧ viewed.bpAcc = some 0 ∧
        viewed.bpNbits = some 0 ∧ viewed.brByte = some 0 ∧ viewed.brBit = some 0 ∧ viewed.payloadOff = some 0) ∧
      (viewed.status.treeValid = true ∧ State.reset.root = 0) ∧
      (viewed.status.dictValid = true ∧ viewed.dictSize = some 0 ∧ viewed.indexWidth = some 0) ∧
      (viewed.status.tokensValid = true ∧ State.reset.tokenCount = 0) :=
  ⟨⟨rfl, rfl, rfl, rfl, rfl, rfl, rfl, rfl⟩, ⟨rfl, rfl⟩, ⟨rfl, rfl, rfl⟩, rfl, rfl⟩

/-- R35: BUSY, DONE, ERR, ERR_CODE and the five flags at their bits: 0x1F96 with every flag and the code 9. -/
theorem test_status_word :
    (Status.mk false true true 9 true true true true true).word = 0x1F96 ∧
      (Status.mk true false false 0 false true false false false).word = 0x201 := by decide

theorem witness_NodeDictTokViews :
    (255 < 256 ∧ viewed.status.freqValid = true ∧ Memory.read viewed.freqMem 255 = some 7) ∧
      (510 ≤ 510 ∧ viewed.status.treeValid = true ∧ Memory.read viewed.nodeMem 510 = some (Node.mk 1 false 0 509 65)) ∧
      (1 ≤ 1 ∧ 1 ≤ viewed.params.dictMax ∧ viewed.status.dictValid = true ∧
        Memory.read viewed.dictMem 1 = some (Entry.mk 0 0x41)) ∧
      (0 < viewed.params.tokMax ∧ viewed.status.tokensValid = true ∧
        Memory.read viewed.tokMem 0 = some (Entry.mk 0 0x41)) := by decide

/-- V3.1's NODE[510] = {1, left 509, right 65} and R88's word for it; R91's words. -/
theorem test_views :
    (hostReadWord viewed .node 1021).toOption = some 0x0003FA41 ∧ (hostReadWord viewed .code 2295).toOption = some 2 ∧
      (hostReadWord viewed .code 2296).toOption = some 0x80000000 := by decide

theorem witness_CodeView :
    255 ≤ 255 ∧ viewed.status.codesValid = true ∧ Memory.read viewed.codeMem 255 = some [true, false] ∧
      [true, false].length ≤ 255 := by decide

/-- Every register that a stage error can leave UNSPECIFIED, so left. -/
def unspecifiedRegs : State :=
  { State.reset with
    fnameLen := none, outLen := none, fileSize := none, bpAcc := none, bpNbits := none, brByte := none, brBit := none
    payloadOff := none, dictSize := none, indexWidth := none }

/-- Registers with another value than 0 under a flag of 0. -/
def staleRegs : State := { State.reset with root := 510, tokenCount := 1, dictSize := some 1, indexWidth := some 1 }

/-- A register of each kind; bytes unwritten and beyond their lengths; records with the flag 0 and unwritten. -/
theorem witness_UnspecifiedReadsFault :
    State.reset.status.busy = false ∧
      (∀ r ∈ ([.fnameLen, .outLen, .fileSize, .bpAcc, .bpNbits, .brByte, .brBit, .payloadOff, .dictSize, .indexWidth] :
        List Reg), unspecifiedRegs.unspecified r) ∧
      (∀ r ∈ ([.root, .tokenCount, .dictSize, .indexWidth] : List Reg), staleRegs.unspecified r) ∧
      (0 < byteCount State.reset.params .input ∧ State.reset.unspecifiedAt 0 .input) ∧
      (1 < byteCount (inp [0x41]).params .input ∧ (inp [0x41]).unspecifiedAt 1 .input) ∧
      (0 < byteCount State.reset.params .output ∧ State.reset.unspecifiedAt 0 .output ∧
        unspecifiedRegs.unspecifiedAt 0 .output) ∧
      (0 < byteCount State.reset.params .fname ∧ State.reset.unspecifiedAt 0 .fname) ∧
      (∀ sp ∈ ([.freq, .node, .code, .dict, .tok] : List WordSpace),
        2 * sp.perRecord < wordCount State.reset.params sp ∧ 2 = 2 * sp.perRecord / sp.perRecord ∧
          State.reset.unspecifiedRecord 2 sp ∧ viewed.unspecifiedRecord 2 sp) ∧
      (doing [.host (.readReg 0x07)]).events = .host (.readReg Reg.outLen.index) :: [] := by
  refine ⟨rfl, fun r hr => ?_, fun r hr => ?_, ⟨by decide, .inr rfl⟩, ⟨by decide, .inl (by decide)⟩,
    ⟨by decide, .inr rfl, .inl (by simp [unspecifiedRegs])⟩, ⟨by decide, rfl⟩, fun sp hsp => ?_, rfl⟩
  · simp only [List.mem_cons, List.not_mem_nil, or_false] at hr
    rcases hr with rfl | rfl | rfl | rfl | rfl | rfl | rfl | rfl | rfl | rfl <;> first | exact rfl | exact .inl rfl
  · simp only [List.mem_cons, List.not_mem_nil, or_false] at hr
    rcases hr with rfl | rfl | rfl | rfl <;> first | exact ⟨rfl, by decide⟩ | exact .inr ⟨rfl, by decide⟩
  · cases sp <;> exact ⟨by decide, by decide, .inl rfl, .inr rfl⟩

/-! ### Invariants -/

/-- LZ_SEGMENT issued on "AB", with a segmentation of "A" and packed bits already there. -/
def midRun : State :=
  { inp [0x41, 0x42] with
    cmd := 0x20
    status := { Status.reset with busy := true, tokensValid := true, dictValid := true }
    dictMem := [(1, Entry.mk 0 0x41)]
    tokMem := [(0, Entry.mk 0 0x41)]
    dictSize := some 1
    tokenCount := 1
    outMem := [(0, 0xb5)]
    outLen := some 1
    bpAcc := some 1
    bpNbits := some 2
    events := [.wait] }

theorem witness_invariants_step : ∃ t, step midRun = .next t ∧ t.tokenCount = 2 :=
  field_eq (f := fun t => t.tokenCount) (by decide +kernel)

theorem witness_StepKeepsMemoriesCanonical : midRun.memoriesOk ∧ ∃ t, step midRun = .next t :=
  ⟨by decide, witness_invariants_step.imp fun _ h => h.1⟩

theorem witness_StepKeepsMemoriesInRange : midRun.params.wf = true ∧ midRun.inRange ∧ ∃ t, step midRun = .next t :=
  ⟨by decide, by decide, witness_invariants_step.imp fun _ h => h.1⟩

theorem witness_StepKeepsStatusLegal : midRun.status.legal ∧ ∃ t, step midRun = .next t :=
  ⟨by decide, witness_invariants_step.imp fun _ h => h.1⟩

theorem witness_StepKeepsPackerLegal :
    midRun.params.wf = true ∧ Memory.wf midRun.outMem ∧ midRun.packerOk ∧ ∃ t, step midRun = .next t :=
  ⟨by decide, by decide, .inr ⟨1, rfl, 1, rfl, 2, rfl, by decide, by decide, by decide⟩, witness_invariants_step.imp fun _ h => h.1⟩

theorem witness_StepKeepsFlagsTrue : midRun.flagsOk ∧ ∃ t, step midRun = .next t :=
  ⟨⟨by rw [if_neg (by decide)]; rfl, by rw [if_neg (by decide)]; exact ⟨rfl, rfl⟩, by rw [if_neg (by decide)]; rfl,
      by rw [if_pos (by decide)]; decide, by rw [if_pos (by decide)]; exact ⟨rfl, 1, rfl, by decide, by decide⟩⟩,
    witness_invariants_step.imp fun _ h => h.1⟩

end Sys2Proof.Tests
end

section
/-! PROOF. `ceil_log2` is the least sufficient width (00_scope.md R12). -/

namespace Sys2Proof.Machine

/-- `ceil_log2(d)` is at most `w` exactly when `w` bits count `d` values (R12). -/
theorem ceilLog2_le_iff (d w : Nat) : ceilLog2 d ≤ w ↔ d ≤ 2 ^ w := by
  have hpow := Nat.one_le_two_pow (n := w)
  unfold ceilLog2
  by_cases hd : d ≤ 1
  · rw [if_pos hd]; omega
  · rw [if_neg hd, Nat.succ_le_iff, Nat.log2_lt (by omega)]; omega

/-- Settles O37: both halves are `ceilLog2_le_iff`, read at the width itself and at any other. -/
theorem ceilLog2IsLeast : Obligations.CeilLog2IsLeast := fun d _ =>
  ⟨(ceilLog2_le_iff d _).1 (Nat.le_refl _), fun w => (ceilLog2_le_iff d w).2⟩

end Sys2Proof.Machine
end

section
/-! PROOF. Legal updates of one memory: what is stored lies where the memory has elements, and the canonical form stays
(10_state.md R55 to R62, log 6). -/

namespace Sys2Proof.Machine

/-- What is listed after a write: the element written, and what was listed before. -/
theorem Memory.mem_of_mem_write {α : Type} {m : Memory α} {a : Nat} {v : α} {x : Nat × α}
    (h : x ∈ Memory.write m a v) : x = (a, v) ∨ x ∈ m := by
  induction m with
  | nil => exact .inl (List.mem_singleton.1 h)
  | cons y m ih =>
    unfold Memory.write at h
    split at h
    · exact List.mem_cons.1 h
    · split at h
      · exact (List.mem_cons.1 h).imp_right (List.mem_cons_of_mem _)
      · rcases List.mem_cons.1 h with rfl | h
        · exact .inr List.mem_cons_self
        · exact (ih h).imp_right (List.mem_cons_of_mem _)

/-- `m'` is `m` after some elements were dropped and some that meet `ok` were stored, the canonical form being kept. -/
structure Memory.LegalUpdate {α : Type} (ok : Nat × α → Prop) (m m' : Memory α) : Prop where
  keepsWf : Memory.wf m → Memory.wf m'
  stores : ∀ x ∈ m', x ∈ m ∨ ok x

namespace Memory.LegalUpdate

variable {α : Type} {ok ok' : Nat × α → Prop} {m m' m'' : Memory α}

theorem refl (m : Memory α) : LegalUpdate ok m m := ⟨id, fun _ => .inl⟩

theorem trans (h : LegalUpdate ok m m') (g : LegalUpdate ok m' m'') : LegalUpdate ok m m'' :=
  ⟨fun hm => g.keepsWf (h.keepsWf hm), fun x hx => (g.stores x hx).elim (h.stores x) .inr⟩

/-- Dropping everything is legal: that is what a stage error does (60_exceptions.md R313). -/
theorem nil : LegalUpdate ok m [] := ⟨fun _ => .nil, by simp⟩

theorem write {a : Nat} {v : α} (h : ok (a, v)) : LegalUpdate ok m (Memory.write m a v) :=
  ⟨fun hm => wf_write hm a v, fun _ hx => (mem_of_mem_write hx).symm.imp_right (by rintro rfl; exact h)⟩

theorem writeList {a n : Nat} {vs : List α} (h : a + vs.length ≤ n) :
    LegalUpdate (fun x => x.1 < n) m (Memory.writeList m a vs) :=
  ⟨fun hm => wf_writeList hm a vs, fun _ hx => (index_of_mem_writeList hx).symm.imp_right fun _ => by omega⟩

/-- What all of `m` meets, all of `m'` meets, when all that `ok` lets in meets it. -/
theorem all {p : Nat × α → Prop} (h : LegalUpdate ok m m') (hp : ∀ x, ok x → p x) (hm : ∀ x ∈ m, p x) :
    ∀ x ∈ m', p x :=
  fun x hx => (h.stores x hx).elim (hm x) (hp x)

end Memory.LegalUpdate

/-- A memory whose indices are consecutive is canonical. -/
theorem Memory.wf_of_indices {α : Type} {m : Memory α} {i n : Nat} (h : m.map (fun x => x.1) = List.range' i n) :
    Memory.wf m :=
  List.pairwise_map.1 (h ▸ List.pairwise_lt_range')

theorem Memory.index_of_indices {α : Type} {m : Memory α} {i n : Nat} (h : m.map (fun x => x.1) = List.range' i n)
    {x : Nat × α} (hx : x ∈ m) : i ≤ x.1 ∧ x.1 < i + n := by
  have : x.1 ∈ List.range' i n := h ▸ List.mem_map_of_mem hx
  simpa using this

/-- Replacing a memory by consecutive elements that all meet `ok` is legal. -/
theorem Memory.LegalUpdate.of_indices {α : Type} {ok : Nat × α → Prop} {m m' : Memory α} {i n : Nat}
    (h : m'.map (fun x => x.1) = List.range' i n) (hok : ∀ x ∈ m', i ≤ x.1 → x.1 < i + n → ok x) :
    Memory.LegalUpdate ok m m' :=
  ⟨fun _ => Memory.wf_of_indices h, fun x hx =>
    .inr (hok x hx (Memory.index_of_indices h hx).1 (Memory.index_of_indices h hx).2)⟩

end Sys2Proof.Machine
end

section
/-! PROOF. Legal updates of the whole state, and of what a command answers. -/

namespace Sys2Proof.Machine

/-- `t` has the parameters of `s`, and each of its memories is a legal update of that of `s`. DICT and TOK are bounded by
what a command can need (44_lz78.md R274, R284); that they hold as much is a constraint on the parameters (R7). -/
structure State.LegalUpdate (s t : State) : Prop where
  params : t.params = s.params
  inMem : Memory.LegalUpdate (fun x => x.1 < s.params.inMax) s.inMem t.inMem
  outMem : Memory.LegalUpdate (fun x => x.1 < s.params.outMax) s.outMem t.outMem
  fnameMem : Memory.LegalUpdate (fun x => x.1 < s.params.fnameMax) s.fnameMem t.fnameMem
  freqMem : Memory.LegalUpdate (fun x => x.1 < 256) s.freqMem t.freqMem
  nodeMem : Memory.LegalUpdate (fun x => x.1 < 511) s.nodeMem t.nodeMem
  codeMem : Memory.LegalUpdate (fun x => x.1 < 256 ∧ x.2.length ≤ 255) s.codeMem t.codeMem
  dictMem : Memory.LegalUpdate (fun x => 1 ≤ x.1 ∧ x.1 ≤ max s.params.inMax s.params.outMax) s.dictMem t.dictMem
  tokMem : Memory.LegalUpdate (fun x => x.1 < s.params.inMax) s.tokMem t.tokMem

namespace State.LegalUpdate

theorem refl (s : State) : s.LegalUpdate s :=
  ⟨rfl, .refl _, .refl _, .refl _, .refl _, .refl _, .refl _, .refl _, .refl _⟩

theorem trans {s t u : State} (h : s.LegalUpdate t) (g : t.LegalUpdate u) : s.LegalUpdate u := by
  obtain ⟨gp, gin, gout, gfname, gfreq, gnode, gcode, gdict, gtok⟩ := g
  rw [h.params] at gp gin gout gfname gdict gtok
  exact ⟨gp, h.inMem.trans gin, h.outMem.trans gout, h.fnameMem.trans gfname, h.freqMem.trans gfreq,
    h.nodeMem.trans gnode, h.codeMem.trans gcode, h.dictMem.trans gdict, h.tokMem.trans gtok⟩

/-- The invariant of canonical memories is kept. -/
theorem memoriesOk {s t : State} (h : s.LegalUpdate t) (hs : s.memoriesOk) : t.memoriesOk := by
  obtain ⟨hin, hout, hfname, hfreq, hnode, hcode, hdict, htok⟩ := hs
  exact ⟨h.inMem.keepsWf hin, h.outMem.keepsWf hout, h.fnameMem.keepsWf hfname, h.freqMem.keepsWf hfreq,
    h.nodeMem.keepsWf hnode, h.codeMem.keepsWf hcode, h.dictMem.keepsWf hdict, h.tokMem.keepsWf htok⟩

end State.LegalUpdate

/-- The bounds of R7 that let DICT and TOK hold what a command can need. -/
theorem Params.wf_bounds {P : Params} (h : P.wf = true) : max P.inMax P.outMax ≤ P.dictMax ∧ P.inMax ≤ P.tokMax := by
  simp only [Params.wf, Params.dictMaxOk, Params.tokMaxOk, Bool.and_eq_true, decide_eq_true_eq] at h
  obtain ⟨⟨-, hdict⟩, htok⟩ := h
  exact ⟨hdict, htok⟩

/-- The invariant of memories within their capacities is kept, when the parameters meet R7. -/
theorem State.LegalUpdate.inRange {s t : State} (h : s.LegalUpdate t) (hP : s.params.wf = true) (hs : s.inRange) :
    t.inRange := by
  obtain ⟨hin, hout, hfname, hfreq, hnode, hcode, hdict, htok⟩ := hs
  obtain ⟨hD, hT⟩ := Params.wf_bounds hP
  unfold State.inRange
  rw [h.params]
  exact ⟨h.inMem.all (fun _ => id) hin, h.outMem.all (fun _ => id) hout, h.fnameMem.all (fun _ => id) hfname,
    h.freqMem.all (fun _ => id) hfreq, h.nodeMem.all (fun _ => id) hnode, h.codeMem.all (fun _ => id) hcode,
    h.dictMem.all (fun _ hx => ⟨hx.1, hx.2.trans hD⟩) hdict, h.tokMem.all (fun _ hx => hx.trans_le hT) htok⟩

/-- Whatever state a command leaves, on success or on an error, is a legal update of `s`. -/
def Perf.LegalFrom (s : State) : Perf → Prop
  | .done t => s.LegalUpdate t
  | .raised _ t => s.LegalUpdate t
  | .faulted _ => True

theorem Perf.LegalFrom.trans {s t : State} {p : Perf} (h : s.LegalUpdate t) (hp : p.LegalFrom t) : p.LegalFrom s := by
  cases p with
  | done u => exact State.LegalUpdate.trans h hp
  | raised e u => exact State.LegalUpdate.trans h hp
  | faulted f => trivial

theorem stopAt_legalFrom {s t : State} (h : s.LegalUpdate t) (e : Stop) : (stopAt t e).LegalFrom s := by
  cases e with
  | raise e => exact h
  | fault f => trivial

/-- Completion writes only STATUS (40_command.md R162). -/
theorem State.complete_legalUpdate (s : State) (e : Option ErrCode) : s.LegalUpdate (s.complete e) :=
  { State.LegalUpdate.refl s with }

theorem finish_legalUpdate {s t : State} {p : Perf} (hp : p.LegalFrom s) (h : finish p = .next t) :
    s.LegalUpdate t := by
  rcases finish_next_iff.1 h with ⟨u, rfl, rfl⟩ | ⟨e, u, rfl, rfl⟩
  · exact State.LegalUpdate.trans hp (u.complete_legalUpdate none)
  · exact State.LegalUpdate.trans hp (u.complete_legalUpdate (some e))

/-- A stage error of a decoder drops memories and stores nothing (60_exceptions.md R313). -/
theorem State.unspecifyDecode_legalUpdate (s : State) : s.LegalUpdate s.unspecifyDecode :=
  { State.LegalUpdate.refl s with outMem := .nil, fnameMem := .nil }

theorem State.unspecifyReplay_legalUpdate (s : State) : s.LegalUpdate s.unspecifyReplay :=
  { s.unspecifyDecode_legalUpdate with dictMem := .nil }

theorem State.dropCodes_legalUpdate (s : State) : s.LegalUpdate s.dropCodes :=
  { State.LegalUpdate.refl s with codeMem := .nil }

end Sys2Proof.Machine
end

section
/-! PROOF. The packer stores a byte only below the capacity it was checked against (42_bitio.md R212, R213, R239). -/

namespace Sys2Proof.Machine

/-- One bit appended takes its share of what was checked to fit. -/
theorem Packer.push_fits (p : Packer) (outMax n : Nat) (b : Bool) :
    (p.push b).fits outMax n = p.fits outMax (n + 1) := by
  unfold Packer.push
  split <;> simp only [Packer.fits] <;> congr 2 <;> omega

theorem Packer.push_legalUpdate {p : Packer} {outMax n : Nat} (h : p.fits outMax (n + 1) = true) (b : Bool) :
    Memory.LegalUpdate (fun x => x.1 < outMax) p.out (p.push b).out := by
  unfold Packer.push
  split
  · have : p.outLen < outMax := by simp only [Packer.fits, decide_eq_true_eq] at h; omega
    exact .write this
  · exact .refl _

theorem Packer.pushAll_legalUpdate {p : Packer} {outMax : Nat} (bs : BitStr) (h : p.fits outMax bs.length = true) :
    Memory.LegalUpdate (fun x => x.1 < outMax) p.out (p.pushAll bs).out := by
  induction bs generalizing p with
  | nil => exact .refl _
  | cons b bs ih => exact (Packer.push_legalUpdate h b).trans (ih ((p.push_fits outMax bs.length b).trans h))

theorem Packer.emit_legalUpdate {p q : Packer} {outMax : Nat} {bs : BitStr} (h : p.emit outMax bs = .ok q) :
    Memory.LegalUpdate (fun x => x.1 < outMax) p.out q.out := by
  induction bs generalizing p with
  | nil => cases h; exact .refl _
  | cons b bs ih =>
    unfold Packer.emit at h
    split at h
    · rename_i hf; exact (Packer.push_legalUpdate (n := 0) hf b).trans (ih h)
    · cases h

theorem Packer.flush_legalUpdate {p q : Packer} {outMax : Nat} (h : p.flush outMax = .ok q) :
    Memory.LegalUpdate (fun x => x.1 < outMax) p.out q.out := by
  unfold Packer.flush at h
  split at h
  · cases h; exact .refl _
  · split at h
    · cases h
    · cases h; exact .write (by omega)

/-- The packer a state holds works on its OUT. -/
theorem State.packer_out {s : State} {p : Packer} (h : s.packer = .ok p) : p.out = s.outMem := by
  unfold State.packer at h
  repeat' split at h
  all_goals cases h
  rfl

theorem State.setPacker_legalUpdate {s : State} {p : Packer}
    (h : Memory.LegalUpdate (fun x => x.1 < s.params.outMax) s.outMem p.out) : s.LegalUpdate (s.setPacker p) :=
  { State.LegalUpdate.refl s with outMem := h }

/-- The WRITE stage of an encoder (43_huffman_container.md R240, 44_lz78.md R276). -/
theorem writeContainer_legalFrom (s : State) (bits : BitStr) : (writeContainer s bits).LegalFrom s := by
  have hstop : s.LegalUpdate s.unspecifyEncode := { State.LegalUpdate.refl s with outMem := .nil }
  unfold writeContainer
  split
  · exact hstop
  · rename_i p hp
    split
    · exact hstop
    · rename_i q hq
      have hemit : Memory.LegalUpdate (fun x => x.1 < s.params.outMax) s.outMem p.out := Packer.emit_legalUpdate hp
      exact State.setPacker_legalUpdate (hemit.trans (Packer.flush_legalUpdate hq))

end Sys2Proof.Machine
end

section
/-! PROOF. The tables and trees of the Huffman stages lie in FREQ, NODE and CODE (41_huffman_tree.md R181 to R190). -/

namespace Sys2Proof.Machine

theorem freqTable_indices (bs : List Byte) : (freqTable bs).map (fun x => x.1) = List.range' 0 256 := by
  simp [freqTable, Function.comp_def, List.range_eq_range']

/-- The arena's nodes are numbered 0 to 510: the leaves, then the merges (R183). -/
theorem buildTree_indices {ws : List Word} (h : ws.length = 256) :
    (buildTree ws).map (fun x => x.1) = List.range' 0 511 := by
  have hq := leafQueue_perm 0 ws
  have hlt : ∀ x ∈ leafQueue 0 ws, x.2 < 256 := fun x hx => by
    have := hq.mem_iff.1 (List.mem_map_of_mem hx)
    simp only [List.mem_range'_1] at this
    omega
  have hmerge := (mergeLoop_spec 255 256 (leafQueue 0 ws) (by simpa [h] using hq.length_eq) hlt (by omega)).1
  rw [buildTree, List.map_append, (leaves_spec 0 ws).1, hmerge, h]
  exact List.range'_append_1

/-- The traversal stores at symbols only, and no path outgrows the fuel (R190, R194). -/
theorem assignCodes_legalUpdate {nodes : Memory Node} {d n : Nat} {path : BitStr} {codes c : Memory BitStr}
    (h : assignCodes nodes d n path codes = .ok c) (hd : path.length + d ≤ 256) :
    Memory.LegalUpdate (fun x => x.1 < 256 ∧ x.2.length ≤ 255) codes c := by
  induction d generalizing n path codes c with
  | zero => cases h
  | succ d ih =>
    unfold assignCodes at h
    split at h
    · cases h
    · rename_i nd _
      split at h
      · cases h
        exact .write ⟨nd.sym.isLt, by simp only; omega⟩
      · split at h
        · cases h
        · rename_i c' hleft
          exact (ih hleft (by rw [List.length_append, List.length_singleton]; omega)).trans
            (ih h (by rw [List.length_append, List.length_singleton]; omega))

theorem stageStats_legalUpdate {s t : State} (h : stageStats s = .ok t) : s.LegalUpdate t := by
  rcases stageStats_cases s with ⟨bs, -, e⟩ | ⟨f, e⟩ <;> rw [e] at h <;> cases h
  exact { State.LegalUpdate.refl s with freqMem := .of_indices (freqTable_indices bs) fun x _ _ hx => by omega }

theorem stageBuild_legalUpdate {s t : State} (h : stageBuild s = .ok t) : s.LegalUpdate t := by
  rcases stageBuild_cases s with ⟨ws, hws, -, e⟩ | ⟨f, e⟩ <;> rw [e] at h <;> cases h
  exact { State.LegalUpdate.refl s with nodeMem := .of_indices (buildTree_indices hws) fun x _ _ hx => by omega }

theorem stageCodes_legalUpdate {s t : State} (h : stageCodes s = .ok t) : s.LegalUpdate t := by
  rcases stageCodes_cases s with ⟨c, hc, e⟩ | ⟨f, e⟩ <;> rw [e] at h <;> cases h
  have hcodes := assignCodes_legalUpdate hc (by simp)
  exact { State.LegalUpdate.refl s with
    codeMem := Memory.LegalUpdate.trans .nil hcodes }

end Sys2Proof.Machine
end

section
/-! PROOF. What the decoders' parsers answer fits FNAME, OUT and CODE (43_huffman_container.md R250 to R256). -/

namespace Sys2Proof.Machine

theorem parseFilename_length_le {s : State} {name : List Byte} (h : parseFilename s = .ok name) :
    name.length ≤ s.params.fnameMax := by
  obtain ⟨-, -, hle, -⟩ := scanField_ok h (Nat.zero_le _)
  omega

theorem parseSize_le {s : State} {pos p size : Nat} (h : parseSize s pos = .ok (p, size)) :
    size ≤ s.params.outMax := by
  rcases parseSize_cases s pos with ⟨p', n, e, -, hle, -⟩ | e | e | ⟨x, e⟩ <;> rw [e] at h <;> cases h
  exact hle

theorem decodeSymbols_length {s : State} {codes : Memory BitStr} {n pos fin : Nat} {data : List Byte}
    (h : decodeSymbols s codes n pos = .ok (data, fin)) : data.length = n := by
  rcases decodeSymbols_cases s codes n pos with ⟨bs, p, e, hlen, -⟩ | e | ⟨f, e⟩ <;> rw [e] at h <;> cases h
  exact hlen

/-- The parsed table lists the 256 symbols with codes of at most 255 bits (R252). -/
theorem parseTable_legalUpdate {s : State} {pos off : Nat} {codes : Memory BitStr}
    (h : parseTable s 256 0 pos = .ok (codes, off)) (m : Memory BitStr) :
    Memory.LegalUpdate (fun x => x.1 < 256 ∧ x.2.length ≤ 255) m codes := by
  rcases parseTable_cases s 256 0 pos with ⟨c, p, e, hidx, hlen⟩ | e | ⟨f, e⟩ <;> rw [e] at h <;> cases h
  exact .of_indices hidx fun x hx _ hlt => ⟨by omega, hlen x hx⟩

/-- A decoded name and decoded data that fit FNAME and OUT are stored inside them. -/
theorem State.setDecoded_legalUpdate {s : State} {name data : List Byte} (size off pos : Nat)
    (hname : name.length ≤ s.params.fnameMax) (hdata : data.length ≤ s.params.outMax) :
    s.LegalUpdate (s.setDecoded name size off pos data) :=
  { State.LegalUpdate.refl s with
    fnameMem := Memory.LegalUpdate.trans .nil (.writeList (by omega))
    outMem := .writeList (by omega) }

end Sys2Proof.Machine
end

section
/-! PROOF. The dictionary of LZ78 is numbered from 1 without a gap, and it and the tokens are no more than the bytes they
stand for (44_lz78.md R270, R274, R284). -/

namespace Sys2Proof.Machine

@[simp] theorem Dict.count_cons (k : Nat) (e : Entry) (d : Dict) : Dict.count ((k, e) :: d) = k := rfl

/-- The entries are numbered 1, 2, …, the newest having the highest number (R270). -/
def Dict.Numbered : Dict → Prop
  | [] => True
  | (k, _) :: d => k = Dict.count d + 1 ∧ Dict.Numbered d

theorem Dict.Numbered.nil : Dict.Numbered [] := trivial

/-- Registering an entry the way the segmenter and the replay do. -/
theorem Dict.Numbered.cons {d : Dict} (h : d.Numbered) (e : Entry) : Dict.Numbered ((d.count + 1, e) :: d) := ⟨rfl, h⟩

/-- In index order a numbered dictionary lists exactly 1 to D. -/
theorem Dict.Numbered.indices {d : Dict} (h : d.Numbered) :
    d.reverse.map (fun x => x.1) = List.range' 1 d.count := by
  induction d with
  | nil => rfl
  | cons x d ih =>
    obtain ⟨k, e⟩ := x
    obtain ⟨rfl, hd⟩ := h
    rw [List.reverse_cons, List.map_append, ih hd, Dict.count_cons, List.range'_1_concat, Nat.add_comm 1]
    rfl

/-- A numbered dictionary of at most `max(IN_MAX, OUT_MAX)` entries fits DICT. -/
theorem Dict.Numbered.legalUpdate {d : Dict} (h : d.Numbered) {m : Memory Entry} {n : Nat} (hn : d.count ≤ n) :
    Memory.LegalUpdate (fun x => 1 ≤ x.1 ∧ x.1 ≤ n) m d.reverse :=
  .of_indices h.indices fun _ _ hge hlt => ⟨hge, by omega⟩

/-! ## Segmenter -/

/-- What holds of the segmenter's variables after `n` bytes (R271): every entry has its token, and every byte is in a token
or in the candidate. -/
structure Seg.After (g : Seg) (n : Nat) : Prop where
  numbered : g.dict.Numbered
  count : g.dict.count = g.toks.length
  bytes : g.toks.length + g.clen ≤ n

theorem Seg.after_start : Seg.start.After 0 := ⟨.nil, rfl, Nat.le_refl _⟩

theorem Seg.After.step {g : Seg} {n : Nat} (h : g.After n) (b : Byte) : (g.step b).After (n + 1) := by
  obtain ⟨hnum, hcount, hbytes⟩ := h
  unfold Seg.step
  split
  · exact ⟨hnum, hcount, by simp only; omega⟩
  · exact ⟨hnum.cons _, by simpa using hcount, by simp only [List.length_cons]; omega⟩

theorem Seg.After.run {g : Seg} {n : Nat} (h : g.After n) (bs : List Byte) : (g.run bs).After (n + bs.length) := by
  induction bs generalizing g n with
  | nil => exact h
  | cons b bs ih =>
    have := ih (h.step b)
    rwa [Nat.add_assoc, Nat.add_comm 1] at this

/-- The leftover candidate costs a token only when it has a byte (R274). -/
theorem Seg.tokens_length_le (g : Seg) : g.tokens.length ≤ g.toks.length + g.clen := by
  unfold Seg.tokens
  split
  · simp
  · split
    · simp; omega
    · simp

/-- The segmentation of IN stores as many entries and tokens as IN has bytes, at most. -/
theorem stageSegment_legalUpdate {s t : State} {g : Seg} (h : stageSegment s = .ok (t, g))
    (hin : s.inLen.toNat ≤ s.params.inMax) : s.LegalUpdate t := by
  rcases stageSegment_cases s with ⟨bs, ⟨hlen, -⟩, e⟩ | ⟨f, e⟩ <;> rw [e] at h <;> cases h
  obtain ⟨hnum, hcount, hbytes⟩ := Seg.after_start.run bs
  have htoks := (Seg.start.run bs).tokens_length_le
  exact { State.LegalUpdate.refl s with
    dictMem := hnum.legalUpdate (by omega)
    tokMem := Memory.LegalUpdate.trans .nil (.writeList (by omega)) }

/-! ## Replay -/

/-- One turn of a replay that succeeds: the data is written already, or a token that fits adds its segment (R281, R284). -/
theorem replay_succ_ok {s : State} {w size n pos out : Nat} {d : Dict} {r : Replayed}
    (h : replay s w size (n + 1) pos out d = .ok r) :
    r = Replayed.mk [] d pos ∨
      ∃ (e : Entry) (seg : List Byte) (r' : Replayed), 1 ≤ seg.length ∧ out + seg.length ≤ size ∧
        replay s w size n (pos + w + 8) (out + seg.length)
          (if out + seg.length < size then (d.count + 1, e) :: d else d) = .ok r' ∧
        r = Replayed.mk (seg ++ r'.data) r'.dict r'.pos := by
  unfold replay at h
  split at h
  · cases h; exact .inl rfl
  · split at h
    · cases h
    · rename_i p _
      split at h
      · cases h
      · rename_i c _
        rcases segmentOf_cases d p (BitVec.ofNat 8 c) with ⟨seg, hseg, hpos, -⟩ | ⟨-, hseg⟩
        · simp only [hseg] at h
          split at h
          · cases h
          · split at h
            · cases h
            · rename_i r' hr'
              cases h
              exact .inr ⟨_, seg, r', hpos, by omega, hr', rfl⟩
        · simp only [hseg] at h
          cases h

/-- A replay that starts with no more entries than bytes ends with a numbered dictionary of at most `size` entries. -/
theorem replay_dict {s : State} {w size n pos out : Nat} {d : Dict} {r : Replayed}
    (h : replay s w size n pos out d = .ok r) (hd : d.Numbered) (hcount : d.count ≤ out) (hout : out ≤ size) :
    r.dict.Numbered ∧ r.dict.count ≤ size := by
  induction n generalizing pos out d r with
  | zero => cases h; exact ⟨hd, hcount.trans hout⟩
  | succ n ih =>
    rcases replay_succ_ok h with rfl | ⟨e, seg, r', hpos, hfit, hr', rfl⟩
    · exact ⟨hd, hcount.trans hout⟩
    · refine ih (r := r') hr' ?_ ?_ hfit
      · split
        · exact hd.cons e
        · exact hd
      · split
        · rw [Dict.count_cons]; omega
        · omega

theorem replay_data_length {s : State} {w size pos : Nat} {r : Replayed}
    (h : replay s w size size pos 0 [] = .ok r) : r.data.length = size := by
  rcases replay_cases s w size size pos 0 [] (by omega) (by omega) with ⟨r', e, hlen⟩ | e | ⟨f, e⟩ <;>
    rw [e] at h <;> cases h
  exact hlen

end Sys2Proof.Machine
end

section
/-! PROOF. Every command, and every step, makes a legal update (40_command.md R161, R162). -/

namespace Sys2Proof.Machine

theorem checkData_inLen_le {s : State} (h : checkData s = .ok ()) : s.inLen.toNat ≤ s.params.inMax := by
  rcases checkData_cases s with ⟨-, hle, -⟩ | ⟨-, e⟩ | ⟨-, -, e⟩
  · exact hle
  · rw [e] at h; cases h
  · rw [e] at h; cases h

theorem checkEncode_inLen_le {s : State} {n : Nat} (h : checkEncode s = .ok n) :
    s.inLen.toNat ≤ s.params.inMax := by
  rcases checkEncode_cases s with ⟨m, -, -, hle, -⟩ | ⟨x, -, e⟩ | ⟨f, e⟩
  · exact hle
  · rw [e] at h; cases h
  · rw [e] at h; cases h

theorem bpReset_legalFrom (s : State) : (bpReset s).LegalFrom s :=
  State.setPacker_legalUpdate (.refl _)

theorem bpPut_legalFrom (s : State) : (bpPut s).LegalFrom s := by
  unfold bpPut
  split
  · exact .refl s
  · split
    · trivial
    · rename_i p hp
      split
      · rename_i hfits
        refine State.setPacker_legalUpdate ?_
        rw [← State.packer_out hp]
        exact Packer.pushAll_legalUpdate _ (by rwa [bitsMSB_length])
      · exact .refl s

theorem bpFlush_legalFrom (s : State) : (bpFlush s).LegalFrom s := by
  unfold bpFlush
  split
  · trivial
  · rename_i p hp
    split
    · exact .refl s
    · rename_i q hq
      refine State.setPacker_legalUpdate ?_
      rw [← State.packer_out hp]
      exact Packer.flush_legalUpdate hq

theorem brRead_legalFrom (s : State) (n : Nat) : (brRead s n).LegalFrom s := by
  unfold brRead
  split
  · trivial
  · split
    · exact stopAt_legalFrom (.refl s) _
    · exact { State.LegalUpdate.refl s with }

theorem brGetbit_legalFrom (s : State) : (brGetbit s).LegalFrom s := by
  unfold brGetbit
  split
  · exact stopAt_legalFrom (.refl s) _
  · exact brRead_legalFrom s 1

theorem brGetbits_legalFrom (s : State) : (brGetbits s).LegalFrom s := by
  unfold brGetbits
  split
  · exact stopAt_legalFrom (.refl s) _
  · split
    · exact .refl s
    · exact brRead_legalFrom s _

theorem performStage_legalFrom {s : State} {r : Except Stop State} (h : ∀ t, r = .ok t → s.LegalUpdate t) :
    (performStage s r).LegalFrom s := by
  cases r with
  | ok t => exact h t rfl
  | error e => exact stopAt_legalFrom (.refl s) e

theorem hufStats_legalFrom (s : State) : (hufStats s).LegalFrom s := by
  unfold hufStats
  split
  · exact stopAt_legalFrom (.refl s) _
  · exact performStage_legalFrom fun _ => stageStats_legalUpdate

theorem hufBuild_legalFrom (s : State) : (hufBuild s).LegalFrom s := by
  unfold hufBuild
  split
  · exact performStage_legalFrom fun _ => stageBuild_legalUpdate
  · exact .refl s

theorem hufCodes_legalFrom (s : State) : (hufCodes s).LegalFrom s := by
  unfold hufCodes
  split
  · exact performStage_legalFrom fun _ => stageCodes_legalUpdate
  · exact .refl s

theorem hufStages_legalUpdate {s t : State} (h : hufStages s = .ok t) : s.LegalUpdate t := by
  unfold hufStages at h
  split at h
  · cases h
  · rename_i s1 hstats
    split at h
    · cases h
    · rename_i s2 hbuild
      exact ((stageStats_legalUpdate hstats).trans (stageBuild_legalUpdate hbuild)).trans (stageCodes_legalUpdate h)

theorem hufEncode_legalFrom (s : State) : (hufEncode s).LegalFrom s := by
  unfold hufEncode
  split
  · exact stopAt_legalFrom (.refl s) _
  · split
    · exact stopAt_legalFrom (.refl s) _
    · rename_i t ht
      have hstages := hufStages_legalUpdate ht
      split
      · exact stopAt_legalFrom hstages _
      · exact .trans hstages (writeContainer_legalFrom t _)

theorem lzSegment_legalFrom (s : State) : (lzSegment s).LegalFrom s := by
  unfold lzSegment
  split
  · exact stopAt_legalFrom (.refl s) _
  · rename_i hcheck
    split
    · exact stopAt_legalFrom (.refl s) _
    · rename_i t g ht
      exact stageSegment_legalUpdate ht (checkData_inLen_le hcheck)

theorem lzEncode_legalFrom (s : State) : (lzEncode s).LegalFrom s := by
  unfold lzEncode
  split
  · exact stopAt_legalFrom (.refl s) _
  · rename_i n hcheck
    split
    · exact stopAt_legalFrom (.refl s) _
    · rename_i t g ht
      have hstage := stageSegment_legalUpdate ht (checkEncode_inLen_le hcheck)
      split
      · exact stopAt_legalFrom hstage _
      · exact .trans hstage (writeContainer_legalFrom t _)

theorem hufDecode_legalFrom (s : State) : (hufDecode s).LegalFrom s := by
  have hstop := s.unspecifyDecode_legalUpdate
  unfold hufDecode
  split
  · exact stopAt_legalFrom (.refl s) _
  split
  · exact stopAt_legalFrom hstop _
  rename_i name hname
  split
  · exact stopAt_legalFrom hstop _
  rename_i pos size hsize
  split
  · exact stopAt_legalFrom (hstop.trans (State.dropCodes_legalUpdate _)) _
  rename_i codes off htable
  have hcodes (u : State) : u.LegalUpdate (u.setCodes codes) :=
    { State.LegalUpdate.refl u with codeMem := parseTable_legalUpdate htable _ }
  split
  · exact stopAt_legalFrom (hstop.trans (hcodes _)) _
  rename_i data fin hdata
  have hnameLen := parseFilename_length_le hname
  have hdataLen := (decodeSymbols_length hdata).trans_le (parseSize_le hsize)
  exact (hcodes s).trans (State.setDecoded_legalUpdate size off fin hnameLen hdataLen)

theorem lzDecode_legalFrom (s : State) : (lzDecode s).LegalFrom s := by
  have hstop := s.unspecifyDecode_legalUpdate
  unfold lzDecode
  split
  · exact stopAt_legalFrom (.refl s) _
  split
  · exact stopAt_legalFrom hstop _
  rename_i name hname
  split
  · exact stopAt_legalFrom hstop _
  rename_i pos size hsize
  split
  · exact stopAt_legalFrom hstop _
  rename_i off w hw
  split
  · exact stopAt_legalFrom s.unspecifyReplay_legalUpdate _
  rename_i r hr
  have hnameLen := parseFilename_length_le hname
  have hmax := parseSize_le hsize
  obtain ⟨hnum, hcount⟩ := replay_dict hr .nil (Nat.le_refl _) (Nat.zero_le _)
  have hdict : s.LegalUpdate (s.setReplayed w r.dict) :=
    { State.LegalUpdate.refl s with dictMem := hnum.legalUpdate (by omega) }
  exact hdict.trans (State.setDecoded_legalUpdate size off r.pos hnameLen ((replay_data_length hr).trans_le hmax))

/-- Every command that completes has made a legal update. -/
theorem exec_legalUpdate {i : Instr} {s t : State} (h : exec i s = .next t) : s.LegalUpdate t :=
  match i, h with
  | .nop, h => finish_legalUpdate (p := .done s) (.refl s) h
  | .bpReset, h => finish_legalUpdate (bpReset_legalFrom s) h
  | .bpPut, h => finish_legalUpdate (bpPut_legalFrom s) h
  | .bpFlush, h => finish_legalUpdate (bpFlush_legalFrom s) h
  | .brGetbit, h => finish_legalUpdate (brGetbit_legalFrom s) h
  | .brGetbits, h => finish_legalUpdate (brGetbits_legalFrom s) h
  | .hufStats, h => finish_legalUpdate (hufStats_legalFrom s) h
  | .hufBuild, h => finish_legalUpdate (hufBuild_legalFrom s) h
  | .hufCodes, h => finish_legalUpdate (hufCodes_legalFrom s) h
  | .hufEncode, h => finish_legalUpdate (hufEncode_legalFrom s) h
  | .hufDecode, h => finish_legalUpdate (hufDecode_legalFrom s) h
  | .lzSegment, h => finish_legalUpdate (lzSegment_legalFrom s) h
  | .lzEncode, h => finish_legalUpdate (lzEncode_legalFrom s) h
  | .lzDecode, h => finish_legalUpdate (lzDecode_legalFrom s) h

/-- A register write touches no memory (10_state.md R31). -/
theorem hostWriteReg_legalUpdate (s : State) (i : Nat) (v : Word) : s.LegalUpdate (hostWriteReg s i v) := by
  unfold hostWriteReg
  split <;> exact { State.LegalUpdate.refl s with }

/-- A byte the host writes lies in IN or FNAME, or is dropped (20_memory.md R83). -/
theorem hostWriteByte_legalUpdate (s : State) (sp : ByteSpace) (i : Nat) (b : Byte) :
    s.LegalUpdate (hostWriteByte s sp i b) := by
  cases sp with
  | output => exact .refl s
  | input =>
    simp only [hostWriteByte]
    split
    · exact .refl s
    · exact { State.LegalUpdate.refl s with inMem := .write (by omega) }
  | fname =>
    simp only [hostWriteByte]
    split
    · exact .refl s
    · exact { State.LegalUpdate.refl s with fnameMem := .write (by omega) }

/-- Reset drops every memory (70_reset_and_hazards.md R340). -/
theorem State.platformReset_legalUpdate (s : State) : s.LegalUpdate s.platformReset :=
  ⟨rfl, .nil, .nil, .nil, .nil, .nil, .nil, .nil, .nil⟩

/-- Every step, whichever agent moves, makes a legal update. -/
theorem step_legalUpdate {s t : State} (h : step s = .next t) : s.LegalUpdate t := by
  obtain ⟨es, s', rfl, hcases⟩ := step_cases h
  have hevents : s.LegalUpdate { s with events := es } := { State.LegalUpdate.refl s with }
  refine hevents.trans ?_
  rcases hcases with rfl | ⟨-, ⟨i, -, hexec⟩ | rfl⟩ | ⟨v, rfl⟩ | rfl | ⟨-, ⟨i, v, rfl⟩ | ⟨sp, i, b, rfl⟩⟩
  · exact State.platformReset_legalUpdate _
  · exact exec_legalUpdate hexec
  · exact State.complete_legalUpdate _ _
  · exact { State.LegalUpdate.refl _ with }
  · exact .refl _
  · exact hostWriteReg_legalUpdate _ i v
  · exact hostWriteByte_legalUpdate _ sp i b

/-- Settles O56: a step is a legal update, and these keep the canonical form. -/
theorem stepKeepsMemoriesCanonical : Obligations.StepKeepsMemoriesCanonical := fun _ _ hs h =>
  ⟨(step_legalUpdate h).memoriesOk hs, (step_legalUpdate h).params⟩

/-- Settles O57: a step is a legal update, and R7 lets every memory hold what these store. -/
theorem stepKeepsMemoriesInRange : Obligations.StepKeepsMemoriesInRange := fun _ _ hP hs h =>
  (step_legalUpdate h).inRange hP hs

end Sys2Proof.Machine
end

section
/-! PROOF. The rule of each command, said once: what it can leave, with which error, before its completion
(40_command.md R161, 60_exceptions.md R313, R322). -/

namespace Sys2Proof.Machine

/-- The command before its completion, `perform` of R161. -/
def perform : Instr → State → Perf
  | .nop, s => .done s
  | .bpReset, s => bpReset s
  | .bpPut, s => bpPut s
  | .bpFlush, s => bpFlush s
  | .brGetbit, s => brGetbit s
  | .brGetbits, s => brGetbits s
  | .hufStats, s => hufStats s
  | .hufBuild, s => hufBuild s
  | .hufCodes, s => hufCodes s
  | .hufEncode, s => hufEncode s
  | .hufDecode, s => hufDecode s
  | .lzSegment, s => lzSegment s
  | .lzEncode, s => lzEncode s
  | .lzDecode, s => lzDecode s

theorem exec_eq_finish (i : Instr) (s : State) : exec i s = finish (perform i s) := by
  cases i <;> rfl

/-- Whatever the command leaves meets `p`: the error it raised, if any, and the state before the completion. -/
def Perf.Leaves (p : Option ErrCode → State → Prop) : Perf → Prop
  | .done t => p none t
  | .raised e t => p (some e) t
  | .faulted _ => True

/-- A command that goes on has completed what it left. -/
theorem exec_completes {i : Instr} {s t : State} {p : Option ErrCode → State → Prop} (hp : (perform i s).Leaves p)
    (h : exec i s = .next t) : ∃ e u, p e u ∧ t = u.complete e := by
  rw [exec_eq_finish] at h
  rcases finish_next_iff.1 h with ⟨u, hu, rfl⟩ | ⟨e, u, hu, rfl⟩
  · rw [hu] at hp; exact ⟨none, u, hp, rfl⟩
  · rw [hu] at hp; exact ⟨some e, u, hp, rfl⟩

/-! ## What a computation inside a command can raise -/

/-- The computation stopped with one of the errors `es`, or with a fault. -/
def Stop.Among (es : List ErrCode) : Stop → Prop
  | .raise e => e ∈ es
  | .fault _ => True

section
variable {s t : State} {x : Stop} {es : List ErrCode} {p : Option ErrCode → State → Prop}

theorem stopAt_leaves (hx : x.Among es) (h : ∀ e ∈ es, p (some e) t) : (stopAt t x).Leaves p := by
  cases x with
  | raise e => exact h e hx
  | fault f => trivial

theorem readRange_error {α : Type} {f : Nat → Fault} {m : Memory α} {a n : Nat} (h : readRange f m a n = .error x) :
    x.Among [] := by
  cases x with
  | raise e => exact absurd h readRange_ne_raise
  | fault g => trivial

theorem checkInMax_error (h : checkInMax s = .error x) : x.Among [.invalidArgument] := by
  rcases checkInMax_cases s with ⟨-, e⟩ | ⟨-, e⟩ <;> rw [e] at h <;> cases h
  exact List.mem_singleton_self _

theorem checkData_error (h : checkData s = .error x) : x.Among [.emptyInput, .invalidArgument] := by
  rcases checkData_cases s with ⟨-, -, e⟩ | ⟨-, e⟩ | ⟨-, -, e⟩ <;> rw [e] at h <;> cases h
  · exact List.mem_cons_self
  · exact List.mem_cons_of_mem _ List.mem_cons_self

theorem checkEncode_error (h : checkEncode s = .error x) :
    x.Among [.emptyInput, .invalidArgument, .unencodableHeader] := by
  rcases checkEncode_cases s with ⟨n, -, -, -, -, e⟩ | ⟨y, hy, e⟩ | ⟨f, e⟩ <;> rw [e] at h <;> cases h
  · exact hy
  · trivial

theorem readBits_error {pos n : Nat} (h : readBits s pos n = .error x) : x.Among [.corruptHeader] := by
  rcases readBits_cases s pos n with ⟨v, -, e⟩ | ⟨-, e⟩ | ⟨f, e⟩ <;> rw [e] at h <;> cases h
  · exact List.mem_singleton_self _
  · trivial

theorem parseFilename_error (h : parseFilename s = .error x) : x.Among [.corruptHeader, .capacityExceeded] := by
  rcases parseFilename_cases s with ⟨f, e, -⟩ | e | e | ⟨f, e⟩ <;> rw [e] at h <;> cases h
  · exact List.mem_cons_self
  · exact List.mem_cons_of_mem _ List.mem_cons_self
  · trivial

theorem parseSize_error {pos : Nat} (h : parseSize s pos = .error x) :
    x.Among [.corruptHeader, .capacityExceeded] := by
  rcases parseSize_cases s pos with ⟨q, n, e, -⟩ | e | e | ⟨f, e⟩ <;> rw [e] at h <;> cases h
  · exact List.mem_cons_self
  · exact List.mem_cons_of_mem _ List.mem_cons_self
  · trivial

theorem parseWidth_error {pos : Nat} (h : parseWidth s pos = .error x) : x.Among [.corruptHeader] := by
  rcases parseWidth_cases s pos with ⟨q, w, e, -⟩ | e | ⟨f, e⟩ <;> rw [e] at h <;> cases h
  · exact List.mem_singleton_self _
  · trivial

theorem parseTable_error {n sym pos : Nat} (h : parseTable s n sym pos = .error x) : x.Among [.corruptHeader] := by
  rcases parseTable_cases s n sym pos with ⟨c, q, e, -⟩ | e | ⟨f, e⟩ <;> rw [e] at h <;> cases h
  · exact List.mem_singleton_self _
  · trivial

theorem decodeSymbols_error {codes : Memory BitStr} {n pos : Nat} (h : decodeSymbols s codes n pos = .error x) :
    x.Among [.corruptHeader] := by
  rcases decodeSymbols_cases s codes n pos with ⟨bs, q, e, -⟩ | e | ⟨f, e⟩ <;> rw [e] at h <;> cases h
  · exact List.mem_singleton_self _
  · trivial

theorem replay_error {w size pos : Nat} (h : replay s w size size pos 0 [] = .error x) :
    x.Among [.corruptHeader] := by
  rcases replay_cases s w size size pos 0 [] (by omega) (by omega) with ⟨r, e, -⟩ | e | ⟨f, e⟩ <;>
    rw [e] at h <;> cases h
  · exact List.mem_singleton_self _
  · trivial

/-! The Huffman stages and the segmentation raise no error of the block. -/

theorem stageStats_error (h : stageStats s = .error x) : x.Among [] := by
  rcases stageStats_cases s with ⟨bs, -, e⟩ | ⟨f, e⟩ <;> rw [e] at h <;> cases h
  trivial

theorem stageBuild_error (h : stageBuild s = .error x) : x.Among [] := by
  rcases stageBuild_cases s with ⟨ws, -, -, e⟩ | ⟨f, e⟩ <;> rw [e] at h <;> cases h
  trivial

theorem stageCodes_error (h : stageCodes s = .error x) : x.Among [] := by
  rcases stageCodes_cases s with ⟨c, -, e⟩ | ⟨f, e⟩ <;> rw [e] at h <;> cases h
  trivial

theorem stageSegment_error (h : stageSegment s = .error x) : x.Among [] := by
  rcases stageSegment_cases s with ⟨bs, -, e⟩ | ⟨f, e⟩ <;> rw [e] at h <;> cases h
  trivial

/-- Three stages that succeed, one after another (43_huffman_container.md R240). -/
theorem hufStages_ok_split (h : hufStages s = .ok t) :
    ∃ s1 s2, stageStats s = .ok s1 ∧ stageBuild s1 = .ok s2 ∧ stageCodes s2 = .ok t := by
  unfold hufStages at h
  split at h
  · cases h
  · rename_i s1 hstats
    split at h
    · cases h
    · rename_i s2 hbuild
      exact ⟨s1, s2, hstats, hbuild, h⟩

theorem hufStages_error (h : hufStages s = .error x) : x.Among [] := by
  unfold hufStages at h
  split at h
  · rename_i hx; cases h; exact stageStats_error hx
  · split at h
    · rename_i hx; cases h; exact stageBuild_error hx
    · exact stageCodes_error h

theorem hufStream_error {n : Nat} (h : hufStream s n = .error x) : x.Among [] := by
  rcases hufStream_cases s n with ⟨name, table, bs, pl, -, -, -, -, e⟩ | ⟨f, e⟩ <;> rw [e] at h <;> cases h
  trivial

theorem Packer.emit_error {q : Packer} {outMax : Nat} {bs : BitStr} {e : ErrCode} (h : q.emit outMax bs = .error e) :
    e = .capacityExceeded := by
  induction bs generalizing q with
  | nil => cases h
  | cons b bs ih =>
    unfold Packer.emit at h
    split at h
    · exact ih h
    · cases h; rfl

theorem Packer.flush_error {q : Packer} {outMax : Nat} {e : ErrCode} (h : q.flush outMax = .error e) :
    e = .capacityExceeded := by
  unfold Packer.flush at h
  split at h
  · cases h
  · split at h
    · cases h; rfl
    · cases h

/-! ## The commands -/

theorem bpPut_leaves (harg : p (some .invalidArgument) s) (hfull : p (some .capacityExceeded) s)
    (hdone : ∀ q, s.packer = .ok q → q.fits s.params.outMax s.arg0.toNat = true →
      p none (s.setPacker (q.pushAll (bitsMSB (s.arg1.toNat % 2 ^ s.arg0.toNat) s.arg0.toNat)))) :
    (bpPut s).Leaves p := by
  unfold bpPut
  split
  · exact harg
  · split
    · trivial
    · rename_i q hq
      split
      · rename_i hfits; exact hdone q hq hfits
      · exact hfull

theorem bpFlush_leaves (hfull : p (some .capacityExceeded) s)
    (hdone : ∀ q r, s.packer = .ok q → q.flush s.params.outMax = .ok r → p none (s.setPacker r)) :
    (bpFlush s).Leaves p := by
  unfold bpFlush
  split
  · trivial
  · rename_i q hq
    split
    · rename_i hr; rw [Packer.flush_error hr]; exact hfull
    · rename_i r hr; exact hdone q r hq hr

theorem brRead_leaves (n : Nat) (hshort : p (some .corruptHeader) s)
    (hdone : ∀ v pos, p none (State.setCursor { s with result := v } pos)) : (brRead s n).Leaves p := by
  unfold brRead
  split
  · trivial
  · split
    · rename_i hx; exact stopAt_leaves (readBits_error hx) (by simpa using hshort)
    · exact hdone _ _

theorem brGetbit_leaves (harg : p (some .invalidArgument) s) (hshort : p (some .corruptHeader) s)
    (hdone : ∀ v pos, p none (State.setCursor { s with result := v } pos)) : (brGetbit s).Leaves p := by
  unfold brGetbit
  split
  · rename_i hx; exact stopAt_leaves (checkInMax_error hx) (by simpa using harg)
  · exact brRead_leaves 1 hshort hdone

theorem brGetbits_leaves (harg : p (some .invalidArgument) s) (hshort : p (some .corruptHeader) s)
    (hdone : ∀ v pos, p none (State.setCursor { s with result := v } pos)) : (brGetbits s).Leaves p := by
  unfold brGetbits
  split
  · rename_i hx; exact stopAt_leaves (checkInMax_error hx) (by simpa using harg)
  · split
    · exact harg
    · exact brRead_leaves _ hshort hdone

/-- A stage that raises no error, as a whole command. -/
theorem performStage_leaves {r : Except Stop State} (hstop : ∀ x, r = .error x → x.Among [])
    (hdone : ∀ t, r = .ok t → p none t) : (performStage s r).Leaves p := by
  cases r with
  | ok t => exact hdone t rfl
  | error x => exact stopAt_leaves (hstop x rfl) (by simp)

theorem hufStats_leaves (harg : ∀ e ∈ [ErrCode.emptyInput, .invalidArgument], p (some e) s)
    (hdone : ∀ t, stageStats s = .ok t → p none t) : (hufStats s).Leaves p := by
  unfold hufStats
  split
  · rename_i hx; exact stopAt_leaves (checkData_error hx) harg
  · exact performStage_leaves (fun _ => stageStats_error) hdone

theorem hufBuild_leaves (hstate : p (some .invalidState) s) (hdone : ∀ t, stageBuild s = .ok t → p none t) :
    (hufBuild s).Leaves p := by
  unfold hufBuild
  split
  · exact performStage_leaves (fun _ => stageBuild_error) hdone
  · exact hstate

theorem hufCodes_leaves (hstate : p (some .invalidState) s)
    (hdone : ∀ t, s.status.treeValid = true → stageCodes s = .ok t → p none t) : (hufCodes s).Leaves p := by
  unfold hufCodes
  split
  · rename_i htree; exact performStage_leaves (fun _ => stageCodes_error) fun t => hdone t htree
  · exact hstate

/-- The WRITE stage of an encoder. -/
theorem writeContainer_leaves {bits : BitStr} (hfull : p (some .capacityExceeded) s.unspecifyEncode)
    (hdone : ∀ q, writeContainer s bits = .done (s.setPacker q) → p none (s.setPacker q)) :
    (writeContainer s bits).Leaves p := by
  unfold writeContainer at hdone ⊢
  split
  · rename_i hx; rw [Packer.emit_error hx]; exact hfull
  · split
    · rename_i hx; rw [Packer.flush_error hx]; exact hfull
    · rename_i q hq
      simp only [*] at hdone
      exact hdone _ rfl

theorem hufEncode_leaves
    (harg : ∀ e ∈ [ErrCode.emptyInput, .invalidArgument, .unencodableHeader], p (some e) s)
    (hwrite : ∀ t bits, hufStages s = .ok t → (writeContainer t bits).Leaves p) : (hufEncode s).Leaves p := by
  unfold hufEncode
  split
  · rename_i hx; exact stopAt_leaves (checkEncode_error hx) harg
  · split
    · rename_i hx; exact stopAt_leaves (hufStages_error hx) (by simp)
    · rename_i t ht
      split
      · rename_i hx; exact stopAt_leaves (hufStream_error hx) (by simp)
      · exact hwrite t _ ht

theorem lzSegment_leaves (harg : ∀ e ∈ [ErrCode.emptyInput, .invalidArgument], p (some e) s)
    (hdone : ∀ t g, stageSegment s = .ok (t, g) → p none t) : (lzSegment s).Leaves p := by
  unfold lzSegment
  split
  · rename_i hx; exact stopAt_leaves (checkData_error hx) harg
  · split
    · rename_i hx; exact stopAt_leaves (stageSegment_error hx) (by simp)
    · rename_i t g ht; exact hdone t g ht

theorem lzEncode_leaves
    (harg : ∀ e ∈ [ErrCode.emptyInput, .invalidArgument, .unencodableHeader], p (some e) s)
    (hwrite : ∀ t g bits, stageSegment s = .ok (t, g) → (writeContainer t bits).Leaves p) : (lzEncode s).Leaves p := by
  unfold lzEncode
  split
  · rename_i hx; exact stopAt_leaves (checkEncode_error hx) harg
  · split
    · rename_i hx; exact stopAt_leaves (stageSegment_error hx) (by simp)
    · rename_i t g ht
      split
      · rename_i hx; exact stopAt_leaves (readRange_error hx) (by simp)
      · exact hwrite t g _ ht

/-- HUF_DECODE fails in the check, the header fields, the table or the symbols, each with its own state (R249, R313). -/
theorem hufDecode_leaves (harg : p (some .invalidArgument) s)
    (hheader : ∀ e ∈ [ErrCode.corruptHeader, .capacityExceeded], p (some e) s.unspecifyDecode)
    (htable : p (some .corruptHeader) s.unspecifyDecode.dropCodes)
    (hsymbols : ∀ pos codes off, parseTable s 256 0 pos = .ok (codes, off) →
      p (some .corruptHeader) (s.unspecifyDecode.setCodes codes))
    (hdone : ∀ name pos pos' size codes off fin data, parseSize s pos = .ok (pos', size) →
      parseTable s 256 0 pos' = .ok (codes, off) → decodeSymbols s codes size (8 * off) = .ok (data, fin) →
      p none ((s.setCodes codes).setDecoded name size off fin data)) : (hufDecode s).Leaves p := by
  unfold hufDecode
  split
  · rename_i hx; exact stopAt_leaves (checkInMax_error hx) (by simpa using harg)
  split
  · rename_i hx; exact stopAt_leaves (parseFilename_error hx) hheader
  rename_i name _
  split
  · rename_i hx; exact stopAt_leaves (parseSize_error hx) hheader
  rename_i pos' size hsize
  split
  · rename_i hx; exact stopAt_leaves (parseTable_error hx) (by simpa using htable)
  rename_i codes off hcodes
  split
  · rename_i hx; exact stopAt_leaves (decodeSymbols_error hx) (by simpa using hsymbols pos' codes off hcodes)
  rename_i data fin hdata
  exact hdone name _ pos' size codes off fin data hsize hcodes hdata

/-- LZ_DECODE fails in the check, the header fields or the replay, each with its own state (44_lz78.md R281, R313). -/
theorem lzDecode_leaves (harg : p (some .invalidArgument) s)
    (hheader : ∀ e ∈ [ErrCode.corruptHeader, .capacityExceeded], p (some e) s.unspecifyDecode)
    (hreplay : p (some .corruptHeader) s.unspecifyReplay)
    (hdone : ∀ name pos pos' size w off r, parseSize s pos = .ok (pos', size) →
      replay s w size size (8 * off) 0 [] = .ok r →
      p none ((s.setReplayed w r.dict).setDecoded name size off r.pos r.data)) : (lzDecode s).Leaves p := by
  unfold lzDecode
  split
  · rename_i hx; exact stopAt_leaves (checkInMax_error hx) (by simpa using harg)
  split
  · rename_i hx; exact stopAt_leaves (parseFilename_error hx) hheader
  rename_i name _
  split
  · rename_i hx; exact stopAt_leaves (parseSize_error hx) hheader
  rename_i pos' size hsize
  split
  · rename_i hx; exact stopAt_leaves (parseWidth_error hx) (by simpa using hheader _ List.mem_cons_self)
  rename_i off w _
  split
  · rename_i hx; exact stopAt_leaves (replay_error hx) (by simpa using hreplay)
  rename_i r hr
  exact hdone name _ pos' size w off r hsize hr

end

end Sys2Proof.Machine
end

section
/-! PROOF. The packer state stays legal: OUT_LEN within OUT_MAX, BP_ACC below 2^BP_NBITS, OUT written up to OUT_LEN
(10_state.md R45, R51, 42_bitio.md R210). -/

namespace Sys2Proof.Machine

/-- The packer invariant with what its proof needs: OUT_MAX is a register value and OUT is canonical. -/
def State.packerLegal (s : State) : Prop := s.params.outMax < 2 ^ 32 ∧ Memory.wf s.outMem ∧ s.packerOk

/-- The packer that the registers of a legal state hold. -/
theorem State.packerLegal.packer_ok {s : State} {p : Packer} (hs : s.packerLegal) (h : s.packer = .ok p) :
    p.ok ∧ p.outLen ≤ s.params.outMax := by
  obtain ⟨-, hwf, hpacker⟩ := hs
  rcases hpacker with ⟨-, -, hnb⟩ | ⟨len, hlen, acc, hacc, nb, hnb, hle, hlt, hlisted⟩
  · simp [State.packer, needReg, hnb] at h
  · rw [Option.mem_def] at hlen hacc hnb
    simp only [State.packer, needReg, hlen, hacc, hnb] at h
    cases h
    exact ⟨⟨nb.isLt, hlt, hlisted, hwf⟩, hle⟩

/-- Storing back a legal packer that fits OUT. -/
theorem State.setPacker_packerLegal {s : State} {p : Packer} (hmax : s.params.outMax < 2 ^ 32) (hp : p.ok)
    (hle : p.outLen ≤ s.params.outMax) : (s.setPacker p).packerLegal := by
  obtain ⟨hnb, hacc, hlisted, hwf⟩ := hp
  have hpow : 2 ^ p.nbits ≤ 2 ^ 7 := Nat.pow_le_pow_right (by omega) (by omega)
  have elen : (BitVec.ofNat 32 p.outLen).toNat = p.outLen := Nat.mod_eq_of_lt (by omega)
  have eacc : (BitVec.ofNat 7 p.acc).toNat = p.acc := Nat.mod_eq_of_lt (by omega)
  have enb : (BitVec.ofNat 3 p.nbits).toNat = p.nbits := Nat.mod_eq_of_lt (by omega)
  exact ⟨hmax, hwf, .inr ⟨_, rfl, _, rfl, _, rfl, by rwa [elen], by rwa [eacc, enb], by rwa [elen]⟩⟩

theorem State.unspecifyPacker_packerLegal {s : State} (hs : s.packerLegal) : s.unspecifyPacker.packerLegal :=
  have ⟨hmax, _, _⟩ := hs
  ⟨hmax, .nil, .inl ⟨rfl, rfl, rfl⟩⟩

theorem State.resetWith_packerOk (P : Params) : (State.resetWith P).packerOk :=
  .inr ⟨0, rfl, 0, rfl, 0, rfl, Nat.zero_le _, Nat.one_pos, fun _ hi => absurd hi (Nat.not_lt_zero _)⟩

theorem State.resetWith_packerLegal {P : Params} (h : P.outMax < 2 ^ 32) : (State.resetWith P).packerLegal :=
  ⟨h, .nil, State.resetWith_packerOk P⟩

/-- The data a decoder stores is OUT[0..OUT_LEN) (43_huffman_container.md R249, 44_lz78.md R281). -/
theorem State.setDecoded_packerLegal {s : State} {name data : List Byte} {size off pos : Nat} (hs : s.packerLegal)
    (hdata : data.length = size) (hle : size ≤ s.params.outMax) :
    (s.setDecoded name size off pos data).packerLegal := by
  obtain ⟨hmax, hwf, -⟩ := hs
  have elen : (BitVec.ofNat 32 size).toNat = size := Nat.mod_eq_of_lt (by omega)
  refine ⟨hmax, Memory.wf_writeList hwf 0 data,
    .inr ⟨_, rfl, 0, rfl, 0, rfl, by rwa [elen], Nat.one_pos, fun i hi => ?_⟩⟩
  rw [elen] at hi
  rw [State.setDecoded_outMem, Memory.read_writeList hwf, if_pos (by omega)]
  simp [hdata, hi]

/-! The stages leave the packer alone (30_encoding.md R112). -/

theorem stageStats_packerLegal {s t : State} (hs : s.packerLegal) (h : stageStats s = .ok t) : t.packerLegal := by
  rcases stageStats_cases s with ⟨bs, -, e⟩ | ⟨f, e⟩ <;> rw [e] at h <;> cases h
  exact hs

theorem stageBuild_packerLegal {s t : State} (hs : s.packerLegal) (h : stageBuild s = .ok t) : t.packerLegal := by
  rcases stageBuild_cases s with ⟨ws, -, -, e⟩ | ⟨f, e⟩ <;> rw [e] at h <;> cases h
  exact hs

theorem stageCodes_packerLegal {s t : State} (hs : s.packerLegal) (h : stageCodes s = .ok t) : t.packerLegal := by
  rcases stageCodes_cases s with ⟨c, -, e⟩ | ⟨f, e⟩ <;> rw [e] at h <;> cases h
  exact hs

theorem stageSegment_packerLegal {s t : State} {g : Seg} (hs : s.packerLegal) (h : stageSegment s = .ok (t, g)) :
    t.packerLegal := by
  rcases stageSegment_cases s with ⟨bs, -, e⟩ | ⟨f, e⟩ <;> rw [e] at h <;> cases h
  exact hs

theorem hufStages_packerLegal {s t : State} (hs : s.packerLegal) (h : hufStages s = .ok t) : t.packerLegal := by
  obtain ⟨s1, s2, hstats, hbuild, hcodes⟩ := hufStages_ok_split h
  exact stageCodes_packerLegal (stageBuild_packerLegal (stageStats_packerLegal hs hstats) hbuild) hcodes

theorem writeContainer_packerLegal {s : State} (hs : s.packerLegal) (bits : BitStr) :
    (writeContainer s bits).Leaves fun _ t => t.packerLegal := by
  have ⟨hmax, hwf, _⟩ := hs
  have hunspec : s.unspecifyEncode.packerLegal := State.unspecifyPacker_packerLegal (s := s) hs
  refine writeContainer_leaves hunspec fun q hq => ?_
  rcases writeContainer_spec hwf bits with ⟨-, e⟩ | ⟨hfit, q', e, hok, hlen, -⟩
  · rw [e] at hq; cases hq
  · rw [← Perf.done.inj (e.symm.trans hq)]
    exact State.setPacker_packerLegal hmax hok (hlen.trans_le hfit)

theorem perform_packerLegal {s : State} (hs : s.packerLegal) (i : Instr) :
    (perform i s).Leaves fun _ t => t.packerLegal := by
  have ⟨hmax, hwf, _⟩ := hs
  have hunspec := State.unspecifyPacker_packerLegal (s := s) hs
  cases i with
  | nop => exact hs
  | bpReset => exact State.setPacker_packerLegal hmax (Packer.ok_empty hwf) (Nat.zero_le _)
  | bpPut =>
    refine bpPut_leaves hs hs fun q hq hfits => ?_
    obtain ⟨hok, -, hlen, -⟩ := Packer.pushAll_spec (hs.packer_ok hq).1
      (bitsMSB (s.arg1.toNat % 2 ^ s.arg0.toNat) s.arg0.toNat)
    rw [bitsMSB_length] at hlen
    exact State.setPacker_packerLegal hmax hok (hlen.trans_le (of_decide_eq_true hfits))
  | bpFlush =>
    refine bpFlush_leaves hs fun q r hq hr => ?_
    obtain ⟨hok, hle⟩ := hs.packer_ok hq
    rcases Packer.flush_spec hok s.params.outMax hle with ⟨-, e⟩ | ⟨-, -, e⟩ | ⟨-, hlt, r', e, hok', hlen, -⟩ <;>
      rw [e] at hr <;> cases hr
    · exact State.setPacker_packerLegal hmax hok hle
    · exact State.setPacker_packerLegal hmax hok' (by omega)
  | brGetbit => exact brGetbit_leaves hs hs fun _ _ => hs
  | brGetbits => exact brGetbits_leaves hs hs fun _ _ => hs
  | hufStats => exact hufStats_leaves (fun _ _ => hs) fun _ => stageStats_packerLegal hs
  | hufBuild => exact hufBuild_leaves hs fun _ => stageBuild_packerLegal hs
  | hufCodes => exact hufCodes_leaves hs fun _ _ => stageCodes_packerLegal hs
  | hufEncode =>
    exact hufEncode_leaves (fun _ _ => hs) fun _ bits ht =>
      writeContainer_packerLegal (hufStages_packerLegal hs ht) bits
  | hufDecode =>
    refine hufDecode_leaves hs (fun _ _ => hunspec) hunspec (fun _ _ _ _ => hunspec) ?_
    intro name pos pos' size codes off fin data hsize _ hdata
    have hle := parseSize_le hsize
    exact State.setDecoded_packerLegal (s := s.setCodes codes) hs (decodeSymbols_length hdata) hle
  | lzSegment => exact lzSegment_leaves (fun _ _ => hs) fun _ _ => stageSegment_packerLegal hs
  | lzEncode =>
    exact lzEncode_leaves (fun _ _ => hs) fun _ _ bits ht =>
      writeContainer_packerLegal (stageSegment_packerLegal hs ht) bits
  | lzDecode =>
    refine lzDecode_leaves hs (fun _ _ => hunspec) hunspec ?_
    intro name pos pos' size w off r hsize hr
    have hle := parseSize_le hsize
    exact State.setDecoded_packerLegal (s := s.setReplayed w r.dict) hs (replay_data_length hr) hle

/-- The host cannot write the packer registers or OUT (10_state.md R31, 20_memory.md R80). -/
theorem hostWriteReg_packerLegal {s : State} (hs : s.packerLegal) (i : Nat) (v : Word) :
    (hostWriteReg s i v).packerLegal := by
  unfold hostWriteReg
  split <;> exact hs

theorem hostWriteByte_packerLegal {s : State} (hs : s.packerLegal) (sp : ByteSpace) (i : Nat) (b : Byte) :
    (hostWriteByte s sp i b).packerLegal := by
  unfold hostWriteByte
  split
  · split <;> exact hs
  · split <;> exact hs
  · exact hs

theorem step_packerLegal {s t : State} (hs : s.packerLegal) (h : step s = .next t) : t.packerLegal := by
  obtain ⟨es, s', rfl, hcases⟩ := step_cases h
  rcases hcases with rfl | ⟨-, ⟨i, -, hexec⟩ | rfl⟩ | ⟨v, rfl⟩ | rfl | ⟨-, ⟨i, v, rfl⟩ | ⟨sp, i, b, rfl⟩⟩
  · exact State.resetWith_packerLegal hs.1
  · obtain ⟨e, u, hu, rfl⟩ := exec_completes (perform_packerLegal (s := { s with events := es }) hs i) hexec
    exact hu
  · exact hs
  · exact hs
  · exact hs
  · exact hostWriteReg_packerLegal (s := { s with events := es }) hs i v
  · exact hostWriteByte_packerLegal (s := { s with events := es }) hs sp i b

/-- R7 makes OUT_MAX a register value. -/
theorem Params.outMax_lt {P : Params} (h : P.wf = true) : P.outMax < 2 ^ 32 := by
  simp only [Params.wf, Params.outMaxOk, Bool.and_eq_true, decide_eq_true_eq] at h
  omega

/-- Settles O59: the packer state a step leaves is legal, OUT staying canonical as the packer stores its bytes. -/
theorem stepKeepsPackerLegal : Obligations.StepKeepsPackerLegal := fun _ _ hP hwf hs h =>
  have ⟨_, _, hpacker⟩ := step_packerLegal ⟨Params.outMax_lt hP, hwf, hs⟩ h
  hpacker

end Sys2Proof.Machine
end

section
/-! PROOF. The entries of the dictionary name earlier ones (10_state.md R61). -/

namespace Sys2Proof.Machine

/-- A numbered dictionary has no entry beyond D. -/
theorem Dict.Numbered.le_count {d : Dict} (h : d.Numbered) {x : Nat × Entry} (hx : x ∈ d) : x.1 ≤ d.count := by
  have := Memory.index_of_indices h.indices (List.mem_reverse.2 hx)
  omega

theorem Dict.find_mem {d : Dict} {cur k : Nat} {b : Byte} (h : d.find cur b = some k) : ∃ e, (k, e) ∈ d := by
  induction d with
  | nil => cases h
  | cons x d ih =>
    obtain ⟨j, e⟩ := x
    unfold Dict.find at h
    split at h
    · cases h; exact ⟨e, List.mem_cons_self⟩
    · obtain ⟨e', he⟩ := ih h
      exact ⟨e', List.mem_cons_of_mem _ he⟩

/-- Registering an entry that names one registered already. -/
theorem dictOk_cons {d : Dict} (hd : dictOk d) {e : Entry} (he : e.pfx.toNat ≤ d.count) :
    dictOk ((d.count + 1, e) :: d) := by
  intro x hx
  rcases List.mem_cons.1 hx with rfl | hx
  · exact Nat.lt_succ_of_le he
  · exact hd x hx

theorem dictOk_reverse {d : Dict} (hd : dictOk d) : dictOk d.reverse := fun x hx => hd x (List.mem_reverse.1 hx)

/-- A 32-bit field holds no more than the number stored in it. -/
theorem toNat_ofNat_le (w n : Nat) : (BitVec.ofNat w n).toNat ≤ n := Nat.mod_le _ _

/-- The segmenter's dictionary names earlier entries, and its candidate is a registered one (R271). -/
structure Seg.Earlier (g : Seg) : Prop where
  numbered : g.dict.Numbered
  entries : dictOk g.dict
  candidate : g.cur ≤ g.dict.count

theorem Seg.earlier_start : Seg.start.Earlier := ⟨.nil, by simp [Seg.start], Nat.le_refl _⟩

theorem Seg.Earlier.step {g : Seg} (h : g.Earlier) (b : Byte) : (g.step b).Earlier := by
  obtain ⟨hnum, hent, hcand⟩ := h
  unfold Seg.step
  split
  · rename_i k hk
    obtain ⟨e, he⟩ := Dict.find_mem hk
    exact ⟨hnum, hent, hnum.le_count he⟩
  · exact ⟨hnum.cons _, dictOk_cons hent ((toNat_ofNat_le 32 g.cur).trans hcand), Nat.zero_le _⟩

theorem Seg.Earlier.run {g : Seg} (h : g.Earlier) (bs : List Byte) : (g.run bs).Earlier := by
  induction bs generalizing g with
  | nil => exact h
  | cons b bs ih => exact ih (h.step b)

/-- One turn of a replay that succeeds leaves the dictionary or registers a token that names a registered entry (R281,
R285). -/
theorem replay_succ_dict {s : State} {w size n pos out : Nat} {d : Dict} {r : Replayed}
    (h : replay s w size (n + 1) pos out d = .ok r) :
    r.dict = d ∨ ∃ (e : Entry) (pos' out' : Nat) (d' : Dict) (r' : Replayed), e.pfx.toNat ≤ d.count ∧
      (d' = (d.count + 1, e) :: d ∨ d' = d) ∧ replay s w size n pos' out' d' = .ok r' ∧ r.dict = r'.dict := by
  unfold replay at h
  split at h
  · cases h; exact .inl rfl
  split at h
  · cases h
  rename_i p _
  split at h
  · cases h
  rename_i c _
  rcases segmentOf_cases d p (BitVec.ofNat 8 c) with ⟨seg, hseg, -, hp⟩ | ⟨-, hseg⟩ <;> simp only [hseg] at h
  · split at h
    · cases h
    split at h
    · cases h
    rename_i r' hr'
    cases h
    refine .inr ⟨Entry.mk (BitVec.ofNat 32 p) (BitVec.ofNat 8 c), _, _, _, r',
      (toNat_ofNat_le 32 p).trans hp, ?_, hr', rfl⟩
    split
    · exact .inl rfl
    · exact .inr rfl
  · cases h

theorem replay_dictOk {s : State} {w size n pos out : Nat} {d : Dict} {r : Replayed}
    (h : replay s w size n pos out d = .ok r) (hd : dictOk d) : dictOk r.dict := by
  induction n generalizing pos out d r with
  | zero => cases h; exact hd
  | succ n ih =>
    rcases replay_succ_dict h with e | ⟨e, pos', out', d', r', he, rfl | rfl, hr', hdict⟩
    · rwa [e]
    · rw [hdict]; exact ih hr' (dictOk_cons hd he)
    · rw [hdict]; exact ih hr' hd

end Sys2Proof.Machine
end

section
/-! PROOF. The validity flags stay true: a flag at 1 covers written elements, a flag at 0 leaves none specified
(10_state.md R40, R61, 41_huffman_tree.md R185). -/

namespace Sys2Proof.Machine

/-! ## What a stage stores is exactly what its flag covers -/

theorem Memory.exactly_of_indices {α : Type} {m : Memory α} {a n : Nat} (h : m.map (fun x => x.1) = List.range' a n) :
    Memory.exactly m a n := by
  refine ⟨fun i hi => ?_, fun x hx => Memory.index_of_indices h hx⟩
  have hlen : m.length = n := by simpa using congrArg List.length h
  rw [Memory.read_of_indices h i hi, List.getElem?_eq_getElem (by omega)]
  rfl

theorem Memory.exactly_writeList_nil {α : Type} (a : Nat) (vs : List α) :
    Memory.exactly (Memory.writeList [] a vs) a vs.length := by
  refine ⟨fun i hi => ?_, fun x hx => (Memory.index_of_mem_writeList hx).resolve_right (List.not_mem_nil)⟩
  rw [Memory.read_writeList .nil, if_pos (by omega), Nat.add_sub_cancel_left, List.getElem?_eq_getElem hi]
  rfl

/-- On a tree the code stage lists exactly the 256 symbols (R190). -/
theorem stageCodes_exactly {s t : State} (htree : treeOk s.nodeMem) (hroot : s.root = 510) (h : stageCodes s = .ok t) :
    ∃ c, t = { s with codeMem := c, status := { s.status with codesValid := true } } ∧ Memory.exactly c 0 256 := by
  obtain ⟨c, hok, -, hall, -⟩ := stageCodes_ok htree hroot
  rw [hok] at h
  cases h
  rcases stageCodes_cases s with ⟨c', hc, e⟩ | ⟨f, e⟩ <;> rw [hok] at e <;> cases e
  have hstored := (assignCodes_legalUpdate hc (Nat.le_refl _)).stores
  refine ⟨c, rfl, fun i hi => by rw [Nat.zero_add]; exact hall i hi, fun x hx => ?_⟩
  obtain ⟨hlt, -⟩ := (hstored x hx).resolve_left List.not_mem_nil
  exact ⟨Nat.zero_le _, by omega⟩

/-- The bytes of a number bound it. -/
theorem beVal_lt (bs : List Byte) : beVal bs < 256 ^ bs.length := by
  induction bs using List.reverseRecOn with
  | nil => exact Nat.one_pos
  | append_singleton bs b ih =>
    have hb := b.isLt
    have e : beVal (bs ++ [b]) = 256 * beVal bs + b.toNat := by simp [beVal]
    rw [e, List.length_append, List.length_singleton, Nat.pow_succ]
    omega

/-- A size field of four bytes is a register value (43_huffman_container.md R251). -/
theorem parseSize_lt {s : State} {pos p size : Nat} (h : parseSize s pos = .ok (p, size)) : size < 2 ^ 32 := by
  unfold parseSize at h
  split at h
  · cases h
  · rename_i bs hbs
    obtain ⟨-, -, hlen, -⟩ := scanField_ok hbs (Nat.zero_le _)
    have hval := (beVal_lt bs).trans_le (Nat.pow_le_pow_right (by omega) (by omega : bs.length ≤ 4))
    split at h
    · cases h
    split at h
    · cases h
    cases h
    exact hval

/-! ## The stages -/

theorem State.flagsOk_resetWith (P : Params) : (State.resetWith P).flagsOk := by
  simp [State.flagsOk, State.resetWith, Status.reset]

theorem State.flagsOk_tree {s : State} (hs : s.flagsOk) (h : s.status.treeValid = true) :
    treeOk s.nodeMem ∧ s.root = 510 := by
  obtain ⟨-, htree, -⟩ := hs
  rwa [if_pos h] at htree

theorem stageStats_flagsOk {s t : State} (hs : s.flagsOk) (h : stageStats s = .ok t) : t.flagsOk := by
  rcases stageStats_cases s with ⟨bs, -, e⟩ | ⟨f, e⟩ <;> rw [e] at h <;> cases h
  obtain ⟨-, htree, hcodes, htoks, hdict⟩ := hs
  exact ⟨(if_pos rfl).mpr (Memory.exactly_of_indices (freqTable_indices bs)), htree, hcodes, htoks, hdict⟩

theorem stageBuild_flagsOk {s t : State} (hs : s.flagsOk) (h : stageBuild s = .ok t) :
    t.flagsOk ∧ treeOk t.nodeMem ∧ t.root = 510 := by
  rcases stageBuild_cases s with ⟨ws, hws, -, e⟩ | ⟨f, e⟩ <;> rw [e] at h <;> cases h
  obtain ⟨hfreq, -, hcodes, htoks, hdict⟩ := hs
  have htree := (treeOk_buildTree hws).1
  exact ⟨⟨hfreq, (if_pos rfl).mpr ⟨htree, rfl⟩, hcodes, htoks, hdict⟩, htree, rfl⟩

theorem stageCodes_flagsOk {s t : State} (hs : s.flagsOk) (htree : treeOk s.nodeMem) (hroot : s.root = 510)
    (h : stageCodes s = .ok t) : t.flagsOk := by
  obtain ⟨c, rfl, hc⟩ := stageCodes_exactly htree hroot h
  obtain ⟨hfreq, htree, -, htoks, hdict⟩ := hs
  exact ⟨hfreq, htree, (if_pos rfl).mpr hc, htoks, hdict⟩

theorem hufStages_flagsOk {s t : State} (hs : s.flagsOk) (h : hufStages s = .ok t) : t.flagsOk := by
  obtain ⟨s1, s2, hstats, hbuild, hcodes⟩ := hufStages_ok_split h
  obtain ⟨hs2, htree, hroot⟩ := stageBuild_flagsOk (stageStats_flagsOk hs hstats) hbuild
  exact stageCodes_flagsOk hs2 htree hroot hcodes

/-- DICT and TOK after the segmentation of IN: no more entries or tokens than IN has bytes (44_lz78.md R274). -/
theorem stageSegment_flagsOk {s t : State} {g : Seg} (hs : s.flagsOk) (h : stageSegment s = .ok (t, g)) :
    t.flagsOk := by
  rcases stageSegment_cases s with ⟨bs, ⟨hlen, -⟩, e⟩ | ⟨f, e⟩ <;> rw [e] at h <;> cases h
  obtain ⟨hfreq, htree, hcodes, -, -⟩ := hs
  obtain ⟨hnum, hcount, hbytes⟩ := Seg.after_start.run bs
  have hent := (Seg.earlier_start.run bs).entries
  have hin := s.inLen.isLt
  have hle := (Seg.start.run bs).tokens_length_le
  have etoks : (BitVec.ofNat 32 (Seg.start.run bs).tokens.length).toNat = (Seg.start.run bs).tokens.length :=
    Nat.mod_eq_of_lt (by omega)
  have edict : (BitVec.ofNat 32 (Seg.start.run bs).dict.count).toNat = (Seg.start.run bs).dict.count :=
    Nat.mod_eq_of_lt (by omega)
  refine ⟨hfreq, htree, hcodes, (if_pos rfl).mpr ?_, (if_pos rfl).mpr ⟨rfl, _, rfl, ?_, dictOk_reverse hent⟩⟩
  · rw [State.setSegments_tokenCount, etoks]
    exact Memory.exactly_writeList_nil 0 _
  · rw [edict]
    exact Memory.exactly_of_indices hnum.indices

/-- DICT after a replay: no more entries than the size says bytes (R284). -/
theorem State.setReplayed_flagsOk {s : State} {w size pos : Nat} {r : Replayed} (hs : s.flagsOk) (hsize : size < 2 ^ 32)
    (h : replay s w size size pos 0 [] = .ok r) : (s.setReplayed w r.dict).flagsOk := by
  obtain ⟨hfreq, htree, hcodes, htoks, -⟩ := hs
  obtain ⟨hnum, hcount⟩ := replay_dict h .nil (Nat.le_refl _) (Nat.zero_le _)
  have hent := replay_dictOk h (by simp)
  have edict : (BitVec.ofNat 32 r.dict.count).toNat = r.dict.count := Nat.mod_eq_of_lt (by omega)
  refine ⟨hfreq, htree, hcodes, htoks, (if_pos rfl).mpr ⟨rfl, _, rfl, ?_, dictOk_reverse hent⟩⟩
  rw [edict]
  exact Memory.exactly_of_indices hnum.indices

theorem State.unspecifyReplay_flagsOk {s : State} (hs : s.flagsOk) : s.unspecifyReplay.flagsOk := by
  obtain ⟨hfreq, htree, hcodes, htoks, -⟩ := hs
  exact ⟨hfreq, htree, hcodes, htoks, (if_neg Bool.false_ne_true).mpr rfl⟩

theorem State.dropCodes_flagsOk {s : State} (hs : s.flagsOk) : s.dropCodes.flagsOk := by
  obtain ⟨hfreq, htree, -, htoks, hdict⟩ := hs
  exact ⟨hfreq, htree, (if_neg Bool.false_ne_true).mpr rfl, htoks, hdict⟩

theorem State.setCodes_flagsOk {s : State} {codes : Memory BitStr} (hs : s.flagsOk)
    (hcodes : Memory.exactly codes 0 256) : (s.setCodes codes).flagsOk := by
  obtain ⟨hfreq, htree, -, htoks, hdict⟩ := hs
  exact ⟨hfreq, htree, (if_pos rfl).mpr hcodes, htoks, hdict⟩

/-- The parsed table lists exactly the 256 symbols (R252). -/
theorem parseTable_exactly {s : State} {pos off : Nat} {codes : Memory BitStr}
    (h : parseTable s 256 0 pos = .ok (codes, off)) : Memory.exactly codes 0 256 := by
  rcases parseTable_cases s 256 0 pos with ⟨c, p, e, hidx, -⟩ | e | ⟨f, e⟩ <;> rw [e] at h <;> cases h
  exact Memory.exactly_of_indices hidx

/-! ## The commands and the step -/

theorem writeContainer_flagsOk {s : State} (hs : s.flagsOk) (bits : BitStr) :
    (writeContainer s bits).Leaves fun _ t => t.flagsOk :=
  writeContainer_leaves hs fun _ _ => hs

theorem perform_flagsOk {s : State} (hs : s.flagsOk) (i : Instr) : (perform i s).Leaves fun _ t => t.flagsOk := by
  cases i with
  | nop => exact hs
  | bpReset => exact hs
  | bpPut => exact bpPut_leaves hs hs fun _ _ _ => hs
  | bpFlush => exact bpFlush_leaves hs fun _ _ _ _ => hs
  | brGetbit => exact brGetbit_leaves hs hs fun _ _ => hs
  | brGetbits => exact brGetbits_leaves hs hs fun _ _ => hs
  | hufStats => exact hufStats_leaves (fun _ _ => hs) fun _ => stageStats_flagsOk hs
  | hufBuild => exact hufBuild_leaves hs fun _ ht => (stageBuild_flagsOk hs ht).1
  | hufCodes =>
    refine hufCodes_leaves hs fun t hvalid => ?_
    obtain ⟨htree, hroot⟩ := State.flagsOk_tree hs hvalid
    exact stageCodes_flagsOk hs htree hroot
  | hufEncode =>
    exact hufEncode_leaves (fun _ _ => hs) fun _ bits ht => writeContainer_flagsOk (hufStages_flagsOk hs ht) bits
  | hufDecode =>
    refine hufDecode_leaves hs (fun _ _ => hs) (State.dropCodes_flagsOk (s := s.unspecifyDecode) hs) ?_ ?_
    · intro pos codes off htable
      exact State.setCodes_flagsOk (s := s.unspecifyDecode) hs (parseTable_exactly htable)
    · intro name pos pos' size codes off fin data _ htable _
      exact State.setCodes_flagsOk (s := s) hs (parseTable_exactly htable)
  | lzSegment => exact lzSegment_leaves (fun _ _ => hs) fun _ _ => stageSegment_flagsOk hs
  | lzEncode =>
    exact lzEncode_leaves (fun _ _ => hs) fun _ _ bits ht => writeContainer_flagsOk (stageSegment_flagsOk hs ht) bits
  | lzDecode =>
    refine lzDecode_leaves hs (fun _ _ => hs) (State.unspecifyReplay_flagsOk hs) ?_
    intro name pos pos' size w off r hsize hr
    exact State.setReplayed_flagsOk hs (parseSize_lt hsize) hr

/-- The host cannot write what a flag covers (10_state.md R31, 20_memory.md R80). -/
theorem hostWriteReg_flagsOk {s : State} (hs : s.flagsOk) (i : Nat) (v : Word) : (hostWriteReg s i v).flagsOk := by
  unfold hostWriteReg
  split <;> exact hs

theorem hostWriteByte_flagsOk {s : State} (hs : s.flagsOk) (sp : ByteSpace) (i : Nat) (b : Byte) :
    (hostWriteByte s sp i b).flagsOk := by
  unfold hostWriteByte
  split
  · split <;> exact hs
  · split <;> exact hs
  · exact hs

/-- Settles O60: every command's stages leave their flags true, and nothing else writes what a flag covers. -/
theorem stepKeepsFlagsTrue : Obligations.StepKeepsFlagsTrue := by
  intro s t hs h
  obtain ⟨es, s', rfl, hcases⟩ := step_cases h
  rcases hcases with rfl | ⟨-, ⟨i, -, hexec⟩ | rfl⟩ | ⟨v, rfl⟩ | rfl | ⟨-, ⟨i, v, rfl⟩ | ⟨sp, i, b, rfl⟩⟩
  · exact State.flagsOk_resetWith s.params
  · obtain ⟨e, u, hu, rfl⟩ := exec_completes (perform_flagsOk (s := { s with events := es }) hs i) hexec
    exact hu
  · exact hs
  · exact hs
  · exact hs
  · exact hostWriteReg_flagsOk (s := { s with events := es }) hs i v
  · exact hostWriteByte_flagsOk (s := { s with events := es }) hs sp i b

end Sys2Proof.Machine
end

section
/-! PROOF. STATUS stays legal: an issue and a completion write it whole, and nothing else writes BUSY, DONE, ERR or
ERR_CODE (10_state.md R36 to R39). -/

namespace Sys2Proof.Machine

/-- What a command can raise is what its row of R322 lists (60_exceptions.md R322). -/
theorem perform_codes (i : Instr) (s : State) :
    (perform i s).Leaves fun e _ => completionCode e ∈ possibleCodes i := by
  have hwrite (t : State) (bits : BitStr) :
      (writeContainer t bits).Leaves fun e _ => completionCode e ∈ possibleCodes .hufEncode :=
    writeContainer_leaves (by decide) fun _ _ => by decide
  cases i with
  | nop => exact List.mem_singleton_self _
  | bpReset => exact List.mem_singleton_self _
  | bpPut => exact bpPut_leaves (by decide) (by decide) fun _ _ _ => by decide
  | bpFlush => exact bpFlush_leaves (by decide) fun _ _ _ _ => by decide
  | brGetbit => exact brGetbit_leaves (by decide) (by decide) fun _ _ => by decide
  | brGetbits => exact brGetbits_leaves (by decide) (by decide) fun _ _ => by decide
  | hufStats => exact hufStats_leaves (by decide) fun _ _ => by decide
  | hufBuild => exact hufBuild_leaves (by decide) fun _ _ => by decide
  | hufCodes => exact hufCodes_leaves (by decide) fun _ _ _ => by decide
  | hufEncode => exact hufEncode_leaves (by decide) fun t bits _ => hwrite t bits
  | hufDecode =>
    exact hufDecode_leaves (by decide) (by decide) (by decide) (fun _ _ _ _ => by decide)
      fun _ _ _ _ _ _ _ _ _ _ _ => by decide
  | lzSegment => exact lzSegment_leaves (by decide) fun _ _ _ => by decide
  | lzEncode => exact lzEncode_leaves (by decide) fun t _ bits _ => hwrite t bits
  | lzDecode => exact lzDecode_leaves (by decide) (by decide) (by decide) fun _ _ _ _ _ _ _ _ _ => by decide

/-- A code of R322 is one the block writes (R39). -/
theorem possibleCodes_subset (i : Instr) : possibleCodes i ⊆ [0, 2, 4, 5, 6, 7, 8, 9] := by
  cases i <;> decide

/-- A completion leaves a legal STATUS, whatever it was, if the block writes the code (R37 to R39). -/
theorem Status.complete_legal (st : Status) {e : Option ErrCode}
    (he : completionCode e ∈ ([0, 2, 4, 5, 6, 7, 8, 9] : List (BitVec 4))) : (st.complete e).legal :=
  ⟨fun h => absurd h Bool.false_ne_true, fun _ => rfl,
    by simp only [Status.complete_err, Status.complete_errCode, bne_iff_ne], he⟩

theorem Status.issue_legal (st : Status) : st.issue.legal :=
  ⟨fun _ => rfl, fun h => absurd h Bool.false_ne_true, by simp, List.mem_cons_self⟩

theorem Status.reset_legal : Status.reset.legal := by decide

/-- The host writes STATUS only by issuing a command (10_state.md R32, 40_command.md R160). -/
theorem hostWriteReg_status (s : State) (i : Nat) (v : Word) :
    (hostWriteReg s i v).status = s.status ∨ (hostWriteReg s i v).status = s.status.issue := by
  unfold hostWriteReg
  split
  · exact .inr rfl
  all_goals exact .inl rfl

theorem hostWriteByte_status (s : State) (sp : ByteSpace) (i : Nat) (b : Byte) :
    (hostWriteByte s sp i b).status = s.status := by
  unfold hostWriteByte
  split
  · split <;> rfl
  · split <;> rfl
  · rfl

/-- Settles O58: a reset, an issue and a completion each write a legal STATUS, and no other step changes it. -/
theorem stepKeepsStatusLegal : Obligations.StepKeepsStatusLegal := by
  intro s t hs h
  obtain ⟨es, s', rfl, hcases⟩ := step_cases h
  rcases hcases with rfl | ⟨-, ⟨i, -, hexec⟩ | rfl⟩ | ⟨v, rfl⟩ | rfl | ⟨-, ⟨i, v, rfl⟩ | ⟨sp, i, b, rfl⟩⟩
  · exact Status.reset_legal
  · obtain ⟨e, u, hu, rfl⟩ := exec_completes (perform_codes i _) hexec
    exact u.status.complete_legal (possibleCodes_subset i hu)
  · exact s.status.complete_legal (by decide)
  · exact hs
  · exact hs
  · rcases hostWriteReg_status { s with events := es } i v with e | e <;> rw [e]
    · exact hs
    · exact Status.issue_legal _
  · rw [hostWriteByte_status]
    exact hs

end Sys2Proof.Machine
end

section
/-! PROOF. What the host reads: where a place is specified, where it is UNSPECIFIED, and where there is none (10_state.md
R31, R32, R40, 20_memory.md R80 to R90, 60_exceptions.md R323). -/

namespace Sys2Proof.Machine

/-! ## Registers -/

@[simp] theorem hostReadReg_index (s : State) (r : Reg) : hostReadReg s r.index = readRegister s r := by
  cases r <;> rfl

/-- Indices from 0x12 on name no register (R32). -/
theorem regAt_reserved {i : Nat} (h : 0x12 ≤ i) : regAt i = none := by
  obtain ⟨n, rfl⟩ := Nat.exists_eq_add_of_le' h
  rfl

theorem hostReadReg_reserved (s : State) {i : Nat} (h : 0x12 ≤ i) : hostReadReg s i = .ok 0 := by
  rw [hostReadReg, regAt_reserved h]

theorem hostWriteReg_reserved (s : State) {i : Nat} (h : 0x12 ≤ i) (v : Word) : hostWriteReg s i v = s := by
  rw [hostWriteReg, regAt_reserved h]

theorem wide_some {n : Nat} {x : Option (BitVec n)} {v : BitVec n} (r : Reg) (h : x = some v) :
    wide r x = .ok (v.setWidth 32) := by
  rw [h, wide]

/-- A covered register under a flag of 1, or that holds its reset value (R40, log 11). -/
theorem covered_ok {flag : Bool} {v : Word} (r : Reg) (h : flag = true ∨ v = 0) : covered r flag v = .ok v := by
  rw [covered, if_pos]
  simpa using h

theorem readRegister_dictSize {s : State} {v : Word} (h : s.dictSize = some v) :
    readRegister s .dictSize = covered .dictSize s.status.dictValid v := by
  rw [readRegister, wide_some _ h, BitVec.setWidth_eq]

theorem readRegister_indexWidth {s : State} {v : BitVec 6} (h : s.indexWidth = some v) :
    readRegister s .indexWidth = covered .indexWidth s.status.dictValid (v.setWidth 32) := by
  rw [readRegister, wide_some _ h]

theorem covered_error {v : Word} (r : Reg) (h : v ≠ 0) : covered r false v = .error (.unspecifiedReg r) := by
  rw [covered, if_neg]
  simpa using h

/-- Widening with zeros keeps a value other than 0. -/
theorem setWidth_ne_zero {n : Nat} {v : BitVec n} (hn : n ≤ 32) (h : v ≠ 0) : v.setWidth 32 ≠ 0 := by
  intro e
  have := congrArg BitVec.toNat e
  rw [BitVec.toNat_setWidth_of_le hn] at this
  exact h (BitVec.eq_of_toNat_eq this)

theorem readRegister_unspecified {s : State} {r : Reg} (h : s.unspecified r) :
    readRegister s r = .error (.unspecifiedReg r) := by
  cases r with
  | cmd | status | arg0 | arg1 | result | inLen => exact h.elim
  | fnameLen | outLen | fileSize | bpAcc | bpNbits | brByte | brBit | payloadOff =>
    simp only [State.unspecified] at h
    simp only [readRegister, h]
    rfl
  | root =>
    obtain ⟨hflag, hroot⟩ := h
    rw [readRegister, hflag]
    exact covered_error _ (setWidth_ne_zero (by omega) hroot)
  | tokenCount =>
    obtain ⟨hflag, hcount⟩ := h
    rw [readRegister, hflag]
    exact covered_error _ hcount
  | dictSize =>
    cases hsize : s.dictSize with
    | none => simp only [readRegister, hsize]; rfl
    | some v =>
      simp only [State.unspecified, hsize, reduceCtorEq, false_or, ne_eq, Option.some.injEq] at h
      obtain ⟨hflag, hv⟩ := h
      rw [readRegister_dictSize hsize, hflag]
      exact covered_error _ hv
  | indexWidth =>
    cases hwidth : s.indexWidth with
    | none => simp only [readRegister, hwidth]; rfl
    | some v =>
      simp only [State.unspecified, hwidth, reduceCtorEq, false_or, ne_eq, Option.some.injEq] at h
      obtain ⟨hflag, hv⟩ := h
      rw [readRegister_indexWidth hwidth, hflag]
      exact covered_error _ (setWidth_ne_zero (by omega) hv)

/-! ## Bytes -/

theorem hostReadByte_beyond {s : State} {sp : ByteSpace} {i : Nat} (h : byteCount s.params sp ≤ i) :
    hostReadByte s sp i = .ok 0 := by
  cases sp <;> exact if_pos h

theorem definedByte_none {sp : ByteSpace} {m : Memory Byte} {i : Nat} (h : Memory.read m i = none) :
    definedByte sp m i = .error (.unspecifiedByte sp i) := by
  rw [definedByte, h]

theorem definedByte_some (sp : ByteSpace) {m : Memory Byte} {i : Nat} {b : Byte} (h : Memory.read m i = some b) :
    definedByte sp m i = .ok (b.setWidth 32) := by
  rw [definedByte, h]

theorem byteBelow_error {sp : ByteSpace} {n : Nat} {m : Memory Byte} {i : Nat} (h : n ≤ i ∨ Memory.read m i = none) :
    byteBelow sp n m i = .error (.unspecifiedByte sp i) := by
  unfold byteBelow
  split
  · rfl
  · exact definedByte_none (h.resolve_left ‹_›)

theorem hostReadByte_unspecified {s : State} {sp : ByteSpace} {i : Nat} (hi : i < byteCount s.params sp)
    (h : s.unspecifiedAt i sp) : hostReadByte s sp i = .error (.unspecifiedByte sp i) := by
  have hi := Nat.not_le.2 hi
  cases sp with
  | input => exact (if_neg hi).trans (byteBelow_error h)
  | fname => exact (if_neg hi).trans (definedByte_none h)
  | output =>
    refine (if_neg hi).trans ?_
    cases hlen : s.outLen with
    | none => rfl
    | some n => exact byteBelow_error (h.imp_left fun h => h n hlen)

/-! ## Words of records -/

theorem hostReadWord_beyond {s : State} {sp : WordSpace} {i : Nat} (h : wordCount s.params sp ≤ i) :
    hostReadWord s sp i = .ok 0 := if_pos h

theorem recordWord_error {α : Type} {sp : WordSpace} {flag : Bool} {m : Memory α} {k : Nat} (view : α → Word)
    (h : flag = false ∨ Memory.read m k = none) : recordWord sp flag m k view = .error (.unspecifiedRecord sp k) := by
  unfold recordWord
  split
  · rename_i r hr
    rw [hr] at h
    rw [h.resolve_right (by simp), if_neg Bool.false_ne_true]
  · rfl

theorem recordWord_ok {α : Type} {sp : WordSpace} {flag : Bool} {m : Memory α} {k : Nat} {r : α} (view : α → Word)
    (hflag : flag = true) (hr : Memory.read m k = some r) : recordWord sp flag m k view = .ok (view r) := by
  rw [recordWord, hr]
  exact if_pos hflag

theorem hostReadWord_unspecified {s : State} {sp : WordSpace} {i k : Nat} (hi : i < wordCount s.params sp)
    (hk : k = i / sp.perRecord) (hdict : sp = .dict → k ≠ 0) (h : s.unspecifiedRecord k sp) :
    hostReadWord s sp i = .error (.unspecifiedRecord sp k) := by
  subst hk
  refine (if_neg (Nat.not_le.2 hi)).trans ?_
  cases sp with
  | freq =>
    simp only [WordSpace.perRecord, Nat.div_one] at h ⊢
    exact recordWord_error _ h
  | node | code | tok => exact recordWord_error _ h
  | dict => exact (if_neg (hdict rfl)).trans (recordWord_error _ h)

/-! ## The step at a host access -/

theorem step_hostIdle {s : State} {es : List Event} {a : Access} (hb : s.status.busy = false)
    (he : s.events = .host a :: es) : step s = accessIdle { s with events := es } a := by
  simp only [step, turn, he, hostAccess, hb, Bool.false_eq_true, if_false]

theorem answer_error {s : State} {x : Except Fault Word} {f : Fault} (h : x = .error f) : answer s x = .fault f := by
  rw [h, answer]

/-- Settles O54: each kind of UNSPECIFIED place answers its fault, and the step is that answer. -/
theorem unspecifiedReadsFault : Obligations.UnspecifiedReadsFault := by
  intro s es hb
  refine ⟨fun r hr he => ?_, fun sp i hi h he => ?_, fun sp i k hi hk hdict h he => ?_⟩ <;>
    refine (step_hostIdle hb he).trans (answer_error ?_)
  · exact (hostReadReg_index _ r).trans (readRegister_unspecified (s := { s with events := es }) hr)
  · exact hostReadByte_unspecified (s := { s with events := es }) hi h
  · exact hostReadWord_unspecified (s := { s with events := es }) hi hk hdict h

/-- Settles O50: no register has such an index, no memory such an element, and the rest is not writable. -/
theorem unreachableHostAccesses : Obligations.UnreachableHostAccesses := by
  intro s hb
  refine ⟨fun i hi => ⟨hostReadReg_reserved s hi, hostWriteReg_reserved s hi⟩, fun i hi v => ?_,
    fun i hi => ⟨hostReadByte_beyond hi, fun _ => if_pos hi⟩, fun i hi => ⟨hostReadByte_beyond hi, fun _ => if_pos hi⟩,
    fun i => ⟨fun hi => hostReadByte_beyond hi, fun _ => rfl⟩, fun sp i => hostReadWord_beyond, fun sp i w => ?_⟩
  · fin_cases hi <;> rfl
  · rw [hostAccess, hb]
    rfl

/-! ## Reset -/

theorem readRegister_resetWith (P : Params) (r : Reg) : readRegister (State.resetWith P) r = .ok 0 := by
  cases r with
  | status => exact congrArg Except.ok (show Status.reset.word = 0 by decide)
  | _ => rfl

/-- Settles O8: after reset the registers hold 0 and the memories list nothing. -/
theorem resetLeavesZerosAndUnspecified : Obligations.ResetLeavesZerosAndUnspecified := by
  intro P
  refine ⟨fun i => ?_, fun i hi => hostReadByte_unspecified hi (.inr rfl),
    fun i hi => hostReadByte_unspecified hi (.inr rfl),
    fun i hi => hostReadByte_unspecified hi rfl,
    fun i hi => hostReadWord_unspecified hi (Nat.div_one i).symm (by simp) (.inr rfl),
    fun i hi => hostReadWord_unspecified hi rfl (by simp) (.inr rfl),
    fun i hi => hostReadWord_unspecified hi rfl (by simp) (.inr rfl),
    fun i hi h2 => hostReadWord_unspecified hi rfl (fun _ => by omega) (.inr rfl),
    fun i hi => hostReadWord_unspecified hi rfl (by simp) (.inr rfl)⟩
  unfold hostReadReg
  split
  · rfl
  · exact readRegister_resetWith P _

/-- Settles O55: nothing is listed, no flag is 1, and the packer is empty. -/
theorem resetMeetsTheInvariants : Obligations.ResetMeetsTheInvariants := by
  intro P
  refine ⟨⟨.nil, .nil, .nil, .nil, .nil, .nil, .nil, .nil⟩, ?_, Status.reset_legal, State.resetWith_packerOk P,
    State.flagsOk_resetWith P, rfl⟩
  simp [State.inRange, State.resetWith]

end Sys2Proof.Machine
end

section
/-! PROOF. What the host writes is read back, and what it reads of each register and record (10_state.md R31, R35, R52,
20_memory.md R80, R88 to R90, 70_reset_and_hazards.md R352). -/

namespace Sys2Proof.Machine

/-! ## Registers the host writes -/

/-- What the host's write leaves in a register: BR_BIT keeps bits [2:0] (10_state.md R52). -/
def Reg.kept (r : Reg) (v : Word) : Word := if r = .brBit then (v.extractLsb' 0 3).setWidth 32 else v

/-- A write to a register that holds host data is seen in that register alone. -/
theorem readRegister_hostWriteReg {r : Reg} (hr : r ∈ ([.arg0, .arg1, .inLen, .fnameLen, .brByte, .brBit] : List Reg))
    (s : State) (v : Word) (q : Reg) :
    readRegister (hostWriteReg s r.index v) q = if q = r then .ok (r.kept v) else readRegister s q := by
  fin_cases hr <;> cases q <;> rfl

theorem low_three_bits (v : Word) : (v.extractLsb' 0 3).setWidth 32 = v &&& 7 := by
  apply BitVec.eq_of_toNat_eq
  have hmod : v.toNat % 8 % 4294967296 = v.toNat % 8 := Nat.mod_eq_of_lt (by omega)
  simpa [hmod] using (Nat.and_two_pow_sub_one_eq_mod v.toNat 3).symm

/-! ## Bytes the host writes -/

theorem hostWriteByte_input {s : State} {i : Nat} (hi : i < s.params.inMax) (b : Byte) :
    hostWriteByte s .input i b = { s with inMem := Memory.write s.inMem i b } := if_neg (Nat.not_le.2 hi)

theorem hostWriteByte_fname {s : State} {i : Nat} (hi : i < s.params.fnameMax) (b : Byte) :
    hostWriteByte s .fname i b = { s with fnameMem := Memory.write s.fnameMem i b } := if_neg (Nat.not_le.2 hi)

theorem hostReadByte_input {s : State} {i : Nat} {b : Byte} (hi : i < s.params.inMax) (hlen : i < s.inLen.toNat)
    (hb : Memory.read s.inMem i = some b) : hostReadByte s .input i = .ok (b.setWidth 32) := by
  rw [hostReadByte, if_neg (Nat.not_le.2 hi), byteBelow, if_neg (Nat.not_le.2 hlen), definedByte_some _ hb]

theorem hostReadByte_fname {s : State} {i : Nat} {b : Byte} (hi : i < s.params.fnameMax)
    (hb : Memory.read s.fnameMem i = some b) : hostReadByte s .fname i = .ok (b.setWidth 32) := by
  rw [hostReadByte, if_neg (Nat.not_le.2 hi), definedByte_some _ hb]

/-- Settles O51: the step is the write, and a write is seen at its own place alone. -/
theorem hostWritesReadBack : Obligations.HostWritesReadBack := by
  intro s
  refine ⟨fun es hb => ⟨fun i v he => step_hostIdle hb he, fun sp i b he => step_hostIdle hb he,
    fun sp i w he => step_hostIdle hb he⟩, ?_, ?_, ?_, ?_⟩
  · rintro r hr v t rfl
    have hread := readRegister_hostWriteReg (List.mem_append_left [.brBit] hr) s v
    have hne : r ≠ .brBit := by rintro rfl; simp at hr
    refine ⟨?_, fun q hq => by rw [hread, if_neg hq], ?_⟩
    · rw [hostReadReg_index, hread, if_pos rfl, Reg.kept, if_neg hne]
    · fin_cases hr <;> rfl
  · rintro v t rfl
    have hread := readRegister_hostWriteReg (r := .brBit) (by simp) s v
    refine ⟨?_, fun q hq => (hread q).trans (if_neg hq), rfl⟩
    rw [← low_three_bits]
    exact hread .brBit
  · rintro i b t hi hwf rfl
    have hread : Memory.read (Memory.write s.inMem i b) i = some b := Memory.read_write_same _ _ _
    rw [hostWriteByte_input hi]
    refine ⟨fun hlen => hostReadByte_input hi hlen hread, fun hlen => hostReadByte_unspecified hi (.inl hlen),
      fun n hn => hostReadByte_input hi hn hread, fun j hj => ?_, rfl⟩
    have hother := Memory.read_write_other hwf b hj
    exact ⟨hother, by simp only [hostReadByte, byteBelow, definedByte, hother]⟩
  · rintro i b t hi hwf rfl
    rw [hostWriteByte_fname hi]
    refine ⟨hostReadByte_fname hi (Memory.read_write_same _ _ _), fun j hj => ?_, rfl⟩
    simp only [hostReadByte, definedByte, Memory.read_write_other hwf b hj]

/-! ## Views of registers and records -/

/-- STATUS as one concatenation of its width, so that its bits can be looked up part by part (10_state.md R35). -/
theorem Status.word_eq (st : Status) : st.word =
    ((0 : BitVec 19) ++ BitVec.ofBool st.dictValid ++ BitVec.ofBool st.tokensValid ++ BitVec.ofBool st.codesValid ++
      BitVec.ofBool st.treeValid ++ BitVec.ofBool st.freqValid ++ st.errCode ++ (0 : BitVec 1) ++
      BitVec.ofBool st.err ++ BitVec.ofBool st.done ++ BitVec.ofBool st.busy).cast
        (by decide : 19 + 1 + 1 + 1 + 1 + 1 + 4 + 1 + 1 + 1 + 1 = 32) := rfl

/-- The fields of STATUS at their places, zeros elsewhere (10_state.md R35). -/
theorem Status.word_fields (st : Status) :
    st.word.getLsbD 0 = st.busy ∧ st.word.getLsbD 1 = st.done ∧ st.word.getLsbD 2 = st.err ∧
      st.word.getLsbD 3 = false ∧ st.word.extractLsb' 4 4 = st.errCode ∧ st.word.getLsbD 8 = st.freqValid ∧
      st.word.getLsbD 9 = st.treeValid ∧ st.word.getLsbD 10 = st.codesValid ∧ st.word.getLsbD 11 = st.tokensValid ∧
      st.word.getLsbD 12 = st.dictValid ∧ st.word.extractLsb' 13 19 = 0 := by
  refine ⟨?_, ?_, ?_, ?_, BitVec.eq_of_getLsbD_eq fun i hi => ?_, ?_, ?_, ?_, ?_, ?_,
    BitVec.eq_of_getLsbD_eq fun i hi => ?_⟩ <;>
    simp only [Status.word_eq, BitVec.getLsbD_extractLsb', BitVec.getLsbD_cast, BitVec.getLsbD_append] <;> grind

/-- NODE's link word as one concatenation of its width (20_memory.md R88). -/
theorem Node.link_eq (nd : Node) : nd.link =
    (BitVec.ofBool nd.leaf ++ (0 : BitVec 5) ++ nd.sym ++ nd.left ++ nd.right).cast
      (by decide : 1 + 5 + 8 + 9 + 9 = 32) := rfl

/-- The fields of a node's link word at their places (20_memory.md R88). -/
theorem Node.link_fields (nd : Node) :
    nd.link.extractLsb' 0 9 = nd.right ∧ nd.link.extractLsb' 9 9 = nd.left ∧ nd.link.extractLsb' 18 8 = nd.sym ∧
      nd.link.extractLsb' 26 5 = 0 ∧ nd.link.getLsbD 31 = nd.leaf := by
  refine ⟨BitVec.eq_of_getLsbD_eq fun i hi => ?_, BitVec.eq_of_getLsbD_eq fun i hi => ?_,
    BitVec.eq_of_getLsbD_eq fun i hi => ?_, BitVec.eq_of_getLsbD_eq fun i hi => ?_, ?_⟩ <;>
    simp only [Node.link_eq, BitVec.getLsbD_extractLsb', BitVec.getLsbD_cast, BitVec.getLsbD_append] <;> grind

/-! Word j of a record of two words, while its flag is 1 (20_memory.md R88 to R90). -/

theorem hostReadWord_node {s : State} {i j : Nat} {nd : Node} (hj : j < 2) (hi : i ≤ 510)
    (hflag : s.status.treeValid = true) (hr : Memory.read s.nodeMem i = some nd) :
    hostReadWord s .node (2 * i + j) = .ok (nodeWord nd j) := by
  have hin : ¬ wordCount s.params .node ≤ 2 * i + j := by simp only [wordCount]; omega
  have hdiv : (2 * i + j) / 2 = i := by omega
  simp only [hostReadWord, if_neg hin, hdiv, Nat.mul_add_mod, Nat.mod_eq_of_lt hj]
  exact recordWord_ok _ hflag hr

theorem hostReadWord_dict {s : State} {k j : Nat} {e : Entry} (hj : j < 2) (h1 : 1 ≤ k) (hk : k ≤ s.params.dictMax)
    (hflag : s.status.dictValid = true) (hr : Memory.read s.dictMem k = some e) :
    hostReadWord s .dict (2 * k + j) = .ok (entryWord e j) := by
  have hin : ¬ wordCount s.params .dict ≤ 2 * k + j := by simp only [wordCount]; omega
  have hdiv : (2 * k + j) / 2 = k := by omega
  simp only [hostReadWord, if_neg hin, hdiv, if_neg (show ¬ k = 0 by omega), Nat.mul_add_mod, Nat.mod_eq_of_lt hj]
  exact recordWord_ok _ hflag hr

theorem hostReadWord_tok {s : State} {k j : Nat} {e : Entry} (hj : j < 2) (hk : k < s.params.tokMax)
    (hflag : s.status.tokensValid = true) (hr : Memory.read s.tokMem k = some e) :
    hostReadWord s .tok (2 * k + j) = .ok (entryWord e j) := by
  have hin : ¬ wordCount s.params .tok ≤ 2 * k + j := by simp only [wordCount]; omega
  have hdiv : (2 * k + j) / 2 = k := by omega
  simp only [hostReadWord, if_neg hin, hdiv, Nat.mul_add_mod, Nat.mod_eq_of_lt hj]
  exact recordWord_ok _ hflag hr

/-- Index 0 of DICT is reserved: both its words read 0 (20_memory.md R89). -/
theorem hostReadWord_dict_reserved (s : State) {j : Nat} (hj : j < 2) : hostReadWord s .dict j = .ok 0 := by
  unfold hostReadWord
  split
  · rfl
  · exact if_pos (Nat.div_eq_of_lt hj)

/-- Settles O52: each register reads its value, each record the words of its view. -/
theorem nodeDictTokViews : Obligations.NodeDictTokViews := by
  intro s
  refine ⟨⟨rfl, rfl, rfl, rfl, rfl⟩, ?_, ?_, ⟨_, rfl, s.status.word_fields⟩, ?_, ?_, ⟨?_, ?_⟩, ?_, ?_⟩
  · exact ⟨fun v => wide_some _, fun v => wide_some _, fun v => wide_some _, fun v => wide_some _, fun v => wide_some _,
      fun v => wide_some _, fun v => wide_some _, fun v => wide_some _⟩
  · refine ⟨fun h => covered_ok _ (h.imp_right fun e => by rw [e]; rfl),
      fun v hv h => (readRegister_dictSize hv).trans (covered_ok _ h),
      fun v hv h => (readRegister_indexWidth hv).trans (covered_ok _ (h.imp_right fun e => by rw [e]; rfl)),
      fun h => covered_ok _ h⟩
  · exact fun k c hk hflag hr => (if_neg (Nat.not_le.2 hk)).trans (recordWord_ok id hflag hr)
  · exact fun i nd hi hflag hr => ⟨hostReadWord_node (j := 0) (by omega) hi hflag hr, nd.link,
      hostReadWord_node (by omega) hi hflag hr, nd.link_fields⟩
  · exact hostReadWord_dict_reserved s (by omega)
  · exact hostReadWord_dict_reserved s (by omega)
  · exact fun k e h1 hk hflag hr => ⟨hostReadWord_dict (j := 0) (by omega) h1 hk hflag hr,
      hostReadWord_dict (by omega) h1 hk hflag hr⟩
  · exact fun k e hk hflag hr => ⟨hostReadWord_tok (j := 0) (by omega) hk hflag hr,
      hostReadWord_tok (by omega) hk hflag hr⟩

end Sys2Proof.Machine
end

section
/-! PROOF. Host reads have no side effects (20_memory.md R84, 70_reset_and_hazards.md R350). -/

namespace Sys2Proof.Machine

/-- A host read is the answer of one value or fault, and the events to come and the values observed have no part in it
(20_memory.md R84, 70_reset_and_hazards.md R350). -/
theorem hostAccess_read {a : Access}
    (ha : (∃ i, a = .readReg i) ∨ (∃ sp i, a = .readByte sp i) ∨ ∃ sp i, a = .readWord sp i) (s : State) : ∃ x, ∀ es ws, hostAccess { s with events := es, observed := ws } a =
      answer { s with events := es, observed := ws } x := by
  cases hb : s.status.busy with
  | false =>
    simp only [hostAccess, hb, Bool.false_eq_true, if_false]
    rcases ha with ⟨i, rfl⟩ | ⟨sp, i, rfl⟩ | ⟨sp, i, rfl⟩
    · exact ⟨hostReadReg s i, fun _ _ => rfl⟩
    · exact ⟨hostReadByte s sp i, fun _ _ => rfl⟩
    · exact ⟨hostReadWord s sp i, fun _ _ => rfl⟩
  | true =>
    simp only [hostAccess, hb, if_true]
    rcases ha with ⟨i, rfl⟩ | ⟨sp, i, rfl⟩ | ⟨sp, i, rfl⟩
    · by_cases hi : regAt i = some .status
      · exact ⟨.ok s.status.word, fun _ _ => if_pos hi⟩
      · exact ⟨.error .hostReadWhileBusy, fun _ _ => if_neg hi⟩
    · exact ⟨.error .hostReadWhileBusy, fun _ _ => rfl⟩
    · exact ⟨.error .hostReadWhileBusy, fun _ _ => rfl⟩

theorem step_host {s : State} {a : Access} {es : List Event} (h : s.events = .host a :: es) :
    step s = hostAccess { s with events := es } a := by
  rw [step, turn, h]

/-- Settles O49: the step at a read is the answer of its value, and the state that answer leaves gives the same one. -/
theorem hostReadsHaveNoSideEffects : Obligations.HostReadsHaveNoSideEffects := by
  constructor
  · intro s es a x hb he hx
    have hstep : step s = answer { s with events := es } x := by
      rcases hx with ⟨i, rfl, rfl⟩ | ⟨sp, i, rfl, rfl⟩ | ⟨sp, i, rfl, rfl⟩ <;> exact step_hostIdle hb he
    exact ⟨fun v hv => by rw [hstep, hv, answer, State.observe], fun f hf => hstep.trans (answer_error hf)⟩
  · intro s t a es ha he ht
    obtain ⟨x, hx⟩ := hostAccess_read ha s
    have hfirst : step s = answer { s with events := .host a :: es } x := (step_host he).trans (hx _ s.observed)
    rw [hfirst] at ht
    cases x with
    | error f => cases ht
    | ok v =>
      cases ht
      refine ⟨v, rfl, ?_⟩
      calc step (State.observe { s with events := .host a :: es } v)
        _ = answer { s with events := es, observed := s.observed ++ [v] } (.ok v) := (step_host rfl).trans (hx _ _)
        _ = .next { s with events := es, observed := s.observed ++ [v, v] } := by
          rw [answer, State.observe, List.append_assoc, List.singleton_append]

end Sys2Proof.Machine
end

section
/-! PROOF. BR_GETBIT reads one bit of IN (20_memory.md R86, 42_bitio.md R216, R220). -/

namespace Sys2Proof.Machine

/-- A position's bit is that of its byte (20_memory.md R86). -/
theorem inBit_of_read {s : State} {pos : Nat} {b : Byte} (h : Memory.read s.inMem (pos / 8) = some b) :
    inBit s pos = .ok (b.getLsbD (7 - pos % 8)) := by
  simp only [inBit, inByte, h, BitVec.testBit_toNat]

theorem readBits_one {s : State} {pos : Nat} {b : Bool} (hlen : pos + 1 ≤ 8 * s.inLen.toNat)
    (h : inBit s pos = .ok b) : readBits s pos 1 = .ok b.toNat := by
  have hleft : ¬ bitsLeft s pos < 1 := by rw [bitsLeft]; omega
  simp only [readBits, if_neg hleft, inBits, h]
  simp [bitsVal]

theorem checkInMax_ok {s : State} (h : s.inLen.toNat ≤ s.params.inMax) : checkInMax s = .ok () :=
  if_neg (Nat.not_lt.2 h)

theorem brGetbit_eq_brRead {s : State} (h : s.inLen.toNat ≤ s.params.inMax) : brGetbit s = brRead s 1 := by
  rw [brGetbit, checkInMax_ok h]

theorem brRead_ok {s : State} {pos n v : Nat} (hpos : cursorPos s = .ok pos) (hv : readBits s pos n = .ok v) :
    brRead s n = .done (State.setCursor { s with result := BitVec.ofNat 32 v } (pos + n)) := by
  simp only [brRead, hpos, hv]

/-- Settles O24: the read of one bit is that bit of its byte. -/
theorem brGetbitReadsTheBit : Obligations.BrGetbitReadsTheBit := by
  intro s pos b hmax hpos hlen hb
  have hread := brRead_ok hpos (readBits_one hlen (inBit_of_read hb))
  rw [exec_eq_finish, perform, brGetbit_eq_brRead hmax, hread]
  cases b.getLsbD (7 - pos % 8) <;> rfl

end Sys2Proof.Machine
end

section
/-! PROOF. The host's word view of CODE (20_memory.md R91). -/

namespace Sys2Proof.Machine

/-- Bit i of a bit string, counted from the left, is bit length − 1 − i of its number (00_scope.md R11). -/
theorem testBit_bitsVal {bs : BitStr} {i : Nat} (h : i < bs.length) :
    (bitsVal bs).testBit (bs.length - 1 - i) = bs.getD i false := by
  have := bitsMSB_getElem? (bitsVal bs) bs.length i h
  rw [bitsMSB_bitsVal] at this
  rw [List.getD_eq_getElem?_getD, this, Option.getD_some]

/-- Zeros on the right change no bit of a string that reads as 0 past its end. -/
theorem getD_append_zeros (c : BitStr) (m n : Nat) : (c ++ zeros m).getD n false = c.getD n false := by
  rcases Nat.lt_or_ge n c.length with h | h
  · rw [List.getD_append _ _ _ _ h]
  · rw [List.getD_append_right _ _ _ _ h, List.getD_eq_default _ _ h, zeros, List.getD_eq_getElem?_getD,
      List.getElem?_getD_replicate_default_eq]

/-- Bit t of a code, zeros after its end, is bit 31 − (t mod 32) of word 1 + floor(t/32) of its record (20_memory.md
R91). -/
theorem codeWord_bit (c : BitStr) {n : Nat} (hn : n < 256) :
    (codeWord c (1 + n / 32)).getLsbD (31 - n % 32) = c.getD n false := by
  have hlen : (((c ++ zeros 256).drop (32 * (n / 32))).take 32).length = 32 := by simp; omega
  rw [codeWord, if_neg (by omega), Nat.add_sub_cancel_left, BitVec.getLsbD_ofNat, decide_eq_true (by omega),
    Bool.true_and]
  generalize hw : ((c ++ zeros 256).drop (32 * (n / 32))).take 32 = w at hlen
  calc (bitsVal w).testBit (31 - n % 32)
    _ = w.getD (n % 32) false := by
      rw [← testBit_bitsVal (by omega), hlen]
    _ = (c ++ zeros 256).getD n false := by
      simp only [← hw, List.getD_eq_getElem?_getD, List.getElem?_take_of_lt (Nat.mod_lt n (show 0 < 32 by omega)),
        List.getElem?_drop, Nat.div_add_mod]
    _ = c.getD n false := getD_append_zeros c 256 n

/-- Word j of a record of CODE, while its flag is 1 (20_memory.md R91). -/
theorem hostReadWord_code {s : State} {k j : Nat} {c : BitStr} (hj : j < 9) (hk : k ≤ 255)
    (hflag : s.status.codesValid = true) (hr : Memory.read s.codeMem k = some c) :
    hostReadWord s .code (9 * k + j) = .ok (codeWord c j) := by
  have hin : ¬ wordCount s.params .code ≤ 9 * k + j := by simp only [wordCount]; omega
  have hdiv : (9 * k + j) / 9 = k := by omega
  simp only [hostReadWord, if_neg hin, hdiv, Nat.mul_add_mod, Nat.mod_eq_of_lt hj]
  exact recordWord_ok _ hflag hr

/-- Settles O53: word 0 is the length, and each bit of the other words is that of `codeWord_bit`. -/
theorem codeView : Obligations.CodeView := by
  intro s k c hk hflag hr _
  refine ⟨hostReadWord_code (j := 0) (by omega) hk hflag hr,
    fun n hn => ⟨codeWord c (1 + n / 32), ?_, codeWord_bit c hn⟩⟩
  rw [Nat.add_assoc]
  exact hostReadWord_code (by omega) hk hflag hr

end Sys2Proof.Machine
end

section
/-! PROOF. The decoder and the encoder are inverse to each other (30_encoding.md R110, R111, R113, R114). -/

namespace Sys2Proof

/-- A word is its two fields (R110). -/
theorem word_eq_fields (w : Word) : w = rsvdField w ++ opcField w :=
  (BitVec.extractLsb'_append_extractLsb' (w := 24) (len := 8)).symm

/-- The decoder names a command exactly when the reserved bits are 0 and the opcode map has the opcode (R111, R113, R114). -/
theorem decode_eq_ok_iff {w : Word} {i : Instr} :
    decode w = .ok i ↔ rsvdField w = 0 ∧ opcodeInstr (opcField w).toNat = some i := by
  unfold decode
  by_cases h : rsvdField w = 0
  · rw [if_pos h]
    cases opcodeInstr (opcField w).toNat <;> simp [h]
  · rw [if_neg h]
    exact ⟨nofun, fun e => absurd e.1 h⟩

theorem decode_encode (i : Instr) : decode (encode i) = .ok i := by
  cases i <;> rfl

theorem eq_encode_of_decode {w : Word} {i : Instr} (h : decode w = .ok i) : w = encode i := by
  obtain ⟨hrsvd, hopc⟩ := decode_eq_ok_iff.1 h
  have eopc : opcField w = i.opcode := BitVec.eq_of_toNat_eq (opcodeInstr_eq_some hopc)
  rw [word_eq_fields w, hrsvd, eopc, encode]

/-- The opcodes of the map are those of the commands (R111). -/
theorem mem_opcodes_iff {b : Byte} : b ∈ CmdWord.opcodes ↔ ∃ i, opcodeInstr b.toNat = some i := by
  constructor
  · intro h
    have hall : ∀ b ∈ CmdWord.opcodes, (opcodeInstr b.toNat).isSome := by decide
    exact Option.isSome_iff_exists.1 (hall b h)
  · rintro ⟨i, h⟩
    have hall : ∀ i : Instr, i.opcode ∈ CmdWord.opcodes := by intro i; cases i <;> decide
    rw [BitVec.eq_of_toNat_eq (opcodeInstr_eq_some h)]
    exact hall i

/-- A word names no command exactly when R114 or R113 makes it illegal. -/
theorem decode_ne_ok_iff {w : Word} : (∀ i, decode w ≠ .ok i) ↔ rsvdField w ≠ 0 ∨ opcField w ∉ CmdWord.opcodes := by
  rw [mem_opcodes_iff, ← not_and_or, ← exists_and_left, not_exists]
  simp only [ne_eq, decode_eq_ok_iff]

/-- Settles O2: a word is its two fields, and the opcode map is one-to-one. -/
theorem decodeEncodeAgree : Obligations.DecodeEncodeAgree := fun _ i =>
  ⟨eq_encode_of_decode, fun h => h ▸ decode_encode i⟩

/-- Settles O1: each word is its command's encoding. -/
theorem opcodeMapWords : Obligations.OpcodeMapWords :=
  ⟨decode_encode .nop, decode_encode .bpReset, decode_encode .bpPut, decode_encode .bpFlush, decode_encode .brGetbit,
    decode_encode .brGetbits, decode_encode .hufStats, decode_encode .hufBuild, decode_encode .hufCodes,
    decode_encode .hufEncode, decode_encode .hufDecode, decode_encode .lzSegment, decode_encode .lzEncode,
    decode_encode .lzDecode⟩

end Sys2Proof

namespace Sys2Proof.Machine

/-! ## The engine's turn -/

/-- With no event left, or a WAIT next, which stays next, a pending command runs (40_command.md R161, log 2). -/
theorem step_busy_waiting {s : State} (hb : s.status.busy = true)
    (he : s.events = [] ∨ ∃ es, s.events = .wait :: es) : step s = engineStep s := by
  rcases he with he | ⟨es, he⟩
  · simp only [step, turn, he, engineTurn, if_pos hb]
  · simp only [step, turn, he, if_pos hb]

/-- A turn of the engine, taken off the events, runs a pending command (40_command.md R161, log 2). -/
theorem step_busy_engineTurn {s : State} {es : List Event} (hb : s.status.busy = true)
    (he : s.events = .engineTurn :: es) : step s = engineStep { s with events := es } := by
  simp only [step, turn, he, engineTurn, if_pos hb]

theorem engineStep_illegal {s : State} (h : ∀ i, decode s.cmd ≠ .ok i) :
    engineStep s = .next (s.complete (some .unknownOperation)) := by
  unfold engineStep
  split
  · rename_i i hi
    exact absurd hi (h i)
  · rfl

/-- Settles O3: an illegal word is one whose fields are, and its completion is `engineStep_illegal`. -/
theorem illegalWordCompletesUnknownOperation : Obligations.IllegalWordCompletesUnknownOperation := by
  refine ⟨fun w => decode_ne_ok_iff, by decide +kernel, fun s hb h => ⟨fun he => ?_, fun es he => ?_⟩⟩
  · rw [step_busy_waiting hb he, engineStep_illegal h]
    rfl
  · rw [step_busy_engineTurn hb he, engineStep_illegal (s := { s with events := es }) h]
    rfl

end Sys2Proof.Machine
end

section
/-! PROOF. `be_min` is the shortest big-endian form (30_encoding.md R123, R124). -/

namespace Sys2Proof.Machine

theorem beVal_snoc (bs : List Byte) (b : Byte) : beVal (bs ++ [b]) = 256 * beVal bs + b.toNat := by
  simp [beVal]

/-- Enough digits give the number back. -/
theorem beVal_beDigits {n v : Nat} (h : v < 256 ^ n) : beVal (beDigits n v) = v := by
  induction n generalizing v with
  | zero =>
    have h0 : v = 0 := Nat.lt_one_iff.1 h
    rw [h0]
    rfl
  | succ n ih =>
    unfold beDigits
    split
    · rename_i h0
      rw [h0]
      rfl
    · have hrest := ih (v := v / 256) (Nat.div_lt_of_lt_mul (by rwa [Nat.pow_succ'] at h))
      rw [beVal_snoc, hrest, BitVec.toNat_ofNat]
      omega

/-- The first digit is not 0, as long as the digits asked for are enough. -/
theorem beDigits_head?_ne_zero {n v : Nat} (h : v < 256 ^ n) : (beDigits n v).head? ≠ some 0 := by
  induction n generalizing v with
  | zero => simp [beDigits]
  | succ n ih =>
    unfold beDigits
    split
    · simp
    · rename_i h0
      have hlt : v / 256 < 256 ^ n := Nat.div_lt_of_lt_mul (by rwa [Nat.pow_succ'] at h)
      have hval := beVal_beDigits hlt
      have hhead := ih hlt
      cases hd : beDigits n (v / 256) with
      | nil =>
        have hsmall : 0 = v / 256 := by rwa [hd] at hval
        have e8 : (BitVec.ofNat 8 v).toNat = v := Nat.mod_eq_of_lt (by omega)
        refine fun e => h0 ?_
        rw [← e8, Option.some.inj e]
        rfl
      | cons b bs =>
        rw [hd] at hhead
        exact hhead

/-- A number whose first digit is not 0 needs all its digits. -/
theorem pow_le_beVal {b : Byte} {bs : List Byte} (h : b ≠ 0) : 256 ^ bs.length ≤ beVal (b :: bs) := by
  induction bs using List.reverseRecOn with
  | nil =>
    have hb : b.toNat ≠ 0 := fun e => h (BitVec.eq_of_toNat_eq e)
    have hval := beVal_snoc [] b
    rw [List.nil_append] at hval
    rw [hval, List.length_nil]
    omega
  | append_singleton bs c ih =>
    rw [← List.cons_append, beVal_snoc, List.length_append, List.length_singleton, Nat.pow_succ']
    omega

/-- Settles O36: four digits are enough below 2^32, and the digits bound the value on both sides. -/
theorem beMinIsMinimal : Obligations.BeMinIsMinimal := by
  refine ⟨rfl, fun v hpos hlt => ?_⟩
  have hval : beVal (beMin v) = v := beVal_beDigits hlt
  have hhead : (beMin v).head? ≠ some 0 := beDigits_head?_ne_zero hlt
  refine ⟨hval, hhead, ?_, ?_⟩
  · cases hbs : beMin v with
    | nil => exact hpos
    | cons b bs =>
      rw [← hval, hbs]
      refine pow_le_beVal fun hb => hhead ?_
      rw [hbs, hb]
      rfl
  · conv_lhs => rw [← hval]
    exact beVal_lt _

end Sys2Proof.Machine
end

section
/-! PROOF. The frame of every command (30_encoding.md R112, 40_command.md R162). -/

namespace Sys2Proof.Machine

theorem inputIs_of_hufStages {s t : State} (h : hufStages s = .ok t) : ∃ bs, s.inputIs bs := by
  obtain ⟨s1, -, hstats, -⟩ := hufStages_ok_split h
  rcases stageStats_cases s with ⟨bs, hin, -⟩ | ⟨f, e⟩
  · exact ⟨bs, hin⟩
  · rw [e] at hstats; cases hstats

/-- Whatever a command leaves differs from the state before it in its row of R112 alone. -/
theorem perform_writesOnly (i : Instr) (s : State) :
    (perform i s).Leaves fun e t => writesOnly i s (t.complete e) := by
  cases i with
  | nop => rfl
  | bpReset => rfl
  | bpPut => exact bpPut_leaves rfl rfl fun _ _ _ => rfl
  | bpFlush => exact bpFlush_leaves rfl fun _ _ _ _ => rfl
  | brGetbit => exact brGetbit_leaves rfl rfl fun _ _ => rfl
  | brGetbits => exact brGetbits_leaves rfl rfl fun _ _ => rfl
  | hufStats =>
    refine hufStats_leaves (fun _ _ => rfl) fun t ht => ?_
    rcases stageStats_cases s with ⟨bs, -, e⟩ | ⟨f, e⟩ <;> rw [e] at ht <;> cases ht
    rfl
  | hufBuild =>
    refine hufBuild_leaves rfl fun t ht => ?_
    rcases stageBuild_cases s with ⟨ws, -, -, e⟩ | ⟨f, e⟩ <;> rw [e] at ht <;> cases ht
    rfl
  | hufCodes =>
    refine hufCodes_leaves rfl fun t _ ht => ?_
    rcases stageCodes_cases s with ⟨c, -, e⟩ | ⟨f, e⟩ <;> rw [e] at ht <;> cases ht
    rfl
  | hufEncode =>
    refine hufEncode_leaves (fun _ _ => rfl) fun t bits ht => ?_
    obtain ⟨bs, hin⟩ := inputIs_of_hufStages ht
    obtain ⟨ws, c, -, hstages, -⟩ := hufStages_ok hin
    rw [hstages] at ht
    cases ht
    exact writeContainer_leaves rfl fun _ _ => rfl
  | hufDecode =>
    exact hufDecode_leaves rfl (fun _ _ => rfl) rfl (fun _ _ _ _ => rfl) fun _ _ _ _ _ _ _ _ _ _ _ => rfl
  | lzSegment =>
    refine lzSegment_leaves (fun _ _ => rfl) fun t g ht => ?_
    rcases stageSegment_cases s with ⟨bs, -, e⟩ | ⟨f, e⟩ <;> rw [e] at ht <;> cases ht
    rfl
  | lzEncode =>
    refine lzEncode_leaves (fun _ _ => rfl) fun t g bits ht => ?_
    rcases stageSegment_cases s with ⟨bs, -, e⟩ | ⟨f, e⟩ <;> rw [e] at ht <;> cases ht
    exact writeContainer_leaves rfl fun _ _ => rfl
  | lzDecode => exact lzDecode_leaves rfl (fun _ _ => rfl) rfl fun _ _ _ _ _ _ _ _ _ => rfl

/-- Settles O12: what a command leaves differs in its row alone, and its completion writes the rest of STATUS. -/
theorem commandsWriteOnlyTheirRow : Obligations.CommandsWriteOnlyTheirRow := fun i s _ h =>
  have ⟨_, _, hframe, e⟩ := exec_completes (perform_writesOnly i s) h
  e ▸ hframe

end Sys2Proof.Machine
end

section
/-! PROOF. The encoders' argument checks pass a filename in range that is NUL-safe (43_huffman_container.md R241). -/

namespace Sys2Proof.Machine

/-- A filename that is written whole is scanned to its end (log 12). -/
theorem fnameHasZero_of_holds {s : State} {a : Nat} {f : List Byte} (h : Memory.holds s.fnameMem a f) :
    fnameHasZero s a f.length = .ok (decide (0 ∈ f)) := by
  induction f generalizing a with
  | nil => rfl
  | cons b f ih =>
    have hb : Memory.read s.fnameMem a = some b := h 0 (Nat.zero_lt_succ _)
    have hrest := ih (a := a + 1) fun i hi => by
      have := h (i + 1) (Nat.succ_lt_succ hi)
      rwa [← Nat.add_assoc, Nat.add_right_comm] at this
    rw [List.length_cons, fnameHasZero, hb]
    by_cases h0 : b = 0
    · subst h0
      simp only [if_true, List.mem_cons_self, decide_true]
    · simp only [if_neg h0, hrest, List.mem_cons, Ne.symm h0, false_or]

theorem checkNulSafe_ok {s : State} {f : List Byte} (hf : Memory.holds s.fnameMem 0 f)
    (h : s.params.nulPolicy = .refuse → 0 ∉ f ∧ 0 ∉ beMin s.inLen.toNat) : checkNulSafe s f.length = .ok () := by
  unfold checkNulSafe
  cases hp : s.params.nulPolicy with
  | emit => rfl
  | refuse =>
    obtain ⟨h0, hsize⟩ := h hp
    simp only [fnameHasZero_of_holds hf, decide_eq_false h0, if_neg hsize]

theorem inLen_ne_zero {s : State} {bs : List Byte} (h : s.inputIs bs) (hne : bs ≠ []) : s.inLen ≠ 0 := by
  obtain ⟨hlen, -⟩ := h
  intro e
  rw [e] at hlen
  exact hne (List.length_eq_zero_iff.1 hlen.symm)

theorem checkData_ok {s : State} (h0 : s.inLen ≠ 0) (hmax : s.inLen.toNat ≤ s.params.inMax) : checkData s = .ok () := by
  rw [checkData, if_neg h0, checkInMax_ok hmax]

theorem checkEncode_ok {s : State} {f : List Byte} (h0 : s.inLen ≠ 0) (hmax : s.inLen.toNat ≤ s.params.inMax)
    (hf : s.nameIs f) (hfmax : f.length ≤ s.params.fnameMax)
    (hnul : s.params.nulPolicy = .refuse → 0 ∉ f ∧ 0 ∉ beMin s.inLen.toNat) : checkEncode s = .ok f.length := by
  obtain ⟨hlen, hlt, hname⟩ := hf
  have e : (BitVec.ofNat 32 f.length).toNat = f.length := Nat.mod_eq_of_lt hlt
  simp only [checkEncode, checkData_ok h0 hmax, hlen, needReg, e, if_neg (Nat.not_lt.2 hfmax),
    checkNulSafe_ok hname hnul]

end Sys2Proof.Machine
end

section
/-! PROOF. An encoder's WRITE stage as a completed command: OUT holds the container in whole bytes, or the command has
raised CapacityExceeded (43_huffman_container.md R240, R247, 44_lz78.md R276, R279). -/

namespace Sys2Proof.Machine

/-- What a flushed packer holds is its bytes. -/
theorem Packer.held_of_flushed {p : Packer} (hp : p.ok) (hnb : p.nbits = 0) :
    (Memory.slice p.out 0 p.outLen).length = p.outLen ∧ bytesBits (Memory.slice p.out 0 p.outLen) = p.held := by
  obtain ⟨-, -, hlisted, -⟩ := hp
  exact ⟨(Memory.holds_slice hlisted).1, by rw [Packer.held, hnb, bitsMSB_zero, List.append_nil]⟩

theorem State.outBytes_setPacker {s : State} {p : Packer} (h : p.outLen < 2 ^ 32) (e : Option ErrCode) :
    ((s.setPacker p).complete e).outBytes = Memory.slice p.out 0 p.outLen := by
  have elen : (BitVec.ofNat 32 p.outLen).toNat = p.outLen := Nat.mod_eq_of_lt h
  simp only [State.outBytes, State.complete_outLen, State.setPacker_outLen, State.complete_outMem,
    State.setPacker_outMem, elen]

/-- The command after a WRITE stage whose container fits in OUT. -/
theorem finish_writeContainer_fits {s : State} {bits : BitStr} (hwf : Memory.wf s.outMem)
    (hmax : s.params.outMax < 2 ^ 32) (hfit : ceilDiv8 bits.length ≤ s.params.outMax) :
    ∃ t : State, finish (writeContainer s bits) = .next t ∧ t.outBytes.length = ceilDiv8 bits.length ∧
      bytesBits t.outBytes = bits ++ zeros (8 * ceilDiv8 bits.length - bits.length) ∧
      (∀ a, ceilDiv8 bits.length ≤ a → Memory.read t.outMem a = Memory.read s.outMem a) ∧
      t = { s.complete none with
        outMem := t.outMem
        outLen := some (BitVec.ofNat 32 (ceilDiv8 bits.length))
        bpAcc := some 0
        bpNbits := some 0 } := by
  rcases writeContainer_spec hwf bits with ⟨hfull, -⟩ | ⟨-, q, e, hok, hlen, hacc, hnb, hheld, hframe⟩
  · omega
  obtain ⟨hsliceLen, hsliceBits⟩ := Packer.held_of_flushed hok hnb
  have hout := State.outBytes_setPacker (s := s) (p := q) (by omega) none
  refine ⟨(s.setPacker q).complete none, by rw [e, finish_done], ?_, ?_, hframe, ?_⟩
  · rw [hout, hsliceLen, hlen]
  · rw [hout, hsliceBits, hheld]
  · rw [← hlen]
    simp only [State.complete, State.setPacker, hacc, hnb]
    rfl

/-- The command after a WRITE stage whose container is longer than OUT. -/
theorem finish_writeContainer_full {s : State} {bits : BitStr} (hwf : Memory.wf s.outMem)
    (hfull : s.params.outMax < ceilDiv8 bits.length) :
    finish (writeContainer s bits) = .next { s.complete none with
      fileSize := none
      outMem := []
      outLen := none
      bpAcc := none
      bpNbits := none
      status := { s.status.complete none with err := true, errCode := 7 } } := by
  rcases writeContainer_spec hwf bits with ⟨-, e⟩ | ⟨hfit, -⟩
  · rw [e]; rfl
  · omega

end Sys2Proof.Machine
end

section
/-! PROOF. HUF_ENCODE is the three stages, then the container of their code table (43_huffman_container.md R240, R242). -/

namespace Sys2Proof.Machine

/-! ## The stages as commands of their own -/

/-- A stage does not look at what a completion writes, and keeps it (40_command.md R163). -/
theorem stageBuild_complete {s t : State} (h : stageBuild s = .ok t) (e : Option ErrCode) :
    stageBuild (s.complete e) = .ok (t.complete e) := by
  unfold stageBuild at h ⊢
  rw [State.complete_freqMem]
  split at h
  · cases h
  · cases h
    rfl

theorem stageCodes_complete {s t : State} (h : stageCodes s = .ok t) (e : Option ErrCode) :
    stageCodes (s.complete e) = .ok (t.complete e) := by
  unfold stageCodes at h ⊢
  rw [State.complete_nodeMem, State.complete_root]
  split at h
  · cases h
  · cases h
    rfl

theorem exec_hufStats_of_stage {s t : State} (hc : checkData s = .ok ()) (h : stageStats s = .ok t) :
    exec .hufStats s = .next (t.complete none) := by
  rw [exec_eq_finish, perform, hufStats, hc, h]
  rfl

theorem exec_hufBuild_of_stage {s t : State} (hf : s.status.freqValid = true) (h : stageBuild s = .ok t) :
    exec .hufBuild (s.complete none) = .next (t.complete none) := by
  rw [exec_eq_finish, perform, hufBuild, State.complete_status, Status.complete_freqValid, if_pos hf,
    stageBuild_complete h]
  rfl

theorem exec_hufCodes_of_stage {s t : State} (ht : s.status.treeValid = true) (h : stageCodes s = .ok t) :
    exec .hufCodes (s.complete none) = .next (t.complete none) := by
  rw [exec_eq_finish, perform, hufCodes, State.complete_status, Status.complete_treeValid, if_pos ht,
    stageCodes_complete h]
  rfl

theorem stageStats_freqValid {s t : State} (h : stageStats s = .ok t) : t.status.freqValid = true := by
  rcases stageStats_cases s with ⟨bs, -, e⟩ | ⟨f, e⟩ <;> rw [e] at h <;> cases h
  rfl

theorem stageBuild_treeValid {s t : State} (h : stageBuild s = .ok t) : t.status.treeValid = true := by
  rcases stageBuild_cases s with ⟨ws, -, -, e⟩ | ⟨f, e⟩ <;> rw [e] at h <;> cases h
  rfl

/-- HUF_STATS, HUF_BUILD and HUF_CODES issued in turn leave what the three stages leave (R242). -/
theorem exec_hufStages {s t : State} (hc : checkData s = .ok ()) (h : hufStages s = .ok t) :
    ∃ s1 s2, exec .hufStats s = .next s1 ∧ exec .hufBuild s1 = .next s2 ∧
      exec .hufCodes s2 = .next (t.complete none) := by
  obtain ⟨u1, u2, hstats, hbuild, hcodes⟩ := hufStages_ok_split h
  exact ⟨u1.complete none, u2.complete none, exec_hufStats_of_stage hc hstats,
    exec_hufBuild_of_stage (stageStats_freqValid hstats) hbuild,
    exec_hufCodes_of_stage (stageBuild_treeValid hbuild) hcodes⟩

/-! ## The container -/

theorem codesOf_of_holds {codes : Memory BitStr} {table : List BitStr} (h : Memory.holds codes 0 table) {ks : List Nat}
    (hk : ∀ k ∈ ks, k < table.length) : codesOf codes ks = .ok (ks.map fun k => table.getD k []) := by
  induction ks with
  | nil => rfl
  | cons k ks ih =>
    have hlt := hk k List.mem_cons_self
    have hread : Memory.read codes k = some (table.getD k []) := by
      rw [← Nat.zero_add k, h k hlt, Nat.zero_add, List.getElem?_eq_getElem hlt, List.getD_eq_getElem _ _ hlt]
    have hrest := ih fun j hj => hk j (List.mem_cons_of_mem k hj)
    simp only [codesOf, codeOf, hread, hrest, List.map_cons]

theorem map_getD_range {α : Type} (l : List α) (d : α) : (List.range l.length).map (fun k => l.getD k d) = l :=
  List.ext_getElem (by simp) fun i _ hi => by simp [hi]

theorem hufStream_of_table {s : State} {bs f : List Byte} {table : List BitStr} (h : s.inputIs bs)
    (hf : Memory.holds s.fnameMem 0 f) (ht : Memory.holds s.codeMem 0 table) (hlen : table.length = 256) :
    hufStream s f.length = .ok (hufContainer f bs.length table (bs.map fun b => table.getD b.toNat [])) := by
  have htable : codesOf s.codeMem (List.range 256) = .ok table := by
    rw [codesOf_of_holds ht fun k hk => hlen ▸ List.mem_range.1 hk, ← hlen, map_getD_range]
  have hpayload : codesOf s.codeMem (bs.map BitVec.toNat) = .ok (bs.map fun b => table.getD b.toNat []) := by
    rw [codesOf_of_holds ht fun k hk => ?_, List.map_map]
    · rfl
    · obtain ⟨b, -, rfl⟩ := List.mem_map.1 hk
      exact hlen ▸ b.isLt
  simp only [hufStream, fnameBytes_of_nameIs hf, htable, inBytes_of_inputIs h, hpayload]
  rw [h.1]

/-- The stages before WRITE succeed on any input, keep what WRITE reads, and give every symbol a code. -/
theorem hufStages_succeed {s : State} {bs : List Byte} (h : s.inputIs bs) :
    ∃ t, hufStages s = .ok t ∧ t.inputIs bs ∧ t.fnameMem = s.fnameMem ∧ t.outMem = s.outMem ∧ t.params = s.params ∧
      Memory.listed t.codeMem 0 256 := by
  obtain ⟨ws, c, -, hstages, -, hcodes, -⟩ := hufStages_ok h
  exact ⟨_, hstages, h, rfl, rfl, rfl, fun i hi => by rw [Nat.zero_add]; exact hcodes i hi⟩

theorem exec_hufEncode_of_stream {s t : State} {n : Nat} {bits : BitStr} (hc : checkEncode s = .ok n)
    (ht : hufStages s = .ok t) (hbits : hufStream t n = .ok bits) :
    exec .hufEncode s = finish (writeContainer t bits) := by
  rw [exec_eq_finish, perform]
  simp only [hufEncode, hc, ht, hbits]

/-- Settles O39: the commands in turn are the stages, and the rest of HUF_ENCODE is its WRITE stage. -/
theorem hufEncodeWritesTheContainer : Obligations.HufEncodeWritesTheContainer := by
  intro s bs f hin hne hinMax hname hfmax houtMax hwf hnul
  have h0 := inLen_ne_zero hin hne
  rw [← hin.1] at hinMax hnul
  have hcheck := checkEncode_ok h0 hinMax hname hfmax hnul
  obtain ⟨-, -, hf⟩ := hname
  obtain ⟨t, hstages, hin', hfname, hout, hparams, hlisted⟩ := hufStages_succeed hin
  obtain ⟨s1, s2, hstats, hbuild, hcodes⟩ := exec_hufStages (checkData_ok h0 hinMax) hstages
  obtain ⟨hlen, htable⟩ := Memory.holds_slice hlisted
  refine ⟨s1, s2, t.complete none, Memory.slice t.codeMem 0 256, hstats, hbuild, hcodes, rfl, hlen, ?_⟩
  intro bits hbits
  have hstream := hufStream_of_table hin' (hfname ▸ hf) htable hlen
  rw [← hbits] at hstream
  rw [exec_hufEncode_of_stream hcheck hstages hstream, ← hparams, ← hout]
  rw [← hparams] at houtMax
  rw [← hout] at hwf
  exact ⟨finish_writeContainer_fits hwf houtMax, finish_writeContainer_full hwf⟩

end Sys2Proof.Machine
end

section
/-! PROOF. LZ_ENCODE is LZ_SEGMENT, then the container of its tokens (44_lz78.md R276, R279). -/

namespace Sys2Proof.Machine

theorem exec_lzSegment_of_input {s : State} {bs : List Byte} (hc : checkData s = .ok ()) (h : s.inputIs bs) :
    exec .lzSegment s = .next ((s.setSegments (Seg.start.run bs)).complete none) := by
  rw [exec_eq_finish, perform]
  simp only [lzSegment, hc, stageSegment, inBytes_of_inputIs h, finish_done]

/-- The segmentation of an input that IN_LEN can measure has counts that fit their registers (R274). -/
theorem Seg.run_bounds {bs : List Byte} (h : bs.length < 2 ^ 32) :
    (Seg.start.run bs).tokens.length < 2 ^ 32 ∧ ceilLog2 (Seg.start.run bs).dict.count ≤ 32 := by
  obtain ⟨-, hcount, hbytes⟩ := Seg.after_start.run bs
  have htoks := (Seg.start.run bs).tokens_length_le
  exact ⟨by omega, (ceilLog2_le_iff _ _).2 (by omega)⟩

/-- TOK[0..TOKEN_COUNT) after the segmentation is its tokens (R271). -/
theorem State.setSegments_tokens (s : State) {g : Seg} (h : g.tokens.length < 2 ^ 32) :
    Memory.slice (s.setSegments g).tokMem 0 (s.setSegments g).tokenCount.toNat = g.tokens := by
  have e : (BitVec.ofNat 32 g.tokens.length).toNat = g.tokens.length := Nat.mod_eq_of_lt h
  rw [State.setSegments_tokMem, State.setSegments_tokenCount, e]
  refine Memory.slice_of_holds fun i hi => ?_
  rw [Memory.read_writeList .nil, if_pos (by omega), Nat.zero_add, Nat.sub_zero]

/-- Settles O46: LZ_SEGMENT leaves the segmentation, and the rest of LZ_ENCODE is its WRITE stage. -/
theorem lzEncodeWritesTheContainer : Obligations.LzEncodeWritesTheContainer := by
  intro s bs f hin hne hinMax hname hfmax houtMax hwf hnul
  have h0 := inLen_ne_zero hin hne
  obtain ⟨htoks, hwidth⟩ := Seg.run_bounds (hin.1 ▸ s.inLen.isLt)
  have ewidth : (BitVec.ofNat 6 (ceilLog2 (Seg.start.run bs).dict.count)).toNat =
      ceilLog2 (Seg.start.run bs).dict.count := Nat.mod_eq_of_lt (by omega)
  rw [← hin.1] at hinMax hnul
  have hcheck := checkEncode_ok h0 hinMax hname hfmax hnul
  obtain ⟨-, -, hf⟩ := hname
  have hencode := lzEncode_writes hin hf hcheck
  refine ⟨_, _, exec_lzSegment_of_input (checkData_ok h0 hinMax) hin, rfl, ?_⟩
  intro bits hbits
  rw [ewidth, State.complete_tokMem, State.complete_tokenCount, State.setSegments_tokens s htoks] at hbits
  rw [← hbits] at hencode
  rw [exec_eq_finish, perform, hencode]
  exact ⟨finish_writeContainer_fits (s := s.setSegments _) hwf houtMax,
    finish_writeContainer_full (s := s.setSegments _) hwf⟩

end Sys2Proof.Machine
end

section
/-! PROOF. What a command word starts: the host's write to CMD, the engine's step, NOP, and what each completion writes to
STATUS (40_command.md R160 to R165). -/

namespace Sys2Proof.Machine

/-- No row of R322 has code 5: only an illegal word completes with it (R113, R114). -/
theorem possibleCodes_subset_raised (i : Instr) : possibleCodes i ⊆ [0, 2, 4, 6, 7, 8, 9] := by
  cases i <;> decide

/-- Settles O10: the completion writes these fields, with a code of the command's row of R322. -/
theorem completionWritesStatus : Obligations.CompletionWritesStatus := by
  intro i s t h
  obtain ⟨e, u, hcode, rfl⟩ := exec_completes (perform_codes i s) h
  exact ⟨rfl, rfl, bne_iff_ne, possibleCodes_subset_raised i hcode⟩

theorem engineStep_of_decode {s : State} {i : Instr} (h : decode s.cmd = .ok i) : engineStep s = exec i s := by
  simp only [engineStep, h]

theorem decode_of_decodeTableWord {nbits w : Nat} {i : Instr} (h : decodeTableWord nbits w = some i) :
    decode (tableWord nbits w) = .ok i := by
  unfold decodeTableWord at h
  split at h
  · rename_i j hj
    cases h
    exact hj
  · cases h

/-- The issued word's engine turn comes first and runs on the state the issue leaves (log 4). -/
theorem step_issueNow (s : State) (w : Word) : step (issueNow s w) = engineStep (s.issue w) := by
  rw [step_busy_engineTurn (s := issueNow s w) (es := s.events) rfl rfl]
  rfl

/-- Settles O4: each event that gives the engine its turn runs `engineStep`, and `withFetchWord` puts such an event first. -/
theorem stepRunsTheDecodedCommand : Obligations.StepRunsTheDecodedCommand := by
  constructor
  · intro s i hb hi
    refine ⟨fun he => ?_, fun es he => ?_, fun es he => ?_⟩
    · rw [step_busy_waiting hb (.inl he), engineStep_of_decode hi]
    · rw [step_busy_engineTurn hb he, engineStep_of_decode (s := { s with events := es }) hi]
    · rw [step_busy_waiting hb (.inr ⟨es, he⟩), engineStep_of_decode hi]
  · intro s nbits w i hi
    rw [State.withFetchWord, step_issueNow,
      engineStep_of_decode (s := s.issue (tableWord nbits w)) (decode_of_decodeTableWord hi)]

/-- Settles O5: the host's write is an access, which R350 drops while BUSY = 1 and which is an issue otherwise. -/
theorem cmdWriteIssues : Obligations.CmdWriteIssues := by
  intro s v es he
  cases hb : s.status.busy with
  | false => rw [step_hostIdle hb he]; rfl
  | true => rw [step_host he, hostAccess, if_pos hb]; rfl

/-- Settles O17: the word is NOP's encoding, and NOP completes at once. -/
theorem nopCompletes : Obligations.NopCompletes :=
  ⟨fun w => decodeEncodeAgree w .nop, fun _ => rfl⟩

end Sys2Proof.Machine
end

section
/-! PROOF. A command whose inputs are specified completes: none of its computations reads UNSPECIFIED state
(60_exceptions.md R323, 70_reset_and_hazards.md R344). -/

namespace Sys2Proof.Machine

/-- The computation stopped with an error of the block, not with a fault of the model (60_exceptions.md R323). -/
def Stop.Raised : Stop → Prop
  | .raise _ => True
  | .fault _ => False

/-- The command ends with a completion, with or without an error. -/
def Perf.Completes : Perf → Prop
  | .done _ => True
  | .raised _ _ => True
  | .faulted _ => False

theorem exec_next_of_completes {i : Instr} {s : State} (h : (perform i s).Completes) : ∃ t, exec i s = .next t := by
  rw [exec_eq_finish]
  cases hp : perform i s with
  | done t => exact ⟨_, finish_done t⟩
  | raised e t => exact ⟨_, finish_raised e t⟩
  | faulted f => rw [hp] at h; exact h.elim

theorem stopAt_completes {t : State} {x : Stop} (hx : x.Raised) : (stopAt t x).Completes := by
  cases x with
  | raise e => trivial
  | fault f => exact hx

theorem inputIs_of_listed {s : State} (h : Memory.listed s.inMem 0 s.inLen.toNat) : ∃ bs, s.inputIs bs := by
  obtain ⟨hlen, hbs⟩ := Memory.holds_slice h
  exact ⟨_, hlen.symm, hbs⟩

section
variable {s : State} {bs f : List Byte} {x : Stop}

/-! ## The argument checks -/

theorem checkInMax_raised (h : checkInMax s = .error x) : x.Raised := by
  rcases checkInMax_cases s with ⟨-, e⟩ | ⟨-, e⟩ <;> rw [e] at h <;> cases h
  trivial

theorem checkData_raised (h : checkData s = .error x) : x.Raised := by
  rcases checkData_cases s with ⟨-, -, e⟩ | ⟨-, e⟩ | ⟨-, -, e⟩ <;> rw [e] at h <;> cases h
  · trivial
  · trivial

theorem checkNulSafe_raised (hf : Memory.holds s.fnameMem 0 f) (h : checkNulSafe s f.length = .error x) : x.Raised := by
  unfold checkNulSafe at h
  rw [fnameHasZero_of_holds hf] at h
  split at h
  · cases h
  · split at h
    · rename_i hscan; cases hscan
    · cases h; trivial
    · split at h
      · cases h; trivial
      · cases h

theorem checkEncode_raised {n : Word} (hn : s.fnameLen = some n) (hlen : f.length = n.toNat)
    (hf : Memory.holds s.fnameMem 0 f) (h : checkEncode s = .error x) : x.Raised := by
  simp only [checkEncode, hn, needReg, ← hlen] at h
  split at h
  · rename_i hx; cases h; exact checkData_raised hx
  split at h
  · cases h; trivial
  split at h
  · rename_i hx; cases h; exact checkNulSafe_raised hf hx
  · cases h

/-! ## Reads of IN below IN_LEN -/

theorem inByte_ok (hin : s.inputIs bs) {i : Nat} (hi : i < s.inLen.toNat) : ∃ b, inByte s i = .ok b :=
  ⟨_, inByte_of_inputIs hin (List.getElem?_eq_getElem (hin.1 ▸ hi))⟩

theorem inBytes_ok (hin : s.inputIs bs) {i n : Nat} (hn : i + n ≤ s.inLen.toNat) : ∃ body, inBytes s i n = .ok body :=
  ⟨_, inBytes_part hin (hin.1 ▸ hn)⟩

theorem inBit_ok (hin : s.inputIs bs) {pos : Nat} (hpos : 0 < bitsLeft s pos) : ∃ b, inBit s pos = .ok b := by
  have hlt : pos < (bytesBits bs).length := by
    unfold bitsLeft at hpos
    rw [bytesBits_length, ← hin.1]
    omega
  exact ⟨_, inBit_of_inputIs hin (List.getElem?_eq_getElem hlt)⟩

theorem readBits_raised (hin : s.inputIs bs) {pos n : Nat} (h : readBits s pos n = .error x) : x.Raised := by
  rcases Nat.lt_or_ge (8 * s.inLen.toNat - pos) n with hlt | hge
  · rw [readBits_short hlt] at h
    cases h
    trivial
  · rw [hin.1] at hge
    rw [readBits_of_inputIs hin hge (by omega)] at h
    cases h

/-! ## The header fields -/

theorem scanField_raised (hin : s.inputIs bs) {limit n k cnt : Nat} {e : ErrCode} (hn : n ≤ s.inLen.toNat - k)
    (h : scanField s limit e n k cnt = .error x) : x.Raised := by
  induction n generalizing k cnt with
  | zero => cases h; trivial
  | succ n ih =>
    obtain ⟨b, hb⟩ := inByte_ok hin (i := k) (by omega)
    simp only [scanField, hb] at h
    split at h
    · cases h
    split at h
    · cases h; trivial
    split at h
    · rename_i hx; cases h; exact ih (by omega) hx
    · cases h

theorem parseField_raised (hin : s.inputIs bs) {limit pos : Nat} {e : ErrCode}
    (h : parseField s limit e pos = .error x) : x.Raised :=
  scanField_raised hin (Nat.le_refl _) h

theorem parseSize_raised (hin : s.inputIs bs) {pos : Nat} (h : parseSize s pos = .error x) : x.Raised := by
  unfold parseSize at h
  split at h
  · rename_i hx; cases h; exact parseField_raised hin hx
  split at h
  · cases h; trivial
  split at h
  · cases h; trivial
  · cases h

theorem parseWidth_raised (hin : s.inputIs bs) {pos : Nat} (h : parseWidth s pos = .error x) : x.Raised := by
  unfold parseWidth at h
  split at h
  · rename_i hx; cases h; exact parseField_raised hin hx
  split at h
  · cases h; trivial
  · cases h

/-! ## The decoders' payloads -/

theorem parseTable_raised (hin : s.inputIs bs) {n sym pos : Nat} (h : parseTable s n sym pos = .error x) :
    x.Raised := by
  induction n generalizing sym pos with
  | zero => cases h
  | succ n ih =>
    unfold parseTable at h
    split at h
    · cases h; trivial
    rename_i hpos
    obtain ⟨len, hlen⟩ := inByte_ok hin (i := pos) (by omega)
    simp only [hlen] at h
    split at h
    · cases h; trivial
    rename_i hbody
    obtain ⟨body, hread⟩ := inBytes_ok hin (Nat.le_of_not_lt hbody)
    simp only [hread] at h
    split at h
    · rename_i hx; cases h; exact ih hx
    · cases h

theorem decodeSymbol_raised (hin : s.inputIs bs) {codes : Memory BitStr} {n pos : Nat} {acc : BitStr}
    (hn : n ≤ bitsLeft s pos) (h : decodeSymbol s codes n pos acc = .error x) : x.Raised := by
  induction n generalizing pos acc with
  | zero => cases h; trivial
  | succ n ih =>
    obtain ⟨b, hb⟩ := inBit_ok hin (Nat.lt_of_lt_of_le n.succ_pos hn)
    simp only [decodeSymbol, hb] at h
    split at h
    · cases h
    · exact ih (by unfold bitsLeft at hn ⊢; omega) h

theorem decodeSymbols_raised (hin : s.inputIs bs) {codes : Memory BitStr} {n pos : Nat}
    (h : decodeSymbols s codes n pos = .error x) : x.Raised := by
  induction n generalizing pos with
  | zero => cases h
  | succ n ih =>
    unfold decodeSymbols at h
    split at h
    · rename_i hx; cases h; exact decodeSymbol_raised hin (Nat.le_refl _) hx
    split at h
    · rename_i hx; cases h; exact ih hx
    · cases h

theorem segmentOf_raised {d : Dict} {p : Nat} {c : Byte} (h : segmentOf d p c = .error x) : x.Raised := by
  rcases segmentOf_cases d p c with ⟨seg, e, -⟩ | ⟨-, e⟩ <;> rw [e] at h <;> cases h
  trivial

theorem replay_raised (hin : s.inputIs bs) {w size n pos out : Nat} {d : Dict}
    (h : replay s w size n pos out d = .error x) : x.Raised := by
  induction n generalizing pos out d with
  | zero => cases h
  | succ n ih =>
    unfold replay at h
    split at h
    · cases h
    split at h
    · rename_i hx; cases h; exact readBits_raised hin hx
    split at h
    · rename_i hx; cases h; exact readBits_raised hin hx
    split at h
    · rename_i hx; cases h; exact segmentOf_raised hx
    split at h
    · cases h; trivial
    split at h
    · rename_i hx; cases h; exact ih hx
    · cases h

/-! ## The packer and the bit reader -/

theorem packer_ok_of_isSome (hlen : s.outLen.isSome) (hacc : s.bpAcc.isSome) (hnb : s.bpNbits.isSome) :
    ∃ p, s.packer = .ok p := by
  obtain ⟨len, hlen⟩ := Option.isSome_iff_exists.1 hlen
  obtain ⟨acc, hacc⟩ := Option.isSome_iff_exists.1 hacc
  obtain ⟨nb, hnb⟩ := Option.isSome_iff_exists.1 hnb
  exact ⟨Packer.mk len.toNat acc.toNat nb.toNat s.outMem, by simp only [State.packer, hlen, hacc, hnb, needReg]⟩

theorem bpPut_completes {p : Packer} (hp : s.packer = .ok p) : (bpPut s).Completes := by
  simp only [bpPut, hp]
  split
  · trivial
  · split <;> trivial

theorem bpFlush_completes {p : Packer} (hp : s.packer = .ok p) : (bpFlush s).Completes := by
  simp only [bpFlush, hp]
  split <;> trivial

theorem cursorPos_ok_of_isSome (hbyte : s.brByte.isSome) (hbit : s.brBit.isSome) : ∃ pos, cursorPos s = .ok pos := by
  obtain ⟨b, hb⟩ := Option.isSome_iff_exists.1 hbyte
  obtain ⟨k, hk⟩ := Option.isSome_iff_exists.1 hbit
  exact ⟨8 * b.toNat + k.toNat, by simp only [cursorPos, hb, hk, needReg]⟩

theorem brRead_completes (hin : s.inputIs bs) {pos : Nat} (hpos : cursorPos s = .ok pos) (n : Nat) :
    (brRead s n).Completes := by
  simp only [brRead, hpos]
  split
  · rename_i hx; exact stopAt_completes (readBits_raised hin hx)
  · trivial

theorem brGetbit_completes (hin : s.inputIs bs) {pos : Nat} (hpos : cursorPos s = .ok pos) :
    (brGetbit s).Completes := by
  unfold brGetbit
  split
  · rename_i hx; exact stopAt_completes (checkInMax_raised hx)
  · exact brRead_completes hin hpos 1

theorem brGetbits_completes (hin : s.inputIs bs) {pos : Nat} (hpos : cursorPos s = .ok pos) :
    (brGetbits s).Completes := by
  unfold brGetbits
  split
  · rename_i hx; exact stopAt_completes (checkInMax_raised hx)
  split
  · trivial
  · exact brRead_completes hin hpos _

/-! ## The stages as commands -/

theorem hufStats_completes (hin : s.inputIs bs) : (hufStats s).Completes := by
  unfold hufStats
  split
  · rename_i hx; exact stopAt_completes (checkData_raised hx)
  · simp only [stageStats, inBytes_of_inputIs hin]
    trivial

theorem hufBuild_completes (h : s.status.freqValid = true → Memory.listed s.freqMem 0 256) :
    (hufBuild s).Completes := by
  unfold hufBuild
  split
  · rename_i hfreq
    obtain ⟨hlen, hws⟩ := Memory.holds_slice (h hfreq)
    have hread := readRange_ok (f := .unspecifiedRecord .freq) hws
    rw [hlen] at hread
    simp only [stageBuild, hread]
    trivial
  · trivial

theorem hufCodes_completes (h : s.status.treeValid = true → treeOk s.nodeMem ∧ s.root = 510) :
    (hufCodes s).Completes := by
  unfold hufCodes
  split
  · rename_i htree
    obtain ⟨hnodes, hroot⟩ := h htree
    obtain ⟨c, hstage, -⟩ := stageCodes_ok hnodes hroot
    rw [hstage]
    trivial
  · trivial

theorem lzSegment_completes (hin : s.inputIs bs) : (lzSegment s).Completes := by
  unfold lzSegment
  split
  · rename_i hx; exact stopAt_completes (checkData_raised hx)
  · simp only [stageSegment, inBytes_of_inputIs hin]
    trivial

/-! ## The encoders and decoders -/

theorem writeContainer_completes (t : State) (bits : BitStr) : (writeContainer t bits).Completes := by
  unfold writeContainer
  split
  · trivial
  · split <;> trivial

/-- With FNAME_LEN specified and FNAME written up to it, an encoder's argument checks pass or raise an error (R241). -/
theorem checkEncode_ok_or_raised {n : Word} (hn : s.fnameLen = some n) (hlen : f.length = n.toNat)
    (hf : Memory.holds s.fnameMem 0 f) :
    checkEncode s = .ok f.length ∨ ∃ x : Stop, x.Raised ∧ checkEncode s = .error x := by
  cases hc : checkEncode s with
  | error x => exact .inr ⟨x, checkEncode_raised hn hlen hf hc, rfl⟩
  | ok m =>
    rcases checkEncode_cases s with ⟨n', hn', -, -, -, e⟩ | ⟨y, -, e⟩ | ⟨g, e⟩ <;> rw [e] at hc <;> cases hc
    rw [hn] at hn'
    cases hn'
    exact .inl (by rw [hlen])

theorem hufEncode_completes {n : Word} (hin : s.inputIs bs) (hn : s.fnameLen = some n) (hlen : f.length = n.toNat)
    (hf : Memory.holds s.fnameMem 0 f) : (hufEncode s).Completes := by
  rcases checkEncode_ok_or_raised hn hlen hf with hc | ⟨x, hx, hc⟩
  · obtain ⟨_, _, _, _, t, -, -, -, -, -, -, e⟩ := hufEncode_writes hin hf hc
    rw [e]
    exact writeContainer_completes t _
  · simp only [hufEncode, hc]
    exact stopAt_completes hx

theorem lzEncode_completes {n : Word} (hin : s.inputIs bs) (hn : s.fnameLen = some n) (hlen : f.length = n.toNat)
    (hf : Memory.holds s.fnameMem 0 f) : (lzEncode s).Completes := by
  rcases checkEncode_ok_or_raised hn hlen hf with hc | ⟨x, hx, hc⟩
  · rw [lzEncode_writes hin hf hc]
    exact writeContainer_completes _ _
  · simp only [lzEncode, hc]
    exact stopAt_completes hx

theorem hufDecode_completes (hin : s.inputIs bs) : (hufDecode s).Completes := by
  unfold hufDecode
  split
  · rename_i hx; exact stopAt_completes (checkInMax_raised hx)
  split
  · rename_i hx; exact stopAt_completes (parseField_raised hin hx)
  split
  · rename_i hx; exact stopAt_completes (parseSize_raised hin hx)
  split
  · rename_i hx; exact stopAt_completes (parseTable_raised hin hx)
  split
  · rename_i hx; exact stopAt_completes (decodeSymbols_raised hin hx)
  · trivial

theorem lzDecode_completes (hin : s.inputIs bs) : (lzDecode s).Completes := by
  unfold lzDecode
  split
  · rename_i hx; exact stopAt_completes (checkInMax_raised hx)
  split
  · rename_i hx; exact stopAt_completes (parseField_raised hin hx)
  split
  · rename_i hx; exact stopAt_completes (parseSize_raised hin hx)
  split
  · rename_i hx; exact stopAt_completes (parseWidth_raised hin hx)
  split
  · rename_i hx; exact stopAt_completes (replay_raised hin hx)
  · trivial

end

/-- A command that is given all it reads (R344) completes. -/
theorem perform_completes {i : Instr} {s : State} (h : readyFor i s) : (perform i s).Completes := by
  cases i with
  | nop => trivial
  | bpReset => trivial
  | bpPut =>
    obtain ⟨hlen, hacc, hnb⟩ := h
    obtain ⟨p, hp⟩ := packer_ok_of_isSome hlen hacc hnb
    exact bpPut_completes hp
  | bpFlush =>
    obtain ⟨hlen, hacc, hnb⟩ := h
    obtain ⟨p, hp⟩ := packer_ok_of_isSome hlen hacc hnb
    exact bpFlush_completes hp
  | brGetbit =>
    obtain ⟨hbyte, hbit, hlisted⟩ := h
    obtain ⟨bs, hin⟩ := inputIs_of_listed hlisted
    obtain ⟨pos, hpos⟩ := cursorPos_ok_of_isSome hbyte hbit
    exact brGetbit_completes hin hpos
  | brGetbits =>
    obtain ⟨hbyte, hbit, hlisted⟩ := h
    obtain ⟨bs, hin⟩ := inputIs_of_listed hlisted
    obtain ⟨pos, hpos⟩ := cursorPos_ok_of_isSome hbyte hbit
    exact brGetbits_completes hin hpos
  | hufStats =>
    obtain ⟨bs, hin⟩ := inputIs_of_listed h
    exact hufStats_completes hin
  | hufBuild => exact hufBuild_completes h
  | hufCodes => exact hufCodes_completes h
  | hufEncode =>
    obtain ⟨hlisted, n, hn, hname⟩ := h
    obtain ⟨bs, hin⟩ := inputIs_of_listed hlisted
    obtain ⟨hlen, hf⟩ := Memory.holds_slice hname
    exact hufEncode_completes hin hn hlen hf
  | hufDecode =>
    obtain ⟨bs, hin⟩ := inputIs_of_listed h
    exact hufDecode_completes hin
  | lzSegment =>
    obtain ⟨bs, hin⟩ := inputIs_of_listed h
    exact lzSegment_completes hin
  | lzEncode =>
    obtain ⟨hlisted, n, hn, hname⟩ := h
    obtain ⟨bs, hin⟩ := inputIs_of_listed hlisted
    obtain ⟨hlen, hf⟩ := Memory.holds_slice hname
    exact lzEncode_completes hin hn hlen hf
  | lzDecode =>
    obtain ⟨bs, hin⟩ := inputIs_of_listed h
    exact lzDecode_completes hin

/-- Settles O16: no command's rule ends in a fault, so each one is followed by its completion. -/
theorem readyCommandsComplete : Obligations.ReadyCommandsComplete := fun _ _ h =>
  exec_next_of_completes (perform_completes h)

end Sys2Proof.Machine
end

section
/-! PROOF. The Huffman commands' argument checks (41_huffman_tree.md R180, 43_huffman_container.md R241). -/

namespace Sys2Proof.Machine

/-- The commands that read original data stop at its check, the first thing they do (R180, R241). -/
theorem perform_of_checkData_raise {i : Instr} (hi : i ∈ ([.hufStats, .hufEncode, .lzSegment, .lzEncode] : List Instr))
    {s : State} {e : ErrCode} (h : checkData s = .error (.raise e)) : perform i s = .raised e s := by
  have hencode : checkEncode s = .error (.raise e) := by rw [checkEncode, h]
  simp only [List.mem_cons, List.not_mem_nil, or_false] at hi
  rcases hi with rfl | rfl | rfl | rfl
  · simp only [perform, hufStats, h, stopAt_raise]
  · simp only [perform, hufEncode, hencode, stopAt_raise]
  · simp only [perform, lzSegment, h, stopAt_raise]
  · simp only [perform, lzEncode, hencode, stopAt_raise]

/-- Settles O28: `checkData` tests IN_LEN = 0 first, then IN_LEN > IN_MAX. -/
theorem originalDataChecks : Obligations.OriginalDataChecks := by
  intro i hi s
  constructor
  · intro h0
    have hcheck : checkData s = .error (.raise .emptyInput) := by rw [checkData, if_pos h0]
    rw [exec_eq_finish, perform_of_checkData_raise hi hcheck]
    rfl
  · intro h0 hmax
    have hcheck : checkData s = .error (.raise .invalidArgument) := by
      rw [checkData, if_neg h0, checkInMax, if_pos hmax]
    rw [exec_eq_finish, perform_of_checkData_raise hi hcheck]
    rfl

/-- Settles O32: both commands look at their input's validity flag first. -/
theorem invalidStateChecks : Obligations.InvalidStateChecks := by
  constructor
  · intro s hfreq
    rw [exec_eq_finish, perform, hufBuild, if_neg (by simp [hfreq])]
    rfl
  · intro s htree
    rw [exec_eq_finish, perform, hufCodes, if_neg (by simp [htree])]
    rfl

end Sys2Proof.Machine
end

section
/-! PROOF. HUF_STATS counts the input's bytes (41_huffman_tree.md R181, R182). -/

namespace Sys2Proof.Machine

/-- FREQ after HUF_STATS: element k is the count of byte value k (R181). -/
theorem read_freqTable (bs : List Byte) {k : Nat} (hk : k < 256) :
    Memory.read (freqTable bs) k = some (BitVec.ofNat 32 (bs.count (BitVec.ofNat 8 k))) := by
  have hread := Memory.read_of_indices (freqTable_indices bs) k hk
  rw [Nat.zero_add] at hread
  rw [hread, freqTable, List.getElem?_map, List.getElem?_range hk]
  rfl

/-- A sum over a range of indices, as the library's lemmas on sums have it. -/
theorem sum_map_range (n : Nat) (f : Nat → Nat) : ((List.range n).map f).sum = ∑ k ∈ Finset.range n, f k := rfl

/-- Every byte is counted at exactly one byte value (R182). -/
theorem sum_count_bytes (bs : List Byte) :
    ((List.range 256).map fun k => bs.count (BitVec.ofNat 8 k)).sum = bs.length := by
  have hcount : ∀ k ∈ List.range 256, bs.count (BitVec.ofNat 8 k) = (bs.map BitVec.toNat).count k := fun k hk => by
    have e : (BitVec.ofNat 8 k).toNat = k := Nat.mod_eq_of_lt (List.mem_range.1 hk)
    have hinj := List.count_map_of_injective bs BitVec.toNat (fun _ _ => BitVec.eq_of_toNat_eq) (BitVec.ofNat 8 k)
    rw [e] at hinj
    exact hinj.symm
  have hlt : ∀ a ∈ (↑(bs.map BitVec.toNat) : Multiset Nat), a ∈ Finset.range 256 := fun a ha => by
    obtain ⟨b, -, rfl⟩ := List.mem_map.1 ha
    exact Finset.mem_range.2 b.isLt
  rw [List.map_congr_left hcount, sum_map_range]
  simp only [← Multiset.coe_count]
  rw [Multiset.sum_count_eq_card hlt, Multiset.coe_card, List.length_map]

/-- HUF_STATS on an input within IN_MAX (R181). -/
theorem exec_hufStats_of_input {s : State} {bs : List Byte} (hin : s.inputIs bs) (hne : bs ≠ [])
    (hmax : bs.length ≤ s.params.inMax) :
    exec .hufStats s = .next { s with
      freqMem := freqTable bs
      fileSize := some s.inLen
      status := { s.status with busy := false, done := true, err := false, errCode := 0, freqValid := true } } := by
  have hcheck := checkData_ok (inLen_ne_zero hin hne) (hin.1 ▸ hmax)
  have hstage : stageStats s = .ok { s with
      freqMem := freqTable bs
      fileSize := some s.inLen
      status := { s.status with freqValid := true } } := by simp only [stageStats, inBytes_of_inputIs hin]
  exact exec_hufStats_of_stage hcheck hstage

/-- Settles O27: no count can exceed the input's length, which IN_LEN holds in 32 bits. -/
theorem hufStatsCountsBytes : Obligations.HufStatsCountsBytes := by
  intro s bs hin hne hmax
  have hlt (b : Byte) : bs.count b < 2 ^ 32 := (List.count_le_length.trans_eq hin.1.symm).trans_lt s.inLen.isLt
  refine ⟨_, exec_hufStats_of_input hin hne hmax, fun b => ⟨?_, hlt b⟩, ?_, rfl⟩
  · rw [read_freqTable bs b.isLt, BitVec.ofNat_toNat, BitVec.setWidth_eq]
  · rw [← sum_count_bytes bs]
    refine congrArg List.sum (List.map_congr_left fun k hk => ?_)
    rw [read_freqTable bs (List.mem_range.1 hk), Option.getD_some, BitVec.toNat_ofNat, Nat.mod_eq_of_lt (hlt _)]

end Sys2Proof.Machine
end

section
/-! PROOF. The merge loop's queue: what it holds after each merge, and so which two roots the next merge takes
(41_huffman_tree.md R183 to R187). -/

namespace Sys2Proof.Machine

/-! ## The order of keys -/

theorem Key.lt_iff {a b : Key} : Key.lt a b = true ↔ a.1 < b.1 ∨ a.1 = b.1 ∧ a.2 < b.2 := by
  simp [Key.lt]

theorem Key.lt_trans {a b c : Key} (hab : Key.lt a b = true) (hbc : Key.lt b c = true) : Key.lt a c = true := by
  rw [Key.lt_iff] at *
  omega

theorem Key.weight_le {a b : Key} (h : Key.lt a b = true) : a.1 ≤ b.1 := by
  rw [Key.lt_iff] at h
  omega

theorem Key.lt_of_not_lt {a b : Key} (hne : b.2 ≠ a.2) (h : ¬ Key.lt a b = true) : Key.lt b a = true := by
  rw [Key.lt_iff] at *
  omega

/-- Insertion keeps the queue in rising key order, when no key of it has the new one's index. -/
theorem insertKey_sorted {x : Key} {q : List Key} (hq : q.Pairwise fun y z => Key.lt y z = true)
    (hx : ∀ y ∈ q, y.2 ≠ x.2) : (insertKey x q).Pairwise fun y z => Key.lt y z = true := by
  induction q with
  | nil => exact List.pairwise_singleton _ _
  | cons y q ih =>
    obtain ⟨hy, hq'⟩ := List.pairwise_cons.1 hq
    unfold insertKey
    split
    · rename_i hlt
      refine List.pairwise_cons.2 ⟨fun z hz => ?_, hq⟩
      rcases List.mem_cons.1 hz with rfl | hz
      · exact hlt
      · exact Key.lt_trans hlt (hy z hz)
    · rename_i hlt
      refine List.pairwise_cons.2 ⟨fun z hz => ?_, ih hq' fun z hz => hx z (List.mem_cons_of_mem _ hz)⟩
      rcases List.mem_cons.1 ((insertKey_perm x q).mem_iff.1 hz) with rfl | hz
      · exact Key.lt_of_not_lt (hx y List.mem_cons_self) hlt
      · exact hy z hz

theorem leafQueue_index {k : Nat} {ws : List Word} {x : Key} (hx : x ∈ leafQueue k ws) :
    k ≤ x.2 ∧ x.2 < k + ws.length := by
  rw [← List.mem_range'_1]
  exact (leafQueue_perm k ws).mem_iff.1 (List.mem_map_of_mem hx)

theorem leafQueue_sorted (k : Nat) (ws : List Word) :
    (leafQueue k ws).Pairwise fun y z => Key.lt y z = true := by
  induction ws generalizing k with
  | nil => exact .nil
  | cons w ws ih =>
    refine insertKey_sorted (ih (k + 1)) fun y hy => ?_
    obtain ⟨hge, -⟩ := leafQueue_index hy
    exact Nat.ne_of_gt hge

/-- The keys of the leaves are their counts. -/
theorem leafQueue_weight {k : Nat} {ws : List Word} {x : Key} (hx : x ∈ leafQueue k ws) :
    x.1 = (ws.getD (x.2 - k) 0).toNat := by
  induction ws generalizing k with
  | nil => cases hx
  | cons w ws ih =>
    rcases List.mem_cons.1 ((insertKey_perm _ _).mem_iff.1 hx) with rfl | hx
    · simp
    · obtain ⟨hge, -⟩ := leafQueue_index hx
      rw [ih hx, show x.2 - k = x.2 - (k + 1) + 1 by omega, List.getD_cons_succ]

theorem leafQueue_sum (k : Nat) (ws : List Word) :
    ((leafQueue k ws).map Prod.fst).sum = (ws.map BitVec.toNat).sum := by
  induction ws generalizing k with
  | nil => rfl
  | cons w ws ih =>
    rw [leafQueue, ((insertKey_perm _ _).map _).sum_eq, List.map_cons, List.sum_cons, ih, List.map_cons, List.sum_cons]

/-! ## The children of the internal nodes -/

/-- The left child of a node, 0 where NODE lists none. -/
def leftChild (nodes : Memory Node) (n : Nat) : Nat :=
  match Memory.read nodes n with
  | some nd => nd.left.toNat
  | none => 0

/-- The right child of a node, 0 where NODE lists none. -/
def rightChild (nodes : Memory Node) (n : Nat) : Nat :=
  match Memory.read nodes n with
  | some nd => nd.right.toNat
  | none => 0

theorem leftChild_of_read {nodes : Memory Node} {n : Nat} {nd : Node} (h : Memory.read nodes n = some nd) :
    leftChild nodes n = nd.left.toNat := by
  simp only [leftChild, h]

theorem rightChild_of_read {nodes : Memory Node} {n : Nat} {nd : Node} (h : Memory.read nodes n = some nd) :
    rightChild nodes n = nd.right.toNat := by
  simp only [rightChild, h]

theorem getElem?_flatMap_pair {α β : Type} (l : List α) (f g : α → β) (k : Nat) :
    (l.flatMap fun x => [f x, g x])[2 * k]? = l[k]?.map f ∧
      (l.flatMap fun x => [f x, g x])[2 * k + 1]? = l[k]?.map g := by
  induction l generalizing k with
  | nil => simp
  | cons x l ih =>
    cases k with
    | zero => simp
    | succ k => simpa [Nat.mul_succ] using ih k

theorem treeOk.treeChildren_eq {nodes : Memory Node} (h : treeOk nodes) : treeChildren nodes =
    (List.range 255).flatMap fun k => [leftChild nodes (256 + k), rightChild nodes (256 + k)] := by
  obtain ⟨-, hinternal, -⟩ := h
  refine List.flatMap_congr fun k hk => ?_
  obtain ⟨nd, hread, -⟩ := hinternal k (List.mem_range.1 hk)
  rw [Option.mem_def] at hread
  simp only [hread, leftChild, rightChild]

/-- Internal node 256 + k's children stand at the places 2k and 2k + 1. -/
theorem treeOk.treeChildren_getElem? {nodes : Memory Node} (h : treeOk nodes) {k : Nat} (hk : k < 255) :
    (treeChildren nodes)[2 * k]? = some (leftChild nodes (256 + k)) ∧
      (treeChildren nodes)[2 * k + 1]? = some (rightChild nodes (256 + k)) := by
  have hpair := getElem?_flatMap_pair (List.range 255) (fun k => leftChild nodes (256 + k))
    (fun k => rightChild nodes (256 + k)) k
  rwa [List.getElem?_range hk, ← h.treeChildren_eq] at hpair

/-- The children up to internal node 256 + k. -/
theorem treeOk.take_treeChildren {nodes : Memory Node} (h : treeOk nodes) {k : Nat} (hk : k < 255) :
    (treeChildren nodes).take (2 * (k + 1)) =
      (treeChildren nodes).take (2 * k) ++ [leftChild nodes (256 + k), rightChild nodes (256 + k)] := by
  obtain ⟨hleft, hright⟩ := h.treeChildren_getElem? hk
  rw [Nat.mul_succ, List.take_add_one, List.take_add_one, hleft, hright]
  simp

/-! ## The queue after each merge -/

/-- The queue after one merge, which made node `i` of its two least keys (R183). -/
def mergeStep (i : Nat) : List Key → List Key
  | a :: b :: q => insertKey (a.1 + b.1, i) q
  | q => q

/-- The queue of the builder after its first `k` merges (R183). -/
def queueAt (ws : List Word) : Nat → List Key
  | 0 => leafQueue 0 ws
  | k + 1 => mergeStep (256 + k) (queueAt ws k)

section
variable {ws : List Word} {k : Nat} {a b : Key} {q : List Key}

theorem queueAt_succ (hq : queueAt ws k = a :: b :: q) : queueAt ws (k + 1) = insertKey (a.1 + b.1, 256 + k) q := by
  rw [queueAt, hq, mergeStep]

theorem queueAt_succ_perm (hq : queueAt ws k = a :: b :: q) :
    (queueAt ws (k + 1)).Perm ((a.1 + b.1, 256 + k) :: q) :=
  queueAt_succ hq ▸ insertKey_perm _ _

theorem eq_cons_cons_of_length {q : List Key} (h : 2 ≤ q.length) : ∃ a b q', q = a :: b :: q' :=
  match q, h with
  | a :: b :: q', _ => ⟨a, b, q', rfl⟩

/-- Each merge leaves one key less. -/
theorem queueAt_length (hlen : ws.length = 256) (hk : k ≤ 255) : (queueAt ws k).length = 256 - k := by
  induction k with
  | zero => simpa [queueAt, hlen] using (leafQueue_perm 0 ws).length_eq
  | succ k ih =>
    have hbefore := ih (by omega)
    obtain ⟨a, b, q, hq⟩ := eq_cons_cons_of_length (q := queueAt ws k) (by omega)
    have hafter := (queueAt_succ_perm hq).length_eq
    rw [hq] at hbefore
    simp only [List.length_cons] at hbefore hafter
    omega

/-- While merges remain, two roots are left to merge. -/
theorem queueAt_cons_cons (hlen : ws.length = 256) (hk : k < 255) : ∃ a b q, queueAt ws k = a :: b :: q :=
  eq_cons_cons_of_length (by rw [queueAt_length hlen (by omega)]; omega)

/-- The arena ends with the nodes of the merges that remain. -/
theorem mergeLoop_suffix_buildTree (hlen : ws.length = 256) (hk : k ≤ 255) :
    mergeLoop (255 - k) (256 + k) (queueAt ws k) <:+ buildTree ws := by
  induction k with
  | zero => exact List.suffix_append _ _
  | succ k ih =>
    obtain ⟨a, b, q, hq⟩ := queueAt_cons_cons hlen (k := k) (by omega)
    have hrest := ih (by omega)
    rw [show 255 - k = 255 - (k + 1) + 1 by omega, hq, mergeLoop, ← queueAt_succ hq] at hrest
    exact (List.suffix_cons _ _).trans hrest

/-- Merge `k` makes node 256 + k of the two keys at the head of the queue (R183). -/
theorem read_merge (hlen : ws.length = 256) (hk : k < 255) (hq : queueAt ws k = a :: b :: q) :
    Memory.read (buildTree ws) (256 + k) = some (mergeNode a b) := by
  have hsuffix := mergeLoop_suffix_buildTree hlen (k := k) (by omega)
  rw [show 255 - k = 254 - k + 1 by omega, hq, mergeLoop] at hsuffix
  exact Memory.read_of_mem (Memory.wf_of_indices (buildTree_indices hlen)) (hsuffix.subset List.mem_cons_self)

end

/-- The queue after `k` merges: its keys, in rising order, are the keys of the nodes still roots, and their weights sum to
the counts' sum. -/
structure QueueInv (ws : List Word) (k : Nat) : Prop where
  sorted : (queueAt ws k).Pairwise fun x y => Key.lt x y = true
  index : ∀ x ∈ queueAt ws k, x.2 < 256 + k
  key : ∀ x ∈ queueAt ws k, keyAt (buildTree ws) x.2 = x
  sum : ((queueAt ws k).map Prod.fst).sum = (ws.map BitVec.toNat).sum
  roots : ∀ j < 256 + k, j ∉ (treeChildren (buildTree ws)).take (2 * k) → j ∈ (queueAt ws k).map Prod.snd

theorem keyAt_of_read {nodes : Memory Node} {n : Nat} {nd : Node} (h : Memory.read nodes n = some nd) :
    keyAt nodes n = (nd.weight.toNat, n) := by
  simp only [keyAt, weightAt, h]

theorem QueueInv.zero {ws : List Word} (hlen : ws.length = 256) : QueueInv ws 0 := by
  obtain ⟨-, hweight⟩ := treeOk_buildTree hlen
  have hindex : ∀ x ∈ leafQueue 0 ws, x.2 < 256 := fun x hx => by
    obtain ⟨-, hlt⟩ := leafQueue_index hx
    omega
  refine ⟨leafQueue_sorted 0 ws, hindex, fun x hx => ?_, leafQueue_sum 0 ws, fun j hj _ => ?_⟩
  · rw [keyAt, hweight x.2 (hindex x hx)]
    have hcount := leafQueue_weight hx
    rw [Nat.sub_zero] at hcount
    rw [← hcount]
  · refine (leafQueue_perm 0 ws).mem_iff.2 ?_
    rw [List.mem_range'_1]
    omega

section
variable {ws : List Word} {k : Nat} {a b : Key} {q : List Key}

/-- The merged weight is exact: it does not exceed the counts' sum (R187). -/
theorem QueueInv.weight_lt (hinv : QueueInv ws k) (hsum : (ws.map BitVec.toNat).sum < 2 ^ 32)
    (hq : queueAt ws k = a :: b :: q) : a.1 + b.1 < 2 ^ 32 := by
  have h := hinv.sum
  rw [hq, List.map_cons, List.map_cons, List.sum_cons, List.sum_cons] at h
  omega

/-- The node a merge makes: its children are the two least roots, its weight the sum of theirs (R183). -/
theorem QueueInv.merge (hlen : ws.length = 256) (hsum : (ws.map BitVec.toNat).sum < 2 ^ 32) (hinv : QueueInv ws k)
    (hk : k < 255) (hq : queueAt ws k = a :: b :: q) :
    ∃ nd, Memory.read (buildTree ws) (256 + k) = some nd ∧ nd.left.toNat = a.2 ∧ nd.right.toNat = b.2 ∧
      nd.weight.toNat = a.1 + b.1 := by
  have ha := hinv.index a (hq ▸ List.mem_cons_self)
  have hb := hinv.index b (hq ▸ List.mem_cons_of_mem _ List.mem_cons_self)
  exact ⟨_, read_merge hlen hk hq, Nat.mod_eq_of_lt (by omega), Nat.mod_eq_of_lt (by omega),
    Nat.mod_eq_of_lt (hinv.weight_lt hsum hq)⟩

theorem QueueInv.succ (hlen : ws.length = 256) (hsum : (ws.map BitVec.toNat).sum < 2 ^ 32) (hinv : QueueInv ws k)
    (hk : k < 255) : QueueInv ws (k + 1) := by
  obtain ⟨htree, -⟩ := treeOk_buildTree hlen
  obtain ⟨a, b, q, hq⟩ := queueAt_cons_cons hlen hk
  obtain ⟨nd, hread, hleft, hright, hweight⟩ := hinv.merge hlen hsum hk hq
  obtain ⟨hsorted, hindex, hkey, htotal, hroots⟩ := hinv
  rw [hq] at hsorted hindex hkey htotal hroots
  have hperm := queueAt_succ_perm hq
  have hq_mem : ∀ x ∈ q, x ∈ a :: b :: q := fun x hx => List.mem_cons_of_mem _ (List.mem_cons_of_mem _ hx)
  constructor
  case sorted =>
    rw [queueAt_succ hq]
    exact insertKey_sorted hsorted.of_cons.of_cons fun y hy => (hindex y (hq_mem y hy)).ne
  case index =>
    intro x hx
    rcases List.mem_cons.1 (hperm.mem_iff.1 hx) with rfl | hx
    · exact Nat.lt_succ_self _
    · exact Nat.lt_succ_of_lt (hindex x (hq_mem x hx))
  case key =>
    intro x hx
    rcases List.mem_cons.1 (hperm.mem_iff.1 hx) with rfl | hx
    · rw [keyAt_of_read hread, hweight]
    · exact hkey x (hq_mem x hx)
  case sum =>
    rw [(hperm.map _).sum_eq, ← htotal]
    simp only [List.map_cons, List.sum_cons]
    omega
  case roots =>
    intro j hj hnew
    rw [htree.take_treeChildren hk, leftChild_of_read hread, rightChild_of_read hread, hleft, hright] at hnew
    simp only [List.mem_append, List.mem_cons, List.not_mem_nil, or_false, not_or] at hnew
    obtain ⟨hold, hja, hjb⟩ := hnew
    rw [(hperm.map _).mem_iff, List.map_cons, List.mem_cons]
    by_cases hlast : j = 256 + k
    · exact .inl hlast
    · have hmem := hroots j (by omega) hold
      simp only [List.map_cons, List.mem_cons] at hmem
      exact .inr ((hmem.resolve_left hja).resolve_left hjb)

end

theorem queueInv {ws : List Word} (hlen : ws.length = 256) (hsum : (ws.map BitVec.toNat).sum < 2 ^ 32) {k : Nat}
    (hk : k ≤ 255) : QueueInv ws k := by
  induction k with
  | zero => exact .zero hlen
  | succ k ih => exact (ih (by omega)).succ hlen hsum (by omega)

end Sys2Proof.Machine
end

section
/-! PROOF. HUF_BUILD makes a tree, each merge of which took the two least keys (41_huffman_tree.md R183 to R188). -/

namespace Sys2Proof.Machine

/-- HUF_BUILD on 256 counts (R183). -/
theorem exec_hufBuild_of_counts {s : State} {ws : List Word} (hfreq : s.status.freqValid = true)
    (hlen : ws.length = 256) (hws : Memory.holds s.freqMem 0 ws) :
    exec .hufBuild s = .next { s with
      nodeMem := buildTree ws
      root := 510
      status := { s.status with busy := false, done := true, err := false, errCode := 0, treeValid := true } } := by
  have hread := readRange_ok (f := .unspecifiedRecord .freq) hws
  rw [hlen] at hread
  rw [exec_eq_finish, perform, hufBuild, if_pos hfreq]
  simp only [stageBuild, hread]
  rfl

/-- The key left when all merges are done is that of node 510, whose weight is the counts' sum (R185). -/
theorem weightAt_root {ws : List Word} (hlen : ws.length = 256) (hsum : (ws.map BitVec.toNat).sum < 2 ^ 32) :
    weightAt (buildTree ws) 510 = (ws.map BitVec.toNat).sum := by
  obtain ⟨⟨-, -, hperm⟩, -⟩ := treeOk_buildTree hlen
  have hinv := queueInv hlen hsum (Nat.le_refl 255)
  obtain ⟨x, hx⟩ := List.length_eq_one_iff.1 (queueAt_length hlen (Nat.le_refl 255))
  have hroot : 510 ∉ (treeChildren (buildTree ws)).take (2 * 255) := fun h => by
    simpa using hperm.mem_iff.1 (List.mem_of_mem_take h)
  have hindex := hinv.roots 510 (by omega) hroot
  have hkey := hinv.key x (hx ▸ List.mem_cons_self)
  have htotal := hinv.sum
  rw [hx] at hindex htotal
  rw [List.map_singleton, List.mem_singleton] at hindex
  rw [List.map_singleton, List.sum_singleton] at htotal
  rw [← hindex] at hkey
  rw [← htotal, ← hkey, keyAt]

/-- Settles O29: what each merge made is read off the queue before it, and the root's weight off the queue at the end. -/
theorem hufBuildMakesATree : Obligations.HufBuildMakesATree := by
  intro s ws hfreq hlen hws hsum
  obtain ⟨htree, hleaves⟩ := treeOk_buildTree hlen
  refine ⟨_, exec_hufBuild_of_counts hfreq hlen hws, htree, Memory.wf_of_indices (buildTree_indices hlen), hleaves,
    fun k hk => ?_, weightAt_root hlen hsum, rfl⟩
  have hinv := queueInv hlen hsum (Nat.le_of_lt hk)
  obtain ⟨a, b, q, hq⟩ := queueAt_cons_cons hlen hk
  obtain ⟨nd, hread, hleft, hright, hweight⟩ := hinv.merge hlen hsum hk hq
  have ha := congrArg Prod.fst (hinv.key a (hq ▸ List.mem_cons_self))
  have hb := congrArg Prod.fst (hinv.key b (hq ▸ List.mem_cons_of_mem _ List.mem_cons_self))
  refine ⟨nd, hread, ?_⟩
  rw [hleft, hright, hweight, ← ha, ← hb, keyAt, keyAt]

/-- The left child's key is less than the right child's, and that is less than the key of every root the merge leaves
(R186). -/
theorem merge_takes_least {ws : List Word} (hlen : ws.length = 256) (hsum : (ws.map BitVec.toNat).sum < 2 ^ 32)
    {k : Nat} (hk : k < 255) {nd : Node} (hread : Memory.read (buildTree ws) (256 + k) = some nd) :
    Key.lt (keyAt (buildTree ws) nd.left.toNat) (keyAt (buildTree ws) nd.right.toNat) = true ∧
      ∀ j < 256 + k, j ∉ (treeChildren (buildTree ws)).take (2 * (k + 1)) →
        Key.lt (keyAt (buildTree ws) nd.right.toNat) (keyAt (buildTree ws) j) = true := by
  obtain ⟨htree, -⟩ := treeOk_buildTree hlen
  have hinv := queueInv hlen hsum (Nat.le_of_lt hk)
  obtain ⟨a, b, q, hq⟩ := queueAt_cons_cons hlen hk
  obtain ⟨nd', hread', hleft, hright, -⟩ := hinv.merge hlen hsum hk hq
  obtain rfl : nd' = nd := Option.some.inj (hread'.symm.trans hread)
  obtain ⟨hsorted, -, hkey, -, hroots⟩ := hinv
  rw [hq] at hsorted hkey hroots
  obtain ⟨hleast, hsorted'⟩ := List.pairwise_cons.1 hsorted
  obtain ⟨hsecond, -⟩ := List.pairwise_cons.1 hsorted'
  rw [hleft, hright, hkey a List.mem_cons_self, hkey b (List.mem_cons_of_mem _ List.mem_cons_self)]
  refine ⟨hleast b List.mem_cons_self, fun j hj hroot => ?_⟩
  rw [htree.take_treeChildren hk, leftChild_of_read hread, rightChild_of_read hread, hleft, hright] at hroot
  simp only [List.mem_append, List.mem_cons, List.not_mem_nil, or_false, not_or] at hroot
  obtain ⟨hold, hja, hjb⟩ := hroot
  have hmem := hroots j hj hold
  simp only [List.map_cons, List.mem_cons] at hmem
  obtain ⟨x, hx, rfl⟩ := List.mem_map.1 ((hmem.resolve_left hja).resolve_left hjb)
  rw [hkey x (List.mem_cons_of_mem _ (List.mem_cons_of_mem _ hx))]
  exact hsecond x hx

/-- A merge's weight is at most that of the next one, whose two keys both weigh at least this one's second (R187). -/
theorem weightAt_merge_le {ws : List Word} (hlen : ws.length = 256) (hsum : (ws.map BitVec.toNat).sum < 2 ^ 32)
    {k : Nat} (hk : k < 254) :
    weightAt (buildTree ws) (256 + k) ≤ weightAt (buildTree ws) (256 + (k + 1)) := by
  have hinv := queueInv hlen hsum (k := k) (by omega)
  have hinv' := queueInv hlen hsum (k := k + 1) (by omega)
  obtain ⟨a, b, q, hq⟩ := queueAt_cons_cons hlen (k := k) (by omega)
  obtain ⟨a', b', q', hq'⟩ := queueAt_cons_cons hlen (k := k + 1) (by omega)
  obtain ⟨nd, hread, -, -, hweight⟩ := hinv.merge hlen hsum (by omega) hq
  obtain ⟨nd', hread', -, -, hweight'⟩ := hinv'.merge hlen hsum (by omega) hq'
  have hsorted := hinv.sorted
  rw [hq] at hsorted
  obtain ⟨hleast, hsorted'⟩ := List.pairwise_cons.1 hsorted
  obtain ⟨hsecond, -⟩ := List.pairwise_cons.1 hsorted'
  have hab := Key.weight_le (hleast b List.mem_cons_self)
  have hnext : ∀ x ∈ queueAt ws (k + 1), b.1 ≤ x.1 := fun x hx => by
    rcases List.mem_cons.1 ((queueAt_succ_perm hq).mem_iff.1 hx) with rfl | hx
    · exact Nat.le_add_left _ _
    · exact Key.weight_le (hsecond x hx)
  have ha' := hnext a' (hq' ▸ List.mem_cons_self)
  have hb' := hnext b' (hq' ▸ List.mem_cons_of_mem _ List.mem_cons_self)
  simp only [weightAt, hread, hread', hweight, hweight']
  omega

/-- Settles O30: the queue is in rising key order before each merge, and holds every node that is still a root. -/
theorem mergesTakeTheLeastKeys : Obligations.MergesTakeTheLeastKeys := by
  intro s t ws hfreq hlen hws hsum hexec
  rw [exec_hufBuild_of_counts hfreq hlen hws] at hexec
  cases hexec
  exact ⟨fun k hk nd hread => merge_takes_least hlen hsum hk hread, fun k hk => weightAt_merge_le hlen hsum hk⟩

/-- Whatever else HUF_BUILD is given, its tree is that of the counts in FREQ (R188). -/
theorem hufBuild_next {s t : State} (hfreq : s.status.freqValid = true) (hexec : exec .hufBuild s = .next t) :
    t.nodeMem = buildTree (Memory.slice s.freqMem 0 256) ∧ t.root = 510 := by
  rcases stageBuild_cases s with ⟨ws, hlen, hws, -⟩ | ⟨f, hstage⟩
  · have hslice := Memory.slice_of_holds hws
    rw [hlen] at hslice
    rw [exec_hufBuild_of_counts hfreq hlen hws] at hexec
    cases hexec
    exact ⟨by rw [hslice], rfl⟩
  · rw [exec_eq_finish, perform, hufBuild, if_pos hfreq, hstage] at hexec
    cases hexec

/-- Settles O31: both trees are that of the same counts. -/
theorem treeDependsOnFreqAlone : Obligations.TreeDependsOnFreqAlone := by
  intro s1 s2 t1 t2 hsame hfreq1 hfreq2 hexec1 hexec2
  obtain ⟨hnodes1, hroot1⟩ := hufBuild_next hfreq1 hexec1
  obtain ⟨hnodes2, hroot2⟩ := hufBuild_next hfreq2 hexec2
  exact ⟨by rw [hnodes1, hnodes2, hsame], hroot1.trans hroot2.symm⟩

end Sys2Proof.Machine
end

section
/-! PROOF. HUF_CODES writes the path to each leaf; the codes of a tree are prefix-free (41_huffman_tree.md R190 to R194). -/

namespace Sys2Proof.Machine

section
variable {nodes : Memory Node} {n k : Nat} {nd : Node} {path : BitStr}

/-! ## Walks from a node -/

theorem treeWalk_nil_of_leaf (hread : Memory.read nodes n = some nd) (hleaf : nd.leaf = true) :
    treeWalk nodes n [] = some nd.sym.toNat := by
  simp only [treeWalk, hread, hleaf, if_true]

theorem treeWalk_cons_of_internal (hread : Memory.read nodes n = some nd) (hleaf : nd.leaf = false) (b : Bool) :
    treeWalk nodes n (b :: path) = treeWalk nodes (if b then nd.right.toNat else nd.left.toNat) path := by
  simp only [treeWalk, hread, hleaf, Bool.false_eq_true, if_false]

/-- A walk that ends in a leaf cannot be continued. -/
theorem treeWalk_append_of_some (h : treeWalk nodes n path = some k) {b : Bool} {rest : BitStr} :
    treeWalk nodes n (path ++ b :: rest) = none := by
  induction path generalizing n with
  | nil =>
    unfold treeWalk at h
    split at h
    · rename_i nd hread
      split at h
      · rename_i hleaf; simp only [List.nil_append, treeWalk, hread, hleaf, if_true]
      · cases h
    · cases h
  | cons c path ih =>
    unfold treeWalk at h
    split at h
    · rename_i nd hread
      split at h
      · cases h
      · rename_i hleaf
        rw [List.cons_append, treeWalk_cons_of_internal hread (by simpa using hleaf)]
        exact ih h
    · cases h

/-- Two walks to leaves, one's labels a prefix of the other's, are the same walk (R192). -/
theorem treeWalk_eq_of_prefix {c d : BitStr} {j : Nat} (hc : treeWalk nodes n c = some j)
    (hd : treeWalk nodes n d = some k) (h : c <+: d) : j = k := by
  obtain ⟨rest, rfl⟩ := h
  cases rest with
  | nil => exact Option.some.inj (by rw [← hc, ← hd, List.append_nil])
  | cons b rest => rw [treeWalk_append_of_some hc] at hd; cases hd

/-! ## The traversal's table -/

/-- The traversal of a node records, for every symbol, the path from that node, after the path it was given (R191). -/
theorem assignCodes_walk {d : Nat} {codes c : Memory BitStr} (h : assignCodes nodes d n path codes = .ok c)
    (hwf : Memory.wf codes) {p : BitStr} (hp : Memory.read c k = some p) :
    Memory.read codes k = some p ∨ ∃ rest, p = path ++ rest ∧ treeWalk nodes n rest = some k := by
  induction d generalizing n path codes c with
  | zero => cases h
  | succ d ih =>
    unfold assignCodes at h
    split at h
    · cases h
    rename_i nd hread
    split at h
    · rename_i hleaf
      cases h
      by_cases hk : k = nd.sym.toNat
      · subst hk
        rw [Memory.read_write_same] at hp
        cases hp
        exact .inr ⟨[], (List.append_nil _).symm, treeWalk_nil_of_leaf hread hleaf⟩
      · rw [Memory.read_write_other hwf _ hk] at hp
        exact .inl hp
    · rename_i hleaf
      rw [Bool.not_eq_true] at hleaf
      split at h
      · cases h
      rename_i c' hleft
      rcases ih h (assignCodes_keeps hleft hwf).1 hp with hp' | ⟨rest, rfl, hwalk⟩
      · rcases ih hleft hwf hp' with hold | ⟨rest, rfl, hwalk⟩
        · exact .inl hold
        · refine .inr ⟨false :: rest, by simp, ?_⟩
          rwa [treeWalk_cons_of_internal hread hleaf]
      · refine .inr ⟨true :: rest, by simp, ?_⟩
        rwa [treeWalk_cons_of_internal hread hleaf]

end

/-- The code table of a tree: every symbol has a code, the path from the root to its leaf (R191), at most 255 bits long
(R194). -/
structure CodeTable (nodes : Memory Node) (codes : Memory BitStr) : Prop where
  wf : Memory.wf codes
  listed : Memory.exactly codes 0 256
  walk : ∀ {k c}, Memory.read codes k = some c → treeWalk nodes 510 c = some k
  length_le : ∀ {k c}, Memory.read codes k = some c → c.length ≤ 255

/-- The traversal from a tree's root makes its code table (R190). -/
theorem stageCodes_codeTable {s : State} (hroot : s.root = 510) (hnodes : treeOk s.nodeMem) :
    ∃ codes, CodeTable s.nodeMem codes ∧
      stageCodes s = .ok { s with codeMem := codes, status := { s.status with codesValid := true } } := by
  obtain ⟨codes, hstage, hwf, hall, hlength⟩ := stageCodes_ok hnodes hroot
  refine ⟨codes, ?_, hstage⟩
  rcases stageCodes_cases s with ⟨codes', hassign, h⟩ | ⟨f, h⟩ <;> rw [hstage] at h <;> cases h
  have hstored := (assignCodes_legalUpdate hassign (Nat.le_refl _)).stores
  rw [show s.root.toNat = 510 by rw [hroot]; rfl] at hassign
  constructor
  case wf => exact hwf
  case listed =>
    refine ⟨fun i hi => by rw [Nat.zero_add]; exact hall i hi, fun x hx => ?_⟩
    obtain ⟨hlt, -⟩ := (hstored x hx).resolve_left List.not_mem_nil
    exact ⟨Nat.zero_le _, by omega⟩
  case walk =>
    intro k c hread
    rcases assignCodes_walk hassign .nil hread with hold | ⟨rest, rfl, hwalk⟩
    · cases hold
    · exact hwalk
  case length_le => exact hlength _ _

/-- HUF_CODES on a tree (R190). -/
theorem exec_hufCodes_of_tree {s : State} (htree : s.status.treeValid = true) (hroot : s.root = 510)
    (hnodes : treeOk s.nodeMem) :
    ∃ codes, CodeTable s.nodeMem codes ∧ exec .hufCodes s = .next { s with
      codeMem := codes
      status := { s.status with busy := false, done := true, err := false, errCode := 0, codesValid := true } } := by
  obtain ⟨codes, hcodes, hstage⟩ := stageCodes_codeTable hroot hnodes
  refine ⟨codes, hcodes, ?_⟩
  rw [exec_eq_finish, perform, hufCodes, if_pos htree, hstage]
  rfl

/-- The root of a tree is no leaf, so no code is empty. -/
theorem treeOk.treeWalk_root_nil {nodes : Memory Node} (h : treeOk nodes) : treeWalk nodes 510 [] = none := by
  obtain ⟨-, hinternal, -⟩ := h
  obtain ⟨nd, hread, hleaf, -⟩ := hinternal 254 (by omega)
  rw [Option.mem_def] at hread
  simp only [treeWalk, hread, hleaf, Bool.false_eq_true, if_false]

/-- Settles O33: the table is the tree's, and its codes are walks from the root, which is no leaf. -/
theorem hufCodesRecordsThePaths : Obligations.HufCodesRecordsThePaths := by
  intro s htree hroot hnodes
  obtain ⟨codes, hcodes, hexec⟩ := exec_hufCodes_of_tree htree hroot hnodes
  refine ⟨_, hexec, hcodes.listed, hcodes.wf, fun k _ c hread => ?_, rfl⟩
  have hwalk := hcodes.walk hread
  refine ⟨hwalk, ?_, hcodes.length_le hread⟩
  cases c with
  | nil => rw [hnodes.treeWalk_root_nil] at hwalk; cases hwalk
  | cons b c => exact Nat.le_add_left 1 c.length

/-- What HUF_CODES leaves in CODE, for any tree. -/
theorem hufCodes_next {s t : State} (htree : s.status.treeValid = true) (hroot : s.root = 510)
    (hnodes : treeOk s.nodeMem) (h : exec .hufCodes s = .next t) : CodeTable s.nodeMem t.codeMem := by
  obtain ⟨codes, hcodes, hexec⟩ := exec_hufCodes_of_tree htree hroot hnodes
  rw [hexec] at h
  cases h
  exact hcodes

/-- Settles O34: of two walks to leaves neither goes on where the other ends. -/
theorem hufCodesArePrefixFree : Obligations.HufCodesArePrefixFree := by
  intro s t htree hroot hnodes hexec j k c d hjk hc hd hprefix
  have hcodes := hufCodes_next htree hroot hnodes hexec
  exact hjk (treeWalk_eq_of_prefix (hcodes.walk hc) (hcodes.walk hd) hprefix)

end Sys2Proof.Machine
end

section
/-! PROOF. The codes of a tree are complete: their Kraft sum is 1 (41_huffman_tree.md R193). A node at depth d has the mass
2^(255 − d); an internal node's mass is that of its children together, and every node but the root is a child once, so the
leaves' masses sum to the root's. -/

namespace Sys2Proof.Machine

/-! ## Depths in a tree -/

/-- The internal node one of whose children is `n`: node 256 + k's children stand at the places 2k and 2k + 1. -/
def parentOf (nodes : Memory Node) (n : Nat) : Nat := 256 + (treeChildren nodes).idxOf n / 2

/-- The number of edges from the root down to a node; parents have the greater numbers (R185). -/
def depthOf (nodes : Memory Node) (n : Nat) : Nat :=
  if n < 510 ∧ n < parentOf nodes n then depthOf nodes (parentOf nodes n) + 1 else 0
termination_by 510 - n

section
variable {nodes : Memory Node} {n k : Nat}

theorem depthOf_root : depthOf nodes 510 = 0 := by
  rw [depthOf, if_neg (by omega)]

theorem depthOf_child (hn : n < 510) (hparent : parentOf nodes n = 256 + k) (hlt : n < 256 + k) :
    depthOf nodes n = depthOf nodes (256 + k) + 1 := by
  rw [depthOf, hparent, if_pos ⟨hn, hlt⟩]

/-- Every edge leads to a lower number. -/
theorem depthOf_le (n : Nat) : depthOf nodes n ≤ 510 - n := by
  induction hm : 510 - n using Nat.strong_induction_on generalizing n with
  | _ m ih =>
    rw [depthOf]
    split
    · rename_i hn
      have hparent := ih (510 - parentOf nodes n) (by omega) _ rfl
      omega
    · omega

/-- The children of internal node 256 + k are earlier nodes one edge further down. -/
theorem treeOk.depthOf_children (h : treeOk nodes) (hk : k < 255) :
    depthOf nodes (leftChild nodes (256 + k)) = depthOf nodes (256 + k) + 1 ∧
      depthOf nodes (rightChild nodes (256 + k)) = depthOf nodes (256 + k) + 1 := by
  obtain ⟨hleft, hright⟩ := h.treeChildren_getElem? hk
  obtain ⟨-, hinternal, hperm⟩ := h
  obtain ⟨nd, hread, -, -, hleft_lt, hright_lt⟩ := hinternal k hk
  rw [Option.mem_def] at hread
  rw [← leftChild_of_read hread] at hleft_lt
  rw [← rightChild_of_read hread] at hright_lt
  have hnodup : (treeChildren nodes).Nodup := hperm.nodup_iff.2 List.nodup_range
  have hchild {i c : Nat} (hi : (treeChildren nodes)[i]? = some c) (hik : i / 2 = k) (hlt : c < 256 + k) :
      depthOf nodes c = depthOf nodes (256 + k) + 1 := by
    obtain ⟨hi', rfl⟩ := List.getElem?_eq_some_iff.1 hi
    have hc := List.mem_range.1 (hperm.mem_iff.1 (List.getElem_mem hi'))
    exact depthOf_child hc (by rw [parentOf, hnodup.idxOf_getElem i hi', hik]) hlt
  exact ⟨hchild hleft (by omega) hleft_lt, hchild hright (by omega) hright_lt⟩

/-- A node of a tree is a leaf, which stands at its symbol, or an internal node. -/
theorem treeOk.node_cases (h : treeOk nodes) (hn : n ≤ 510) :
    (∃ nd, Memory.read nodes n = some nd ∧ nd.leaf = true ∧ nd.sym.toNat = n) ∨
      ∃ k < 255, n = 256 + k ∧ ∃ nd, Memory.read nodes n = some nd ∧ nd.leaf = false ∧
        nd.left.toNat < n ∧ nd.right.toNat < n := by
  obtain ⟨hleaves, hinternal, -⟩ := h
  rcases Nat.lt_or_ge n 256 with hlt | hge
  · obtain ⟨nd, hread, hleaf, hsym, -⟩ := hleaves n hlt
    exact .inl ⟨nd, hread, hleaf, by rw [hsym]; exact Nat.mod_eq_of_lt hlt⟩
  · obtain ⟨k, rfl⟩ := Nat.exists_eq_add_of_le hge
    obtain ⟨nd, hread, hleaf, -, hleft, hright⟩ := hinternal k (by omega)
    exact .inr ⟨k, by omega, rfl, nd, hread, hleaf, hleft, hright⟩

/-- A walk to a leaf goes one edge down with each label. -/
theorem treeOk.depthOf_of_walk (h : treeOk nodes) {path : BitStr} (hn : n ≤ 510)
    (hwalk : treeWalk nodes n path = some k) : depthOf nodes k = depthOf nodes n + path.length := by
  induction path generalizing n with
  | nil =>
    rcases h.node_cases hn with ⟨nd, hread, hleaf, hsym⟩ | ⟨-, -, -, nd, hread, hleaf, -⟩
    · rw [treeWalk_nil_of_leaf hread hleaf, hsym] at hwalk
      cases hwalk
      rfl
    · simp [treeWalk, hread, hleaf] at hwalk
  | cons b path ih =>
    rcases h.node_cases hn with ⟨nd, hread, hleaf, -⟩ | ⟨i, hi, rfl, nd, hread, hleaf, hleft, hright⟩
    · simp [treeWalk, hread, hleaf] at hwalk
    · obtain ⟨hdleft, hdright⟩ := h.depthOf_children hi
      rw [leftChild_of_read hread] at hdleft
      rw [rightChild_of_read hread] at hdright
      have hnext : (if b then nd.right.toNat else nd.left.toNat) < 256 + i ∧
          depthOf nodes (if b then nd.right.toNat else nd.left.toNat) = depthOf nodes (256 + i) + 1 := by
        split
        · exact ⟨hright, hdright⟩
        · exact ⟨hleft, hdleft⟩
      obtain ⟨hlt, hdepth⟩ := hnext
      rw [treeWalk_cons_of_internal hread hleaf] at hwalk
      rw [ih (by omega) hwalk, hdepth, List.length_cons]
      omega

/-! ## Masses -/

/-- The share of the 255-bit strings that begin with the path to a node, in numbers of strings. -/
def massOf (nodes : Memory Node) (n : Nat) : Nat := 2 ^ (255 - depthOf nodes n)

theorem massOf_root : massOf nodes 510 = 2 ^ 255 := by
  rw [massOf, depthOf_root]

theorem treeOk.massOf_children (h : treeOk nodes) (hk : k < 255) :
    massOf nodes (leftChild nodes (256 + k)) + massOf nodes (rightChild nodes (256 + k)) = massOf nodes (256 + k) := by
  obtain ⟨hleft, hright⟩ := h.depthOf_children hk
  have hdepth := depthOf_le (nodes := nodes) (256 + k)
  rw [massOf, massOf, massOf, hleft, hright, ← Nat.two_mul, ← Nat.pow_succ']
  congr 1
  omega

/-- All nodes but the root together weigh what the internal nodes do, each being a child of one of these once. -/
theorem treeOk.sum_massOf (h : treeOk nodes) :
    ((List.range 510).map (massOf nodes)).sum = ((List.range 255).map fun k => massOf nodes (256 + k)).sum := by
  have ⟨_, _, hperm⟩ := h
  rw [← (hperm.map _).sum_eq, h.treeChildren_eq, List.map_flatMap, List.flatMap_def, List.sum_flatten,
    List.map_map]
  refine congrArg List.sum (List.map_congr_left fun k hk => ?_)
  rw [← h.massOf_children (List.mem_range.1 hk)]
  simp

/-- The leaves weigh as much as the root (R193). -/
theorem treeOk.sum_massOf_leaves (h : treeOk nodes) : ((List.range 256).map (massOf nodes)).sum = 2 ^ 255 := by
  have hall := List.range_add (n := 256) (m := 254)
  have hinternal := List.range_succ (n := 254)
  simp only [Nat.reduceAdd] at hall hinternal
  have hsum := h.sum_massOf
  rw [hall, hinternal, List.map_append, List.map_append, List.sum_append, List.sum_append, List.map_map,
    List.map_singleton, List.sum_singleton, massOf_root, Nat.add_comm] at hsum
  exact Nat.add_left_cancel hsum

/-- A code's length is the depth of its symbol's leaf. -/
theorem CodeTable.mass {codes : Memory BitStr} (hcodes : CodeTable nodes codes) (h : treeOk nodes) {c : BitStr}
    (hread : Memory.read codes k = some c) : 2 ^ (255 - c.length) = massOf nodes k := by
  rw [massOf, h.depthOf_of_walk (Nat.le_refl _) (hcodes.walk hread), depthOf_root, Nat.zero_add]

end

/-- Settles O35: the sum over the codes is that of the leaves' masses. -/
theorem hufCodesAreComplete : Obligations.HufCodesAreComplete := by
  intro s t htree hroot hnodes hexec
  have hcodes := hufCodes_next htree hroot hnodes hexec
  obtain ⟨hlisted, -⟩ := hcodes.listed
  rw [← hnodes.sum_massOf_leaves, Memory.slice, List.map_filterMap, ← List.filterMap_eq_map]
  refine congrArg List.sum (List.filterMap_congr fun k hk => ?_)
  obtain ⟨c, hread⟩ := Option.isSome_iff_exists.1 (hlisted k (List.mem_range.1 hk))
  rw [hread, Option.map_some, hcodes.mass hnodes (by rwa [Nat.zero_add] at hread)]
  rfl

end Sys2Proof.Machine
end

section
/-! PROOF. The commands of the bit packer over a legal packer state (42_bitio.md R210 to R213). -/

namespace Sys2Proof.Machine

/-! ## The packer state in the registers -/

/-- A packer that fits OUT, stored back, is the packer state the registers hold, and they keep its bits. -/
theorem State.setPacker_packerIs {s : State} {p : Packer} (hmax : s.params.outMax < 2 ^ 32) (hp : p.ok)
    (hle : p.outLen ≤ s.params.outMax) :
    (s.setPacker p).packerIs p.outLen p.acc p.nbits ∧ (s.setPacker p).pendingBits = p.held := by
  obtain ⟨hnb, hacc, hlisted, hwf⟩ := hp
  have h : (s.setPacker p).packerIs p.outLen p.acc p.nbits :=
    ⟨rfl, rfl, rfl, hnb, hacc, hle, hmax, hlisted, hwf⟩
  obtain ⟨-, -, hpending⟩ := State.packer_of_packerIs h
  exact ⟨h, hpending⟩

/-- The packer of a legal state, stored back unchanged. -/
theorem State.packerIs.setPacker_self {s : State} {len acc nb : Nat} (h : s.packerIs len acc nb) :
    s.setPacker (Packer.mk len acc nb s.outMem) = s := by
  obtain ⟨hlen, hacc, hnb, -⟩ := h
  simp only [State.setPacker, ← hlen, ← hacc, ← hnb]

/-- OUT_LEN whole bytes and BP_NBITS bits are pending (R210). -/
theorem State.packerIs.pendingBits_length {s : State} {len acc nb : Nat} (h : s.packerIs len acc nb) :
    s.pendingBits.length = 8 * len + nb := by
  obtain ⟨-, ⟨-, -, hlisted, -⟩, hpending⟩ := State.packer_of_packerIs h
  obtain ⟨hslice, -⟩ := Memory.holds_slice hlisted
  rw [hpending, Packer.held, List.length_append, bytesBits_length, hslice, bitsMSB_length]

/-- With no partial byte the pending bits are those of OUT[0..OUT_LEN). -/
theorem State.packerIs.outBytes_of_flushed {s : State} {len acc : Nat} (h : s.packerIs len acc 0) :
    s.outBytes.length = len ∧ bytesBits s.outBytes = s.pendingBits := by
  have ⟨_, hacc, hnb, _⟩ := h
  have hbits : bytesBits s.outBytes = s.pendingBits := by
    simp only [State.pendingBits, hacc, hnb]
    exact (List.append_nil _).symm
  have hcount := h.pendingBits_length
  rw [← hbits, bytesBits_length] at hcount
  exact ⟨by omega, hbits⟩

/-! ## BP_RESET -/

/-- Settles O18: the word is BP_RESET's encoding, and the empty packer is stored back over the same OUT. -/
theorem bpResetEmptiesThePacker : Obligations.BpResetEmptiesThePacker :=
  ⟨fun w => decodeEncodeAgree w .bpReset, fun _ => rfl⟩

/-! ## BP_PUT -/

theorem bpPut_tooWide {s : State} (h : 32 < s.arg0.toNat) : bpPut s = .raised .invalidArgument s := if_pos h

theorem bpPut_full {s : State} {p : Packer} (harg : s.arg0.toNat ≤ 32) (hp : s.packer = .ok p)
    (hfull : s.params.outMax < p.outLen + (p.nbits + s.arg0.toNat) / 8) :
    bpPut s = .raised .capacityExceeded s := by
  have hfits : p.fits s.params.outMax s.arg0.toNat = false := decide_eq_false (Nat.not_le.2 hfull)
  simp only [bpPut, if_neg (Nat.not_lt.2 harg), hp, hfits, Bool.false_eq_true, if_false]

theorem bpPut_fits {s : State} {p : Packer} (harg : s.arg0.toNat ≤ 32) (hp : s.packer = .ok p)
    (hfit : p.outLen + (p.nbits + s.arg0.toNat) / 8 ≤ s.params.outMax) :
    bpPut s = .done (s.setPacker (p.pushAll (bitsMSB s.arg1.toNat s.arg0.toNat))) := by
  have hfits : p.fits s.params.outMax s.arg0.toNat = true := decide_eq_true hfit
  simp only [bpPut, if_neg (Nat.not_lt.2 harg), hp, hfits, if_true, bitsMSB_mod]

/-- Settles O19: the packer with the field's bits pushed is stored back. -/
theorem bpPutAppendsTheField : Obligations.BpPutAppendsTheField := by
  intro s len acc nb h harg hfit
  obtain ⟨hpacker, hok, hpending⟩ := State.packer_of_packerIs h
  obtain ⟨-, -, -, -, -, -, hmax, -⟩ := h
  obtain ⟨hok', hheld, hlen, hnb, hframe⟩ := Packer.pushAll_spec hok (bitsMSB s.arg1.toNat s.arg0.toNat)
  rw [bitsMSB_length] at hlen hnb
  simp only at hlen hnb
  obtain ⟨his, hbits⟩ := State.setPacker_packerIs (s := s) hmax hok' (hlen.trans_le hfit)
  rw [hlen, hnb] at his
  refine ⟨(s.setPacker _).complete none, _, ?_, his, hbits.trans ?_, fun a ha => hframe a ?_, rfl⟩
  · rw [exec_eq_finish, perform, bpPut_fits harg hpacker hfit, finish_done]
  · rw [hheld, hpending]
  · rwa [hlen]

/-- Settles O20: both checks come before the packer is stored. -/
theorem bpPutErrors : Obligations.BpPutErrors := by
  refine ⟨fun s harg => ?_, fun s len acc nb h harg hfull => ?_⟩
  · rw [exec_eq_finish, perform, bpPut_tooWide harg]
    rfl
  · obtain ⟨hpacker, -⟩ := State.packer_of_packerIs h
    rw [exec_eq_finish, perform, bpPut_full harg hpacker hfull]
    rfl

/-! ## BP_FLUSH -/

theorem bpFlush_ok {s : State} {p q : Packer} (hp : s.packer = .ok p) (hq : p.flush s.params.outMax = .ok q) :
    bpFlush s = .done (s.setPacker q) := by
  simp only [bpFlush, hp, hq]

theorem bpFlush_error {s : State} {p : Packer} {e : ErrCode} (hp : s.packer = .ok p)
    (he : p.flush s.params.outMax = .error e) : bpFlush s = .raised e s := by
  simp only [bpFlush, hp, he]

/-- Settles O21: each case of the statement is one of the packer's flush. -/
theorem bpFlushPadsTheByte : Obligations.BpFlushPadsTheByte := by
  intro s len acc nb h
  obtain ⟨hpacker, hok, hpending⟩ := State.packer_of_packerIs h
  have hself := h.setPacker_self
  obtain ⟨-, -, -, -, -, hle, hmax, -⟩ := h
  rcases Packer.flush_spec hok s.params.outMax hle with
    ⟨hnb, hflush⟩ | ⟨hnb, hlen, hflush⟩ | ⟨hnb, hlt, q, hflush, hok', hlen', hacc', hnb', hheld, hframe⟩ <;>
    simp only at hnb
  · refine ⟨fun _ => ?_, fun hne => absurd hnb hne, fun hne => absurd hnb hne⟩
    rw [exec_eq_finish, perform, bpFlush_ok hpacker hflush, hself]
    rfl
  · refine ⟨fun h0 => absurd h0 hnb, fun _ hlt => absurd hlen (Nat.ne_of_lt hlt), fun _ _ => ?_⟩
    rw [exec_eq_finish, perform, bpFlush_error hpacker hflush]
    rfl
  · refine ⟨fun h0 => absurd h0 hnb, fun _ _ => ?_, fun _ hfull => absurd hfull (Nat.ne_of_lt hlt)⟩
    obtain ⟨his, hbits⟩ := State.setPacker_packerIs (s := s) hmax hok' (hlen'.trans_le hlt)
    rw [hlen', hacc', hnb'] at his
    refine ⟨(s.setPacker q).complete none, ?_, his, hbits.trans ?_, hframe, rfl⟩
    · rw [exec_eq_finish, perform, bpFlush_ok hpacker hflush, finish_done]
    · rw [hheld, hpending]

end Sys2Proof.Machine
end

section
/-! PROOF. The packing law: the packed bytes are the fields' bits and a zero padding (42_bitio.md R214). -/

namespace Sys2Proof.Machine

@[simp] theorem fieldBits_nil : fieldBits [] = [] := rfl

@[simp] theorem fieldBits_cons (n : Nat) (v : Word) (fs : List (Nat × Word)) :
    fieldBits ((n, v) :: fs) = bitsMSB v.toNat n ++ fieldBits fs := rfl

/-- ARG0 holds any field width (R212, R221). -/
theorem toNat_ofNat_width {n : Nat} (h : n ≤ 32) : (BitVec.ofNat 32 n).toNat = n := Nat.mod_eq_of_lt (by omega)

/-- A PUT that does not fail leaves a legal packer state with the field appended (R212). -/
theorem packerIs_of_put {s t : State} {len acc nb n : Nat} {v : Word} (h : s.packerIs len acc nb) (hn : n ≤ 32)
    (hexec : exec .bpPut { s with arg0 := BitVec.ofNat 32 n, arg1 := v } = .next t) (herr : t.status.err = false) :
    (∃ len' acc' nb', t.packerIs len' acc' nb') ∧ t.pendingBits = s.pendingBits ++ bitsMSB v.toNat n := by
  have harg := toNat_ofNat_width hn
  by_cases hfit : len + (nb + n) / 8 ≤ s.params.outMax
  · obtain ⟨u, acc', hu, his, hbits, -⟩ := bpPutAppendsTheField { s with arg0 := BitVec.ofNat 32 n, arg1 := v }
      len acc nb h (harg.trans_le hn) (by rwa [harg])
    rw [hu] at hexec
    cases hexec
    exact ⟨⟨_, _, _, his⟩, by rw [hbits, harg]; rfl⟩
  · obtain ⟨-, hfull⟩ := bpPutErrors
    rw [hfull { s with arg0 := BitVec.ofNat 32 n, arg1 := v } len acc nb h (harg.trans_le hn)
      (by rw [harg]; exact Nat.lt_of_not_le hfit)] at hexec
    cases hexec
    cases herr

theorem putAll_cons {s t : State} {n : Nat} {v : Word} {fs : List (Nat × Word)}
    (h : putAll s ((n, v) :: fs) = some t) :
    ∃ u, exec .bpPut { s with arg0 := BitVec.ofNat 32 n, arg1 := v } = .next u ∧ u.status.err = false ∧
      putAll u fs = some t := by
  unfold putAll at h
  split at h
  · rename_i u hu
    cases herr : u.status.err with
    | true => rw [herr] at h; cases h
    | false => rw [herr] at h; exact ⟨u, hu, herr, h⟩
  · cases h

/-- PUTs that do not fail leave a legal packer state with their fields appended. -/
theorem packerIs_of_putAll {s t : State} {len acc nb : Nat} {fs : List (Nat × Word)} (h : s.packerIs len acc nb)
    (hfs : ∀ f ∈ fs, f.1 ≤ 32) (hput : putAll s fs = some t) :
    (∃ len' acc' nb', t.packerIs len' acc' nb') ∧ t.pendingBits = s.pendingBits ++ fieldBits fs := by
  induction fs generalizing s len acc nb with
  | nil =>
    cases hput
    exact ⟨⟨_, _, _, h⟩, (List.append_nil _).symm⟩
  | cons f fs ih =>
    obtain ⟨hn, hfs⟩ := List.forall_mem_cons.1 hfs
    obtain ⟨u, hexec, herr, hput⟩ := putAll_cons hput
    obtain ⟨⟨_, _, _, hu⟩, hbits⟩ := packerIs_of_put h hn hexec herr
    obtain ⟨ht, hbits'⟩ := ih hu hfs hput
    exact ⟨ht, by rw [hbits', hbits, List.append_assoc, fieldBits_cons]⟩

/-- A FLUSH that does not fail leaves no partial byte, the pending bits padded to whole bytes (R213). -/
theorem packerIs_of_flush {s t : State} {len acc nb : Nat} (h : s.packerIs len acc nb)
    (hexec : exec .bpFlush s = .next t) (herr : t.status.err = false) :
    t.packerIs (ceilDiv8 s.pendingBits.length) 0 0 ∧
      t.pendingBits = s.pendingBits ++ zeros (8 * ceilDiv8 s.pendingBits.length - s.pendingBits.length) := by
  obtain ⟨hnone, hpad, hfull⟩ := bpFlushPadsTheByte s len acc nb h
  have hcount := h.pendingBits_length
  have hceil := ceilDiv8_eq s.pendingBits.length
  have ⟨_, _, _, hlt, hacc, hle, _⟩ := h
  by_cases hnb : nb = 0
  · subst hnb
    obtain rfl : acc = 0 := Nat.lt_one_iff.1 hacc
    rw [if_pos (by omega)] at hceil
    rw [hnone rfl] at hexec
    cases hexec
    rw [show ceilDiv8 s.pendingBits.length = len by omega, show 8 * len - s.pendingBits.length = 0 by omega]
    exact ⟨h, (List.append_nil _).symm⟩
  · rw [if_neg (by omega)] at hceil
    rcases Nat.lt_or_eq_of_le hle with hroom | hroom
    · obtain ⟨u, hu, his, hbits, -⟩ := hpad hnb hroom
      rw [hu] at hexec
      cases hexec
      rw [show ceilDiv8 s.pendingBits.length = len + 1 by omega,
        show 8 * (len + 1) - s.pendingBits.length = 8 - nb by omega]
      exact ⟨his, hbits⟩
    · rw [hfull hnb hroom] at hexec
      cases hexec
      cases herr

/-- The block just after BP_RESET holds the empty packer (R211). -/
theorem packerIs_of_reset {s t : State} (hmax : s.params.outMax < 2 ^ 32) (hwf : Memory.wf s.outMem)
    (hexec : exec .bpReset s = .next t) : t.packerIs 0 0 0 ∧ t.pendingBits = [] := by
  obtain ⟨-, hreset⟩ := bpResetEmptiesThePacker
  rw [hreset s] at hexec
  cases hexec
  exact State.setPacker_packerIs hmax (Packer.ok_empty hwf) (Nat.zero_le _)

/-- Settles O22: the pending bits grow from none by the fields, and the flush pads them to the bytes of OUT. -/
theorem packingLaw : Obligations.PackingLaw := by
  intro s s1 s2 s3 fs hmax hwf hfs hreset hput hflush herr
  obtain ⟨h1, hbits1⟩ := packerIs_of_reset hmax hwf hreset
  obtain ⟨⟨_, _, _, h2⟩, hbits2⟩ := packerIs_of_putAll h1 hfs hput
  obtain ⟨h3, hbits3⟩ := packerIs_of_flush h2 hflush herr
  rw [hbits2, hbits1, List.nil_append] at h3 hbits3
  obtain ⟨hbytes, hout⟩ := h3.outBytes_of_flushed
  obtain ⟨hlen, hacc, hnb, -⟩ := h3
  exact ⟨hlen, hacc, hnb, hbytes, hout.trans hbits3⟩

end Sys2Proof.Machine
end

section
/-! PROOF. The bit reader: its fields, its errors, and the read-back of packed fields (42_bitio.md R216 to R223). -/

namespace Sys2Proof.Machine

/-! ## One read -/

theorem checkInMax_over {s : State} (h : s.params.inMax < s.inLen.toNat) :
    checkInMax s = .error (.raise .invalidArgument) := if_pos h

theorem brGetbit_over {s : State} (h : s.params.inMax < s.inLen.toNat) :
    brGetbit s = .raised .invalidArgument s := by
  simp only [brGetbit, checkInMax_over h, stopAt_raise]

theorem brGetbits_over {s : State} (h : s.params.inMax < s.inLen.toNat) :
    brGetbits s = .raised .invalidArgument s := by
  simp only [brGetbits, checkInMax_over h, stopAt_raise]

/-- Both argument checks have the one code, so their order does not show (R221). -/
theorem brGetbits_tooWide {s : State} (h : 32 < s.arg0.toNat) : brGetbits s = .raised .invalidArgument s := by
  rcases checkInMax_cases s with ⟨-, hcheck⟩ | ⟨hover, -⟩
  · rw [brGetbits, hcheck, if_pos h]
  · exact brGetbits_over hover

theorem brGetbits_eq_brRead {s : State} (hin : s.inLen.toNat ≤ s.params.inMax) (harg : s.arg0.toNat ≤ 32) :
    brGetbits s = brRead s s.arg0.toNat := by
  rw [brGetbits, checkInMax_ok hin, if_neg (Nat.not_lt.2 harg)]

theorem brRead_short {s : State} {pos n : Nat} (hpos : cursorPos s = .ok pos) (h : 8 * s.inLen.toNat - pos < n) :
    brRead s n = .raised .corruptHeader s := by
  simp only [brRead, hpos, readBits_short h, stopAt_raise]

/-- Settles O25: each check that fails leaves the state as it was. -/
theorem bitReaderErrors : Obligations.BitReaderErrors := by
  refine ⟨fun s hover => ⟨?_, ?_⟩, fun s harg => ?_, fun s pos hin hpos => ⟨fun hshort => ?_, fun harg hshort => ?_⟩⟩
  · rw [exec_eq_finish, perform, brGetbit_over hover]
    rfl
  · rw [exec_eq_finish, perform, brGetbits_over hover]
    rfl
  · rw [exec_eq_finish, perform, brGetbits_tooWide harg]
    rfl
  · rw [exec_eq_finish, perform, brGetbit_eq_brRead hin, brRead_short hpos (by omega)]
    rfl
  · rw [exec_eq_finish, perform, brGetbits_eq_brRead hin harg, brRead_short hpos hshort]
    rfl

/-- Settles O23: the bits that remain are read, and the cursor moves past them. -/
theorem brGetbitsReadsTheField : Obligations.BrGetbitsReadsTheField := by
  intro s bs pos hin hmax hpos harg hleft
  have hread := readBits_of_inputIs hin hleft (by omega)
  rw [exec_eq_finish, perform, brGetbits_eq_brRead (hin.1.trans_le hmax) harg, brRead_ok hpos hread]
  rfl

/-! ## Reads one after another -/

theorem getAll_cons {s t u : State} {n : Nat} {ns : List Nat} {vs : List Word}
    (hexec : exec .brGetbits { s with arg0 := BitVec.ofNat 32 n } = .next t) (herr : t.status.err = false)
    (hget : getAll t ns = some (u, vs)) : getAll s (n :: ns) = some (u, t.result :: vs) := by
  simp only [getAll, hexec, herr, hget, Bool.false_eq_true, if_false]

/-- `rest` is what the reader has still to read of the bytes `bs` of IN, the cursor at bit position `pos` (R216). -/
structure State.Unread (s : State) (bs : List Byte) (pos : Nat) (rest : BitStr) : Prop where
  input : s.inputIs bs
  fits : bs.length ≤ s.params.inMax
  cursor : cursorPos s = .ok pos
  inside : pos ≤ 8 * bs.length
  bits : (bytesBits bs).drop pos = rest

/-- A GET of a width whose field stands at the cursor: the field's value, and the cursor past it (R221). -/
theorem State.Unread.exec_brGetbits {s : State} {bs : List Byte} {pos n : Nat} {v : Word} {rest : BitStr}
    (h : s.Unread bs pos (bitsMSB v.toNat n ++ rest)) (hn : n ≤ 32) :
    ∃ t, exec .brGetbits { s with arg0 := BitVec.ofNat 32 n } = .next t ∧ t.status.err = false ∧
      t.result = BitVec.ofNat 32 (v.toNat % 2 ^ n) ∧ t.Unread bs (pos + n) rest := by
  obtain ⟨hin, hmax, hpos, hle, hbits⟩ := h
  have harg := toNat_ofNat_width hn
  have hleft := congrArg List.length hbits
  rw [List.length_drop, bytesBits_length, List.length_append, bitsMSB_length] at hleft
  have hword := s.inLen.isLt
  rw [hin.1] at hword
  refine ⟨_, brGetbitsReadsTheField { s with arg0 := BitVec.ofNat 32 n } bs pos hin hmax hpos (harg.trans_le hn)
    (by rw [harg]; omega), rfl, ?_, hin, hmax, ?_, by omega, ?_⟩
  · simp only [harg, hbits, List.take_left' (bitsMSB_length _ _), bitsVal_bitsMSB]
  · rw [harg]
    exact cursorPos_setCursor s (by omega)
  · rw [← List.drop_drop, hbits, List.drop_left' (bitsMSB_length _ _)]

/-- Fields that stand at the cursor are read one after another, and the cursor ends after them. -/
theorem State.Unread.getAll_fields {s : State} {bs : List Byte} {pos : Nat} {fs : List (Nat × Word)} {rest : BitStr}
    (h : s.Unread bs pos (fieldBits fs ++ rest)) (hfs : ∀ f ∈ fs, f.1 ≤ 32) :
    ∃ t, getAll s (fs.map fun f => f.1) = some (t, fs.map fun f => BitVec.ofNat 32 (f.2.toNat % 2 ^ f.1)) ∧
      t.Unread bs (pos + (fieldBits fs).length) rest := by
  induction fs generalizing s pos with
  | nil => exact ⟨s, rfl, h⟩
  | cons f fs ih =>
    obtain ⟨hn, hfs⟩ := List.forall_mem_cons.1 hfs
    rw [fieldBits_cons, List.append_assoc] at h
    obtain ⟨t, hexec, herr, hresult, ht⟩ := h.exec_brGetbits hn
    obtain ⟨u, hget, hu⟩ := ih ht hfs
    refine ⟨u, ?_, ?_⟩
    · rw [List.map_cons, getAll_cons hexec herr hget, hresult, List.map_cons]
    · rwa [fieldBits_cons, List.length_append, bitsMSB_length, ← Nat.add_assoc]

/-- Settles O26: the fields stand at the start of the bytes' bits, the padding behind them. -/
theorem readBackLaw : Obligations.ReadBackLaw := by
  intro s fs bs hfs hin hmax hbyte hbit hbits
  have hpos : cursorPos s = .ok 0 := by
    simp only [cursorPos, hbyte, hbit, needReg]
    rfl
  have hstart : s.Unread bs 0 (fieldBits fs ++ _) := ⟨hin, hmax, hpos, Nat.zero_le _, hbits⟩
  obtain ⟨t, hget, hend⟩ := hstart.getAll_fields hfs
  exact ⟨t, hget, by simpa only [Nat.zero_add] using hend.cursor⟩

end Sys2Proof.Machine
end

section
/-! PROOF. The parts of a Huffman container, as bytes: what HUF_ENCODE writes is a header, a full table and a payload in the
decoder's terms (30_encoding.md R130, R131, 43_huffman_container.md R250 to R255). -/

namespace Sys2Proof.Machine

/-! ## Bytes and their bits -/

/-- Any whole bytes' worth of bits are the bits of bytes. -/
theorem exists_bytesBits {n : Nat} {bits : BitStr} (h : bits.length = 8 * n) :
    ∃ bs : List Byte, bs.length = n ∧ bytesBits bs = bits := by
  induction n generalizing bits with
  | zero => exact ⟨[], rfl, (List.length_eq_zero_iff.1 h).symm⟩
  | succ n ih =>
    obtain ⟨bs, hlen, hbits⟩ := ih (bits := bits.drop 8) (by rw [List.length_drop]; omega)
    have hfirst : bitsMSB (bitsVal (bits.take 8)) 8 = bits.take 8 := by
      have := bitsMSB_bitsVal (bits.take 8)
      rwa [List.length_take, Nat.min_eq_left (by omega)] at this
    refine ⟨BitVec.ofNat 8 (bitsVal (bits.take 8)) :: bs, by rw [List.length_cons, hlen], ?_⟩
    rw [bytesBits_cons, BitVec.toNat_ofNat, bitsMSB_mod, hfirst, hbits, List.take_append_drop]

/-- Bytes whose bits begin with those of other bytes begin with these bytes. -/
theorem exists_append_of_bytesBits {cs pre : List Byte} {bits : BitStr} (h : bytesBits cs = bytesBits pre ++ bits) :
    ∃ post, cs = pre ++ post ∧ bytesBits post = bits := by
  have hlen := congrArg List.length h
  rw [List.length_append, bytesBits_length, bytesBits_length] at hlen
  obtain ⟨post, -, hpost⟩ := exists_bytesBits (n := cs.length - pre.length) (bits := bits) (by omega)
  exact ⟨post, bytesBits_inj (by rw [h, bytesBits_append, hpost]), hpost⟩

/-- The bits after the bytes before them. -/
theorem drop_bytesBits (pre post : List Byte) :
    (bytesBits (pre ++ post)).drop (8 * pre.length) = bytesBits post := by
  rw [bytesBits_append, List.drop_left' (bytesBits_length pre)]

/-! ## Code entries -/

/-- A code entry is a complete raw entry with this code (R130, R252). -/
theorem codeEntry_complete {c : BitStr} (h : c.length ≤ 255) :
    ∃ e : RawEntry, e.complete ∧ bytesBits (e.1 :: e.2) = codeEntry c ∧ (bytesBits e.2).take e.1.toNat = c := by
  have elen : (BitVec.ofNat 8 c.length).toNat = c.length := Nat.mod_eq_of_lt (by omega)
  have hle : c.length ≤ 8 * ceilDiv8 c.length := by unfold ceilDiv8; omega
  obtain ⟨body, hbody, hbits⟩ := exists_bytesBits (n := ceilDiv8 c.length)
    (bits := c ++ zeros (8 * ceilDiv8 c.length - c.length)) (by rw [List.length_append, zeros_length]; omega)
  refine ⟨(BitVec.ofNat 8 c.length, body), ?_, ?_, ?_⟩
  · simp only [RawEntry.complete, elen, hbody]
  · rw [bytesBits_cons, elen, hbits, codeEntry, List.append_assoc]
  · rw [elen, hbits, List.take_left]

/-- The code entries of a table are complete raw entries with these codes (R131, R252). -/
theorem exists_entries {table : List BitStr} (h : ∀ c ∈ table, c.length ≤ 255) :
    ∃ es : List RawEntry, (∀ e ∈ es, e.complete) ∧ bytesBits (entryBytes es) = table.flatMap codeEntry ∧
      entryTable es = table := by
  induction table with
  | nil => exact ⟨[], by simp, rfl, rfl⟩
  | cons c table ih =>
    obtain ⟨hc, htable⟩ := List.forall_mem_cons.1 h
    obtain ⟨e, he, hbits, hcode⟩ := codeEntry_complete hc
    obtain ⟨es, hes, hbitses, hcodes⟩ := ih htable
    refine ⟨e :: es, List.forall_mem_cons.2 ⟨he, hes⟩, ?_, ?_⟩
    · rw [entryBytes_cons, ← List.cons_append, bytesBits_append, hbits, hbitses, List.flatMap_cons]
    · rw [entryTable_cons, hcode, hcodes]

/-! ## Payloads of a prefix-free code -/

section
variable {table : List BitStr} {c d : BitStr} {j k : Nat}

/-- Of two codes of a prefix-free table one begins with the other only if they stand at one place. -/
theorem prefixFree.index_eq (h : prefixFree table) (hj : table[j]? = some d) (hk : table[k]? = some c) (hdc : d <+: c) :
    j = k := by
  obtain ⟨hj', rfl⟩ := List.getElem?_eq_some_iff.1 hj
  obtain ⟨hk', rfl⟩ := List.getElem?_eq_some_iff.1 hk
  rcases Nat.lt_trichotomy j k with hlt | heq | hgt
  · exact absurd hdc (List.pairwise_iff_getElem.1 h j k hj' hk' hlt).1
  · exact heq
  · exact absurd hdc (List.pairwise_iff_getElem.1 h k j hk' hj' hgt).2

theorem prefixFree.invIs_code (h : prefixFree table) (hk : table[k]? = some c) (hne : c ≠ []) : invIs table c k :=
  ⟨hne, hk, fun _ hlt hj => absurd (h.index_eq hj hk (List.prefix_refl c)) (Nat.ne_of_gt hlt)⟩

/-- No code matches before the last bit of another one has been read. -/
theorem prefixFree.noMatch_dropLast (h : prefixFree table) (hk : table[k]? = some c) (hne : c ≠ []) :
    noMatch table c.dropLast := by
  intro d hd _ hmem
  obtain ⟨j, hj⟩ := List.mem_iff_getElem?.1 hmem
  have hjk := h.index_eq hj hk (hd.trans (List.dropLast_prefix c))
  rw [hjk, hk] at hj
  cases hj
  have hlen := hd.length_le
  rw [List.length_dropLast] at hlen
  have := List.length_pos_iff.2 hne
  omega

end

/-- The codes of a prefix-free table decode to the symbols they are the codes of (R255, R256). -/
theorem decodesAs_of_prefixFree {table : List BitStr} (hlen : table.length = 256) (hne : ∀ c ∈ table, c ≠ [])
    (h : prefixFree table) (data : List Byte) (tail : BitStr) :
    decodesAs table ((data.map fun b => table.getD b.toNat []).flatten ++ tail) data tail := by
  induction data with
  | nil => rfl
  | cons b data ih =>
    have hb : b.toNat < table.length := hlen ▸ b.isLt
    have hk : table[b.toNat]? = some (table.getD b.toNat []) := by
      rw [List.getElem?_eq_getElem hb, List.getD_eq_getElem _ _ hb]
    have hcode := hne _ (List.mem_of_getElem? hk)
    exact ⟨_, _, by rw [List.map_cons, List.flatten_cons, List.append_assoc], h.invIs_code hk hcode,
      h.noMatch_dropLast hk hcode, ih⟩

/-! ## The container -/

/-- What stands before the payload of a Huffman container: the header fields and the code table (R131). -/
theorem hufContainer_parts {P : Params} {cs f : List Byte} {size : Nat} {table payload : List BitStr} {tail : BitStr}
    (hsize : 0 < size) (hsizeMax : size ≤ P.outMax) (hsizeWord : size < 2 ^ 32) (hf : f.length ≤ P.fnameMax)
    (hf0 : 0 ∉ f) (hsize0 : 0 ∉ beMin size) (hlen : table.length = 256) (htable : ∀ c ∈ table, c.length ≤ 255)
    (hbits : bytesBits cs = hufContainer f size table payload ++ tail) :
    ∃ (es : List RawEntry) (rest post : List Byte), entryTable es = table ∧ legalHeader P cs f (beMin size) rest ∧
      fullTable es rest post ∧ bytesBits post = payload.flatten ++ tail := by
  obtain ⟨es, hes, hentries, hcodes⟩ := exists_entries htable
  obtain ⟨post, rfl, hpost⟩ := exists_append_of_bytesBits (cs := cs)
    (pre := f ++ 0 :: (beMin size ++ 0 :: entryBytes es)) (bits := payload.flatten ++ tail) (by
      rw [hbits, hufContainer, nulField, nulField, ← hentries]
      simp)
  have hval : beVal (beMin size) = size := beVal_beDigits hsizeWord
  refine ⟨es, entryBytes es ++ post, post, hcodes, ⟨by simp, hf0, hf, hsize0, beMin_length_le size, ?_, ?_⟩,
    ⟨by rw [← entryTable_length, hcodes, hlen], hes, rfl⟩, hpost⟩ <;> omega

end Sys2Proof.Machine
end

section
/-! PROOF. HUF_DECODE of a container given as its parts (43_huffman_container.md R249 to R257). -/

namespace Sys2Proof.Machine

/-! ## The parsers on the parts -/

section
variable {s : State} {cs f z rest : List Byte}

/-- A legal header parses, and what follows it stands at the offset after it (R250, R251). -/
theorem legalHeader_split (hin : s.inputIs cs) (hh : legalHeader s.params cs f z rest) :
    ∃ pre, cs = pre ++ rest ∧ parseFilename s = .ok f ∧ parseSize s (f.length + 1) = .ok (pre.length, beVal z) := by
  obtain ⟨hname, hsize⟩ := legalHeader_parses hin hh
  obtain ⟨rfl, -⟩ := hh
  exact ⟨f ++ 0 :: (z ++ [0]), by simp, hname, by rw [hsize]; simp; omega⟩

/-- A header and a full table parse, and the payload stands at the offset after them (R252). -/
theorem fullTable_split {es : List RawEntry} {payload : List Byte} (hin : s.inputIs cs)
    (hh : legalHeader s.params cs f z rest) (ht : fullTable es rest payload) :
    ∃ pre pos, cs = pre ++ payload ∧ parseFilename s = .ok f ∧ parseSize s (f.length + 1) = .ok (pos, beVal z) ∧
      parseTable s 256 0 pos = .ok (tableFrom 0 (entryTable es), pre.length) := by
  obtain ⟨pre, rfl, hname, hsize⟩ := legalHeader_split hin hh
  have htable := fullTable_parses hin ht
  obtain ⟨-, -, rfl⟩ := ht
  exact ⟨pre ++ entryBytes es, pre.length, by simp, hname, hsize, by rw [htable, List.length_append]⟩

end

/-! ## The state a decoder leaves -/

/-- A code table as a memory lists the 256 symbols' codes. -/
theorem tableFrom_indices (k : Nat) (table : List BitStr) :
    (tableFrom k table).map (fun x => x.1) = List.range' k table.length := by
  induction table generalizing k with
  | nil => rfl
  | cons c table ih => rw [tableFrom_cons, List.map_cons, ih, List.length_cons, List.range'_succ]

theorem tableFrom_getElem? (k i : Nat) (table : List BitStr) :
    (tableFrom k table)[i]? = (table[i]?).map fun c => (k + i, c) := by
  induction table generalizing k i with
  | nil => rfl
  | cons c table ih =>
    cases i with
    | zero => rfl
    | succ i => rw [tableFrom_cons, List.getElem?_cons_succ, ih, List.getElem?_cons_succ, Nat.succ_add_eq_add_succ]

theorem tableFrom_holds (table : List BitStr) : Memory.holds (tableFrom 0 table) 0 table := by
  intro i hi
  rw [Memory.read_of_indices (tableFrom_indices 0 table) i hi, tableFrom_getElem?, Option.map_map]
  exact congrFun Option.map_id _

/-- Elements written from 0 on are the slice of as many elements. -/
theorem Memory.slice_writeList {α : Type} {m : Memory α} (hwf : m.wf) (vs : List α) :
    Memory.slice (m.writeList 0 vs) 0 vs.length = vs :=
  Memory.slice_of_holds fun i hi => by
    rw [Memory.read_writeList hwf, if_pos (by omega), Nat.zero_add, Nat.sub_zero]

/-- OUT after a decode: the data from element 0 on, and what stood behind it (R257). -/
theorem State.setDecoded_outBytes {s : State} {name data : List Byte} {off pos : Nat} (hwf : Memory.wf s.outMem)
    (hlen : data.length < 2 ^ 32) (e : Option ErrCode) :
    ((s.setDecoded name data.length off pos data).complete e).outBytes = data ∧
      ∀ a, data.length ≤ a → Memory.read (Memory.writeList s.outMem 0 data) a = Memory.read s.outMem a := by
  have elen : (BitVec.ofNat 32 data.length).toNat = data.length := Nat.mod_eq_of_lt hlen
  refine ⟨?_, fun a ha => by rw [Memory.read_writeList hwf, if_neg (by omega)]⟩
  simp only [State.outBytes, State.complete_outLen, State.setDecoded_outLen, State.complete_outMem,
    State.setDecoded_outMem, elen]
  exact Memory.slice_writeList hwf data

/-! ## The command -/

/-- HUF_DECODE of a legal header, a full table and a payload that decodes to as many symbols as the size says. -/
theorem exec_hufDecode_of_parts {s : State} {cs f z rest payload data : List Byte} {es : List RawEntry} {fin : BitStr}
    (hin : s.inputIs cs) (hmax : cs.length ≤ s.params.inMax) (hh : legalHeader s.params cs f z rest)
    (ht : fullTable es rest payload) (hd : decodesAs (entryTable es) (bytesBits payload) data fin)
    (hlen : data.length = beVal z) :
    exec .hufDecode s = .next (((s.setCodes (tableFrom 0 (entryTable es))).setDecoded f data.length
      (cs.length - payload.length) (8 * cs.length - fin.length) data).complete none) := by
  have hcheck := checkInMax_ok (s := s) (hin.1 ▸ hmax)
  obtain ⟨pre, pos, rfl, hname, hsize, htable⟩ := fullTable_split hin hh ht
  obtain ⟨hle, -, hsymbols⟩ := decodeSymbols_append hin data 0 (drop_bytesBits pre payload) hd
  rw [bytesBits_length] at hle hsymbols
  have hfin : 8 * pre.length + (8 * payload.length - fin.length) = 8 * (pre ++ payload).length - fin.length := by
    rw [List.length_append]; omega
  rw [Nat.add_zero, hfin, hlen] at hsymbols
  simp only [decodeSymbols, List.append_nil] at hsymbols
  rw [exec_eq_finish, perform]
  simp only [hufDecode, hcheck, hname, hsize, htable, hsymbols, finish_done, hlen, List.length_append,
    Nat.add_sub_cancel]

/-- A size field of four bytes counts data that a register measures (R251). -/
theorem legalHeader.size_lt {P : Params} {cs f z rest : List Byte} (hh : legalHeader P cs f z rest) :
    beVal z < 2 ^ 32 := by
  obtain ⟨-, -, -, -, hlen, -⟩ := hh
  exact (beVal_lt z).trans_le (Nat.pow_le_pow_right (n := 256) (by omega) hlen)

/-- `t` is what HUF_DECODE makes of `s` when it succeeds: the results, and nothing else changed (R257). -/
structure HufDecoded (s t : State) (f data : List Byte) (table : List BitStr) (off pos : Nat) : Prop where
  out : t.outBytes = data
  name : Memory.slice t.fnameMem 0 f.length = f
  nameOnly : Memory.exactly t.fnameMem 0 f.length
  codes : Memory.holds t.codeMem 0 table
  codesOnly : Memory.exactly t.codeMem 0 256
  cursor : cursorPos t = .ok pos
  outFrame : ∀ a, data.length ≤ a → Memory.read t.outMem a = Memory.read s.outMem a
  frame : t = { s with
    fnameMem := t.fnameMem
    fnameLen := some (BitVec.ofNat 32 f.length)
    fileSize := some (BitVec.ofNat 32 data.length)
    payloadOff := some (BitVec.ofNat 32 off)
    brByte := t.brByte
    brBit := t.brBit
    codeMem := t.codeMem
    outMem := t.outMem
    outLen := some (BitVec.ofNat 32 data.length)
    bpAcc := some 0
    bpNbits := some 0
    status := { s.status with busy := false, done := true, err := false, errCode := 0, codesValid := true } }

theorem HufDecoded.of_setDecoded {s : State} {f data : List Byte} {table : List BitStr} {off pos : Nat}
    (hwf : Memory.wf s.outMem) (hdata : data.length < 2 ^ 32) (htable : table.length = 256) (hpos : pos < 2 ^ 35) :
    HufDecoded s (((s.setCodes (tableFrom 0 table)).setDecoded f data.length off pos data).complete none) f data table
      off pos := by
  have hcodes := Memory.exactly_of_indices (tableFrom_indices 0 table)
  rw [htable] at hcodes
  obtain ⟨hout, hframe⟩ := State.setDecoded_outBytes (s := s.setCodes (tableFrom 0 table)) (name := f) (off := off)
    (pos := pos) hwf hdata none
  constructor
  case out => exact hout
  case name => exact Memory.slice_writeList .nil f
  case nameOnly => exact Memory.exactly_writeList_nil 0 f
  case codes => exact tableFrom_holds table
  case codesOnly => exact hcodes
  case cursor => exact cursorPos_setCursor s hpos
  case outFrame => exact hframe
  case frame => rfl

/-- HUF_DECODE of any container with legal parts (R250 to R257). -/
theorem hufDecode_parts {s : State} {cs f z rest payload data : List Byte} {es : List RawEntry} {fin : BitStr}
    (hin : s.inputIs cs) (hmax : cs.length ≤ s.params.inMax) (hwf : Memory.wf s.outMem)
    (hh : legalHeader s.params cs f z rest) (ht : fullTable es rest payload)
    (hd : decodesAs (entryTable es) (bytesBits payload) data fin) (hlen : data.length = beVal z) :
    ∃ t, exec .hufDecode s = .next t ∧
      HufDecoded s t f data (entryTable es) (cs.length - payload.length) (8 * cs.length - fin.length) := by
  have hdata := hh.size_lt
  rw [← hlen] at hdata
  have htable : (entryTable es).length = 256 := by rw [entryTable_length, ht.1]
  have hword := s.inLen.isLt
  rw [hin.1] at hword
  exact ⟨_, exec_hufDecode_of_parts hin hmax hh ht hd hlen, .of_setDecoded hwf hdata htable (by omega)⟩

/-- HUF_DECODE of a container of R131 with a prefix-free table, whatever bits follow its payload. -/
theorem hufDecode_container {s : State} {cs bs f : List Byte} {table : List BitStr} {tail : BitStr} (hin : s.inputIs cs)
    (hmax : cs.length ≤ s.params.inMax) (hlen : table.length = 256)
    (htable : ∀ c ∈ table, 1 ≤ c.length ∧ c.length ≤ 255) (hpf : prefixFree table) (hne : bs ≠ [])
    (hbsMax : bs.length ≤ s.params.outMax) (hbsWord : bs.length < 2 ^ 32) (hf : f.length ≤ s.params.fnameMax)
    (hwf : Memory.wf s.outMem) (hf0 : 0 ∉ f) (hsize0 : 0 ∉ beMin bs.length)
    (hbits : bytesBits cs = hufContainer f bs.length table (bs.map fun b => table.getD b.toNat []) ++ tail) :
    ∃ t off, exec .hufDecode s = .next t ∧
      8 * off = (nulField f ++ nulField (beMin bs.length) ++ table.flatMap codeEntry).length ∧
      HufDecoded s t f bs table off (8 * off + ((bs.map fun b => table.getD b.toNat []).flatten).length) := by
  obtain ⟨es, rest, post, rfl, hh, ht, hpost⟩ := hufContainer_parts (List.length_pos_iff.2 hne) hbsMax hbsWord hf hf0
    hsize0 hlen (fun c hc => (htable c hc).2) hbits
  have hd := decodesAs_of_prefixFree hlen (fun c hc => List.length_pos_iff.1 (htable c hc).1) hpf bs tail
  rw [← hpost] at hd
  obtain ⟨t, hexec, hdecoded⟩ := hufDecode_parts hin hmax hwf hh ht hd (beVal_beDigits hbsWord).symm
  have hcsLen := congrArg List.length hbits
  have hpostLen := congrArg List.length hpost
  rw [hufContainer, bytesBits_length, List.length_append, List.length_append] at hcsLen
  rw [bytesBits_length, List.length_append] at hpostLen
  have hoff : 8 * (cs.length - post.length) =
      (nulField f ++ nulField (beMin bs.length) ++ (entryTable es).flatMap codeEntry).length := by omega
  refine ⟨t, cs.length - post.length, hexec, hoff, ?_⟩
  convert hdecoded using 1
  omega

/-- Settles O40: both kinds of container have parts that the parsers give, one by one. -/
theorem hufDecodeRecoversTheData : Obligations.HufDecodeRecoversTheData := by
  constructor
  · intro s cs bs f table tail hin hmax hlen htable hpf hne hbsMax hbsWord hf hwf hf0 hsize0 hbits
    obtain ⟨t, off, hexec, hoff, hout, hname, hnameOnly, hcodes, hcodesOnly, hcursor, houtFrame, hframe⟩ :=
      hufDecode_container hin hmax hlen htable hpf hne hbsMax hbsWord hf hwf hf0 hsize0 hbits
    exact ⟨t, off, hexec, hout, hname, hnameOnly, hcodes, hcodesOnly, hoff, hcursor, houtFrame, hframe⟩
  · intro s cs f z rest payload data es fin hin hmax hwf hh ht hd hlen
    obtain ⟨t, hexec, hout, hname, hnameOnly, hcodes, hcodesOnly, hcursor, houtFrame, hframe⟩ :=
      hufDecode_parts hin hmax hwf hh ht hd hlen
    exact ⟨t, hexec, hout, hname, hnameOnly, hcodes, hcodesOnly, hcursor, houtFrame, hframe⟩

end Sys2Proof.Machine
end

section
/-! PROOF. The Huffman round trip: HUF_DECODE turns the container that HUF_ENCODE wrote back into the data and the
filename (43_huffman_container.md R258). -/

namespace Sys2Proof.Machine

/-- The stages before WRITE leave a prefix-free table of 256 codes of 1 to 255 bits (41_huffman_tree.md R192, R194). -/
theorem hufStages_table {s t : State} (h : hufStages s = .ok t) :
    ∃ table : List BitStr, Memory.holds t.codeMem 0 table ∧ table.length = 256 ∧
      (∀ c ∈ table, 1 ≤ c.length ∧ c.length ≤ 255) ∧ prefixFree table := by
  obtain ⟨s1, s2, -, hbuild, hcodes⟩ := hufStages_ok_split h
  obtain ⟨hnodes, hroot⟩ : treeOk s2.nodeMem ∧ s2.root = 510 := by
    rcases stageBuild_cases s1 with ⟨ws, hws, -, e⟩ | ⟨f, e⟩ <;> rw [e] at hbuild <;> cases hbuild
    exact ⟨(treeOk_buildTree hws).1, rfl⟩
  obtain ⟨codes, hcodeTable, hstage⟩ := stageCodes_codeTable hroot hnodes
  rw [hstage] at hcodes
  cases hcodes
  obtain ⟨hlen, hholds⟩ := Memory.holds_slice hcodeTable.listed.1
  have hread {k : Nat} {c : BitStr} (hk : (Memory.slice codes 0 256)[k]? = some c) : Memory.read codes k = some c := by
    obtain ⟨hlt, -⟩ := List.getElem?_eq_some_iff.1 hk
    rw [← hk, ← hholds k hlt, Nat.zero_add]
  refine ⟨Memory.slice codes 0 256, hholds, hlen, fun c hc => ?_, ?_⟩
  · obtain ⟨k, hk⟩ := List.mem_iff_getElem?.1 hc
    have hwalk := hcodeTable.walk (hread hk)
    refine ⟨List.length_pos_iff.2 ?_, hcodeTable.length_le (hread hk)⟩
    rintro rfl
    rw [hnodes.treeWalk_root_nil] at hwalk
    cases hwalk
  · refine List.pairwise_iff_getElem.2 fun j k hj hk hlt => ?_
    have hwalkj := hcodeTable.walk (hread (List.getElem?_eq_getElem hj))
    have hwalkk := hcodeTable.walk (hread (List.getElem?_eq_getElem hk))
    exact ⟨fun hp => absurd (treeWalk_eq_of_prefix hwalkj hwalkk hp) (Nat.ne_of_lt hlt),
      fun hp => absurd (treeWalk_eq_of_prefix hwalkk hwalkj hp) (Nat.ne_of_gt hlt)⟩

/-- An encoder's argument checks pass only on a non-empty input, and their value is FNAME_LEN (R241). -/
theorem checkEncode_ok_inv {s : State} {n : Nat} {bs f : List Byte} (hin : s.inputIs bs) (hname : s.nameIs f)
    (h : checkEncode s = .ok n) : bs ≠ [] ∧ n = f.length := by
  obtain ⟨hflen, hfword, -⟩ := hname
  rcases checkEncode_cases s with ⟨m, hm, h0, -, -, e⟩ | ⟨x, -, e⟩ | ⟨g, e⟩ <;> rw [e] at h <;> cases h
  rw [hflen] at hm
  cases hm
  refine ⟨?_, Nat.mod_eq_of_lt hfword⟩
  rintro rfl
  exact h0 (BitVec.eq_of_toNat_eq hin.1)

/-- A completion without an error is a success. -/
theorem perform_done_of_err_false {i : Instr} {s t : State} (h : exec i s = .next t) (herr : t.status.err = false) :
    ∃ u, perform i s = .done u := by
  rw [exec_eq_finish] at h
  rcases finish_next_iff.1 h with ⟨u, hu, -⟩ | ⟨e, u, -, rfl⟩
  · exact ⟨u, hu⟩
  · cases e <;> cases herr

theorem stopAt_ne_done {s u : State} (x : Stop) : stopAt s x ≠ .done u := by
  cases x <;> exact Perf.noConfusion

theorem checkEncode_ok_of_hufEncode_done {s u : State} (h : hufEncode s = .done u) : ∃ n, checkEncode s = .ok n := by
  unfold hufEncode at h
  split at h
  · exact absurd h (stopAt_ne_done _)
  · rename_i n hcheck
    exact ⟨n, hcheck⟩

/-- HUF_ENCODE without an error has written a container of R131 with a prefix-free table (R240). -/
theorem exec_hufEncode_container {s t : State} {bs f : List Byte} (hin : s.inputIs bs) (hname : s.nameIs f)
    (houtMax : s.params.outMax < 2 ^ 32) (hwf : Memory.wf s.outMem) (hexec : exec .hufEncode s = .next t)
    (herr : t.status.err = false) :
    ∃ (table : List BitStr) (tail : BitStr), bs ≠ [] ∧ table.length = 256 ∧
      (∀ c ∈ table, 1 ≤ c.length ∧ c.length ≤ 255) ∧ prefixFree table ∧
      bytesBits t.outBytes = hufContainer f bs.length table (bs.map fun b => table.getD b.toNat []) ++ tail := by
  obtain ⟨u, hu⟩ := perform_done_of_err_false hexec herr
  obtain ⟨n, hcheck⟩ := checkEncode_ok_of_hufEncode_done hu
  obtain ⟨hne, rfl⟩ := checkEncode_ok_inv hin hname hcheck
  obtain ⟨-, -, hf⟩ := hname
  obtain ⟨v, hstages, hin', hfname, hout, hparams, -⟩ := hufStages_succeed hin
  obtain ⟨table, hcodes, hlen, htable, hpf⟩ := hufStages_table hstages
  have hstream := hufStream_of_table hin' (hfname ▸ hf) hcodes hlen
  rw [exec_hufEncode_of_stream hcheck hstages hstream] at hexec
  rw [← hparams] at houtMax
  rw [← hout] at hwf
  rcases Nat.lt_or_ge v.params.outMax
      (ceilDiv8 (hufContainer f bs.length table (bs.map fun b => table.getD b.toNat [])).length) with hfull | hfit
  · rw [finish_writeContainer_full hwf hfull] at hexec
    cases hexec
    cases herr
  · obtain ⟨t', hnext, -, hbits, -⟩ := finish_writeContainer_fits hwf houtMax hfit
    rw [hnext] at hexec
    cases hexec
    exact ⟨table, _, hne, hlen, htable, hpf, hbits⟩

/-- Settles O41: the encoder's container is one of O40's, the zero padding being the bits that follow its payload. -/
theorem huffmanRoundTrip : Obligations.HuffmanRoundTrip := by
  intro s t s' bs f hin hname houtMax hwf hf0 hsize0 hexec herr hin' hinMax' houtMax' hfmax' hwf'
  obtain ⟨table, tail, hne, hlen, htable, hpf, hbits⟩ := exec_hufEncode_container hin hname houtMax hwf hexec herr
  obtain ⟨t', off, hexec', -, hdecoded⟩ := hufDecode_container hin' hinMax' hlen htable hpf hne houtMax'
    (hin.1 ▸ s.inLen.isLt) hfmax' hwf' hf0 hsize0 hbits
  obtain ⟨-, hfword, -⟩ := hname
  have hholds := (Memory.holds_slice hdecoded.nameOnly.1).2
  rw [hdecoded.name] at hholds
  refine ⟨t', hexec', ?_, hdecoded.out, ?_, hfword, hholds⟩ <;> rw [hdecoded.frame]

end Sys2Proof.Machine
end

section
/-! PROOF. The encoders' errors: the header checks, and what CapacityExceeded leaves (43_huffman_container.md R241, R247,
44_lz78.md R279, 60_exceptions.md R313). -/

namespace Sys2Proof.Machine

/-! ## The header checks -/

/-- The encoders stop at their argument checks, the first thing they do (R241). -/
theorem perform_of_checkEncode_raise {i : Instr} (hi : i ∈ ([.hufEncode, .lzEncode] : List Instr)) {s : State}
    {e : ErrCode} (h : checkEncode s = .error (.raise e)) : perform i s = .raised e s := by
  simp only [List.mem_cons, List.not_mem_nil, or_false] at hi
  rcases hi with rfl | rfl
  · simp only [perform, hufEncode, h, stopAt_raise]
  · simp only [perform, lzEncode, h, stopAt_raise]

/-- Under REFUSE a field that is not NUL-safe is refused, the filename first (R241). -/
theorem checkNulSafe_refuses {s : State} {f : List Byte} (hpolicy : s.params.nulPolicy = .refuse)
    (hf : Memory.holds s.fnameMem 0 f) (h : 0 ∈ f ∨ 0 ∈ beMin s.inLen.toNat) :
    checkNulSafe s f.length = .error (.raise .unencodableHeader) := by
  simp only [checkNulSafe, hpolicy, fnameHasZero_of_holds hf]
  by_cases hname : 0 ∈ f
  · simp only [hname, decide_true]
  · simp only [hname, decide_false, if_pos (h.resolve_left hname)]

/-- Settles O38: each check of the header is reached when those before it pass. -/
theorem encodersCheckTheHeader : Obligations.EncodersCheckTheHeader := by
  intro i hi s h0 hmax
  have hdata := checkData_ok h0 hmax
  constructor
  · intro n hn hlong
    have hcheck : checkEncode s = .error (.raise .invalidArgument) := by
      simp only [checkEncode, hdata, hn, needReg, if_pos hlong]
    rw [exec_eq_finish, perform_of_checkEncode_raise hi hcheck]
    rfl
  · rintro f hpolicy ⟨hlen, hword, hf⟩ hfmax hnul
    have elen : (BitVec.ofNat 32 f.length).toNat = f.length := Nat.mod_eq_of_lt hword
    have hcheck : checkEncode s = .error (.raise .unencodableHeader) := by
      simp only [checkEncode, hdata, hlen, needReg, elen, if_neg (Nat.not_lt.2 hfmax),
        checkNulSafe_refuses hpolicy hf hnul]
    rw [exec_eq_finish, perform_of_checkEncode_raise hi hcheck]
    rfl

/-! ## CapacityExceeded -/

/-- OUT, the packer registers and FILE_SIZE are UNSPECIFIED (R313). -/
abbrev State.encodeOutputsUnspecified (t : State) : Prop :=
  t.outMem = [] ∧ t.outLen = none ∧ t.bpAcc = none ∧ t.bpNbits = none ∧ t.fileSize = none

/-- No argument check of an encoder raises CapacityExceeded (R241, R322). -/
theorem checkEncode_code_ne {e : ErrCode} (he : e ∈ [ErrCode.emptyInput, .invalidArgument, .unencodableHeader]) :
    completionCode (some e) ≠ 7 := by
  revert e
  decide

/-- A WRITE stage that raises CapacityExceeded keeps STATUS, and leaves the outputs no flag covers UNSPECIFIED. -/
theorem writeContainer_full (s : State) (bits : BitStr) :
    (writeContainer s bits).Leaves fun e t =>
      completionCode e = 7 → t.encodeOutputsUnspecified ∧ t.status = s.status :=
  writeContainer_leaves (fun _ => ⟨⟨rfl, rfl, rfl, rfl, rfl⟩, rfl⟩) fun _ _ h => absurd h (by decide)

theorem Perf.Leaves.imp {p q : Option ErrCode → State → Prop} {r : Perf} (h : r.Leaves p)
    (hpq : ∀ e t, p e t → q e t) : r.Leaves q := by
  cases r with
  | done t => exact hpq _ _ h
  | raised e t => exact hpq _ _ h
  | faulted f => trivial

theorem hufStages_flags {s t : State} (h : hufStages s = .ok t) :
    t.status.freqValid = true ∧ t.status.treeValid = true ∧ t.status.codesValid = true := by
  obtain ⟨bs, hin⟩ := inputIs_of_hufStages h
  obtain ⟨ws, c, -, hstages, -⟩ := hufStages_ok hin
  rw [hstages] at h
  cases h
  exact ⟨rfl, rfl, rfl⟩

theorem stageSegment_flags {s t : State} {g : Seg} (h : stageSegment s = .ok (t, g)) :
    t.status.tokensValid = true ∧ t.status.dictValid = true := by
  rcases stageSegment_cases s with ⟨bs, -, e⟩ | ⟨f, e⟩ <;> rw [e] at h <;> cases h
  exact ⟨rfl, rfl⟩

/-- Settles O14: only the WRITE stage raises code 7, and the stages before it have set their flags. -/
theorem encoderStageErrorState : Obligations.EncoderStageErrorState := by
  constructor
  · intro s t hexec hcode
    have hleaves : (perform .hufEncode s).Leaves fun e u => completionCode e = 7 → u.encodeOutputsUnspecified ∧
        u.status.freqValid = true ∧ u.status.treeValid = true ∧ u.status.codesValid = true :=
      hufEncode_leaves (fun e he h => absurd h (checkEncode_code_ne he)) fun v bits hv =>
        (writeContainer_full v bits).imp fun e u hu h => ⟨(hu h).1, (hu h).2 ▸ hufStages_flags hv⟩
    obtain ⟨e, u, hu, rfl⟩ := exec_completes hleaves hexec
    obtain ⟨⟨hout, hlen, hacc, hnb, hsize⟩, hflags⟩ := hu hcode
    exact ⟨hout, hlen, hacc, hnb, hsize, hflags⟩
  · intro s t hexec hcode
    have hleaves : (perform .lzEncode s).Leaves fun e u => completionCode e = 7 → u.encodeOutputsUnspecified ∧
        u.status.tokensValid = true ∧ u.status.dictValid = true :=
      lzEncode_leaves (fun e he h => absurd h (checkEncode_code_ne he)) fun v g bits hv =>
        (writeContainer_full v bits).imp fun e u hu h => ⟨(hu h).1, (hu h).2 ▸ stageSegment_flags hv⟩
    obtain ⟨e, u, hu, rfl⟩ := exec_completes hleaves hexec
    obtain ⟨⟨hout, hlen, hacc, hnb, hsize⟩, hflags⟩ := hu hcode
    exact ⟨hout, hlen, hacc, hnb, hsize, hflags⟩

end Sys2Proof.Machine
end

section
/-! PROOF. The longest containers: the encoders succeed when OUT has room for these (30_encoding.md R131, R136,
43_huffman_container.md R247, 44_lz78.md R279). -/

namespace Sys2Proof.Machine

/-- 256 entries of at most 33 bytes, and 255 bits a symbol, after the header fields (R131). -/
theorem hufContainer_length_le {f : List Byte} {size : Nat} {table payload : List BitStr} (hlen : table.length = 256)
    (htable : ∀ c ∈ table, c.length ≤ 255) (hpayload : ∀ c ∈ payload, c.length ≤ 255) :
    (hufContainer f size table payload).length ≤ 8 * (f.length + 8454) + 255 * payload.length := by
  have hentries := length_flatMap_le table codeEntry (8 * 33) fun c hc => by
    have := htable c hc
    rw [codeEntry_length, ceilDiv8]
    omega
  have hcodes := length_flatMap_le payload id 255 hpayload
  rw [List.flatMap_id] at hcodes
  have hsize := beMin_length_le size
  rw [hufContainer_length]
  omega

/-- A width is one byte at most (R136). -/
theorem beMin_width_length {w : Nat} (h : w ≤ 32) : (beMin w).length ≤ 1 := by
  revert w
  decide

/-- At most 40 bits a token, after the header fields (R136). -/
theorem lzContainer_length_le {f : List Byte} {size w : Nat} {toks : List Entry} (hw : w ≤ 32) :
    (lzContainer f size w toks).length ≤ 8 * (f.length + 8) + 40 * toks.length := by
  have hsize := beMin_length_le size
  have hwidth := beMin_width_length hw
  have htoks : toks.length * (w + 8) ≤ toks.length * 40 := Nat.mul_le_mul_left _ (by omega)
  rw [lzContainer_length]
  omega

/-- A WRITE stage with room for its container succeeds. -/
theorem finish_writeContainer_room {s : State} {bits : BitStr} (hwf : Memory.wf s.outMem)
    (hmax : s.params.outMax < 2 ^ 32) (hfit : ceilDiv8 bits.length ≤ s.params.outMax) :
    ∃ t : State, finish (writeContainer s bits) = .next t ∧ t.status.err = false := by
  obtain ⟨t, hnext, -, -, -, hframe⟩ := finish_writeContainer_fits hwf hmax hfit
  exact ⟨t, hnext, by rw [hframe]; rfl⟩

/-- Settles O44: the containers are never longer than these bounds. -/
theorem encodersCompleteWithRoom : Obligations.EncodersCompleteWithRoom := by
  intro s bs f hin hne hinMax hname hfmax houtMax hwf hnul
  have hbs := hin.1
  rw [← hbs] at hinMax hnul
  have hcheck := checkEncode_ok (inLen_ne_zero hin hne) hinMax hname hfmax hnul
  obtain ⟨-, -, hf⟩ := hname
  constructor
  · intro hroom
    obtain ⟨ws, c, table, payload, t, rfl, -, hlen, hpayloadLen, htable, hpayload, hencode⟩ :=
      hufEncode_writes hin hf hcheck
    have hle := hufContainer_length_le (f := f) (size := bs.length) hlen htable hpayload
    rw [exec_eq_finish, perform, hencode]
    refine finish_writeContainer_room hwf houtMax (hroom.trans' ?_)
    rw [ceilDiv8]
    omega
  · intro hroom
    obtain ⟨-, hwidth⟩ := Seg.run_bounds (bs := bs) (hbs ▸ s.inLen.isLt)
    obtain ⟨-, hcount, hbytes⟩ := Seg.after_start.run bs
    have htoks := (Seg.start.run bs).tokens_length_le
    have hle := lzContainer_length_le (f := f) (size := bs.length) (toks := (Seg.start.run bs).tokens) hwidth
    rw [exec_eq_finish, perform, lzEncode_writes hin hf hcheck]
    refine finish_writeContainer_room (s := s.setSegments _) hwf houtMax (hroom.trans' ?_)
    rw [ceilDiv8]
    omega

end Sys2Proof.Machine
end

section
/-! PROOF. The decoders' errors, stage by stage (43_huffman_container.md R250 to R260, 44_lz78.md R281 to R285,
60_exceptions.md R313, R320). -/

namespace Sys2Proof.Machine

/-! ## Where both decoders stop -/

section
variable {i : Instr} {s : State} {e : ErrCode}

theorem perform_decoder_of_inMax (hi : i ∈ ([.hufDecode, .lzDecode] : List Instr))
    (h : s.params.inMax < s.inLen.toNat) : perform i s = .raised .invalidArgument s := by
  simp only [List.mem_cons, List.not_mem_nil, or_false] at hi
  rcases hi with rfl | rfl
  · simp only [perform, hufDecode, checkInMax_over h, stopAt_raise]
  · simp only [perform, lzDecode, checkInMax_over h, stopAt_raise]

theorem perform_decoder_of_filename (hi : i ∈ ([.hufDecode, .lzDecode] : List Instr))
    (hmax : s.inLen.toNat ≤ s.params.inMax) (h : parseFilename s = .error (.raise e)) :
    perform i s = .raised e s.unspecifyDecode := by
  simp only [List.mem_cons, List.not_mem_nil, or_false] at hi
  rcases hi with rfl | rfl
  · simp only [perform, hufDecode, checkInMax_ok hmax, h, stopAt_raise]
  · simp only [perform, lzDecode, checkInMax_ok hmax, h, stopAt_raise]

theorem perform_decoder_of_size {f : List Byte} (hi : i ∈ ([.hufDecode, .lzDecode] : List Instr))
    (hmax : s.inLen.toNat ≤ s.params.inMax) (hname : parseFilename s = .ok f)
    (h : parseSize s (f.length + 1) = .error (.raise e)) : perform i s = .raised e s.unspecifyDecode := by
  simp only [List.mem_cons, List.not_mem_nil, or_false] at hi
  rcases hi with rfl | rfl
  · simp only [perform, hufDecode, checkInMax_ok hmax, hname, h, stopAt_raise]
  · simp only [perform, lzDecode, checkInMax_ok hmax, hname, h, stopAt_raise]

/-- A command that raised an error completes with its code (R162). -/
theorem exec_code_of_raised {u : State} (h : perform i s = .raised e u) :
    ∃ t, exec i s = .next t ∧ t.status.errCode = e.code :=
  ⟨u.complete (some e), by rw [exec_eq_finish, h, finish_raised], rfl⟩

end

/-- Settles O42: an empty IN has no terminator, and IN_LEN is checked before anything is read. -/
theorem decodersOnBadLengths : Obligations.DecodersOnBadLengths := by
  intro i hi s
  constructor
  · intro h0
    have hlen : s.inLen.toNat = 0 := by rw [h0]; rfl
    have hname : parseFilename s = .error (.raise .corruptHeader) := by
      rw [parseFilename, parseField, hlen, Nat.zero_sub, scanField]
    refine ⟨s.unspecifyDecode.complete (some .corruptHeader), ?_, rfl, rfl⟩
    rw [exec_eq_finish, perform_decoder_of_filename hi (hlen ▸ Nat.zero_le _) hname, finish_raised]
  · intro hover
    rw [exec_eq_finish, perform_decoder_of_inMax hi hover]
    rfl

/-! ## The header fields -/

section
variable {s : State} {cs f z rest : List Byte}

/-- A filename that no 0x00 ends in time (R250). -/
theorem parseFilename_bad (hin : s.inputIs cs) (h0 : 0 ∉ cs.take (s.params.fnameMax + 1)) :
    parseFilename s = .error (.raise (if cs.length ≤ s.params.fnameMax then .corruptHeader else .capacityExceeded)) :=
  parseField_bad (pre := []) hin h0

theorem parseFilename_found (hin : s.inputIs (f ++ 0 :: rest)) (h0 : 0 ∉ f) (hf : f.length ≤ s.params.fnameMax) :
    parseFilename s = .ok f :=
  parseField_found (pre := []) hin h0 hf

/-- A size field that no 0x00 ends within four bytes (R251). -/
theorem parseSize_bad (hin : s.inputIs (f ++ 0 :: z)) (h0 : 0 ∉ z.take 5) :
    parseSize s (f.length + 1) = .error (.raise .corruptHeader) := by
  have hfield := parseField_bad (s := s) (pre := f ++ [0]) (f := z) (limit := 4) (e := .corruptHeader)
    (by rwa [List.append_assoc]) h0
  rw [List.length_append, List.length_singleton, ite_self] at hfield
  simp only [parseSize, hfield]

/-- A size of 0 or above OUT_MAX (R251). -/
theorem parseSize_value (hin : s.inputIs (f ++ 0 :: (z ++ 0 :: rest))) (h0 : 0 ∉ z) (hz : z.length ≤ 4) :
    (beVal z = 0 → parseSize s (f.length + 1) = .error (.raise .corruptHeader)) ∧
      (s.params.outMax < beVal z → parseSize s (f.length + 1) = .error (.raise .capacityExceeded)) := by
  have hfield := parseField_found (s := s) (pre := f ++ [0]) (f := z) (rest := rest) (limit := 4) (e := .corruptHeader)
    (by rwa [List.append_assoc]) h0 hz
  rw [List.length_append, List.length_singleton] at hfield
  refine ⟨fun hval => ?_, fun hval => ?_⟩
  · simp only [parseSize, hfield, if_pos hval]
  · simp only [parseSize, hfield, if_neg (show beVal z ≠ 0 by omega), if_pos hval]

/-- A width field that no 0x00 ends within one byte, or above 32 (44_lz78.md R282). -/
theorem parseWidth_bad {pre w more : List Byte} (hin : s.inputIs (pre ++ (w ++ more))) (h0 : 0 ∉ w)
    (h : more = [] ∨ 1 < w.length ∨ (more.head? = some 0 ∧ 32 < beVal w)) :
    parseWidth s pre.length = .error (.raise .corruptHeader) := by
  by_cases hlong : 1 < w.length
  · have hfield := parseField_bad (s := s) (f := w ++ more) (limit := 1) (e := .corruptHeader) hin
      (fun hmem => h0 (List.mem_of_mem_take (by rwa [List.take_append_of_le_length hlong] at hmem)))
    rw [ite_self] at hfield
    simp only [parseWidth, hfield]
  · rcases h with rfl | hlong' | ⟨hhead, hval⟩
    · rw [List.append_nil] at hin
      have hfield := parseField_bad (s := s) (f := w) (limit := 1) (e := .corruptHeader) hin
        (fun hmem => h0 (List.mem_of_mem_take hmem))
      rw [ite_self] at hfield
      simp only [parseWidth, hfield]
    · exact absurd hlong' hlong
    · obtain ⟨more', rfl⟩ := List.head?_eq_some_iff.1 hhead
      have hfield := parseField_found (s := s) (f := w) (limit := 1) (e := .corruptHeader) hin h0 (Nat.not_lt.1 hlong)
      simp only [parseWidth, hfield, if_pos hval]

/-! ## HUF_DECODE after its header -/

theorem hufDecode_of_shortTable (hin : s.inputIs cs) (hmax : s.inLen.toNat ≤ s.params.inMax)
    (hh : legalHeader s.params cs f z rest) (hshort : shortTable rest) :
    hufDecode s = .raised .corruptHeader s.unspecifyDecode.dropCodes := by
  obtain ⟨pre, rfl, hname, hsize⟩ := legalHeader_split hin hh
  simp only [hufDecode, checkInMax_ok hmax, hname, hsize, shortTable_errs hin hshort, stopAt_raise]

/-- A payload that gives out, or matches no entry, before the size's last symbol (R255, R256). -/
theorem hufDecode_of_exhausted {es : List RawEntry} {payload data : List Byte} {fin : BitStr} (hin : s.inputIs cs)
    (hmax : s.inLen.toNat ≤ s.params.inMax) (hh : legalHeader s.params cs f z rest) (ht : fullTable es rest payload)
    (hd : decodesAs (entryTable es) (bytesBits payload) data fin) (hlen : data.length < beVal z)
    (hfin : noMatch (entryTable es) fin) :
    hufDecode s = .raised .corruptHeader (s.unspecifyDecode.setCodes (tableFrom 0 (entryTable es))) := by
  obtain ⟨pre, pos, rfl, hname, hsize, htable⟩ := fullTable_split hin hh ht
  obtain ⟨n, hn⟩ := Nat.exists_eq_add_of_lt hlen
  obtain ⟨-, hdrop, hsymbols⟩ := decodeSymbols_append hin data (n + 1) (drop_bytesBits pre payload) hd
  have hlast := decodeSymbol_exhausted hin hdrop hfin
  rw [← Nat.add_assoc, ← hn] at hsymbols
  simp only [decodeSymbols, hlast] at hsymbols
  simp only [hufDecode, checkInMax_ok hmax, hname, hsize, htable, hsymbols, stopAt_raise]

/-! ## LZ_DECODE after its header -/

theorem lzDecode_of_width {w more : List Byte} (hin : s.inputIs cs) (hmax : s.inLen.toNat ≤ s.params.inMax)
    (hh : legalHeader s.params cs f z rest) (hrest : rest = w ++ more) (h0 : 0 ∉ w)
    (h : more = [] ∨ 1 < w.length ∨ (more.head? = some 0 ∧ 32 < beVal w)) :
    lzDecode s = .raised .corruptHeader s.unspecifyDecode := by
  obtain ⟨pre, rfl, hname, hsize⟩ := legalHeader_split hin hh
  rw [hrest] at hin
  simp only [lzDecode, checkInMax_ok hmax, hname, hsize, parseWidth_bad hin h0 h, stopAt_raise]

/-- A legal header and width parse, and the payload stands at the offset after them: what the replay answers there decides
(44_lz78.md R282). -/
theorem lzDecode_of_replay {w payload : List Byte} {e : ErrCode} (hin : s.inputIs cs)
    (hmax : s.inLen.toNat ≤ s.params.inMax) (hh : legalHeader s.params cs f z rest) (hw : legalWidth rest w payload)
    (h : ∀ pre, cs = pre ++ payload →
      replay s (beVal w) (beVal z) (beVal z) (8 * pre.length) 0 [] = .error (.raise e)) :
    lzDecode s = .raised e s.unspecifyReplay := by
  obtain ⟨pre, rfl, hname, hsize⟩ := legalHeader_split hin hh
  have hwidth := legalWidth_parses hin hw
  obtain ⟨rfl, -⟩ := hw
  have hreplay := h (pre ++ (w ++ [0])) (by simp)
  rw [List.length_append, List.length_append, List.length_singleton, ← Nat.add_assoc] at hreplay
  simp only [lzDecode, checkInMax_ok hmax, hname, hsize, hwidth, hreplay, stopAt_raise]

/-- What the replay answers at the bits `next` after tokens that leave the output short of the size is its answer. -/
theorem replay_error_after {w size : Nat} {pre payload : List Byte} {toks : List Entry} {segs : List (List Byte)}
    {next : BitStr} {e : Stop} (hin : s.inputIs (pre ++ payload)) (hpfx : ∀ t ∈ toks, t.pfx.toNat < 2 ^ w)
    (hbits : bytesBits payload = toks.flatMap (tokenBits w) ++ next) (hs : replaySegments [] toks = some segs)
    (hlen : segs.flatten.length < size)
    (h : ∀ d pos n, Dict.standsFor d segs → (bytesBits (pre ++ payload)).drop pos = next →
      pos ≤ 8 * (pre ++ payload).length → replay s w size (n + 1) pos segs.flatten.length d = .error e) :
    replay s w size size (8 * pre.length) 0 [] = .error e := by
  have hdrop := drop_bytesBits pre payload
  rw [hbits] at hdrop
  have htoks := (replaySegments_length hs).2
  obtain ⟨n, hn⟩ := Nat.exists_eq_add_of_lt (htoks.trans_lt hlen)
  obtain ⟨hd, -, hnext, hreplay⟩ := replay_append hin toks Dict.standsFor_nil hdrop hpfx hs
    (by rwa [Nat.zero_add]) (n + 1)
  rw [List.nil_append] at hd
  have hpos : 8 * pre.length + toks.length * (w + 8) ≤ 8 * (pre ++ payload).length := by
    have hcount := congrArg List.length hbits
    rw [bytesBits_length, List.length_append, List.length_flatMap] at hcount
    simp only [tokenBits_length, List.map_const', List.sum_replicate, smul_eq_mul] at hcount
    rw [List.length_append]
    omega
  rw [Nat.zero_add, h _ _ n hd hnext hpos, ← Nat.add_assoc, ← hn] at hreplay
  exact hreplay

/-- Fewer bits than a token has (44_lz78.md R285). -/
theorem replay_of_exhausted {w size : Nat} {pre payload : List Byte} {toks : List Entry} {segs : List (List Byte)}
    {fin : BitStr} (hin : s.inputIs (pre ++ payload)) (hstream : tokenStream w payload toks fin)
    (hs : replaySegments [] toks = some segs) (hlen : segs.flatten.length < size) (hfin : fin.length < w + 8) :
    replay s w size size (8 * pre.length) 0 [] = .error (.raise .corruptHeader) :=
  replay_error_after hin hstream.1 hstream.2 hs hlen fun d _ n _ hnext hpos =>
    replay_exhausted hin d (hnext ▸ hfin) hpos hlen n

/-- A token that names no registered entry, or whose segment goes past the size (44_lz78.md R285). -/
theorem replay_of_badToken {w size : Nat} {pre payload : List Byte} {toks : List Entry} {tok : Entry}
    {segs : List (List Byte)} {fin : BitStr} (hin : s.inputIs (pre ++ payload))
    (hstream : tokenStream w payload (toks ++ [tok]) fin) (hs : replaySegments [] toks = some segs)
    (hlen : segs.flatten.length < size)
    (hbad : ∀ seg, ([] :: segs)[tok.pfx.toNat]? = some seg →
      size < segs.flatten.length + (seg ++ [tok.byte]).length) :
    replay s w size size (8 * pre.length) 0 [] = .error (.raise .corruptHeader) := by
  obtain ⟨hpfx, hbits⟩ := hstream
  rw [List.flatMap_append, List.flatMap_singleton, List.append_assoc] at hbits
  refine replay_error_after hin (fun t ht => hpfx t (List.mem_append_left _ ht)) hbits hs hlen ?_
  intro d pos n hd hnext _
  rw [replay_token hin hd hnext (hpfx tok (by simp)) hlen n]
  cases hseg : ([] :: segs)[tok.pfx.toNat]? with
  | none => rfl
  | some seg => exact if_pos (hbad seg hseg)

end

/-- Settles O43: each error is that of the first part of the input that is not legal. -/
theorem decoderHeaderErrors : Obligations.DecoderHeaderErrors := by
  constructor
  · intro i hi s cs hin hmax
    rw [← hin.1] at hmax
    refine ⟨fun h0 hlen => ?_, fun h0 hlen => ?_, ?_, ?_, ?_⟩
    · have hname := parseFilename_bad hin (fun h => h0 (List.mem_of_mem_take h))
      rw [if_pos hlen] at hname
      exact exec_code_of_raised (perform_decoder_of_filename hi hmax hname)
    · have hname := parseFilename_bad hin h0
      rw [if_neg (Nat.not_le.2 hlen)] at hname
      exact exec_code_of_raised (perform_decoder_of_filename hi hmax hname)
    · rintro f z rfl hf0 hf h0
      have hsize := parseSize_bad hin fun h => h0 (List.mem_of_mem_take h)
      exact exec_code_of_raised (perform_decoder_of_size hi hmax (parseFilename_found hin hf0 hf) hsize)
    · rintro f z rest rfl hf0 hf h0 hlong
      have hsize := parseSize_bad hin fun h =>
        h0 (List.mem_of_mem_take (by rwa [List.take_append_of_le_length hlong] at h))
      exact exec_code_of_raised (perform_decoder_of_size hi hmax (parseFilename_found hin hf0 hf) hsize)
    · rintro f z rest rfl hf0 hf h0 hz
      obtain ⟨hzero, hover⟩ := parseSize_value hin h0 hz
      have hname := parseFilename_found hin hf0 hf
      exact ⟨fun h => exec_code_of_raised (perform_decoder_of_size hi hmax hname (hzero h)),
        fun h => exec_code_of_raised (perform_decoder_of_size hi hmax hname (hover h))⟩
  · intro s cs f z rest hin hmax hh
    rw [← hin.1] at hmax
    refine ⟨fun hshort => ?_, ?_, ?_, ?_⟩
    · exact exec_code_of_raised (i := .hufDecode) (hufDecode_of_shortTable hin hmax hh hshort)
    · intro es payload data fin ht hd hlen hfin
      exact exec_code_of_raised (i := .hufDecode) (hufDecode_of_exhausted hin hmax hh ht hd hlen hfin)
    · intro w more hrest h0 h
      exact exec_code_of_raised (i := .lzDecode) (lzDecode_of_width hin hmax hh hrest h0 h)
    · intro w payload toks segs fin hw hs hlen
      have hstop (h : ∀ pre, cs = pre ++ payload →
          replay s (beVal w) (beVal z) (beVal z) (8 * pre.length) 0 [] = .error (.raise .corruptHeader)) :
          ∃ t, exec .lzDecode s = .next t ∧ t.status.errCode = 4 :=
        exec_code_of_raised (i := .lzDecode) (lzDecode_of_replay hin hmax hh hw h)
      refine ⟨fun hstream hfin => hstop fun pre hcs => ?_,
        fun tok hstream => ⟨fun hpfx => ?_, fun seg hseg hover => ?_⟩⟩
      · exact replay_of_exhausted (hcs ▸ hin) hstream hs hlen hfin
      · refine hstop fun pre hcs => replay_of_badToken (hcs ▸ hin) hstream hs hlen fun seg hseg => ?_
        rw [List.getElem?_eq_none (by rw [List.length_cons, (replaySegments_length hs).1]; omega)] at hseg
        cases hseg
      · refine hstop fun pre hcs => replay_of_badToken (hcs ▸ hin) hstream hs hlen fun seg' hseg' => ?_
        rw [replaySegments_snoc hs, List.nil_append, hseg'] at hseg
        obtain ⟨-, heq⟩ := List.append_inj' (Option.some.inj hseg) rfl
        cases heq
        exact hover

end Sys2Proof.Machine
end

section
/-! PROOF. The dictionary of LZ78 as numbered entries: what an entry's number finds, and the byte sequences the numbers stand
for (10_state.md R61, 44_lz78.md R270 to R272). -/

namespace Sys2Proof.Machine

/-- The byte sequence of a token or an entry: that of the entry it names, and its byte (10_state.md R61). -/
def Dict.segment (d : Dict) (t : Entry) : List Byte := d.seq t.pfx.toNat ++ [t.byte]

/-! ## Entries by their number -/

section
variable {d : Dict}

theorem Dict.Numbered.count_eq_length (h : d.Numbered) : d.count = d.length := by
  have := congrArg List.length h.indices
  rw [List.length_map, List.length_reverse, List.length_range'] at this
  exact this.symm

theorem Dict.Numbered.read_reverse (h : d.Numbered) {k : Nat} (hk : k < d.count) :
    Memory.read d.reverse (1 + k) = (d.map fun x => x.2).reverse[k]? := by
  rw [Memory.read_of_indices h.indices k hk, ← List.map_reverse, List.getElem?_map]

/-- Every number from 1 to D has its entry. -/
theorem Dict.Numbered.exists_entry (h : d.Numbered) {k : Nat} (h1 : 1 ≤ k) (hk : k ≤ d.count) :
    ∃ e, Memory.read d k = some e := by
  induction d with
  | nil => exact absurd (h1.trans hk) (Nat.not_succ_le_zero 0)
  | cons x d ih =>
    obtain ⟨j, e⟩ := x
    obtain ⟨rfl, hd⟩ := h
    rw [Memory.read_cons]
    split
    · exact ⟨e, rfl⟩
    · rw [Dict.count_cons] at hk
      exact ih hd (by omega)

/-- The entry that a search finds (R271). -/
theorem Dict.find_some {cur k : Nat} {b : Byte} (h : d.find cur b = some k) :
    ∃ e, (k, e) ∈ d ∧ e.pfx.toNat = cur ∧ e.byte = b := by
  induction d with
  | nil => cases h
  | cons x d ih =>
    obtain ⟨j, e⟩ := x
    unfold Dict.find at h
    split at h
    next he => cases h; exact ⟨e, List.mem_cons_self, he⟩
    next =>
      obtain ⟨e', hmem, he'⟩ := ih h
      exact ⟨e', List.mem_cons_of_mem _ hmem, he'⟩

/-- A search finds nothing only if no entry is the pair asked for (R271). -/
theorem Dict.find_none {cur : Nat} {b : Byte} (h : d.find cur b = none) :
    ∀ x ∈ d, ¬ (x.2.pfx.toNat = cur ∧ x.2.byte = b) := by
  induction d with
  | nil => exact fun x hx => absurd hx List.not_mem_nil
  | cons y d ih =>
    obtain ⟨j, e⟩ := y
    unfold Dict.find at h
    split at h
    next => cases h
    next he => exact List.forall_mem_cons.2 ⟨he, ih h⟩

/-! ## Byte sequences -/

theorem Dict.Numbered.seq_zero (h : d.Numbered) : d.seq 0 = [] := by
  induction d with
  | nil => rfl
  | cons x d ih =>
    obtain ⟨j, e⟩ := x
    obtain ⟨rfl, hd⟩ := h
    rw [Dict.seq, if_neg (by omega), ih hd]

/-- A new entry leaves the sequences of the earlier ones. -/
theorem Dict.seq_cons_of_le (e : Entry) {k : Nat} (hk : k ≤ d.count) : Dict.seq ((d.count + 1, e) :: d) k = d.seq k :=
  if_neg (by omega)

theorem Dict.seq_cons_new (d : Dict) (e : Entry) : Dict.seq ((d.count + 1, e) :: d) (d.count + 1) = d.segment e :=
  if_pos rfl

theorem Dict.segment_cons (e : Entry) {t : Entry} (ht : t.pfx.toNat ≤ d.count) :
    Dict.segment ((d.count + 1, e) :: d) t = d.segment t := by
  rw [Dict.segment, Dict.seq_cons_of_le e ht, Dict.segment]

theorem Dict.Numbered.pfx_lt_count (h : d.Numbered) (hok : dictOk d) {x : Nat × Entry} (hx : x ∈ d) :
    x.2.pfx.toNat < d.count :=
  (hok x hx).trans_le (h.le_count hx)

/-- Every entry is a byte longer than the one it names (44_lz78.md R275). -/
theorem Dict.Numbered.seq_of_mem (h : d.Numbered) (hok : dictOk d) {x : Nat × Entry} (hx : x ∈ d) :
    d.seq x.1 = d.segment x.2 := by
  induction d with
  | nil => exact absurd hx List.not_mem_nil
  | cons y d ih =>
    obtain ⟨j, e⟩ := y
    obtain ⟨rfl, hd⟩ := h
    obtain ⟨hlt, hok'⟩ := List.forall_mem_cons.1 hok
    rcases List.mem_cons.1 hx with rfl | hx
    · rw [Dict.seq_cons_new, Dict.segment_cons e (Nat.lt_succ_iff.1 hlt)]
    · rw [Dict.seq_cons_of_le e (hd.le_count hx), ih hd hok' hx, Dict.segment_cons e (hd.pfx_lt_count hok' hx).le]

end

/-- No two numbers from 0 to D stand for the same bytes (44_lz78.md R275). -/
def Dict.Distinct (d : Dict) : Prop := ∀ j ≤ d.count, ∀ k ≤ d.count, d.seq j = d.seq k → j = k

/-- An entry for bytes that no number stands for keeps the sequences distinct. -/
theorem Dict.Distinct.cons {d : Dict} (h : d.Distinct) {e : Entry} (hnew : ∀ j ≤ d.count, d.seq j ≠ d.segment e) :
    Dict.Distinct ((d.count + 1, e) :: d) := by
  intro j hj k hk heq
  rw [Dict.count_cons] at hj hk
  rcases Nat.le_succ_iff.1 hj with hj | rfl <;> rcases Nat.le_succ_iff.1 hk with hk | rfl
  · rw [Dict.seq_cons_of_le e hj, Dict.seq_cons_of_le e hk] at heq
    exact h j hj k hk heq
  · rw [Dict.seq_cons_of_le e hj, Dict.seq_cons_new] at heq
    exact absurd heq (hnew j hj)
  · rw [Dict.seq_cons_of_le e hk, Dict.seq_cons_new] at heq
    exact absurd heq.symm (hnew k hk)
  · rfl

/-! ## Registered tokens -/

theorem Dict.Numbered.register {d : Dict} (h : d.Numbered) (toks : List Entry) : (d.register toks).Numbered := by
  induction toks generalizing d with
  | nil => exact h
  | cons t ts ih => exact ih (h.cons t)

theorem Dict.register_entries (d : Dict) (toks : List Entry) :
    (d.register toks).map (fun x => x.2) = toks.reverse ++ d.map fun x => x.2 := by
  induction toks generalizing d with
  | nil => rfl
  | cons t ts ih => rw [Dict.register_cons, ih, List.reverse_cons, List.append_assoc]; rfl

theorem Dict.register_count (d : Dict) (toks : List Entry) : (d.register toks).count = d.count + toks.length := by
  induction toks generalizing d with
  | nil => rfl
  | cons t ts ih => rw [Dict.register_cons, ih, Dict.count_cons, List.length_cons]; omega

theorem Dict.register_snoc (d : Dict) (toks : List Entry) (t : Entry) :
    d.register (toks ++ [t]) = ((d.register toks).count + 1, t) :: d.register toks := by
  simp only [Dict.register, List.foldl_append, List.foldl_cons, List.foldl_nil]

/-- A numbered dictionary is its entries registered in turn. -/
theorem Dict.Numbered.register_eq {d : Dict} (h : d.Numbered) : Dict.register [] (d.map fun x => x.2).reverse = d := by
  induction d with
  | nil => rfl
  | cons x d ih =>
    obtain ⟨j, e⟩ := x
    obtain ⟨rfl, hd⟩ := h
    rw [List.map_cons, List.reverse_cons, Dict.register_snoc, ih hd]

/-- The first entries registered are the first ones of the dictionary. -/
theorem Dict.Numbered.register_take {d : Dict} (h : d.Numbered) (n : Nat) :
    (Dict.register [] ((d.map fun x => x.2).reverse.take n)).reverse = d.reverse.take n := by
  induction d with
  | nil => rw [List.map_nil, List.reverse_nil, List.reverse_nil, List.take_nil, List.take_nil]; rfl
  | cons x d ih =>
    rcases Nat.lt_or_ge d.length n with hn | hn
    · rw [List.take_of_length_le (by simpa using hn), List.take_of_length_le (by simpa using hn), h.register_eq]
    · rw [List.map_cons, List.reverse_cons, List.reverse_cons, List.take_append_of_le_length (by simpa using hn),
        List.take_append_of_le_length (by simpa using hn), ih h.2]

/-- DICT after the tokens are registered holds them from element 1 on, and nothing else (44_lz78.md R284). -/
theorem Dict.register_nil_holds (toks : List Entry) :
    Memory.holds (Dict.register [] toks).reverse 1 toks ∧
      Memory.exactly (Dict.register [] toks).reverse 1 toks.length := by
  have hnum := Dict.Numbered.nil.register toks
  have hcount : (Dict.register [] toks).count = toks.length := (Dict.register_count [] toks).trans (Nat.zero_add _)
  refine ⟨fun i hi => ?_, hcount ▸ Memory.exactly_of_indices hnum.indices⟩
  rw [hnum.read_reverse (hcount ▸ hi), Dict.register_entries, List.map_nil, List.append_nil, List.reverse_reverse]

/-- A new entry leaves the segments of the earlier ones. -/
theorem Dict.Numbered.segment_cons_of_mem {d : Dict} (h : d.Numbered) (hok : dictOk d) (e : Entry) {t : Entry}
    (ht : t ∈ (d.map fun x => x.2).reverse) : Dict.segment ((d.count + 1, e) :: d) t = d.segment t := by
  obtain ⟨x, hx, rfl⟩ := List.mem_map.1 (List.mem_reverse.1 ht)
  exact Dict.segment_cons e (h.pfx_lt_count hok hx).le

/-- The segments of the entries, entry 1 first. -/
def Dict.segments (d : Dict) : List (List Byte) := (d.map fun x => x.2).reverse.map d.segment

theorem Dict.Numbered.segments_cons {d : Dict} (h : d.Numbered) (hok : dictOk d) {e : Entry}
    (he : e.pfx.toNat ≤ d.count) : Dict.segments ((d.count + 1, e) :: d) = d.segments ++ [d.segment e] := by
  rw [Dict.segments, List.map_cons, List.reverse_cons, List.map_append, List.map_singleton, Dict.segment_cons e he,
    List.map_congr_left fun t ht => h.segment_cons_of_mem hok e ht, Dict.segments]

/-- The entries of a numbered dictionary replay, each giving its own segment (44_lz78.md R286). -/
theorem Dict.Numbered.replaySegments_entries {d : Dict} (h : d.Numbered) (hok : dictOk d) :
    replaySegments [] (d.map fun x => x.2).reverse = some d.segments ∧ d.standsFor d.segments := by
  induction d with
  | nil => exact ⟨rfl, Dict.standsFor_nil⟩
  | cons x d ih =>
    obtain ⟨j, e⟩ := x
    obtain ⟨rfl, hd⟩ := h
    obtain ⟨hlt, hok'⟩ := List.forall_mem_cons.1 hok
    have he : e.pfx.toNat ≤ Dict.count d := Nat.lt_succ_iff.1 hlt
    obtain ⟨hsegs, hstands⟩ := ih hd hok'
    have hpfx := (hstands.2 _ (hstands.1 ▸ he)).symm
    rw [List.map_cons, List.reverse_cons, hd.segments_cons hok' he, replaySegments_snoc hsegs, List.nil_append, hpfx]
    exact ⟨rfl, Dict.standsFor_cons hstands hpfx⟩

end Sys2Proof.Machine
end

section
/-! PROOF. LZ_SEGMENT builds the dictionary (44_lz78.md R271 to R275). -/

namespace Sys2Proof.Machine

/-! ## The segmenter after any part of the input -/

/-- What holds of the segmenter's variables after the bytes `bs` (R271): the tokens are the entries, no two entries stand for
the same bytes, and the tokens and the candidate spell what has been read. -/
structure Seg.Spells (g : Seg) (bs : List Byte) : Prop where
  earlier : g.Earlier
  entries : g.toks = g.dict.map fun x => x.2
  distinct : g.dict.Distinct
  length : (g.dict.seq g.cur).length = g.clen
  spelt : g.toks.reverse.flatMap g.dict.segment ++ g.dict.seq g.cur = bs

theorem Seg.spells_start : Seg.start.Spells [] where
  earlier := Seg.earlier_start
  entries := rfl
  distinct _ hj _ hk _ := (Nat.le_zero.1 hj).trans (Nat.le_zero.1 hk).symm
  length := rfl
  spelt := rfl

section
variable {g : Seg} {bs : List Byte} {b : Byte}

/-- The candidate goes on as an entry that is a byte longer (R271). -/
theorem Seg.Spells.step_found (h : g.Spells bs) {k : Nat} (hk : g.dict.find g.cur b = some k) :
    (g.step b).Spells (bs ++ [b]) := by
  have hearlier := h.earlier.step b
  obtain ⟨⟨hnum, hok, -⟩, hentries, hdistinct, hlength, hspelt⟩ := h
  obtain ⟨e, hmem, hpfx, hbyte⟩ := Dict.find_some hk
  have hseq : g.dict.seq k = g.dict.seq g.cur ++ [b] := by
    rw [hnum.seq_of_mem hok hmem, Dict.segment, hpfx, hbyte]
  simp only [Seg.step, hk] at hearlier ⊢
  exact ⟨hearlier, hentries, hdistinct, by simp only [hseq, List.length_append, List.length_singleton, hlength],
    by simp only [hseq, ← List.append_assoc, hspelt]⟩

/-- No entry stands for the candidate and the byte, if the search finds none (R271). -/
theorem Seg.Spells.seq_ne_of_find_none (h : g.Spells bs) (hk : g.dict.find g.cur b = none) {j : Nat}
    (hj : j ≤ g.dict.count) : g.dict.seq j ≠ g.dict.seq g.cur ++ [b] := by
  obtain ⟨⟨hnum, hok, hcand⟩, -, hdistinct, -, -⟩ := h
  intro heq
  rcases Nat.eq_zero_or_pos j with rfl | hpos
  · rw [hnum.seq_zero] at heq
    exact absurd heq.symm (List.append_ne_nil_of_right_ne_nil _ (List.cons_ne_nil b []))
  · obtain ⟨e, he⟩ := hnum.exists_entry hpos hj
    have hmem := Memory.mem_of_read he
    rw [hnum.seq_of_mem hok hmem, Dict.segment] at heq
    obtain ⟨hpfx, hbyte⟩ := List.append_inj' heq rfl
    have hle := (hnum.pfx_lt_count hok hmem).le
    exact Dict.find_none hk _ hmem ⟨hdistinct _ hle _ hcand hpfx, List.head_eq_of_cons_eq hbyte⟩

/-- The candidate and the byte become an entry and a token (R271). -/
theorem Seg.Spells.step_new (h : g.Spells bs) (hword : g.dict.count < 2 ^ 32) (hk : g.dict.find g.cur b = none) :
    (g.step b).Spells (bs ++ [b]) := by
  have hearlier := h.earlier.step b
  have hnew {j : Nat} (hj : j ≤ g.dict.count) := h.seq_ne_of_find_none hk hj
  obtain ⟨⟨hnum, hok, hcand⟩, hentries, hdistinct, -, hspelt⟩ := h
  have ecur : (BitVec.ofNat 32 g.cur).toNat = g.cur := Nat.mod_eq_of_lt (hcand.trans_lt hword)
  have hpfx : (Entry.mk (BitVec.ofNat 32 g.cur) b).pfx.toNat ≤ g.dict.count := ecur.le.trans hcand
  have hseg : g.dict.segment (Entry.mk (BitVec.ofNat 32 g.cur) b) = g.dict.seq g.cur ++ [b] := by
    rw [Dict.segment, ecur]
  simp only [Seg.step, hk] at hearlier ⊢
  refine ⟨hearlier, by simp only [hentries, List.map_cons], hdistinct.cons fun j hj => hseg ▸ hnew hj, ?_, ?_⟩
  · simp only [Dict.seq_cons_of_le _ (Nat.zero_le _), hnum.seq_zero, List.length_nil]
  · have hold : g.toks.reverse.flatMap
        (Dict.segment ((g.dict.count + 1, Entry.mk (BitVec.ofNat 32 g.cur) b) :: g.dict)) =
        g.toks.reverse.flatMap g.dict.segment :=
      List.flatMap_congr fun t ht => hnum.segment_cons_of_mem hok _ (hentries ▸ ht)
    rw [List.reverse_cons, List.flatMap_append, hold, List.flatMap_singleton, Dict.segment_cons _ hpfx, hseg,
      Dict.seq_cons_of_le _ (Nat.zero_le _), hnum.seq_zero, List.append_nil, ← List.append_assoc, hspelt]

theorem Seg.Spells.step (h : g.Spells bs) (hword : g.dict.count < 2 ^ 32) (b : Byte) :
    (g.step b).Spells (bs ++ [b]) := by
  cases hk : g.dict.find g.cur b with
  | some k => exact h.step_found hk
  | none => exact h.step_new hword hk

theorem Seg.Spells.run (h : g.Spells bs) (hafter : g.After bs.length) {more : List Byte}
    (hword : (bs ++ more).length < 2 ^ 32) : (g.run more).Spells (bs ++ more) := by
  induction more generalizing g bs with
  | nil => rwa [List.append_nil]
  | cons b more ih =>
    have hcount : g.dict.count < 2 ^ 32 := by
      obtain ⟨-, hcount, hbytes⟩ := hafter
      rw [List.length_append] at hword
      omega
    rw [List.append_cons] at hword ⊢
    exact ih (h.step hcount b) (by rw [List.length_append]; exact hafter.step b) hword

/-- The segmentation of an input that IN_LEN can measure. -/
theorem Seg.run_spells (hword : bs.length < 2 ^ 32) : (Seg.start.run bs).Spells bs :=
  Seg.spells_start.run Seg.after_start hword

/-! ## The tokens -/

/-- The tokens are the entries, and the candidate's entry again if a candidate is left over (R274, 90_conflicts.md C2). -/
theorem Seg.Spells.tokens_cases (h : g.Spells bs) :
    (g.tokens = g.toks.reverse ∧ g.dict.seq g.cur = []) ∨
      ∃ e, 1 ≤ g.cur ∧ (g.cur, e) ∈ g.dict ∧ g.tokens = g.toks.reverse ++ [e] := by
  obtain ⟨⟨hnum, -, hcand⟩, -, -, hlength, -⟩ := h
  by_cases h0 : g.clen = 0
  · exact .inl ⟨if_pos h0, List.length_eq_zero_iff.1 (hlength.trans h0)⟩
  · have hpos : 1 ≤ g.cur := by
      rcases Nat.eq_zero_or_pos g.cur with hcur | hpos
      · rw [hcur, hnum.seq_zero] at hlength
        exact absurd hlength.symm h0
      · exact hpos
    obtain ⟨e, he⟩ := hnum.exists_entry hpos hcand
    exact .inr ⟨e, hpos, Memory.mem_of_read he, by simp only [Seg.tokens, if_neg h0, he, List.reverse_cons]⟩

/-- The tokens' segments are the input (R275). -/
theorem Seg.Spells.tokens_flatMap (h : g.Spells bs) : g.tokens.flatMap g.dict.segment = bs := by
  have hspelt := h.spelt
  rcases h.tokens_cases with ⟨htoks, hcand⟩ | ⟨e, -, hmem, htoks⟩
  · rwa [hcand, List.append_nil, ← htoks] at hspelt
  · rwa [h.earlier.numbered.seq_of_mem h.earlier.entries hmem, ← List.flatMap_singleton g.dict.segment e,
      ← List.flatMap_append, ← htoks] at hspelt

/-- Every token is an entry (R274). -/
theorem Seg.Spells.mem_dict_of_mem_tokens (h : g.Spells bs) {t : Entry} (ht : t ∈ g.tokens) :
    ∃ k, (k, t) ∈ g.dict := by
  have hentry {t : Entry} (ht : t ∈ g.toks.reverse) : ∃ k, (k, t) ∈ g.dict := by
    rw [List.mem_reverse, h.entries] at ht
    obtain ⟨⟨k, _⟩, hx, rfl⟩ := List.mem_map.1 ht
    exact ⟨k, hx⟩
  rcases h.tokens_cases with ⟨htoks, -⟩ | ⟨e, -, hmem, htoks⟩ <;> rw [htoks] at ht
  · exact hentry ht
  · rcases List.mem_append.1 ht with ht | ht
    · exact hentry ht
    · exact ⟨g.cur, List.mem_singleton.1 ht ▸ hmem⟩

theorem Seg.Spells.toks_length (h : g.Spells bs) : g.toks.length = g.dict.count := by
  rw [h.entries, List.length_map, h.earlier.numbered.count_eq_length]

/-- Some byte became an entry (R275). -/
theorem Seg.Spells.one_le_count (h : g.Spells bs) (hne : bs ≠ []) : 1 ≤ g.dict.count := by
  rcases Nat.eq_zero_or_pos g.dict.count with h0 | hpos
  · have htoks := List.length_eq_zero_iff.1 (h.toks_length.trans h0)
    have hcur : g.cur = 0 := Nat.le_zero.1 (h0 ▸ h.earlier.candidate)
    have hspelt := h.spelt
    rw [htoks, hcur, h.earlier.numbered.seq_zero] at hspelt
    exact absurd hspelt.symm hne
  · exact hpos

end

/-! ## The command -/

theorem Memory.read_writeList_nil {α : Type} (vs : List α) {i : Nat} (hi : i < vs.length) :
    Memory.read (Memory.writeList [] 0 vs) i = vs[i]? := by
  rw [Memory.read_writeList .nil, if_pos (by omega), Nat.sub_zero]

/-- Entry k + 1 and token k are the same pair (R275). -/
theorem Seg.Spells.read_tokens {g : Seg} {bs : List Byte} (h : g.Spells bs) {k : Nat} (hk : k < g.dict.count) :
    Memory.read (Memory.writeList [] 0 g.tokens) k = Memory.read g.dict.reverse (k + 1) := by
  have htoks : k < g.toks.reverse.length := by rwa [List.length_reverse, h.toks_length]
  obtain ⟨last, hlast⟩ : g.toks.reverse <+: g.tokens := by
    rcases h.tokens_cases with ⟨e, -⟩ | ⟨t, -, -, e⟩ <;> rw [e]
    exact List.prefix_append _ _
  rw [Memory.read_writeList_nil _ (htoks.trans_le (hlast ▸ List.length_append ▸ Nat.le_add_right _ _)), ← hlast,
    List.getElem?_append_left htoks, Nat.add_comm, h.earlier.numbered.read_reverse hk, h.entries]

/-- Settles O45: what the segmenter's variables hold at the end of the input (`Seg.Spells`), read off DICT and TOK. -/
theorem lzSegmentBuildsTheDictionary : Obligations.LzSegmentBuildsTheDictionary := by
  intro s bs hin hne hmax
  have hcheck := checkData_ok (inLen_ne_zero hin hne) (hin.1 ▸ hmax)
  have h := Seg.run_spells (hin.1 ▸ s.inLen.isLt)
  obtain ⟨-, -, hbytes⟩ := Seg.after_start.run bs
  have htoksLe := (Seg.start.run bs).tokens_length_le
  have hexec := exec_lzSegment_of_input hcheck hin
  generalize Seg.start.run bs = g at h hbytes htoksLe hexec
  obtain ⟨hnum, hok, -⟩ := h.earlier
  have hwf := Memory.wf_of_indices hnum.indices
  have hcount := h.toks_length
  have hslice : Memory.slice (Memory.writeList [] 0 g.tokens) 0 g.tokens.length = g.tokens :=
    Memory.slice_writeList .nil g.tokens
  refine ⟨_, g.dict.count, g.tokens.length, hexec, h.one_le_count hne, ?_, by omega,
    Memory.exactly_of_indices hnum.indices, Memory.exactly_writeList_nil 0 g.tokens, hwf,
    Memory.wf_writeList .nil 0 g.tokens, dictOk_reverse hok, ?_, ?_, fun k hk => h.read_tokens hk, ?_, ?_, rfl⟩
  case refine_1 =>
    rcases h.tokens_cases with ⟨e, -⟩ | ⟨t, -, -, e⟩ <;> rw [e]
    · exact .inl (by rw [List.length_reverse, hcount])
    · exact .inr (by rw [List.length_append, List.length_reverse, hcount, List.length_singleton])
  all_goals simp only [State.complete_dictMem, State.complete_tokMem, State.setSegments_dictMem, State.setSegments_tokMem,
    List.reverse_reverse, hslice]
  case refine_2 => exact fun x hx => hnum.seq_of_mem hok (List.mem_reverse.1 hx)
  case refine_3 => exact fun j k _ hjk hk heq => Nat.ne_of_lt hjk (h.distinct j (hjk.le.trans hk) k hk heq)
  case refine_4 =>
    intro hlen
    rcases h.tokens_cases with ⟨e, -⟩ | ⟨t, hpos, hmem, e⟩
    · rw [e, List.length_reverse] at hlen
      omega
    · refine ⟨g.cur, hpos, h.earlier.candidate, ?_⟩
      rw [Memory.read_writeList_nil _ (by omega), Memory.read_of_mem hwf (List.mem_reverse.2 hmem), e,
        ← hcount, ← List.length_reverse, List.getElem?_concat_length]
  case refine_5 => exact h.tokens_flatMap

end Sys2Proof.Machine
end

section
/-! PROOF. LZ_DECODE of a container given as its parts (44_lz78.md R281 to R286, 30_encoding.md R135, R136). -/

namespace Sys2Proof.Machine

/-! ## Token streams -/

/-- Tokens replay only if all but the last do, and the last one names a segment from before it (44_lz78.md R281). -/
theorem replaySegments_snoc_some {reg segs : List (List Byte)} {toks : List Entry} {tok : Entry}
    (h : replaySegments reg (toks ++ [tok]) = some segs) :
    ∃ segs' seg, replaySegments reg toks = some segs' ∧ ([] :: (reg ++ segs'))[tok.pfx.toNat]? = some seg ∧
      segs = segs' ++ [seg ++ [tok.byte]] := by
  have hinit : ∃ segs', replaySegments reg toks = some segs' := by
    induction toks generalizing reg segs with
    | nil => exact ⟨[], rfl⟩
    | cons t ts ih =>
      rw [List.cons_append, replaySegments] at h
      rw [replaySegments]
      split at h
      next => cases h
      next seg hseg =>
        split at h
        next => cases h
        next hrest =>
          obtain ⟨segs', hsegs'⟩ := ih hrest
          exact ⟨(seg ++ [t.byte]) :: segs', by simp only [hsegs']⟩
  obtain ⟨segs', hsegs'⟩ := hinit
  rw [replaySegments_snoc hsegs'] at h
  obtain ⟨seg, hseg, rfl⟩ := Option.map_eq_some_iff.1 h
  exact ⟨segs', seg, hsegs', hseg, rfl⟩

theorem tokenStream.length_eq {w : Nat} {payload : List Byte} {toks : List Entry} {fin : BitStr}
    (h : tokenStream w payload toks fin) : 8 * payload.length = toks.length * (w + 8) + fin.length := by
  have hlen := congrArg List.length h.2
  rw [bytesBits_length, List.length_append, List.length_flatMap] at hlen
  simpa only [tokenBits_length, List.map_const', List.sum_replicate, smul_eq_mul] using hlen

/-! ## The replay -/

/-- Once the output is as long as the size, the replay is over (44_lz78.md R281). -/
theorem replay_of_full (s : State) (w : Nat) {size out : Nat} (h : size ≤ out) (n pos : Nat) (d : Dict) :
    replay s w size n pos out d = .ok (Replayed.mk [] d pos) := by
  cases n with
  | zero => rfl
  | succ n => exact if_pos h

/-- Tokens whose segments are together as long as the size replay whole, all but the last one registered (44_lz78.md R281,
R284). -/
theorem replay_tokenStream {s : State} {w size : Nat} {pre payload : List Byte} {toks : List Entry}
    {segs : List (List Byte)} {fin : BitStr} (hin : s.inputIs (pre ++ payload)) (hstream : tokenStream w payload toks fin)
    (hs : replaySegments [] toks = some segs) (hlen : segs.flatten.length = size) (hsize : size ≠ 0) :
    replay s w size size (8 * pre.length) 0 [] = .ok (Replayed.mk segs.flatten (Dict.register [] toks.dropLast)
      (8 * (pre ++ payload).length - fin.length)) := by
  have hbitsLen := hstream.length_eq
  obtain ⟨hpfx, hbits⟩ := hstream
  rcases List.eq_nil_or_concat' toks with rfl | ⟨init, tok, rfl⟩
  · cases hs
    exact absurd hlen.symm hsize
  obtain ⟨segs', seg, hs', hseg, rfl⟩ := replaySegments_snoc_some hs
  rw [List.flatten_append, List.flatten_singleton] at hlen ⊢
  have hlast : segs'.flatten.length + (seg ++ [tok.byte]).length = size := List.length_append ▸ hlen
  have hout : segs'.flatten.length < size := by
    rw [List.length_append, List.length_singleton] at hlast
    omega
  obtain ⟨n, hn⟩ := Nat.exists_eq_add_of_lt ((replaySegments_length hs').2.trans_lt hout)
  have hdrop := drop_bytesBits pre payload
  rw [hbits, List.flatMap_append, List.flatMap_singleton, List.append_assoc] at hdrop
  obtain ⟨hd, -, hnext, hreplay⟩ := replay_append hin init Dict.standsFor_nil hdrop
    (fun t ht => hpfx t (List.mem_append_left _ ht)) hs' (by rwa [Nat.zero_add]) (n + 1)
  rw [← Nat.add_assoc, ← hn, Nat.zero_add, replay_token hin hd hnext (hpfx tok (by simp)) hout n, hseg] at hreplay
  simp only [hlast, if_neg (Nat.lt_irrefl size), replay_of_full s w (Nat.le_refl size), List.append_nil] at hreplay
  rw [hreplay, List.dropLast_concat]
  rw [List.length_append, List.length_singleton, Nat.succ_mul init.length] at hbitsLen
  congr 2
  rw [List.length_append]
  omega

/-! ## The command -/

/-- A legal header and width parse, and the payload stands at the offset after them (44_lz78.md R282). -/
theorem legalWidth_split {s : State} {cs f z rest w payload : List Byte} (hin : s.inputIs cs)
    (hh : legalHeader s.params cs f z rest) (hw : legalWidth rest w payload) :
    ∃ pre pos, cs = pre ++ payload ∧ parseFilename s = .ok f ∧ parseSize s (f.length + 1) = .ok (pos, beVal z) ∧
      parseWidth s pos = .ok (pre.length, beVal w) := by
  obtain ⟨pre, rfl, hname, hsize⟩ := legalHeader_split hin hh
  have hwidth := legalWidth_parses hin hw
  obtain ⟨rfl, -⟩ := hw
  exact ⟨pre ++ (w ++ [0]), pre.length, by simp, hname, hsize, by rw [hwidth]; simp; omega⟩

/-- LZ_DECODE of a legal header, a legal width and tokens whose segments are as long as the size says. -/
theorem exec_lzDecode_of_parts {s : State} {cs f z rest w payload : List Byte} {toks : List Entry}
    {segs : List (List Byte)} {fin : BitStr} (hin : s.inputIs cs) (hmax : cs.length ≤ s.params.inMax)
    (hh : legalHeader s.params cs f z rest) (hw : legalWidth rest w payload)
    (hstream : tokenStream (beVal w) payload toks fin) (hs : replaySegments [] toks = some segs)
    (hlen : segs.flatten.length = beVal z) :
    exec .lzDecode s = .next (((s.setReplayed (beVal w) (Dict.register [] toks.dropLast)).setDecoded f
      segs.flatten.length (cs.length - payload.length) (8 * cs.length - fin.length) segs.flatten).complete none) := by
  have hcheck := checkInMax_ok (s := s) (hin.1 ▸ hmax)
  obtain ⟨pre, pos, rfl, hname, hsize, hwidth⟩ := legalWidth_split hin hh hw
  have hsize0 : beVal z ≠ 0 := by
    obtain ⟨-, -, -, -, -, h, -⟩ := hh
    exact h
  have hreplay := replay_tokenStream hin hstream hs hlen hsize0
  rw [exec_eq_finish, perform]
  simp only [lzDecode, hcheck, hname, hsize, hwidth, hreplay, finish_done, hlen, List.length_append,
    Nat.add_sub_cancel]

/-- `t` is what LZ_DECODE makes of `s` when it succeeds: the results, and nothing else changed (44_lz78.md R281). -/
structure LzDecoded (s t : State) (f data : List Byte) (toks : List Entry) (w off pos : Nat) : Prop where
  out : t.outBytes = data
  name : Memory.slice t.fnameMem 0 f.length = f
  nameOnly : Memory.exactly t.fnameMem 0 f.length
  dict : t.dictMem = (Dict.register [] toks.dropLast).reverse
  cursor : cursorPos t = .ok pos
  outFrame : ∀ a, data.length ≤ a → Memory.read t.outMem a = Memory.read s.outMem a
  frame : t = { s with
    fnameMem := t.fnameMem
    fnameLen := some (BitVec.ofNat 32 f.length)
    fileSize := some (BitVec.ofNat 32 data.length)
    payloadOff := some (BitVec.ofNat 32 off)
    brByte := t.brByte
    brBit := t.brBit
    dictMem := t.dictMem
    dictSize := some (BitVec.ofNat 32 (toks.length - 1))
    indexWidth := some (BitVec.ofNat 6 w)
    outMem := t.outMem
    outLen := some (BitVec.ofNat 32 data.length)
    bpAcc := some 0
    bpNbits := some 0
    status := { s.status with busy := false, done := true, err := false, errCode := 0, dictValid := true } }

theorem LzDecoded.of_setDecoded {s : State} {f data : List Byte} {toks : List Entry} {w off pos : Nat}
    (hwf : Memory.wf s.outMem) (hdata : data.length < 2 ^ 32) (hpos : pos < 2 ^ 35) :
    LzDecoded s (((s.setReplayed w (Dict.register [] toks.dropLast)).setDecoded f data.length off pos data).complete none)
      f data toks w off pos := by
  have hcount : (Dict.register [] toks.dropLast).count = toks.length - 1 := by
    rw [Dict.register_count, List.length_dropLast]
    exact Nat.zero_add _
  obtain ⟨hout, hframe⟩ := State.setDecoded_outBytes (s := s.setReplayed w (Dict.register [] toks.dropLast)) (name := f)
    (off := off) (pos := pos) hwf hdata none
  constructor
  case out => exact hout
  case name => exact Memory.slice_writeList .nil f
  case nameOnly => exact Memory.exactly_writeList_nil 0 f
  case dict => rfl
  case cursor => exact cursorPos_setCursor s hpos
  case outFrame => exact hframe
  case frame => rw [← hcount]; rfl

/-- LZ_DECODE of any container with legal parts (44_lz78.md R281 to R285). -/
theorem lzDecode_parts {s : State} {cs f z rest w payload : List Byte} {toks : List Entry} {segs : List (List Byte)}
    {fin : BitStr} (hin : s.inputIs cs) (hmax : cs.length ≤ s.params.inMax) (hwf : Memory.wf s.outMem)
    (hh : legalHeader s.params cs f z rest) (hw : legalWidth rest w payload)
    (hstream : tokenStream (beVal w) payload toks fin) (hs : replaySegments [] toks = some segs)
    (hlen : segs.flatten.length = beVal z) :
    ∃ t, exec .lzDecode s = .next t ∧
      LzDecoded s t f segs.flatten toks (beVal w) (cs.length - payload.length) (8 * cs.length - fin.length) := by
  have hdata := hh.size_lt
  rw [← hlen] at hdata
  have hword := s.inLen.isLt
  rw [hin.1] at hword
  exact ⟨_, exec_lzDecode_of_parts hin hmax hh hw hstream hs hlen, .of_setDecoded hwf hdata (by omega)⟩

/-! ## The segmenter's container -/

/-- What stands before the tokens of an LZ78 container: the header fields and the width (30_encoding.md R136). -/
theorem lzContainer_parts {P : Params} {cs f : List Byte} {size w : Nat} {toks : List Entry} {tail : BitStr}
    (hsize : 0 < size) (hsizeMax : size ≤ P.outMax) (hsizeWord : size < 2 ^ 32) (hf : f.length ≤ P.fnameMax)
    (hf0 : 0 ∉ f) (hsize0 : 0 ∉ beMin size) (hw : w ≤ 32)
    (hbits : bytesBits cs = lzContainer f size w toks ++ tail) :
    ∃ rest post : List Byte, legalHeader P cs f (beMin size) rest ∧ legalWidth rest (beMin w) post ∧
      bytesBits post = toks.flatMap (tokenBits w) ++ tail := by
  obtain ⟨post, rfl, hpost⟩ := exists_append_of_bytesBits (cs := cs)
    (pre := f ++ 0 :: (beMin size ++ 0 :: (beMin w ++ [0]))) (bits := toks.flatMap (tokenBits w) ++ tail) (by
      rw [hbits, lzContainer, nulField, nulField, nulField]
      simp)
  have hval : beVal (beMin size) = size := beVal_beDigits hsizeWord
  have hwidth : beVal (beMin w) = w := beVal_beDigits (hw.trans_lt (by decide))
  have hwidth0 : 0 ∉ beMin w := by
    clear * - hw
    revert w
    decide
  refine ⟨beMin w ++ 0 :: post, post, ⟨by simp, hf0, hf, hsize0, beMin_length_le size, ?_, ?_⟩,
    ⟨rfl, hwidth0, beMin_width_length hw, hwidth.le.trans hw⟩, hpost⟩ <;> omega

/-- The tokens replay to segments that are the input together (44_lz78.md R286). -/
theorem Seg.Spells.replaySegments_tokens {g : Seg} {bs : List Byte} (h : g.Spells bs) :
    ∃ segs, replaySegments [] g.tokens = some segs ∧ segs.flatten = bs := by
  obtain ⟨hnum, hok, -⟩ := h.earlier
  obtain ⟨hsegs, hstands⟩ := hnum.replaySegments_entries hok
  rw [← h.entries] at hsegs
  have hspelt := h.spelt
  have hflat : g.dict.segments.flatten = g.toks.reverse.flatMap g.dict.segment := by
    rw [Dict.segments, ← h.entries, List.flatMap_def]
  rcases h.tokens_cases with ⟨htoks, hcand⟩ | ⟨e, -, hmem, htoks⟩
  · exact ⟨_, htoks ▸ hsegs, by rw [hflat, ← hspelt, hcand, List.append_nil]⟩
  · have hpfx := (hstands.2 _ (hstands.1 ▸ (hnum.pfx_lt_count hok hmem).le)).symm
    refine ⟨g.dict.segments ++ [g.dict.segment e], ?_, ?_⟩
    · rw [htoks, replaySegments_snoc hsegs, List.nil_append, hpfx]
      rfl
    · rw [List.flatten_append, List.flatten_singleton, hflat, ← hnum.seq_of_mem hok hmem, hspelt]

/-- The number of the entry a token names fits in W = ceil_log2(D) bits (44_lz78.md R273, R276). -/
theorem Seg.Spells.pfx_lt {g : Seg} {bs : List Byte} (h : g.Spells bs) {t : Entry} (ht : t ∈ g.tokens) :
    t.pfx.toNat < 2 ^ ceilLog2 g.dict.count := by
  obtain ⟨k, hmem⟩ := h.mem_dict_of_mem_tokens ht
  exact (h.earlier.numbered.pfx_lt_count h.earlier.entries hmem).trans_le ((ceilLog2_le_iff _ _).1 (Nat.le_refl _))

/-- Registering all the tokens but the last gives the first entries of the segmenter (44_lz78.md R284, R286). -/
theorem Seg.Spells.register_dropLast {g : Seg} {bs : List Byte} (h : g.Spells bs) :
    (Dict.register [] g.tokens.dropLast).reverse = g.dict.reverse.take (g.tokens.length - 1) := by
  have htake : g.tokens.dropLast = g.toks.reverse.take (g.tokens.length - 1) := by
    rcases h.tokens_cases with ⟨e, -⟩ | ⟨t, -, -, e⟩ <;> rw [e]
    · exact List.dropLast_eq_take
    · rw [List.dropLast_concat, List.length_append, List.length_singleton, Nat.add_sub_cancel, List.take_length]
  rw [htake, h.entries, h.earlier.numbered.register_take]

/-- LZ_DECODE of the container of a segmentation, whatever bits follow its tokens (44_lz78.md R286). -/
theorem lzDecode_container {s : State} {cs bs f : List Byte} {g : Seg} {tail : BitStr} (hin : s.inputIs cs)
    (hmax : cs.length ≤ s.params.inMax) (hne : bs ≠ []) (hbsMax : bs.length ≤ s.params.outMax)
    (hbsWord : bs.length < 2 ^ 32) (hf : f.length ≤ s.params.fnameMax) (hwf : Memory.wf s.outMem) (hf0 : 0 ∉ f)
    (hsize0 : 0 ∉ beMin bs.length) (hg : g = Seg.start.run bs)
    (hbits : bytesBits cs = lzContainer f bs.length (ceilLog2 g.dict.count) g.tokens ++ tail) :
    ∃ t off, exec .lzDecode s = .next t ∧
      8 * off = (nulField f ++ nulField (beMin bs.length) ++ nulField (beMin (ceilLog2 g.dict.count))).length ∧
      t.dictMem = g.dict.reverse.take (g.tokens.length - 1) ∧
      LzDecoded s t f bs g.tokens (ceilLog2 g.dict.count) off
        (8 * off + g.tokens.length * (ceilLog2 g.dict.count + 8)) := by
  have hw : ceilLog2 g.dict.count ≤ 32 := hg ▸ (Seg.run_bounds hbsWord).2
  have hspells : g.Spells bs := hg ▸ Seg.run_spells hbsWord
  obtain ⟨rest, post, hh, hwidth, hpost⟩ := lzContainer_parts (List.length_pos_iff.2 hne) hbsMax hbsWord hf hf0 hsize0 hw
    hbits
  have hval : beVal (beMin (ceilLog2 g.dict.count)) = ceilLog2 g.dict.count :=
    beVal_beDigits (hw.trans_lt (by decide))
  have hstream : tokenStream (beVal (beMin (ceilLog2 g.dict.count))) post g.tokens tail := by
    rw [hval]
    exact ⟨fun t ht => hspells.pfx_lt ht, hpost⟩
  obtain ⟨segs, hs, rfl⟩ := hspells.replaySegments_tokens
  obtain ⟨t, hexec, hdecoded⟩ := lzDecode_parts hin hmax hwf hh hwidth hstream hs (beVal_beDigits hbsWord).symm
  have hpostLen := hstream.length_eq
  rw [hval] at hdecoded hpostLen
  have hcsLen := congrArg List.length hbits
  rw [bytesBits_length, List.length_append, lzContainer_length] at hcsLen
  refine ⟨t, cs.length - post.length, hexec, ?_, hdecoded.dict.trans hspells.register_dropLast, ?_⟩
  · simp only [List.length_append, nulField_length]
    omega
  · convert hdecoded using 1
    omega

/-- Settles O47: both kinds of container have parts that the parsers and the replay give, one by one. -/
theorem lzDecodeRecoversTheData : Obligations.LzDecodeRecoversTheData := by
  constructor
  · intro s cs bs f tail hin hmax hne hbsMax hbsWord hf hwf hf0 hsize0 g hg hbits
    obtain ⟨t, off, hexec, hoff, hdict, hout, hname, hnameOnly, -, hcursor, houtFrame, hframe⟩ :=
      lzDecode_container hin hmax hne hbsMax hbsWord hf hwf hf0 hsize0 hg hbits
    exact ⟨t, off, hexec, hout, hname, hnameOnly, hdict, hoff, hcursor, houtFrame, hframe⟩
  · intro s cs f z rest w payload toks segs fin hin hmax hwf hh hw hstream hs hlen
    obtain ⟨t, hexec, hout, hname, hnameOnly, hdict, hcursor, houtFrame, hframe⟩ :=
      lzDecode_parts hin hmax hwf hh hw hstream hs hlen
    obtain ⟨hholds, hexactly⟩ := Dict.register_nil_holds toks.dropLast
    rw [← hdict] at hholds hexactly
    rw [List.length_dropLast] at hexactly
    rw [hlen] at houtFrame hframe
    exact ⟨t, hexec, hout, hname, hnameOnly, hholds, hexactly, hcursor, houtFrame, hframe⟩

end Sys2Proof.Machine
end

section
/-! PROOF. The LZ78 round trip: LZ_DECODE turns the container that LZ_ENCODE wrote back into the data and the filename
(44_lz78.md R287). -/

namespace Sys2Proof.Machine

theorem checkEncode_ok_of_lzEncode_done {s u : State} (h : lzEncode s = .done u) : ∃ n, checkEncode s = .ok n := by
  unfold lzEncode at h
  split at h
  next => exact absurd h (stopAt_ne_done _)
  next n hcheck => exact ⟨n, hcheck⟩

/-- LZ_ENCODE without an error has written the container of its input's segmentation (R276). -/
theorem exec_lzEncode_container {s t : State} {bs f : List Byte} (hin : s.inputIs bs) (hname : s.nameIs f)
    (houtMax : s.params.outMax < 2 ^ 32) (hwf : Memory.wf s.outMem) (hexec : exec .lzEncode s = .next t)
    (herr : t.status.err = false) :
    bs ≠ [] ∧ ∃ tail : BitStr, bytesBits t.outBytes =
      lzContainer f bs.length (ceilLog2 (Seg.start.run bs).dict.count) (Seg.start.run bs).tokens ++ tail := by
  obtain ⟨u, hu⟩ := perform_done_of_err_false hexec herr
  obtain ⟨n, hcheck⟩ := checkEncode_ok_of_lzEncode_done hu
  obtain ⟨hne, rfl⟩ := checkEncode_ok_inv hin hname hcheck
  obtain ⟨-, -, hf⟩ := hname
  rw [exec_eq_finish, perform, lzEncode_writes hin hf hcheck] at hexec
  rcases Nat.lt_or_ge s.params.outMax (ceilDiv8
      (lzContainer f bs.length (ceilLog2 (Seg.start.run bs).dict.count) (Seg.start.run bs).tokens).length) with
    hfull | hfit
  · rw [finish_writeContainer_full (s := s.setSegments _) hwf hfull] at hexec
    cases hexec
    cases herr
  · obtain ⟨t', hnext, -, hbits, -⟩ := finish_writeContainer_fits (s := s.setSegments _) hwf houtMax hfit
    rw [hnext] at hexec
    cases hexec
    exact ⟨hne, _, hbits⟩

/-- Settles O48: the encoder's container is one of O47's, the zero padding being the bits that follow its tokens. -/
theorem lzRoundTrip : Obligations.LzRoundTrip := by
  intro s t s' bs f hin hname houtMax hwf hf0 hsize0 hexec herr hin' hinMax' houtMax' hfmax' hwf'
  obtain ⟨hne, tail, hbits⟩ := exec_lzEncode_container hin hname houtMax hwf hexec herr
  obtain ⟨t', off, hexec', -, -, hdecoded⟩ := lzDecode_container hin' hinMax' hne houtMax' (hin.1 ▸ s.inLen.isLt) hfmax'
    hwf' hf0 hsize0 rfl hbits
  obtain ⟨-, hfword, -⟩ := hname
  have hholds := (Memory.holds_slice hdecoded.nameOnly.1).2
  rw [hdecoded.name] at hholds
  refine ⟨t', hexec', ?_, hdecoded.out, ?_, hfword, hholds⟩ <;> rw [hdecoded.frame]

end Sys2Proof.Machine
end

section
/-! PROOF. A WAIT gives the engine its turn until the command has completed, and ends after it (30_encoding.md R115,
60_exceptions.md R318, log 2). -/

namespace Sys2Proof.Machine

/-- No command's row of R112 holds the events to come. -/
theorem writesOnly_events {i : Instr} {s t : State} (h : writesOnly i s t) : t.events = s.events := by
  cases i <;> exact (congrArg State.events h).trans rfl

/-- A step of the engine is a completion, which leaves the events to come. -/
theorem engineStep_completes {s t : State} (h : engineStep s = .next t) :
    t.status.busy = false ∧ t.status.done = true ∧ t.events = s.events := by
  rcases engineStep_next h with ⟨i, -, hexec⟩ | rfl
  · obtain ⟨hbusy, hdone, -⟩ := completionWritesStatus i s t hexec
    exact ⟨hbusy, hdone, writesOnly_events (commandsWriteOnlyTheirRow i s t hexec)⟩
  · exact ⟨rfl, rfl, rfl⟩

/-- A WAIT while no command runs is over (R115). -/
theorem step_idle_wait {s : State} {es : List Event} (hb : s.status.busy = false) (he : s.events = .wait :: es) :
    step s = .next { s with events := es } := by
  simp only [step, turn, he, hb, Bool.false_eq_true, if_false]

/-- Settles O6: the first step is the engine's, whose completion leaves the WAIT next with BUSY 0. -/
theorem waitEndsWithTheCommand : Obligations.WaitEndsWithTheCommand := by
  intro s t es he hb hstep
  rw [step_busy_waiting hb (.inr ⟨es, he⟩)] at hstep
  obtain ⟨hbusy, hdone, hevents⟩ := engineStep_completes hstep
  rw [he] at hevents
  exact ⟨hbusy, hdone, hevents, step_idle_wait hbusy hevents⟩

end Sys2Proof.Machine
end

section
/-! PROOF. Which errors a command can complete with, and which of them change nothing but STATUS (60_exceptions.md R313,
R314, R322). -/

namespace Sys2Proof.Machine

/-- Settles O11: what a command leaves has a code of its row, and the completion stores that code. -/
theorem commandsRaiseOnlyTheirErrors : Obligations.CommandsRaiseOnlyTheirErrors := by
  intro i s t h
  obtain ⟨e, u, hcode, rfl⟩ := exec_completes (perform_codes i s) h
  exact hcode

/-- The completion is one that changes nothing but STATUS: an argument check's error, or any error of a primitive
(R313 item 1, R314). -/
abbrev statusOnly (i : Instr) (e : Option ErrCode) : Prop :=
  completionCode e ∈ ([2, 6, 8, 9] : List (BitVec 4)) ∨ (completionCode e ≠ 0 ∧ i ∈ primitives)

/-- The WRITE stage of an encoder ends with success or CapacityExceeded, which is no argument check's. -/
theorem writeContainer_statusOnly {i : Instr} (hi : i ∉ primitives) (s t : State) (bits : BitStr) :
    (writeContainer t bits).Leaves fun e u => statusOnly i e → u = s := by
  have hnot {e : Option ErrCode} (he : completionCode e ∉ ([2, 6, 8, 9] : List (BitVec 4))) : ¬ statusOnly i e :=
    fun h => h.elim he fun h => hi h.2
  exact writeContainer_leaves (fun h => absurd h (hnot (by decide))) fun _ _ h => absurd h (hnot (by decide))

/-- A command that ends so leaves the state as it was: an argument check comes before anything is written, and a primitive
writes only when it succeeds. -/
theorem perform_statusOnly (i : Instr) (s : State) : (perform i s).Leaves fun e u => statusOnly i e → u = s := by
  cases i with
  | nop => exact fun _ => rfl
  | bpReset => exact fun h => absurd h (by decide)
  | bpPut => exact bpPut_leaves (fun _ => rfl) (fun _ => rfl) fun _ _ _ h => absurd h (by decide)
  | bpFlush => exact bpFlush_leaves (fun _ => rfl) fun _ _ _ _ h => absurd h (by decide)
  | brGetbit => exact brGetbit_leaves (fun _ => rfl) (fun _ => rfl) fun _ _ h => absurd h (by decide)
  | brGetbits => exact brGetbits_leaves (fun _ => rfl) (fun _ => rfl) fun _ _ h => absurd h (by decide)
  | hufStats => exact hufStats_leaves (fun _ _ _ => rfl) fun _ _ h => absurd h (by decide)
  | hufBuild => exact hufBuild_leaves (fun _ => rfl) fun _ _ h => absurd h (by decide)
  | hufCodes => exact hufCodes_leaves (fun _ => rfl) fun _ _ _ h => absurd h (by decide)
  | hufEncode =>
    exact hufEncode_leaves (fun _ _ _ => rfl) fun t bits _ => writeContainer_statusOnly (by decide) s t bits
  | hufDecode =>
    refine hufDecode_leaves (fun _ => rfl) (fun e he h => ?_) (fun h => absurd h (by decide))
      (fun _ _ _ _ h => absurd h (by decide)) fun _ _ _ _ _ _ _ _ _ _ _ h => absurd h (by decide)
    exact absurd h (by revert e; decide)
  | lzSegment => exact lzSegment_leaves (fun _ _ _ => rfl) fun _ _ _ h => absurd h (by decide)
  | lzEncode =>
    exact lzEncode_leaves (fun _ _ _ => rfl) fun t _ bits _ => writeContainer_statusOnly (by decide) s t bits
  | lzDecode =>
    refine lzDecode_leaves (fun _ => rfl) (fun e he h => ?_) (fun h => absurd h (by decide))
      fun _ _ _ _ _ _ _ _ _ h => absurd h (by decide)
    exact absurd h (by revert e; decide)

theorem statusOnly.code_ne_zero {i : Instr} {e : Option ErrCode} (h : statusOnly i e) : completionCode e ≠ 0 := by
  rcases h with hmem | ⟨hne, -⟩
  · rintro h0
    rw [h0] at hmem
    exact absurd hmem (by decide)
  · exact hne

/-- Settles O13: the state before the completion is the one the command began with. -/
theorem argumentErrorsChangeOnlyStatus : Obligations.ArgumentErrorsChangeOnlyStatus := by
  intro i s t h hcode
  obtain ⟨e, u, hu, rfl⟩ := exec_completes (perform_statusOnly i s) h
  have hstatus : statusOnly i e := hcode.imp_right fun ⟨herr, hi⟩ => ⟨bne_iff_ne.1 herr, hi⟩
  have herr : (completionCode e != 0) = true := bne_iff_ne.2 hstatus.code_ne_zero
  obtain rfl := hu hstatus
  rw [State.complete, Status.complete, herr]

end Sys2Proof.Machine
end

section
/-! PROOF. What a stage error of a decoder leaves, by the stage that failed (60_exceptions.md R313, 40_command.md R164,
43_huffman_container.md R250 to R256, 44_lz78.md R281 to R285). -/

namespace Sys2Proof.Machine

/-! ## The parsers read backwards: what parses is legal -/

section
variable {s : State} {cs f : List Byte}

/-- Of two lists held from the same element on, the shorter begins the longer. -/
theorem Memory.prefix_of_holds {α : Type} {m : Memory α} {a : Nat} {vs ws : List α} (hv : Memory.holds m a vs)
    (hw : Memory.holds m a ws) (hlen : vs.length ≤ ws.length) : vs <+: ws :=
  List.prefix_iff_getElem?.2 fun i hi => by
    rw [← hw i (by omega), hv i hi, List.getElem?_eq_getElem hi]

/-- A field that parses stands there with its terminator (30_encoding.md R121). -/
theorem parseField_ok {pre more : List Byte} {limit pos : Nat} {e : ErrCode} (hin : s.inputIs (pre ++ more))
    (hpos : pos = pre.length) (h : parseField s limit e pos = .ok f) :
    ∃ rest, more = f ++ 0 :: rest ∧ 0 ∉ f ∧ f.length ≤ limit := by
  subst hpos
  obtain ⟨h0, hlen, hlimit, hf⟩ := scanField_ok h (Nat.zero_le _)
  have hmore : Memory.holds s.inMem pre.length more := inputIs_holds (post := []) (by rwa [List.append_nil])
  have hcount := hin.1
  rw [List.length_append] at hcount
  obtain ⟨rest, rfl⟩ := Memory.prefix_of_holds hf hmore (by rw [List.length_append, List.length_singleton]; omega)
  exact ⟨rest, by rw [List.append_assoc, List.singleton_append], h0, by omega⟩

/-- A size that parses is that of a field within its bounds (R251). -/
theorem parseSize_ok {pos p size : Nat} (h : parseSize s pos = .ok (p, size)) :
    ∃ z, parseField s 4 .corruptHeader pos = .ok z ∧ p = pos + z.length + 1 ∧ beVal z ≠ 0 ∧ beVal z ≤ s.params.outMax := by
  unfold parseSize at h
  split at h
  · cases h
  rename_i z hz
  split at h
  · cases h
  rename_i h0
  split at h
  · cases h
  rename_i hmax
  cases h
  exact ⟨z, hz, rfl, h0, Nat.not_lt.1 hmax⟩

/-- A width that parses is that of a field within its bound (44_lz78.md R282). -/
theorem parseWidth_ok {pos off w : Nat} (h : parseWidth s pos = .ok (off, w)) :
    ∃ wd, parseField s 1 .corruptHeader pos = .ok wd ∧ beVal wd ≤ 32 := by
  unfold parseWidth at h
  split at h
  · cases h
  rename_i wd hwd
  split at h
  · cases h
  rename_i hmax
  exact ⟨wd, hwd, Nat.not_lt.1 hmax⟩

/-- Both decoders' parse of the header: the filename `f`, the size, and the offset after them (R250, R251). -/
abbrev State.parsesHeader (s : State) (f : List Byte) (pos size : Nat) : Prop :=
  parseFilename s = .ok f ∧ parseSize s (f.length + 1) = .ok (pos, size)

theorem State.parsesHeader.offset_unique {g : List Byte} {pos size pos' size' : Nat} (h : s.parsesHeader f pos size)
    (h' : s.parsesHeader g pos' size') : pos = pos' := by
  obtain ⟨hname, hsize⟩ := h
  obtain ⟨hname', hsize'⟩ := h'
  rw [hname] at hname'
  cases hname'
  rw [hsize] at hsize'
  cases hsize'
  rfl

theorem not_parsesHeader_of_filename {x : Stop} (h : parseFilename s = .error x) (pos size : Nat) :
    ¬ s.parsesHeader f pos size := by
  rintro ⟨hname, -⟩
  rw [hname] at h
  cases h

theorem not_parsesHeader_of_size {x : Stop} (hf : parseFilename s = .ok f)
    (h : parseSize s (f.length + 1) = .error x) (g : List Byte) (pos size : Nat) : ¬ s.parsesHeader g pos size := by
  rintro ⟨hname, hsize⟩
  rw [hf] at hname
  cases hname
  rw [hsize] at h
  cases h

/-- A header that parses is legal, and what follows it stands at the offset after it. -/
theorem State.parsesHeader.legal {pos size : Nat} (h : s.parsesHeader f pos size) (hin : s.inputIs cs) :
    ∃ pre z rest, cs = pre ++ rest ∧ pos = pre.length ∧ legalHeader s.params cs f z rest := by
  obtain ⟨hname, hsize⟩ := h
  obtain ⟨more, rfl, hf0, hf⟩ := parseField_ok (pre := []) hin rfl hname
  obtain ⟨z, hz, rfl, hne, hmax⟩ := parseSize_ok hsize
  obtain ⟨rest, rfl, hz0, hz4⟩ := parseField_ok (pre := f ++ [0]) (more := more) (by rwa [List.append_assoc])
    (by rw [List.length_append, List.length_singleton]) hz
  exact ⟨f ++ 0 :: (z ++ [0]), z, rest, by simp, by simp; omega, rfl, hf0, hf, hz0, hz4, hne, hmax⟩

/-- A width that parses is legal. -/
theorem parseWidth_legal {pre rest : List Byte} {off w : Nat} (hin : s.inputIs (pre ++ rest))
    (h : parseWidth s pre.length = .ok (off, w)) : ∃ wd payload, legalWidth rest wd payload := by
  obtain ⟨wd, hwd, hmax⟩ := parseWidth_ok h
  obtain ⟨payload, rfl, h0, h1⟩ := parseField_ok hin rfl hwd
  exact ⟨wd, payload, rfl, h0, h1, hmax⟩

end

/-! ## HUF_DECODE -/

/-- The completion has the code of a decoder's stage error, CorruptHeader or CapacityExceeded (R313, R322). -/
abbrev stageError (e : Option ErrCode) : Prop := completionCode e = 4 ∨ completionCode e = 7

/-- What HUF_DECODE leaves before its completion with a stage error, and how far its parsers came (R249, R313). -/
inductive HufStageError (s : State) : State → Prop
  /-- no filename and size parse -/
  | header (h : ∀ f pos size, ¬ s.parsesHeader f pos size) : HufStageError s s.unspecifyDecode
  /-- the table does not parse -/
  | table {f : List Byte} {pos size : Nat} {x : Stop} (hh : s.parsesHeader f pos size)
    (h : parseTable s 256 0 pos = .error x) : HufStageError s s.unspecifyDecode.dropCodes
  /-- the table parses, so it is the symbols that do not decode -/
  | symbols {f : List Byte} {pos size off : Nat} {codes : Memory BitStr} (hh : s.parsesHeader f pos size)
    (h : parseTable s 256 0 pos = .ok (codes, off)) : HufStageError s (s.unspecifyDecode.setCodes codes)

/-- The check of IN_LEN raises no stage error. -/
theorem checkInMax_not_stageError {s : State} {x : Stop} (h : checkInMax s = .error x) {p : State → Prop} :
    (stopAt s x).Leaves fun e u => stageError e → p u :=
  stopAt_leaves (checkInMax_error h) fun e he hstage => absurd hstage (by revert e; decide)

/-- HUF_DECODE with a stage error has stopped in one of its stages. The branches are those of `hufDecode_leaves`; each is
given here with what the parsers before it answered. -/
theorem hufDecode_stageError (s : State) : (hufDecode s).Leaves fun e u => stageError e → HufStageError s u := by
  unfold hufDecode
  split
  · rename_i hx; exact checkInMax_not_stageError hx
  split
  · rename_i hx
    exact stopAt_leaves (parseFilename_error hx) fun _ _ _ => .header fun _ => not_parsesHeader_of_filename hx
  rename_i f hf
  split
  · rename_i hx
    exact stopAt_leaves (parseSize_error hx) fun _ _ _ => .header (not_parsesHeader_of_size hf hx)
  rename_i pos size hsize
  have hheader : s.parsesHeader f pos size := ⟨hf, hsize⟩
  split
  · rename_i hx; exact stopAt_leaves (parseTable_error hx) fun _ _ _ => .table hheader hx
  rename_i codes off htable
  split
  · rename_i hx; exact stopAt_leaves (decodeSymbols_error hx) fun _ _ _ => .symbols hheader htable
  exact fun h => absurd h (by decide)

namespace HufStageError

variable {s u : State} {cs f z rest : List Byte}

theorem outputs (h : HufStageError s u) : u.decodeOutputsUnspecified := by
  cases h <;> exact ⟨rfl, rfl, rfl, rfl, rfl, rfl, rfl, rfl, rfl, rfl⟩

theorem codes (h : HufStageError s u) :
    codesKept s u ∨ u.codesLost ∨ (u.status.codesValid = true ∧ Memory.exactly u.codeMem 0 256) := by
  cases h with
  | header h => exact .inl ⟨rfl, rfl⟩
  | table hh h => exact .inr (.inl ⟨rfl, rfl⟩)
  | symbols hh h => exact .inr (.inr ⟨rfl, parseTable_exactly h⟩)

/-- Without a legal header no later stage has begun. -/
theorem kept_of_not_legal (h : HufStageError s u) (hin : s.inputIs cs)
    (hno : ∀ f z rest, ¬ legalHeader s.params cs f z rest) : codesKept s u := by
  have hparse {f : List Byte} {pos size : Nat} (hh : s.parsesHeader f pos size) : False :=
    have ⟨_, z, rest, _, _, hlegal⟩ := hh.legal hin
    hno f z rest hlegal
  cases h with
  | header h => exact ⟨rfl, rfl⟩
  | table hh h => exact (hparse hh).elim
  | symbols hh h => exact (hparse hh).elim

/-- With a legal header the table stage has answered, at the offset after the header. -/
theorem of_legalHeader (h : HufStageError s u) (hin : s.inputIs cs) (hlegal : legalHeader s.params cs f z rest) :
    ∃ pre, cs = pre ++ rest ∧
      ((∃ x, parseTable s 256 0 pre.length = .error x ∧ u = s.unspecifyDecode.dropCodes) ∨
        ∃ codes off, parseTable s 256 0 pre.length = .ok (codes, off) ∧ u = s.unspecifyDecode.setCodes codes) := by
  obtain ⟨pre, hcs, hname, hsize⟩ := legalHeader_split hin hlegal
  have hheader : s.parsesHeader f pre.length (beVal z) := ⟨hname, hsize⟩
  refine ⟨pre, hcs, ?_⟩
  cases h with
  | header h => exact absurd hheader (h _ _ _)
  | table hh h =>
    cases hh.offset_unique hheader
    exact .inl ⟨_, h, rfl⟩
  | symbols hh h =>
    cases hh.offset_unique hheader
    exact .inr ⟨_, _, h, rfl⟩

theorem lost_of_shortTable (h : HufStageError s u) (hin : s.inputIs cs) (hlegal : legalHeader s.params cs f z rest)
    (hshort : shortTable rest) : u.codesLost := by
  obtain ⟨pre, rfl, ⟨x, -, rfl⟩ | ⟨codes, off, htable, -⟩⟩ := h.of_legalHeader hin hlegal
  · exact ⟨rfl, rfl⟩
  · rw [shortTable_errs hin hshort] at htable
    cases htable

theorem set_of_fullTable {es : List RawEntry} {payload : List Byte} (h : HufStageError s u) (hin : s.inputIs cs)
    (hlegal : legalHeader s.params cs f z rest) (hfull : fullTable es rest payload) :
    u.status.codesValid = true ∧ Memory.exactly u.codeMem 0 256 ∧ Memory.holds u.codeMem 0 (entryTable es) := by
  obtain ⟨pre, rfl, ⟨x, htable, -⟩ | ⟨codes, off, htable, rfl⟩⟩ := h.of_legalHeader hin hlegal
  · rw [fullTable_parses hin hfull] at htable
    cases htable
  · have hexactly := parseTable_exactly htable
    rw [fullTable_parses hin hfull] at htable
    cases htable
    exact ⟨rfl, hexactly, tableFrom_holds _⟩

end HufStageError

/-! ## LZ_DECODE -/

/-- What LZ_DECODE leaves before its completion with a stage error, and how far its parsers came (44_lz78.md R281, R313). -/
inductive LzStageError (s : State) : State → Prop
  /-- no filename, size and width parse -/
  | header (h : ∀ f pos size off w, s.parsesHeader f pos size → parseWidth s pos ≠ .ok (off, w)) :
      LzStageError s s.unspecifyDecode
  /-- the width parses, so it is the replay that fails -/
  | replay {f : List Byte} {pos size off w : Nat} (hh : s.parsesHeader f pos size)
    (h : parseWidth s pos = .ok (off, w)) : LzStageError s s.unspecifyReplay

/-- LZ_DECODE with a stage error has stopped in one of its stages. -/
theorem lzDecode_stageError (s : State) : (lzDecode s).Leaves fun e u => stageError e → LzStageError s u := by
  unfold lzDecode
  split
  · rename_i hx; exact checkInMax_not_stageError hx
  split
  · rename_i hx
    exact stopAt_leaves (parseFilename_error hx) fun _ _ _ => .header fun f pos size _ _ hh =>
      absurd hh (not_parsesHeader_of_filename hx pos size)
  rename_i f hf
  split
  · rename_i hx
    exact stopAt_leaves (parseSize_error hx) fun _ _ _ => .header fun g pos size _ _ hh =>
      absurd hh (not_parsesHeader_of_size hf hx g pos size)
  rename_i pos size hsize
  have hheader : s.parsesHeader f pos size := ⟨hf, hsize⟩
  split
  · rename_i hx
    refine stopAt_leaves (parseWidth_error hx) fun _ _ _ => .header fun g pos' size' off w hh hw => ?_
    cases hheader.offset_unique hh
    rw [hw] at hx
    cases hx
  rename_i off w hw
  split
  · rename_i hx; exact stopAt_leaves (replay_error hx) fun _ _ _ => .replay hheader hw
  exact fun h => absurd h (by decide)

namespace LzStageError

variable {s u : State} {cs f z rest wd payload : List Byte}

theorem outputs (h : LzStageError s u) : u.decodeOutputsUnspecified := by
  cases h <;> exact ⟨rfl, rfl, rfl, rfl, rfl, rfl, rfl, rfl, rfl, rfl⟩

theorem dict (h : LzStageError s u) : dictKept s u ∨ dictLost s u := by
  cases h with
  | header h => exact .inl ⟨rfl, rfl, rfl, rfl⟩
  | replay hh h => exact .inr ⟨rfl, rfl, rfl, rfl⟩

/-- Without a legal header and width the replay has not begun. -/
theorem kept_of_not_legal (h : LzStageError s u) (hin : s.inputIs cs)
    (hno : ∀ f z rest wd payload, ¬ (legalHeader s.params cs f z rest ∧ legalWidth rest wd payload)) :
    dictKept s u := by
  cases h with
  | header h => exact ⟨rfl, rfl, rfl, rfl⟩
  | replay hh h =>
    obtain ⟨pre, z, rest, rfl, rfl, hlegal⟩ := hh.legal hin
    obtain ⟨wd, payload, hwidth⟩ := parseWidth_legal hin h
    exact absurd ⟨hlegal, hwidth⟩ (hno _ _ _ _ _)

/-- With them it has. -/
theorem lost_of_legal (h : LzStageError s u) (hin : s.inputIs cs) (hlegal : legalHeader s.params cs f z rest)
    (hwidth : legalWidth rest wd payload) : dictLost s u := by
  cases h with
  | header h =>
    obtain ⟨pre, rfl, hname, hsize⟩ := legalHeader_split hin hlegal
    exact absurd (legalWidth_parses hin hwidth) (h _ _ _ _ _ ⟨hname, hsize⟩)
  | replay hh h => exact ⟨rfl, rfl, rfl, rfl⟩

end LzStageError

/-- Settles O15: the stage that failed is the first part of the input that is not legal, and its error leaves the state of
its `HufStageError` or `LzStageError`; the completion then changes only STATUS, and no validity flag of it. -/
theorem decoderStageErrorState : Obligations.DecoderStageErrorState := by
  constructor
  · intro s t hexec hcode
    obtain ⟨e, u, hu, rfl⟩ := exec_completes (i := .hufDecode) (hufDecode_stageError s) hexec
    have hstage := hu hcode
    exact ⟨hstage.outputs, hstage.codes, fun cs hin => ⟨hstage.kept_of_not_legal hin, fun f z rest hlegal =>
      ⟨hstage.lost_of_shortTable hin hlegal, fun es payload => hstage.set_of_fullTable hin hlegal⟩⟩⟩
  · intro s t hexec hcode
    obtain ⟨e, u, hu, rfl⟩ := exec_completes (i := .lzDecode) (lzDecode_stageError s) hexec
    have hstage := hu hcode
    exact ⟨hstage.outputs, hstage.dict, fun cs hin => ⟨hstage.kept_of_not_legal hin, fun f z rest w payload =>
      hstage.lost_of_legal hin⟩⟩

end Sys2Proof.Machine
end

section
/-! PROOF. Host accesses while a command runs, and the reset event in any state (70_reset_and_hazards.md R340, R342,
R350). -/

namespace Sys2Proof.Machine

/-- The register at an index is the one with that index (10_state.md R31). -/
theorem index_of_regAt {i : Nat} {r : Reg} (h : regAt i = some r) : i = r.index := by
  unfold regAt at h
  split at h <;> cases h <;> rfl

theorem step_hostBusy {s : State} {es : List Event} {a : Access} (hb : s.status.busy = true)
    (he : s.events = .host a :: es) : step s = accessBusy { s with events := es } a := by
  rw [step_host he, hostAccess, if_pos hb]

/-- No index but 0x01 names STATUS, so every other register read while BUSY = 1 faults (R350, log 17). -/
theorem accessBusy_readReg_other (s : State) {i : Nat} (hi : i ≠ 0x01) :
    accessBusy s (.readReg i) = .fault .hostReadWhileBusy :=
  if_neg fun h => hi (index_of_regAt h)

/-- Settles O7: the step is `accessBusy`, which tells STATUS by its index, and bit 0 of STATUS is BUSY. -/
theorem hostAccessWhileBusy : Obligations.HostAccessWhileBusy := by
  intro s es hb
  refine ⟨fun he => ⟨step_hostBusy hb he, s.status.word_fields.1.trans hb⟩,
    fun i hi he => (step_hostBusy hb he).trans (accessBusy_readReg_other _ hi), ?_, ?_, ?_, ?_, ?_⟩
  · exact fun sp i he => step_hostBusy hb he
  · exact fun sp i he => step_hostBusy hb he
  · exact fun i v he => step_hostBusy hb he
  · exact fun sp i b he => step_hostBusy hb he
  · exact fun sp i w he => step_hostBusy hb he

/-- A reset event is the platform's reset, taken off the events (R342, log 2). -/
theorem step_reset {s : State} {es : List Event} (he : s.events = .reset :: es) :
    step s = .next { s with events := es }.platformReset := by
  rw [step, turn, he]

/-- Settles O9: the event is the platform's reset, which reads of the state only the parameters, the events still to come
and what the host has observed. -/
theorem resetEventAbandonsEverything : Obligations.ResetEventAbandonsEverything := by
  intro s es he
  rw [step_reset he, State.platformReset_eq]

end Sys2Proof.Machine
end
